-- ==== Sys2Proof/Word.lean ====
section
/-! DEFINITION. The octet of the Shelf Signalling Bus, the index types of the part, and the one
builder of a fixed bank of like things. -/

namespace Sys2Proof

/-- An octet as frames and reports carry it (R135, R139). -/
abbrev Octet := BitVec 8

/-- A set of phases as octet 2 of a CLAIM lays it out: bit p is 1 when phase p is in the set (R139). -/
abbrev PhaseSet := BitVec 8

/-- A logical line of the card, 0..15. -/
abbrev Line := Fin 16

/-- A line circuit of the card, 0..17. -/
abbrev CircuitNo := Fin 18

/-- A phase of the cadence cycle, 0..7. -/
abbrev Phase := Fin 8

/-- A station number, 0..15: 0 is call control. -/
abbrev StationNo := Fin 16

/-- The bank whose entry `i` is `f i`; it computes by list operations alone. -/
def tabulate {α : Type} {n : Nat} (f : Fin n → α) : Vector α n :=
  ⟨⟨(List.finRange n).map f⟩, by simp⟩

@[simp] theorem getElem_tabulate {α : Type} {n : Nat} (f : Fin n → α) (i : Nat) (h : i < n) :
    (tabulate f)[i] = f ⟨i, h⟩ := by
  simp [tabulate]

end Sys2Proof
end

