-- ==== Sys2Proof/Config.lean ====
section
/-! DEFINITION. The strap values (R174), the straps this model's reset is given, and the free value
that stands for a station number no strap copy can supply. -/

namespace Sys2Proof

/-- The timing profile chosen by the PRF strap (R19). -/
inductive Profile where
  | a
  | b
deriving DecidableEq, Repr, Inhabited

/-- The restart mode chosen by the RSM strap (R174, R176). -/
inductive RestartMode where
  | auto
  | held
deriving DecidableEq, Repr, Inhabited

/-- The four strap values of one strap copy (spec/09 section 9.1). The budget code is held as read. -/
structure Straps where
  station : StationNo
  budgetCode : Fin 16
  profile : Profile
  mode : RestartMode
deriving DecidableEq, Repr, Inhabited

/-- The strap values read while no strap copy can supply them (both unreadable, or readable and
differing): the spec states none. FREE VALUE, log 7. The argument is the draw counter of State. -/
opaque Config.unreadableStraps : Nat → Straps

/-- DESIGN CHOICE, log 1: the pins of the part `State.reset` describes. The spec leaves the straps to
the shelf; station 6 with budget code 3 is the one its worked examples use most. -/
def Config.resetStraps : Straps := ⟨6, 3, .a, .auto⟩

end Sys2Proof
end

