-- ==== Sys2Proof/Syntax.lean ====
section
/-! DEFINITION. The commands of the block: one constructor for each row of spec/opcode_table.json,
with the operands the row's rule needs. -/

namespace Sys2Proof

/-- What every COMMAND frame carries besides its code and parameters (R139): the station field of the
header, the line address and the mask. -/
structure CommandHeader where
  station : StationNo
  address : Octet
  mask : Octet
deriving DecidableEq, Repr

/-- The line-record circuit words that a start finds in error as it reads them (R171): bit l of
`single` for a single-bit error of line l, bit l of `double` for a double-bit error. -/
structure CircuitWordErrors where
  single : BitVec 16
  double : BitVec 16
deriving DecidableEq, Repr

/-- A set of the six words of a line record (spec/09 section 9.1). -/
structure LineWords where
  status : Bool
  circuit : Bool
  timing : Bool
  count : Bool
  ringParameters : Bool
  ringCounts : Bool
deriving DecidableEq, Repr

/-- A set of the three words of the station record (spec/09 section 9.1). -/
structure StationWords where
  strap1 : Bool
  strap2 : Bool
  state : Bool
deriving DecidableEq, Repr

/-- The kinds of frame (R138). -/
inductive FrameKind where
  | withdraw
  | release
  | claim
  | command
  | report
  | summary
deriving DecidableEq, Repr

/-- The inputs as they stood when a tick began (R4): bit c of `loop` is 1 for "loop closed", of `trip`
for "ring current tripped", of `fault` for an asserted fault input; `mark` is whether another station
holds the mark line dominant (R73), `reduced` and `warning` whether the reduced-ring-power input
(R100) and the supply warning (R175) are asserted. -/
structure Samples where
  loop : BitVec 18
  trip : BitVec 18
  fault : BitVec 18
  mark : Bool
  reduced : Bool
  warning : Bool
deriving DecidableEq, Repr

/-- The steps of the part, one for each row of the table. -/
inductive Instr where
  | powerOnReset (pins : Straps)
  | supplyRestart (errors : CircuitWordErrors)
  | supplyWarning
  | warningNegated
  | ring (h : CommandHeader) (p1 p2 : Octet)
  | stopRing (h : CommandHeader)
  | connect (h : CommandHeader)
  | releaseLine (h : CommandHeader)
  | tone (h : CommandHeader) (selection : Octet)
  | blockPolite (h : CommandHeader)
  | blockForced (h : CommandHeader) (form : Octet)
  | unblock (h : CommandHeader)
  | remap (h : CommandHeader) (target : Octet)
  | watch (h : CommandHeader) (setting : Octet)
  | queryLine (h : CommandHeader)
  | queryStation (h : CommandHeader)
  | queryTable (h : CommandHeader)
  | start (h : CommandHeader)
  | stationReset (h : CommandHeader) (errors : CircuitWordErrors)
  | unknownCommand (h : CommandHeader) (code : Octet)
  | peerClaim (station : StationNo) (line : Line) (weight : Fin 16) (set : PhaseSet)
  | peerRelease (station : StationNo) (line : Line) (weight : Fin 16) (set : PhaseSet)
  | peerSummary (station : StationNo) (cells : Vector Octet 8)
  | peerWithdraw (station : StationNo)
  | peerReport (station : StationNo) (code number : Octet) (values : List Octet)
  | ownNumberFrame (kind : FrameKind)
  | frameDiscard (octets : List Octet) (framing : Bool)
  | busIdle
  | contestLost
  | readBackMismatch
  | ownClaimCompletes
  | ownReleaseCompletes
  | ownReportCompletes
  | ownSummaryCompletes
  | ownWithdrawCompletes
  | onHookEdge (c : CircuitNo)
  | offHookEdge (c : CircuitNo)
  | settle (c : CircuitNo)
  | faultAssertedEdge (c : CircuitNo)
  | faultNormalEdge (c : CircuitNo)
  | clearReached (l : Line)
  | seizeConfirmed (l : Line)
  | tripConfirmed (l : Line)
  | digitEnd (l : Line)
  | interdigitTimeout (l : Line)
  | dialToneTimeout (l : Line)
  | recallTimeout (l : Line)
  | phaseBoundary
  | cycleStart
  | mark
  | onPortionBoundary
  | reducedRingPowerChange
  | lineRecordCorrection (l : Line) (words : LineWords)
  | lineRecordDoubleBitError (l : Line) (unreadable corrected : LineWords)
  | stationRecordCorrection (words : StationWords)
  | stationRecordDoubleBitError (unreadable corrected : StationWords) (errors : CircuitWordErrors)
  | tick (inputs : Samples)
  | startBit
deriving DecidableEq, Repr

end Sys2Proof
end

