-- ==== Sys2Proof/WellFormed.lean ====
section
/-! DEFINITION. Which terms of `Instr` describe a step of their row: the operand checks that the
operand types do not make already. The machine itself is total on every term. -/

namespace Sys2Proof

/-- The known command codes are 1..14 (R153). -/
def knownCode (code : Octet) : Bool := 1 ≤ code.toNat && code.toNat ≤ 14

/-- At least one word of the set. -/
def LineWords.any (w : LineWords) : Bool :=
  w.status || w.circuit || w.timing || w.count || w.ringParameters || w.ringCounts

/-- At least one word of the set. -/
def StationWords.any (w : StationWords) : Bool := w.strap1 || w.strap2 || w.state

/-- The operand checks of each row: a forced BLOCK has a parameter that is not 0 (R64), an unknown
command an unknown code (R153), a peer frame a peer's number 1..15 (R89), a peer REPORT at most 16 value
octets (R138), a record-store row at least one word in error (R167, R169, R172, R173), and no word is
both corrected and unreadable. -/
def Instr.wellFormed : Instr → Bool
  | .blockForced _ form => form ≠ 0
  | .unknownCommand _ code => !knownCode code
  | .peerClaim st _ _ _ | .peerRelease st _ _ _ | .peerSummary st _ | .peerWithdraw st => st ≠ 0
  | .peerReport st _ _ values => st ≠ 0 && values.length ≤ 16
  | .lineRecordCorrection _ w => w.any
  | .lineRecordDoubleBitError _ u c =>
    u.any && !((u.status && c.status) || (u.circuit && c.circuit) || (u.timing && c.timing)
      || (u.count && c.count) || (u.ringParameters && c.ringParameters) || (u.ringCounts && c.ringCounts))
  | .stationRecordCorrection w => w.any
  | .stationRecordDoubleBitError u c _ =>
    u.any && !((u.strap1 && c.strap1) || (u.strap2 && c.strap2) || (u.state && c.state))
  | .supplyRestart e | .stationReset _ e => e.single &&& e.double = 0
  | .powerOnReset .. | .supplyWarning | .warningNegated | .ring .. | .stopRing .. | .connect ..
  | .releaseLine .. | .tone .. | .blockPolite .. | .unblock .. | .remap .. | .watch .. | .queryLine ..
  | .queryStation .. | .queryTable .. | .start .. | .ownNumberFrame .. | .frameDiscard .. | .busIdle
  | .contestLost | .readBackMismatch | .ownClaimCompletes | .ownReleaseCompletes | .ownReportCompletes
  | .ownSummaryCompletes | .ownWithdrawCompletes | .onHookEdge .. | .offHookEdge .. | .settle ..
  | .faultAssertedEdge .. | .faultNormalEdge .. | .clearReached .. | .seizeConfirmed ..
  | .tripConfirmed .. | .digitEnd .. | .interdigitTimeout .. | .dialToneTimeout .. | .recallTimeout ..
  | .phaseBoundary | .cycleStart | .mark | .onPortionBoundary | .reducedRingPowerChange | .tick ..
  | .startBit => true

end Sys2Proof
end

