-- ==== Sys2Proof/Decode.lean ====
section
/-! DEFINITION. The command a word spells by the bits of spec/opcode_table.json, and the row that the octets of a frame
give, by the layouts of R139 and the command codes of R153. -/

namespace Sys2Proof

/-- No row of the table gives any bits ("fields": [] on all 58 rows), so no word spells a command. -/
def decodeTableWord (_nbits _w : Nat) : Option Instr := none

/-- The kind number in bits 7..5 of a header octet (R139). -/
def headerKind (header : Octet) : Nat := header.toNat / 32

/-- The station number in bits 3..0 of a header octet (R139). -/
def headerStation (header : Octet) : StationNo := ⟨header.toNat % 16, by omega⟩

/-- The logical line in bits 7..4 of octet 1 of a CLAIM or RELEASE (R139). -/
def claimedLine (o : Octet) : Line := ⟨o.toNat / 16, by have := o.isLt; omega⟩

/-- The weight in bits 3..0 of octet 1 of a CLAIM or RELEASE (R139). -/
def claimedWeight (o : Octet) : Fin 16 := ⟨o.toNat % 16, by omega⟩

/-- The command of a COMMAND frame by its code, with the parameter octets that the code has (R153). A BLOCK with
parameter 0 is the polite one. A STATION RESET so read finds no circuit word in error (log 8). -/
def commandOf (h : CommandHeader) (code : Octet) (parameters : List Octet) : Option Instr :=
  match code.toNat, parameters with
  | 1, [p1, p2] => some (.ring h p1 p2)
  | 2, [] => some (.stopRing h)
  | 3, [] => some (.connect h)
  | 4, [] => some (.releaseLine h)
  | 5, [selection] => some (.tone h selection)
  | 6, [form] => some (if form = 0 then .blockPolite h else .blockForced h form)
  | 7, [] => some (.unblock h)
  | 8, [target] => some (.remap h target)
  | 9, [setting] => some (.watch h setting)
  | 10, [] => some (.queryLine h)
  | 11, [] => some (.queryStation h)
  | 12, [] => some (.queryTable h)
  | 13, [] => some (.start h)
  | 14, [] => some (.stationReset h ⟨0, 0⟩)
  | _, [] => if knownCode code then none else some (.unknownCommand h code)
  | _, _ => none

/-- The row that a whole frame gives, check octet included, read in the layouts of R139. -/
def readFrame : List Octet → Option Instr
  | [] => none
  | header :: rest =>
    match headerKind header, rest with
    | 0, [_] => some (.peerWithdraw (headerStation header))
    | 1, [o, set, _] => some (.peerRelease (headerStation header) (claimedLine o) (claimedWeight o) set)
    | 2, [o, set, _] => some (.peerClaim (headerStation header) (claimedLine o) (claimedWeight o) set)
    | 3, code :: address :: mask :: parameters =>
      commandOf ⟨headerStation header, address, mask⟩ code parameters.dropLast
    | 4, code :: number :: _ :: values =>
      some (.peerReport (headerStation header) code number values.dropLast)
    | 5, [c0, c1, c2, c3, c4, c5, c6, c7, _] =>
      some (.peerSummary (headerStation header) ⟨#[c0, c1, c2, c3, c4, c5, c6, c7], rfl⟩)
    | _, _ => none

end Sys2Proof
end

