-- ==== Sys2Proof/Machine/State.lean ====
section
/-! DEFINITION. The state of the FL216 as plain data, the reasons a step can stop, and the state right
after a power-on reset. -/

namespace Sys2Proof.Machine

/-- The hook state a circuit's filter can hold (R6). -/
inductive Hook where
  | onHook
  | offHook
deriving DecidableEq, Repr

/-- The state of a hook filter: settled on a hook state, or UNSETTLED with a candidate (R6, R7). -/
inductive HookState where
  | settled (h : Hook)
  | unsettled (candidate : Hook)
deriving DecidableEq, Repr

/-- A hook filter. `run` is 0..2 between ticks; 3 means that the third agreeing sample has been taken at
this tick and the edge or settle is due (log 2). -/
structure HookFilter where
  state : HookState
  run : Nat
deriving DecidableEq, Repr

/-- A two-valued filter: fault (R6), reduced ring power (R100), supply warning (R175). `asserted` is
ASSERTED or REDUCED; `run` is 0..2 between ticks, 3 while the change is due (log 2). -/
structure InputFilter where
  asserted : Bool
  run : Nat
deriving DecidableEq, Repr

/-- One line circuit (spec/01 section 1.1). `ringRelay` and `cutOff` are true when OPERATED, the tone
switches true when CLOSED. -/
structure Circuit where
  ringRelay : Bool
  dialSwitch : Bool
  specialSwitch : Bool
  cutOff : Bool
  hook : HookFilter
  fault : InputFilter
  blanking : Nat
  faultMark : Bool
deriving DecidableEq, Repr

/-- The fourteen line states, in the order of their numbers in LINE STATE (R161). -/
inductive LineState where
  | idle | seizing | dialTone | dialing | connected | recallTone | recallDialing | parked
  | ringQueued | ringClaiming | ringArmed | ringing | blocked | fault
deriving DecidableEq, Repr

/-- The tone selection (R40). -/
inductive Tone where
  | none | dial | special
deriving DecidableEq, Repr

/-- What the edge count measures (spec/02 section 2.1). -/
inductive Sense where
  | none | brk | mk
deriving DecidableEq, Repr

/-- The timing context of a line: the timing and count words (spec/02 section 2.1). -/
structure Timing where
  sense : Sense
  edgeCount : Nat
  heldMake : Nat
  pulseCount : Nat
  stateTimer : Option Nat
deriving DecidableEq, Repr

/-- The ring context of R54: the ring parameter and ring count words. -/
structure RingContext where
  code : Fin 4
  priority : Bool
  weight : Nat
  offset : Phase
  limit : Nat
  cycles : Nat
  waits : Nat
deriving DecidableEq, Repr

/-- A line record (spec/09 section 9.1) with its correction mark (R167). -/
structure LineRecord where
  state : LineState
  tone : Tone
  watch : Bool
  blockPending : Bool
  resyncDue : Bool
  circuit : Option CircuitNo
  timing : Timing
  ring : Option RingContext
  correctionMark : Bool
deriving DecidableEq, Repr

/-- The five station states (R174 to R178). -/
inductive StationState where
  | starting | active | down | held | silent
deriving DecidableEq, Repr

/-- The station record (spec/09 section 9.1); a strap copy that is `none` is unreadable (R173). -/
structure StationRecord where
  strap1 : Option Straps
  strap2 : Option Straps
  state : StationState
  conflicts : Nat
deriving DecidableEq, Repr

/-- What Station Control holds besides the station record (spec/10 section 10.1). -/
structure StationControl where
  warning : InputFilter
  restartCount : Nat
  alarm : Bool
deriving DecidableEq, Repr

/-- The Cadence Timer (spec/04 section 4.1). `tick` is 0..149 between ticks; 150 means that the end of
the phase is due. `lastMark` is the last sample of the mark line, `markSeen` a mark seen at this tick
and not yet taken (log 2, log 9). -/
structure CadenceTimer where
  phase : Phase
  tick : Nat
  sinceStart : Nat
  listen : Bool
  markDrive : Bool
  lastMark : Bool
  markSeen : Bool
deriving DecidableEq, Repr

/-- A peer row of the Shelf Load Table (R86). -/
structure PeerRow where
  cells : Vector Nat 8
  present : Bool
  age : Nat
deriving DecidableEq, Repr

/-- The Shelf Load Table. Entry i of `peers` is the row of station i + 1; the entry of the own number is
never used, since the own row is `ownRow` (R86). -/
structure LoadTable where
  ownRow : Vector Nat 8
  peers : Vector PeerRow 15
  baseBudget : Nat
  reduced : InputFilter
deriving DecidableEq, Repr

/-- The status of the claim in flight (R116). -/
inductive ClaimStatus where
  | pending | sending | orphaned
deriving DecidableEq, Repr

/-- The claim in flight (spec/06 section 6.1). -/
structure Claim where
  line : Line
  weight : Nat
  set : PhaseSet
  status : ClaimStatus
deriving DecidableEq, Repr

/-- An entry of the release list (R126). -/
structure Release where
  line : Line
  weight : Nat
  set : PhaseSet
deriving DecidableEq, Repr

/-- The Ring Placement Unit (spec/06 section 6.1). -/
structure RingUnit where
  queue : List Line
  claim : Option Claim
  releases : List Release
deriving DecidableEq, Repr

/-- Where the frame in transmission stands (spec/07 section 7.1). -/
inductive TxPhase where
  | contest | body | ack
deriving DecidableEq, Repr

/-- The frame in transmission; its kind names its source (R147). `octet` and `bit` are the octet and
the bit of its ten bit times now being sent. -/
structure TxFrame where
  kind : FrameKind
  octets : List Octet
  octet : Nat
  bit : Nat
  phase : TxPhase
deriving DecidableEq, Repr

/-- The state of the receive assembly (R136, R143). -/
inductive RxState where
  | waiting | idle | assembling
deriving DecidableEq, Repr

/-- The receive assembly (R136, R143). `bits` are the bits read of the octet in hand, start bit first, and `octets`
the octets that are whole. `decided` is Command Dispatch's decision on a COMMAND, held from the end of its check octet
to its completion: whether the command is taken, and so the slot driven (R142, R155). `mismatchCounted` records that a
read-back mismatch has been counted in the frame now on the wire (R148, log 18). -/
structure RxAssembly where
  state : RxState
  recessive : Nat
  bits : List Bool
  octets : List Octet
  expected : Option Nat
  decided : Option Bool
  mismatchCounted : Bool
deriving DecidableEq, Repr

/-- The Shelf Bus Interface; `ackSlot` is whether this station drove the acknowledge slot of the last
frame that ended (R142, log 18). -/
structure BusInterface where
  tx : Option TxFrame
  rx : RxAssembly
  summaryDue : Bool
  withdrawDue : Bool
  ackSlot : Bool
deriving DecidableEq, Repr

/-- What the data wire brings this station in one bit time besides its own drive: no other station drives it, another
drives it dominant, or the connection is open and the wire reads recessive whatever the station drives (R134,
R152). -/
inductive WireInput where
  | released | dominant | broken
deriving DecidableEq, Repr

/-- The report codes in the order of their numbers 1..18 (R160). -/
inductive ReportCode where
  | answer | clear | flash | fault | seize | digit | digitError | noAnswer | dialTimeout | refused
  | blocked | lineState | ringDelayed | corrected | trace | peerLost | stationState | tableView
deriving DecidableEq, Repr

/-- An entry of the report queue (R162). Its class is fixed by its code (R160). `replaced` records that
its content was replaced while its frame was on the wire (R163, log 18). -/
structure ReportEntry where
  code : ReportCode
  number : Octet
  values : List Octet
  sending : Bool
  replaced : Bool
deriving DecidableEq, Repr

/-- The whole part, the queue of commands that wait for it, and the data wire as the bit times to come will bring it
(`wire`, the model's own field, log 4). `freeDraws` is the model's own counter of free values drawn (log 7). -/
structure State where
  circuits : Vector Circuit 18
  lines : Vector LineRecord 16
  station : StationRecord
  control : StationControl
  cadence : CadenceTimer
  table : LoadTable
  ringUnit : RingUnit
  bus : BusInterface
  reports : List ReportEntry
  freeDraws : Nat
  wire : List WireInput
  pending : List Instr
deriving DecidableEq, Repr

/-- The spec describes no stop of the part: every command of the table leads to a next state, so no
meaning raises a fault. Safe: nothing is stopped. -/
inductive Fault where
deriving DecidableEq, Repr

/-- The reasons for which the model has no meaning for a command. -/
inductive Refusal where
  /-- An arm of `exec` that has no meaning yet raises it. Safe: the machine stops. -/
  | notModelled (mnemonic : String)
deriving DecidableEq, Repr

/-- A fresh timing context (R20). -/
def Timing.fresh : Timing := ⟨.none, 0, 0, 0, none⟩

/-- A fresh line record on a circuit field (R44, R171). -/
def LineRecord.fresh (circuit : Option CircuitNo) : LineRecord :=
  ⟨.idle, .none, false, false, false, circuit, Timing.fresh, none, false⟩

/-- A two-valued filter after a start: NORMAL with run count 0. -/
def InputFilter.normal : InputFilter := ⟨false, 0⟩

/-- A hook filter after a start: UNSETTLED with run count 0 (R17). The candidate is DESIGN CHOICE ON-HOOK,
log 9. -/
def HookFilter.fresh : HookFilter := ⟨.unsettled .onHook, 0⟩

/-- An ABSENT peer row (R107). -/
def PeerRow.absent : PeerRow := ⟨Vector.replicate 8 0, false, 0⟩

/-- The Cadence Timer after each of the three starts (R75); the last mark sample is DESIGN CHOICE
recessive, log 9. -/
def CadenceTimer.started : CadenceTimer := ⟨0, 0, 100, true, false, false, false⟩

/-- The receive assembly after a frame or a start: WAITING FOR IDLE with its count at 0 (R136, R151). -/
def RxAssembly.waitingForIdle : RxAssembly := ⟨.waiting, 0, [], [], none, none, false⟩

/-- The receive assembly on an idle bus: twelve recessive bit times have been counted (R136). -/
def RxAssembly.onIdleBus : RxAssembly := ⟨.idle, 12, [], [], none, none, false⟩

/-- The receive assembly as a start bit begins on an idle bus (R143). -/
def RxAssembly.begun : RxAssembly := ⟨.assembling, 0, [], [], none, none, false⟩

/-- The circuit `c` right after a power-on reset: circuits 0..15 are mapped and released, 16 and 17 are
spares, cut off under the second row of R2 (R12, R17). -/
def Circuit.poweredOn (c : CircuitNo) : Circuit :=
  ⟨false, false, false, decide (16 ≤ c.val), HookFilter.fresh, InputFilter.normal, 0, false⟩

/-- The machine right after a power-on reset with the strap pins of log 1: every field as R17, R44, R75,
R107, R132, R151, R162 and R174 state it, and no command waiting. -/
def State.reset : State where
  circuits := tabulate Circuit.poweredOn
  lines := tabulate fun l => LineRecord.fresh (some ⟨l.val, by omega⟩)
  station := ⟨some Config.resetStraps, some Config.resetStraps, .starting, 0⟩
  control := ⟨InputFilter.normal, 0, false⟩
  cadence := CadenceTimer.started
  table := ⟨Vector.replicate 8 0, Vector.replicate 15 PeerRow.absent, 40, InputFilter.normal⟩
  ringUnit := ⟨[], none, []⟩
  bus := ⟨none, RxAssembly.waitingForIdle, false, false, false⟩
  reports := []
  freeDraws := 0
  wire := []
  pending := []

end Sys2Proof.Machine
end

