-- ==== Sys2Proof/Machine/Operands.lean ====
section
/-! DEFINITION. The fixed tables of the manual and every operand form: profile thresholds, the Cadence
Table and rotated sets, line addressing under mask, parameter octets, and the numbers that reports
carry. -/

namespace Sys2Proof.Machine

/-- Seize-confirm threshold (R28). -/
def seizeConfirmTicks : Profile → Nat
  | .a => 20
  | .b => 30

/-- Trip-confirm threshold (R31). -/
def tripConfirmTicks : Profile → Nat
  | .a => 4
  | .b => 6

/-- Longest PULSE (R25). -/
def pulseMax : Profile → Nat
  | .a => 20
  | .b => 24

/-- Longest LONG PULSE (R25). -/
def longPulseMax : Profile → Nat
  | .a => 23
  | .b => 29

/-- Clear threshold, the cap of a break count (R23). -/
def clearTicks : Profile → Nat
  | .a => 121
  | .b => 161

/-- Interdigit make (R30). -/
def interdigitMakeTicks : Profile → Nat
  | .a => 40
  | .b => 50

/-- Interdigit timeout, the cap of a make count (R32). -/
def interdigitTimeoutTicks : Profile → Nat
  | .a => 4000
  | .b => 5000

/-- Dial-tone timeout (R34). -/
def dialToneTimeoutTicks : Profile → Nat
  | .a => 3000
  | .b => 4000

/-- Recall timeout (R34). -/
def recallTimeoutTicks : Profile → Nat
  | .a => 3000
  | .b => 4000

/-- The results of R25. The clear row has no result here: CLEAR-REACHED is handed before the edge. -/
inductive BreakClass where
  | hit | pulse | longPulse | flash
deriving DecidableEq, Repr

/-- Classification of a break length (R25). -/
def classifyBreak (p : Profile) (n : Nat) : BreakClass :=
  if n ≤ 7 then .hit else if n ≤ pulseMax p then .pulse
  else if n ≤ longPulseMax p then .longPulse else .flash

/-- A phase code of the Cadence Table (R78). -/
inductive PhaseCode where
  | full | split | silent
deriving DecidableEq, Repr

/-- The four entries of the Cadence Table (R78). -/
def cadenceEntry : Fin 4 → List PhaseCode
  | 0 => [.full, .full, .silent, .silent, .silent, .silent, .silent, .silent]
  | 1 => [.full, .silent, .silent, .silent, .silent, .silent, .silent, .silent]
  | 2 => [.split, .split, .silent, .silent, .silent, .silent, .silent, .silent]
  | 3 => [.full, .full, .silent, .silent, .full, .full, .silent, .silent]

/-- The phase code of phase `p` of an entry (R78). -/
def phaseCode (code : Fin 4) (p : Phase) : PhaseCode := (cadenceEntry code).getD p.val .silent

/-- The ring set of an entry: {0,1}, {0}, {0,1}, {0,1,4,5} (R78). -/
def ringSet : Fin 4 → PhaseSet
  | 0 => 0x03
  | 1 => 0x01
  | 2 => 0x03
  | 3 => 0x33

/-- The rotated set: every phase p of the ring set advanced to (p + o) mod 8 (R79). -/
def rotatedSet (code : Fin 4) (offset : Phase) : PhaseSet := (ringSet code).rotateLeft offset.val

/-- Membership of a phase in a set. -/
def inSet (set : PhaseSet) (p : Phase) : Bool := set.getLsbD p.val

/-- The phases of a set in increasing order. -/
def setPhases (set : PhaseSet) : List Phase := (List.finRange 8).filter (inSet set)

/-- The code phase of phase q for a line at offset o: (q − o) mod 8 (R79). -/
def codePhase (q offset : Phase) : Phase := q - offset

/-- Whether a tick lies in an on-portion of a phase code (R78). -/
def onPortion : PhaseCode → Nat → Bool
  | .full, t => t < 150
  | .split, t => t < 45 || (75 ≤ t && t < 120)
  | .silent, _ => false

/-- The high half of an octet, 0..15. -/
def highHalf (o : Octet) : Nat := o.toNat / 16

/-- The low half of an octet, 0..15. -/
def lowHalf (o : Octet) : Nat := o.toNat % 16

/-- The shelf line number, 16 × station + logical line (R154). -/
def shelfNumber (station : StationNo) (l : Line) : Octet := BitVec.ofNat 8 (16 * station.val + l.val)

/-- The number a station report carries, 16 × station (R97, R104). -/
def stationNumber (station : StationNo) : Octet := BitVec.ofNat 8 (16 * station.val)

/-- The logical line a line report's number names. -/
def lineOfNumber (number : Octet) : Line := ⟨number.toNat % 16, by omega⟩

/-- The lines of a station that an address names under a mask, in increasing order (R154, R156). -/
def addressedLines (station : StationNo) (address mask : Octet) : List Line :=
  (List.finRange 16).filter fun l => (shelfNumber station l ^^^ address) &&& mask = 0

/-- Whether a station command addresses the station: the high half of the address is its number, and
station 0 is addressed by none (R154). -/
def addressesStation (station : StationNo) (address : Octet) : Bool :=
  station ≠ 0 && highHalf address = station.val

/-- The cadence code of a RING after the adjustments of R55. -/
def adjustedCode (code : Nat) (priority : Bool) : Fin 4 :=
  if code = 3 then (if priority then 3 else 0) else if h : code < 4 then ⟨code, h⟩ else 0

/-- The ring context a taken RING creates from its two parameter octets (R153, R55). -/
def ringContextOf (p1 p2 : Octet) : RingContext where
  code := adjustedCode (highHalf p1) (lowHalf p1 ≠ 0)
  priority := lowHalf p1 ≠ 0
  weight := if highHalf p2 = 0 then 1 else highHalf p2
  offset := 0
  limit := lowHalf p2
  cycles := 0
  waits := 0

/-- The tone selection of a TONE parameter; any other value is NONE (R62, R153). -/
def toneOf (v : Octet) : Tone := if v = 1 then .dial else if v = 2 then .special else .none

/-- The target circuit of a REMAP, if it is in the range 0..17 (R15). -/
def remapTarget (v : Octet) : Option CircuitNo :=
  if h : v.toNat < 18 then some ⟨v.toNat, h⟩ else none

/-- Octet of a number that fits one. -/
def octet (n : Nat) : Octet := BitVec.ofNat 8 n

/-- Octet of a flag. -/
def flagOctet (b : Bool) : Octet := if b then 1 else 0

/-- The line state numbers of LINE STATE (R161). -/
def stateOctet : LineState → Octet
  | .idle => 0
  | .seizing => 1
  | .dialTone => 2
  | .dialing => 3
  | .connected => 4
  | .recallTone => 5
  | .recallDialing => 6
  | .parked => 7
  | .ringQueued => 8
  | .ringClaiming => 9
  | .ringArmed => 10
  | .ringing => 11
  | .blocked => 12
  | .fault => 13

/-- The tone octet of LINE STATE (R161). -/
def toneOctet : Tone → Octet
  | .none => 0
  | .dial => 1
  | .special => 2

/-- The circuit octet of LINE STATE, 255 for none (R161). -/
def circuitOctet : Option CircuitNo → Octet
  | none => 255
  | some c => octet c.val

/-- Report codes 1..18 (R160). -/
def reportOctet : ReportCode → Octet
  | .answer => 1
  | .clear => 2
  | .flash => 3
  | .fault => 4
  | .seize => 5
  | .digit => 6
  | .digitError => 7
  | .noAnswer => 8
  | .dialTimeout => 9
  | .refused => 10
  | .blocked => 11
  | .lineState => 12
  | .ringDelayed => 13
  | .corrected => 14
  | .trace => 15
  | .peerLost => 16
  | .stationState => 17
  | .tableView => 18

/-- The class of a report, fixed by its code (R160). -/
def reportClass : ReportCode → Nat
  | .answer | .clear | .flash | .fault => 1
  | .seize | .digit | .digitError | .noAnswer | .dialTimeout | .refused | .blocked | .lineState => 2
  | .ringDelayed | .corrected | .trace | .peerLost | .stationState | .tableView => 3

/-- The class of a queued entry (R162). -/
def ReportEntry.cls (e : ReportEntry) : Nat := reportClass e.code

/-- The base budget of a budget code, codes 14 and 15 taken as 13 (R99). -/
def baseBudgetOf (code : Fin 16) : Nat := 16 + 8 * min code.val 13

end Sys2Proof.Machine
end

