-- ==== Sys2Proof/Machine/Frames.lean ====
section
/-! DEFINITION. The frames of the Shelf Signalling Bus: the check octet (R140), the header (R138), the
layouts of the frames (R139), the levels of an octet on the wire (R135), and how the receive assembly finds a frame's length and
discards a frame (R143, R144). -/

namespace Sys2Proof.Machine

/-- One step of the division by x⁸ + x² + x + 1 (R140). -/
def checkBit (r : Octet) : Octet := if r.msb then (r <<< 1) ^^^ 0x07 else r <<< 1

/-- The running remainder after one more octet (R140). -/
def checkStep (r o : Octet) : Octet :=
  checkBit (checkBit (checkBit (checkBit (checkBit (checkBit (checkBit (checkBit (r ^^^ o))))))))

/-- The check octet over the octets before it (R140). -/
def checkOctet (octets : List Octet) : Octet := octets.foldl checkStep 0

/-- The kind number of a frame (R138). -/
def kindNumber : FrameKind → Nat
  | .withdraw => 0
  | .release => 1
  | .claim => 2
  | .command => 3
  | .report => 4
  | .summary => 5

/-- The header octet: 32 × kind + 16 × urgency + station (spec/07 section 7.3). -/
def headerOctet (kind : FrameKind) (urgency : Bool) (station : StationNo) : Octet :=
  octet (32 * kindNumber kind + (if urgency then 16 else 0) + station.val)

/-- Octets followed by their check octet (R140). -/
def withCheck (octets : List Octet) : List Octet := octets ++ [checkOctet octets]

/-- The line and weight octet of a CLAIM or RELEASE (R139). -/
def lineWeightOctet (l : Line) (weight : Nat) : Octet := octet (16 * l.val + weight)

/-- A WITHDRAW frame (R139). -/
def withdrawFrame (station : StationNo) : List Octet :=
  withCheck [headerOctet .withdraw false station]

/-- A RELEASE frame (R139). -/
def releaseFrame (station : StationNo) (l : Line) (weight : Nat) (set : PhaseSet) : List Octet :=
  withCheck [headerOctet .release false station, lineWeightOctet l weight, set]

/-- A CLAIM frame (R139). -/
def claimFrame (station : StationNo) (l : Line) (weight : Nat) (set : PhaseSet) : List Octet :=
  withCheck [headerOctet .claim false station, lineWeightOctet l weight, set]

/-- A REPORT frame; urgency 0 for class 1 and 1 for class 2 and class 3 (R138, R139). -/
def reportFrame (station : StationNo) (e : ReportEntry) : List Octet :=
  withCheck (headerOctet .report (e.cls ≠ 1) station :: reportOctet e.code :: e.number
    :: octet e.values.length :: e.values)

/-- A SUMMARY frame (R139). -/
def summaryFrame (station : StationNo) (cells : Vector Nat 8) : List Octet :=
  withCheck (headerOctet .summary true station :: cells.toList.map octet)

/-- The level of one of the ten bit times of an octet, true for recessive: a dominant start bit, the data bits with the
most significant first, a recessive stop bit (R135). -/
def octetLevel (o : Octet) (bit : Nat) : Bool := if bit = 0 then false else if bit ≤ 8 then o.getLsbD (8 - bit) else true

/-- The octet that eight data bits make, the most significant first; a recessive bit is 1 (R134, R135). -/
def octetOfBits (bits : List Bool) : Octet := octet (bits.foldl (fun n b => 2 * n + b.toNat) 0)

/-- A COMMAND frame as call control composes it, with the urgency bit it chooses (R138, R139). -/
def commandFrame (urgency : Bool) (h : CommandHeader) (code : Octet) (parameters : List Octet) : List Octet :=
  withCheck (headerOctet .command urgency h.station :: code :: h.address :: h.mask :: parameters)

/-- The number of parameter octets of a command code; 0 for an unknown code (R153). -/
def parameterCount (code : Octet) : Nat :=
  if code = 1 then 2 else if code = 5 ∨ code = 6 ∨ code = 8 ∨ code = 9 then 1 else 0

/-- The length of a frame as the assembly learns it from the octets so far (R138, R143). -/
def expectedLength : List Octet → Option Nat
  | [] => none
  | header :: rest =>
    match headerKind header with
    | 0 => some 2
    | 1 => some 4
    | 2 => some 4
    | 3 =>
      match rest with
      | code :: _ => some (5 + parameterCount code)
      | [] => none
    | 4 =>
      match rest with
      | _ :: _ :: n :: _ => some (5 + n.toNat)
      | _ => none
    | 5 => some 10
    | _ => none

/-- The header carries kind 6 or 7 (R144). -/
def unknownKind : List Octet → Bool
  | [] => false
  | header :: _ => 6 ≤ headerKind header

/-- A REPORT carries a value length above 16 (R144). -/
def wrongLength : List Octet → Bool
  | header :: _ :: _ :: n :: _ => headerKind header = 4 && 16 < n.toNat
  | _ => false

/-- The frame is whole and its check octet fails the comparison (R140, R144). -/
def checkMismatch (octets : List Octet) : Bool :=
  match expectedLength octets with
  | some n => n ≤ octets.length && checkOctet (octets.take n) ≠ 0
  | none => false

/-- Whether the assembly discards the frame whose octets it has read (R144). -/
def discarded (octets : List Octet) (framing : Bool) : Bool :=
  framing || unknownKind octets || wrongLength octets || checkMismatch octets

end Sys2Proof.Machine
end

