-- ==== Sys2Proof/Machine/Ops.lean ====
section
/-! DEFINITION. Named operations over the state: the straps, the line records, the circuits, the groups of
line and station states, and the composition of the circuit outputs. -/

namespace Sys2Proof.Machine

/-- The four ring states (R54). -/
def LineState.isRing : LineState → Bool
  | .ringQueued | .ringClaiming | .ringArmed | .ringing => true
  | _ => false

/-- The ring states whose weight stands in the own row (R87). -/
def LineState.carriesLoad : LineState → Bool
  | .ringClaiming | .ringArmed | .ringing => true
  | _ => false

/-- The six call states (spec/02 section 2.1). -/
def LineState.isCall : LineState → Bool
  | .dialTone | .dialing | .connected | .recallTone | .recallDialing | .parked => true
  | _ => false

/-- The four dialling states (spec/02 section 2.1). -/
def LineState.isDialling : LineState → Bool
  | .dialTone | .dialing | .recallTone | .recallDialing => true
  | _ => false

/-- BLOCKED and FAULT (R35). -/
def LineState.outOfService : LineState → Bool
  | .blocked | .fault => true
  | _ => false

/-- STARTING and ACTIVE, the station states in which the blocks work (R4, R20, R39, R70). -/
def StationState.running : StationState → Bool
  | .starting | .active => true
  | _ => false

/-- Whether the two strap copies supply the straps: not both unreadable, and not differing (R173). -/
def State.strapsKnown (s : State) : Bool :=
  match s.station.strap1, s.station.strap2 with
  | some a, some b => a = b
  | none, none => false
  | _, _ => true

/-- The straps as the blocks read them. Each copy can supply the other (spec/09 section 9.4); where
neither can, they are the free value of log 7. -/
def State.straps (s : State) : Straps :=
  match s.station.strap1, s.station.strap2 with
  | some a, some b => if a = b then a else Config.unreadableStraps s.freeDraws
  | some a, none => a
  | none, some b => b
  | none, none => Config.unreadableStraps s.freeDraws

/-- The own station number (R86). -/
def State.own (s : State) : StationNo := s.straps.station

/-- The profile in force (R19). -/
def State.profile (s : State) : Profile := s.straps.profile

/-- The station state. -/
def State.stationState (s : State) : StationState := s.station.state

/-- Whether the blocks of the station work: STARTING or ACTIVE. -/
def State.running (s : State) : Bool := s.station.state.running

/-- The record of a line. -/
def State.line (s : State) (l : Line) : LineRecord := s.lines[l]

/-- A circuit. -/
def State.circuit (s : State) (c : CircuitNo) : Circuit := s.circuits[c]

/-- Write a line record (R166). -/
def State.setLine (s : State) (l : Line) (r : LineRecord) : State :=
  { s with lines := s.lines.set l r }

/-- Write a circuit. -/
def State.setCircuit (s : State) (c : CircuitNo) (x : Circuit) : State :=
  { s with circuits := s.circuits.set c x }

/-- Write the timing context of a line. -/
def State.setTiming (s : State) (l : Line) (t : Timing) : State :=
  s.setLine l { s.line l with timing := t }

/-- Write the report queue. -/
def State.setReports (s : State) (q : List ReportEntry) : State := { s with reports := q }

/-- Write the Ring Placement Unit. -/
def State.setRingUnit (s : State) (u : RingUnit) : State := { s with ringUnit := u }

/-- Write the own row. -/
def State.setOwnRow (s : State) (row : Vector Nat 8) : State :=
  { s with table := { s.table with ownRow := row } }

/-- Write the Shelf Bus Interface. -/
def State.setBus (s : State) (b : BusInterface) : State := { s with bus := b }

/-- Write the station state. -/
def State.setStationState (s : State) (t : StationState) : State :=
  { s with station := { s.station with state := t } }

/-- The line that the Circuit Map gives for a circuit, if any (R8, R11). -/
def State.owner (s : State) (c : CircuitNo) : Option Line :=
  (List.finRange 16).find? fun l => (s.line l).circuit = some c

/-- The hook state a circuit presents; none stands for UNSETTLED (R8). -/
def Circuit.presented (x : Circuit) : Option Hook :=
  match x.hook.state with
  | .settled h => some h
  | .unsettled _ => none

/-- The hook state presented to a line; a line with no circuit is presented none (R8). -/
def State.presentedTo (s : State) (l : Line) : Option Hook :=
  match (s.line l).circuit with
  | some c => (s.circuit c).presented
  | none => none

/-- The ring drive's request for a line: true for OPERATED (R80). A tick in phase of 150, whose boundary
is due but not taken, still drives as the last tick of the phase does (log 2). -/
def State.ringDrive (s : State) (l : Line) : Bool :=
  match (s.line l).ring with
  | some ctx =>
    (s.line l).state = .ringing && s.station.state = .active
      && inSet (rotatedSet ctx.code ctx.offset) s.cadence.phase
      && onPortion (phaseCode ctx.code (codePhase s.cadence.phase ctx.offset)) (min s.cadence.tick 149)
  | none => false

/-- A circuit with the four outputs of R2 and, if its ring relay changed, its blanking count at 2 (R3). -/
def Circuit.withOutputs (x : Circuit) (relay dial special cutOff : Bool) : Circuit :=
  { x with
    ringRelay := relay
    dialSwitch := dial
    specialSwitch := special
    cutOff := cutOff
    blanking := if relay = x.ringRelay then x.blanking else 2 }

/-- The outputs of a circuit composed by the table of R2. -/
def State.composed (s : State) (c : CircuitNo) : Circuit :=
  let x := s.circuit c
  if s.station.state = .down || s.station.state = .held || s.station.state = .silent then
    x.withOutputs false false false false
  else
    match s.owner c with
    | none => x.withOutputs false false false true
    | some l =>
      if (s.line l).state.outOfService then x.withOutputs false false false true
      else
        let relay := s.ringDrive l
        x.withOutputs relay ((s.line l).tone = .dial && !relay) ((s.line l).tone = .special && !relay) false

/-- Compose the outputs of one circuit anew (R1: at the moment its composition changes). -/
def State.recompose (s : State) (c : CircuitNo) : State := s.setCircuit c (s.composed c)

/-- Compose the outputs of a line's circuit anew. -/
def State.recomposeLine (s : State) (l : Line) : State :=
  match (s.line l).circuit with
  | some c => s.recompose c
  | none => s

/-- Compose the outputs of all 18 circuits anew. -/
def State.recomposeAll (s : State) : State := { s with circuits := tabulate s.composed }

end Sys2Proof.Machine
end

