-- ==== Sys2Proof/Machine/Flags.lean ====
section
/-! DEFINITION. The conditions under which a threshold event of a line, a filter or a timer is due. -/

namespace Sys2Proof.Machine

/-- CLEAR-REACHED is due: a break at the clear threshold in a call state (R23). -/
def State.clearDue (s : State) (l : Line) : Bool :=
  (s.line l).state.isCall && (s.line l).timing.sense = .brk
    && clearTicks s.profile ≤ (s.line l).timing.edgeCount

/-- A make count at the seize-confirm threshold (R28). -/
def State.seizeHeld (s : State) (l : Line) : Bool :=
  (s.line l).timing.sense = .mk && seizeConfirmTicks s.profile ≤ (s.line l).timing.edgeCount

/-- TRIP-CONFIRMED is due: a make at the trip-confirm threshold in RINGING (R31). -/
def State.tripDue (s : State) (l : Line) : Bool :=
  (s.line l).state = .ringing && (s.line l).timing.sense = .mk
    && tripConfirmTicks s.profile ≤ (s.line l).timing.edgeCount

/-- DIALING or RECALL DIALING with a make running (R30, R32). -/
def State.digitTimed (s : State) (l : Line) : Bool :=
  ((s.line l).state = .dialing || (s.line l).state = .recallDialing) && (s.line l).timing.sense = .mk

/-- DIGIT-END is due (R30). -/
def State.digitEndDue (s : State) (l : Line) : Bool :=
  s.digitTimed l && 0 < (s.line l).timing.pulseCount
    && interdigitMakeTicks s.profile ≤ (s.line l).timing.edgeCount

/-- TIMEOUT with kind INTERDIGIT is due (R32). -/
def State.interdigitDue (s : State) (l : Line) : Bool :=
  s.digitTimed l && (s.line l).timing.pulseCount = 0
    && interdigitTimeoutTicks s.profile ≤ (s.line l).timing.edgeCount

/-- The state timer has reached a limit (R34). -/
def State.timerReached (s : State) (l : Line) (limit : Nat) : Bool :=
  match (s.line l).timing.stateTimer with
  | some n => limit ≤ n
  | none => false

/-- TIMEOUT with kind DIAL is due (R34). -/
def State.dialToneDue (s : State) (l : Line) : Bool :=
  (s.line l).state = .dialTone && s.timerReached l (dialToneTimeoutTicks s.profile)

/-- TIMEOUT with kind RECALL is due (R34). -/
def State.recallDue (s : State) (l : Line) : Bool :=
  (s.line l).state = .recallTone && s.timerReached l (recallTimeoutTicks s.profile)

/-- The hook filter of a circuit has taken the third sample that disagrees with `h` (R6). -/
def Circuit.edgeDue (x : Circuit) (h : Hook) : Bool := x.hook.state = .settled h && x.hook.run = 3

/-- The third disagreeing sample of a two-valued filter in state `asserted` has been taken (R6, R100). -/
def InputFilter.changeDue (f : InputFilter) (asserted : Bool) : Bool := f.asserted = asserted && f.run = 3

/-- The filter after an accepted change (R6). -/
def InputFilter.accepted (f : InputFilter) : InputFilter := ⟨!f.asserted, 0⟩

/-- The supply warning takes the station to DOWN from these states (R175). -/
def StationState.heedsWarning : StationState → Bool
  | .starting | .active | .held => true
  | _ => false

end Sys2Proof.Machine
end

