-- ==== Sys2Proof/Machine/Reports.lean ====
section
/-! DEFINITION. The report queue (spec/08 sections 8.3 and 8.4): entering, coalescing, displacing and
dropping reports, resync-due, and the contents of the reports. -/

namespace Sys2Proof.Machine

/-- A new report coalesces with an older entry of the same code and number: LINE STATE, TRACE, and
CORRECTED with the same value (R163). -/
def ReportEntry.coalescesWith (new old : ReportEntry) : Bool :=
  new.code = old.code && new.number = old.number
    && (new.code = .lineState || new.code = .trace || (new.code = .corrected && new.values = old.values))

/-- The older entry with the content of the new report; on the wire it is marked replaced (R163). -/
def ReportEntry.replaceWith (old new : ReportEntry) : ReportEntry :=
  { old with values := new.values, replaced := old.sending }

/-- The queue with the content of a coalescing report (R163). -/
def coalesce (e : ReportEntry) (q : List ReportEntry) : List ReportEntry :=
  q.map fun old => if e.coalescesWith old then old.replaceWith e else old

/-- Place a new entry after the last entry of its own class (R162). -/
def insertReport (e : ReportEntry) : List ReportEntry → List ReportEntry
  | [] => [e]
  | x :: q => if x.cls ≤ e.cls then x :: insertReport e q else e :: x :: q

/-- Take out the newest entry of a class whose sending mark is clear (R164). -/
def removeNewest (cls : Nat) : List ReportEntry → Option (ReportEntry × List ReportEntry)
  | [] => none
  | x :: q =>
    match removeNewest cls q with
    | some (y, rest) => some (y, x :: rest)
    | none => if x.cls = cls && !x.sending then some (x, q) else none

/-- The entry that a report displaces from a full queue, and the queue without it (R164). -/
def displacedBy (e : ReportEntry) (q : List ReportEntry) : Option (ReportEntry × List ReportEntry) :=
  if e.cls = 3 then none
  else
    match removeNewest 3 q with
    | some r => some r
    | none => if e.cls = 1 then removeNewest 2 q else none

/-- Set the resync-due flag of the line a report's number names (R164). -/
def State.markResync (s : State) (number : Octet) : State :=
  s.setLine (lineOfNumber number) { s.line (lineOfNumber number) with resyncDue := true }

/-- The capacity of the report queue (R162). -/
def reportCapacity : Nat := 32

/-- Queue a report: it coalesces, is entered, displaces an entry of a lower class, or is dropped
(R162, R163, R164). -/
def State.queueReport (s : State) (e : ReportEntry) : State :=
  if s.reports.any e.coalescesWith then s.setReports (coalesce e s.reports)
  else if s.reports.length < reportCapacity then s.setReports (insertReport e s.reports)
  else
    match displacedBy e s.reports with
    | some (d, rest) =>
      if d.cls = 2 then (s.setReports (insertReport e rest)).markResync d.number
      else s.setReports (insertReport e rest)
    | none => if e.cls = 3 then s else s.markResync e.number

/-- Whether a report is kept in some form and not dropped (R164). -/
def State.keepsReport (s : State) (e : ReportEntry) : Bool :=
  s.reports.any e.coalescesWith || s.reports.length < reportCapacity
    || (displacedBy e s.reports).isSome

/-- A new entry: its marks are clear. -/
def newReport (code : ReportCode) (number : Octet) (values : List Octet) : ReportEntry :=
  ⟨code, number, values, false, false⟩

/-- Queue a line report. -/
def queueLine (code : ReportCode) (l : Line) (values : List Octet) (s : State) : State :=
  s.queueReport (newReport code (shelfNumber s.own l) values)

/-- Queue a station report (R97, R104, R105, R172). -/
def queueStationReport (code : ReportCode) (values : List Octet) (s : State) : State :=
  s.queueReport (newReport code (stationNumber s.own) values)

/-- Octets 5..8 of LINE STATE (R161). -/
def ringOctets (c : RingContext) : List Octet :=
  [octet c.code.val, flagOctet c.priority, octet (16 * c.weight + c.offset.val), octet (16 * c.limit + c.cycles)]

/-- The value list of a LINE STATE report (R161). -/
def lineStateValues (r : LineRecord) : List Octet :=
  [stateOctet r.state, circuitOctet r.circuit, toneOctet r.tone,
    octet ((if r.watch then 1 else 0) + (if r.blockPending then 2 else 0) + (if r.resyncDue then 4 else 0))]
    ++ (match r.ring with
        | some c => if r.state.isRing then ringOctets c else []
        | none => [])

/-- The LINE STATE report of a line as it stands (R161). -/
def State.lineStateReport (s : State) (l : Line) : ReportEntry :=
  newReport .lineState (shelfNumber s.own l) (lineStateValues (s.line l))

/-- Clear the resync-due flag of a line (R165). -/
def State.clearResync (s : State) (l : Line) : State :=
  s.setLine l { s.line l with resyncDue := false }

/-- Queue a LINE STATE report; as it is queued it clears the line's resync-due flag (R165). One that a
full queue drops leaves the flag set (R164). -/
def queueLineState (l : Line) (s : State) : State :=
  if s.keepsReport (s.lineStateReport l) then (s.queueReport (s.lineStateReport l)).clearResync l
  else s.queueReport (s.lineStateReport l)

/-- Queue a TRACE report for a watched line that has left a state (R42). -/
def traceChange (l : Line) (left : LineState) (s : State) : State :=
  if (s.line l).watch then queueLine .trace l [stateOctet left, stateOctet (s.line l).state] s else s

/-- Queue a REFUSED report with the command code and the reason (R160). -/
def refuse (l : Line) (code reason : Octet) (s : State) : State := queueLine .refused l [code, reason] s

/-- The entry with its sending mark cleared (R162, R163). -/
def ReportEntry.offWire (e : ReportEntry) : ReportEntry := { e with sending := false, replaced := false }

/-- Clear the sending mark: the frame lost the contest or was abandoned (R162). -/
def State.unsendReports (s : State) : State := s.setReports (s.reports.map ReportEntry.offWire)

/-- Set the sending mark of the head (R162). -/
def State.sendHead (s : State) : State :=
  match s.reports with
  | [] => s
  | e :: q => s.setReports ({ e with sending := true, replaced := false } :: q)

/-- The lowest-numbered line with its resync-due flag set (R165). -/
def State.resyncLine (s : State) : Option Line :=
  (List.finRange 16).find? fun l => (s.line l).resyncDue

/-- The removal of a sent entry: a LINE STATE for the lowest line with resync-due set (R165). -/
def State.settleResync (s : State) : State :=
  match s.resyncLine with
  | some l => queueLineState l s
  | none => s

/-- The completion of the own REPORT frame: its entry is removed, or kept with its newer content if that
was replaced on the wire (R162, R163, R165). -/
def State.reportSent (s : State) : State :=
  match s.reports.find? (fun e => e.sending) with
  | none => s
  | some e =>
    if e.replaced then s.unsendReports
    else (s.setReports (s.reports.eraseP fun e => e.sending)).settleResync

end Sys2Proof.Machine
end

