-- ==== Sys2Proof/Machine/RingUnit.lean ====
section
/-! DEFINITION. The bookkeeping of the Shelf Load Table and the Ring Placement Unit: own row, phase totals,
budgets, ring queue order, release list, ring-leave notices, and the placement computation. -/

namespace Sys2Proof.Machine

/-- An add request on the own row (R88). -/
def addLoad (w : Nat) (set : PhaseSet) (row : Vector Nat 8) : Vector Nat 8 :=
  tabulate fun p => if inSet set p then row[p] + w else row[p]

/-- A remove request on the own row (R88). -/
def removeLoad (w : Nat) (set : PhaseSet) (row : Vector Nat 8) : Vector Nat 8 :=
  tabulate fun p => if inSet set p then row[p] - w else row[p]

/-- Raise the own row. -/
def State.addOwnLoad (s : State) (w : Nat) (set : PhaseSet) : State :=
  s.setOwnRow (addLoad w set s.table.ownRow)

/-- Lower the own row. -/
def State.removeOwnLoad (s : State) (w : Nat) (set : PhaseSet) : State :=
  s.setOwnRow (removeLoad w set s.table.ownRow)

/-- The load of one line in a phase as R87 counts it. -/
def LineRecord.loadIn (r : LineRecord) (p : Phase) : Nat :=
  match r.ring with
  | some c => if r.state.carriesLoad && inSet (rotatedSet c.code c.offset) p then c.weight else 0
  | none => 0

/-- The own row that R87 requires, counted without one line (R124). -/
def State.loadWithout (s : State) (l : Line) (p : Phase) : Nat :=
  ((List.finRange 16).map fun m => if m = l then 0 else (s.line m).loadIn p).sum

/-- The own row that R87 requires. -/
def State.requiredLoad (s : State) (p : Phase) : Nat :=
  ((List.finRange 16).map fun m => (s.line m).loadIn p).sum

/-- The phase total: the own cell and the cells of the fourteen peer rows (R98). -/
def State.phaseTotal (s : State) (p : Phase) : Nat :=
  s.table.ownRow[p]
    + ((List.finRange 15).map fun i => if i.val + 1 = s.own.val then 0 else s.table.peers[i].cells[p]).sum

/-- The base in force (R101). -/
def State.baseInForce (s : State) : Nat :=
  if s.table.reduced.asserted then s.table.baseBudget / 2 else s.table.baseBudget

/-- The effective budget of a class: the base in force, and the reserve for priority (R99, R102). -/
def State.effectiveBudget (s : State) (priority : Bool) : Nat :=
  s.baseInForce + (if priority then s.table.baseBudget / 4 else 0)

/-- The class of a queued line's request. -/
def State.isPriority (s : State) (l : Line) : Bool :=
  match (s.line l).ring with
  | some c => c.priority
  | none => false

/-- Put a line after the last priority entry (R109). -/
def State.afterPriority (s : State) (l : Line) (q : List Line) : List Line :=
  q.takeWhile s.isPriority ++ l :: q.dropWhile s.isPriority

/-- The place of a new entry from a RING: after the last of its class (R109). -/
def State.queueNew (s : State) (l : Line) : State :=
  s.setRingUnit { s.ringUnit with
    queue := if s.isPriority l then s.afterPriority l s.ringUnit.queue else s.ringUnit.queue ++ [l] }

/-- The place of an entry from a failed validation: the head of its class's portion (R109). -/
def State.queueAtHead (s : State) (l : Line) : State :=
  s.setRingUnit { s.ringUnit with
    queue := if s.isPriority l then l :: s.ringUnit.queue else s.afterPriority l s.ringUnit.queue }

/-- Remove a line's entry from the ring queue (R110). -/
def State.unqueue (s : State) (l : Line) : State :=
  s.setRingUnit { s.ringUnit with queue := s.ringUnit.queue.filter (· ≠ l) }

/-- Set the claim in flight. -/
def State.setClaim (s : State) (c : Option Claim) : State :=
  s.setRingUnit { s.ringUnit with claim := c }

/-- Append a release-list entry (R126). -/
def State.appendRelease (s : State) (r : Release) : State :=
  s.setRingUnit { s.ringUnit with releases := s.ringUnit.releases ++ [r] }

/-- A ring-leave notice for the line of the claim in flight: a PENDING claim is cancelled, a SENDING one is
orphaned, and either way its weight leaves the own row (R121, R122). -/
def State.leaveClaim (s : State) (l : Line) : State :=
  match s.ringUnit.claim with
  | some c =>
    if c.line = l then
      match c.status with
      | .pending => (s.removeOwnLoad c.weight c.set).setClaim none
      | .sending => (s.removeOwnLoad c.weight c.set).setClaim (some { c with status := .orphaned })
      | .orphaned => s
    else s
  | none => s

/-- A ring-leave notice from RING ARMED or RINGING: the load leaves the own row and a RELEASE is owed
(R123). -/
def State.leaveLoad (s : State) (l : Line) (c : RingContext) : State :=
  (s.removeOwnLoad c.weight (rotatedSet c.code c.offset)).appendRelease
    ⟨l, c.weight, rotatedSet c.code c.offset⟩

/-- The Ring Placement Unit's action on a ring-leave notice, by the state left (R120 to R123). -/
def State.ringLeave (s : State) (l : Line) (left : LineState) (ctx : Option RingContext) : State :=
  match left, ctx with
  | .ringQueued, _ => s.unqueue l
  | .ringClaiming, _ => s.leaveClaim l
  | .ringArmed, some c => s.leaveLoad l c
  | .ringing, some c => s.leaveLoad l c
  | _, _ => s

/-- The excess of the own row over the row formed from the other lines, in a phase (R124). -/
def State.excess (s : State) (l : Line) (p : Phase) : Nat :=
  s.table.ownRow[p] - s.loadWithout l p

/-- The phases in which the own row exceeds the formed row (R124). -/
def State.excessSet (s : State) (l : Line) : PhaseSet :=
  (List.finRange 8).foldl (fun acc p => if 0 < s.excess l p then acc ||| (1#8 <<< p.val) else acc) 0

/-- The excess weight, the same in every phase of the set (R124). -/
def State.excessWeight (s : State) (l : Line) : Nat :=
  (List.finRange 8).foldl (fun m p => max m (s.excess l p)) 0

/-- Remove the load found as the excess, and owe its RELEASE (R124). -/
def State.leaveExcess (s : State) (l : Line) : State :=
  if s.excessWeight l = 0 then s
  else
    (s.removeOwnLoad (s.excessWeight l) (s.excessSet l)).appendRelease
      ⟨l, s.excessWeight l, s.excessSet l⟩

/-- The ring-leave notice without a context and without the state left (R124). -/
def State.ringLeaveBlind (s : State) (l : Line) : State := ((s.unqueue l).leaveClaim l).leaveExcess l

/-- The phase totals of an attempt record (R112). -/
def State.attemptTotals (s : State) : Vector Nat 8 := tabulate s.phaseTotal

/-- The offset fits: T[q] + w ≤ E for every phase of the rotated set (R113). -/
def fits (totals : Vector Nat 8) (w budget : Nat) (set : PhaseSet) : Bool :=
  (setPhases set).all fun q => totals[q] + w ≤ budget

/-- The cost: the largest T[q] + w over the rotated set (R113). -/
def cost (totals : Vector Nat 8) (w : Nat) (set : PhaseSet) : Nat :=
  (setPhases set).foldl (fun m q => max m (totals[q] + w)) 0

/-- The delay: the smallest (q − c − 1) mod 8 over the rotated set (R113). -/
def delay (current : Phase) (set : PhaseSet) : Nat :=
  (setPhases set).foldl (fun m q => min m (q - current - 1).val) 7

/-- Lower cost first, then lower delay (R114). -/
def cheaper (totals : Vector Nat 8) (current : Phase) (w : Nat) (a b : PhaseSet) : Bool :=
  cost totals w a < cost totals w b
    || (cost totals w a = cost totals w b && delay current a < delay current b)

/-- The offset chosen among those that fit: lowest cost, then lowest delay, then lowest offset (R113,
R114). -/
def chooseOffset (totals : Vector Nat 8) (current : Phase) (w budget : Nat) (code : Fin 4) : Option Phase :=
  (List.finRange 8).foldl
    (fun best o =>
      if fits totals w budget (rotatedSet code o) then
        match best with
        | none => some o
        | some b =>
          if cheaper totals current w (rotatedSet code o) (rotatedSet code b) then some o else some b
      else best)
    none

/-- The first entry of the ring queue for which a placement is found, with its offset (R112). -/
def State.findPlacement (s : State) : Option (Line × Phase) :=
  s.ringUnit.queue.findSome? fun l =>
    match (s.line l).ring with
    | some c =>
      (chooseOffset s.attemptTotals s.cadence.phase c.weight (s.effectiveBudget c.priority) c.code).map
        fun o => (l, o)
    | none => none

/-- The conditions of a placement attempt (R111). -/
def State.mayAttempt (s : State) : Bool :=
  s.station.state = .active && s.ringUnit.claim.isNone && s.ringUnit.releases.isEmpty

/-- The validation test: T[q] ≤ E for every phase of the claim's set (R117). -/
def State.claimPasses (s : State) (set : PhaseSet) (priority : Bool) : Bool :=
  (setPhases set).all fun q => s.phaseTotal q ≤ s.effectiveBudget priority

end Sys2Proof.Machine
end

