-- ==== Sys2Proof/Machine/LineMoves.lean ====
section
/-! DEFINITION. The Line State Controller and the Hook Timing Unit: entering a state with all its effects, the
events handed on entry and at thresholds, edges, settle notices, faults, and placement. -/

namespace Sys2Proof.Machine

/-- The tone selection on entry (last column of the table of spec/03 section 3.1, R40). -/
def entryTone : LineState → Tone
  | .dialTone => .dial
  | .recallTone => .special
  | _ => .none

/-- The timing context after an entry into a state: pulse count and state timer by R33, the whole context
fresh in BLOCKED and FAULT by R35. -/
def entryTiming (new : LineState) (t : Timing) : Timing :=
  match new with
  | .dialTone | .recallTone => { t with pulseCount := 0, stateTimer := some 0 }
  | .dialing | .recallDialing => { t with stateTimer := none }
  | .blocked | .fault => Timing.fresh
  | _ => { t with pulseCount := 0, stateTimer := none }

/-- The record of a line that enters a state; the ring context goes when the line is outside the ring
states (R41). -/
def LineRecord.entering (r : LineRecord) (new : LineState) : LineRecord :=
  { r with
    state := new
    tone := entryTone new
    timing := entryTiming new r.timing
    ring := if new.isRing then r.ring else none }

/-- A change of state without its reports: the record, the ring-leave notice, and the circuit's outputs
(R41, R2). -/
def enterState (l : Line) (new : LineState) (s : State) : State :=
  let r := s.line l
  let s1 := s.setLine l (r.entering new)
  let s2 := if r.state.isRing && !new.isRing then s1.ringLeave l r.state r.ring else s1
  s2.recomposeLine l

/-- A change of state taken as one whole: the change, the reports of the transition, then the TRACE of a
watched line (R41, R42; the order of the two is log 11). -/
def transition (l : Line) (new : LineState) (report : State → State) (s : State) : State :=
  traceChange l (s.line l).state (report (enterState l new s))

/-- SEIZE-CONFIRMED, handed if its threshold is reached: SEIZING goes to DIAL TONE with SEIZE (R47), the ring
states before RINGING to CONNECTED with ANSWER before ring (R57). -/
def handSeizeConfirmed (l : Line) (s : State) : State :=
  if s.seizeHeld l then
    match (s.line l).state with
    | .seizing => transition l .dialTone (queueLine .seize l []) s
    | .ringQueued | .ringClaiming | .ringArmed => transition l .connected (queueLine .answer l [0]) s
    | _ => s
  else s

/-- TRIP-CONFIRMED, handed if its threshold is reached (R31, R57). -/
def handTripConfirmed (l : Line) (s : State) : State :=
  if s.tripDue l then transition l .connected (queueLine .answer l [1]) s else s

/-- Set or clear a line's block-pending flag. -/
def State.setBlockPending (s : State) (l : Line) (b : Bool) : State :=
  s.setLine l { s.line l with blockPending := b }

/-- An entry into IDLE: with block-pending set the line passes to BLOCKED (R46); with a make running it is
handed the OFF-HOOK notice of R37 and goes on to SEIZING, where the hold may already be confirmed (R28). -/
def enterIdle (l : Line) (report : State → State) (s : State) : State :=
  let s1 := transition l .idle report s
  if (s1.line l).blockPending then
    transition l .blocked (queueLine .blocked l []) (s1.setBlockPending l false)
  else if (s1.line l).timing.sense = .mk then handSeizeConfirmed l (transition l .seizing id s1)
  else s1

/-- CLEAR-REACHED, handed if the break stands at the clear threshold in a call state (R23). -/
def handClearReached (l : Line) (s : State) : State :=
  if s.clearDue l then enterIdle l (queueLine .clear l []) s else s

/-- An entry into a call state, with the CLEAR-REACHED that R23 hands at the entry. -/
def enterCall (l : Line) (new : LineState) (report : State → State) (s : State) : State :=
  handClearReached l (transition l new report s)

/-- The DIGIT or DIGIT ERROR report of a pulse count (R30). -/
def queueDigit (l : Line) (pulses : Nat) (s : State) : State :=
  if pulses ≤ 10 then queueLine .digit l [octet (if pulses = 10 then 0 else pulses)] s
  else queueLine .digitError l [octet pulses] s

/-- DIGIT-END, handed if the make count has reached the interdigit make with pulses counted (R30, R49). -/
def handDigitEnd (l : Line) (s : State) : State :=
  if s.digitEndDue l then
    queueDigit l (s.line l).timing.pulseCount (s.setTiming l { (s.line l).timing with pulseCount := 0 })
  else s

/-- TIMEOUT with kind INTERDIGIT (R32): DIALING to PARKED (R49), RECALL DIALING to CONNECTED (R52). -/
def handInterdigitTimeout (l : Line) (s : State) : State :=
  if s.interdigitDue l then
    match (s.line l).state with
    | .dialing => enterCall l .parked (queueLine .dialTimeout l [stateOctet .dialing]) s
    | .recallDialing => enterCall l .connected (queueLine .dialTimeout l [stateOctet .recallDialing]) s
    | _ => s
  else s

/-- TIMEOUT with kind DIAL (R34, R48). -/
def handDialToneTimeout (l : Line) (s : State) : State :=
  if s.dialToneDue l then enterCall l .parked (queueLine .dialTimeout l [stateOctet .dialTone]) s else s

/-- TIMEOUT with kind RECALL (R34, R51). -/
def handRecallTimeout (l : Line) (s : State) : State :=
  if s.recallDue l then enterCall l .connected (queueLine .dialTimeout l [stateOctet .recallTone]) s else s

/-- Every threshold event of a line that is due, before the line's edge of the same tick is taken (R21).
The order among them is DESIGN CHOICE, log 16. -/
def handDue (l : Line) (s : State) : State :=
  handRecallTimeout l (handDialToneTimeout l (handTripConfirmed l (handSeizeConfirmed l
    (handClearReached l (handInterdigitTimeout l (handDigitEnd l s))))))

/-- Set the tone selection of a line, and its switches with it (R40). -/
def setTone (l : Line) (t : Tone) (s : State) : State :=
  (s.setLine l { s.line l with tone := t }).recomposeLine l

/-- The context at the start of a break: the make count goes to the held make (R22). -/
def Timing.beginBreak (t : Timing) : Timing :=
  { t with sense := .brk, edgeCount := 0, heldMake := if t.sense = .mk then t.edgeCount else 0 }

/-- An accepted on-hook edge (R22): SEIZING returns to IDLE (R47), the tones of DIAL TONE and RECALL TONE are
removed (R40), and nothing else changes. -/
def takeOnHook (l : Line) (s : State) : State :=
  if (s.line l).state.outOfService then s
  else
    let s1 := s.setTiming l (s.line l).timing.beginBreak
    match (s.line l).state with
    | .seizing => enterIdle l id s1
    | .dialTone | .recallTone => setTone l .none s1
    | _ => s1

/-- The context after a HIT: the make count resumes (R26). -/
def Timing.resume (p : Profile) (t : Timing) : Timing :=
  { t with sense := .mk, edgeCount := min (t.heldMake + t.edgeCount) (interdigitTimeoutTicks p) }

/-- The context after any other break: the make count starts at 0 (R24). -/
def Timing.beginMake (t : Timing) : Timing := { t with sense := .mk, edgeCount := 0 }

/-- HIT: a removed tone returns (R48, R51), and the threshold tests of R30 and R32 are made (R26). -/
def takeHit (l : Line) (s : State) : State :=
  let s1 := s.setTiming l ((s.line l).timing.resume s.profile)
  let s2 :=
    match (s.line l).state with
    | .dialTone => setTone l .dial s1
    | .recallTone => setTone l .special s1
    | _ => s1
  handInterdigitTimeout l (handDigitEnd l s2)

/-- PULSE and LONG PULSE in a dialling state: the pulse count rises (R29) and the tone states go to their
dialling states (R48, R51). -/
def takePulse (l : Line) (s : State) : State :=
  let t := (s.line l).timing.beginMake
  if (s.line l).state.isDialling then
    let s1 := s.setTiming l { t with pulseCount := min (t.pulseCount + 1) 15 }
    match (s.line l).state with
    | .dialTone => transition l .dialing id s1
    | .recallTone => transition l .recallDialing id s1
    | _ => s1
  else s.setTiming l t

/-- FLASH in each call state (R48 to R53). -/
def takeFlash (l : Line) (s : State) : State :=
  let s1 := s.setTiming l (s.line l).timing.beginMake
  match (s.line l).state with
  | .dialTone => transition l .dialTone id s1
  | .dialing => transition l .dialTone (queueLine .flash l []) s1
  | .connected => transition l .recallTone (queueLine .flash l []) s1
  | .recallTone => transition l .connected (queueLine .flash l []) s1
  | .recallDialing => transition l .connected (queueLine .flash l []) s1
  | _ => s1

/-- The end of a break in a call state (R24, R25). -/
def endBreak (l : Line) (s : State) : State :=
  match classifyBreak s.profile (s.line l).timing.edgeCount with
  | .hit => takeHit l s
  | .pulse => takePulse l s
  | .longPulse => takePulse l s
  | .flash => takeFlash l s

/-- The beginning of a hold: IDLE goes to SEIZING (R27, R47). -/
def beginHold (l : Line) (s : State) : State :=
  let s1 := s.setTiming l (s.line l).timing.beginMake
  if (s.line l).state = .idle then transition l .seizing id s1 else s1

/-- An accepted off-hook edge (R24, R27, R35). -/
def takeOffHook (l : Line) (s : State) : State :=
  if (s.line l).state.outOfService then s
  else if (s.line l).state.isCall && (s.line l).timing.sense = .brk then endBreak l s
  else beginHold l s

/-- The sense that a hook state sets (R35, R36). -/
def senseOf : Hook → Sense
  | .onHook => .brk
  | .offHook => .mk

/-- A settle notice (R36, R45). -/
def takeSettle (l : Line) (h : Hook) (s : State) : State :=
  if (s.line l).state.outOfService then s
  else
    let s1 :=
      if (s.line l).timing.sense = .none then
        s.setTiming l { (s.line l).timing with
          sense := senseOf h, edgeCount := 0, heldMake := 0, pulseCount := 0 }
      else s
    if (s.line l).state = .idle && h = .offHook then enterCall l .parked (queueLineState l) s1 else s1

/-- Entry into FAULT from every state other than FAULT (R68). The cause octet is 0 for CIRCUIT and 1 for
MEMORY (R160). -/
def enterFault (l : Line) (cause : Octet) (s : State) : State :=
  if (s.line l).state = .fault then s
  else transition l .fault (queueLine .fault l [cause]) (s.setBlockPending l false)

/-- A line leaves BLOCKED or FAULT by UNBLOCK: the sense is read from its circuit (R35), and the line goes to
PARKED on OFF-HOOK and to IDLE otherwise, with a LINE STATE report (R65, R66). -/
def returnToService (l : Line) (s : State) : State :=
  match s.presentedTo l with
  | some .offHook =>
    transition l .parked (queueLineState l) (s.setTiming l { Timing.fresh with sense := .mk })
  | some .onHook =>
    transition l .idle (queueLineState l) (s.setTiming l { Timing.fresh with sense := .brk })
  | none => transition l .idle (queueLineState l) (s.setTiming l Timing.fresh)

/-- Write the ring context of a line. -/
def State.setRing (s : State) (l : Line) (c : RingContext) : State :=
  s.setLine l { s.line l with ring := some c }

/-- Place a queued line at an offset (R115); a hold already confirmed is handed at the entry (R28). -/
def place (l : Line) (offset : Phase) (s : State) : State :=
  match (s.line l).ring with
  | some c =>
    let set := rotatedSet c.code offset
    let s1 := ((s.unqueue l).setRing l { c with offset := offset }).addOwnLoad c.weight set
    handSeizeConfirmed l
      (transition l .ringClaiming id (s1.setClaim (some ⟨l, c.weight, set, .pending⟩)))
  | none => s

/-- A placement attempt, if its conditions hold (R111, R112). -/
def attemptPlacement (s : State) : State :=
  if s.mayAttempt then
    match s.findPlacement with
    | some (l, o) => place l o s
    | none => s
  else s

end Sys2Proof.Machine
end

