-- ==== Sys2Proof/Machine/StationMoves.lean ====
section
/-! DEFINITION. Station Control: stopping the blocks on entry to DOWN and SILENT, the three starts with the
values each gives every block, and the conflict count. -/

namespace Sys2Proof.Machine

/-- The frame in transmission is abandoned and a report on the wire loses its sending mark; the claim in
flight, the release list and the due flags stand (R132, R149, R150, R162; log 14). -/
def State.abandonFrame (s : State) : State :=
  (s.setBus { s.bus with tx := none }).unsendReports

/-- The blocks stop: the mark line is released and a mark not yet taken is dropped (R76), the frame is
abandoned, and every relay and tone switch is released or opened (R18). DESIGN CHOICE, log 2: where the stop overtakes
the end of a phase, the rise of the tick in phase that would have ended it is not made, so that it stands in 0..149
(R70, R76). -/
def State.stopBlocks (s : State) : State :=
  ({ s with cadence := { s.cadence with
      tick := min s.cadence.tick 149, markDrive := false, markSeen := false } }).abandonFrame.recomposeAll

/-- Entry into DOWN (R175): the WITHDRAW is made due and the restart count set to 0. -/
def goDown (s : State) : State :=
  let s1 := (s.setStationState .down).stopBlocks
  { s1 with
    bus := { s1.bus with withdrawDue := true }
    control := { s1.control with restartCount := 0 } }

/-- Entry into SILENT: the alarm output is asserted and no WITHDRAW is made due (R178). The restart count stands
at 0 in every state other than DOWN (R173). -/
def goSilent (s : State) : State :=
  let s1 := (s.setStationState .silent).stopBlocks
  { s1 with control := { s1.control with alarm := true, restartCount := 0 } }

/-- An ASSERTED warning filter takes the station to DOWN on entry to a state that heeds it (R175). -/
def heedWarning (s : State) : State :=
  if s.control.warning.asserted && s.station.state.heedsWarning then goDown s else s

/-- A circuit after a start: filters and blanking at their start values (R17). -/
def Circuit.started (x : Circuit) (mark : Bool) : Circuit :=
  { x with hook := HookFilter.fresh, fault := InputFilter.normal, blanking := 0, faultMark := mark }

/-- The values every block takes at a start, before any line enters FAULT: circuits (R17), line records
(R44, R171), Cadence Timer (R75), Shelf Load Table (R107), Ring Placement Unit (R132), Shelf Bus Interface
(R151), Report Queue (R162), station state word (R172), restart count and alarm (R174, R176, R177). -/
def startBlocks (next : StationState) (withdraw : Bool) (base : Nat)
    (circuitOf : Line → Option CircuitNo) (markOf : CircuitNo → Bool) (s : State) : State :=
  { s with
    circuits := tabulate fun c => (s.circuit c).started (markOf c)
    lines := tabulate fun l => LineRecord.fresh (circuitOf l)
    station := { s.station with state := next, conflicts := 0 }
    control := { s.control with restartCount := 0, alarm := next = .silent }
    cadence := CadenceTimer.started
    table := ⟨Vector.replicate 8 0, Vector.replicate 15 PeerRow.absent, base, InputFilter.normal⟩
    ringUnit := ⟨[], none, []⟩
    bus := ⟨none, RxAssembly.waitingForIdle, false, withdraw, s.bus.ackSlot⟩
    reports := [] }

/-- The start's read of a circuit word with a single-bit error: CORRECTED, and the correction mark (R171). -/
def startCorrection (errors : CircuitWordErrors) (l : Line) (s : State) : State :=
  if errors.single.getLsbD l.val && !errors.double.getLsbD l.val then
    let s1 := queueLine .corrected l [0] s
    s1.setLine l { s1.line l with correctionMark := true }
  else s

/-- The entry a start makes for a line: FAULT with cause MEMORY on no circuit, with cause CIRCUIT on a marked
one, else none (R44). -/
def startFault (l : Line) (s : State) : State :=
  match (s.line l).circuit with
  | none => enterFault l 1 s
  | some c => if (s.circuit c).faultMark then enterFault l 0 s else s

/-- The outputs composed at a start, every blanking count at 0 (R3, R17). -/
def State.startOutputs (s : State) : State :=
  { s with circuits := tabulate fun c => { s.composed c with blanking := 0 } }

/-- The entries of the lines at a start (R44) and the outputs (R17). DESIGN CHOICE, log 25: the lines are taken in
increasing order, so their CORRECTED and FAULT reports enter the queue in that order; R12, R44 and R171 give none, and
R39 leaves inputs of different lines without an order. -/
def startLines (errors : CircuitWordErrors) (s : State) : State :=
  ((List.finRange 16).foldl (fun s l => startFault l (startCorrection errors l s)) s).startOutputs

/-- No circuit word in error. -/
def CircuitWordErrors.none : CircuitWordErrors := ⟨0, 0⟩

/-- The circuit field a supply restart or STATION RESET keeps; one that cannot be read is none (R12, R171). -/
def State.keptCircuit (s : State) (errors : CircuitWordErrors) (l : Line) : Option CircuitNo :=
  if errors.double.getLsbD l.val then none else (s.line l).circuit

/-- A supply restart (R176). -/
def supplyRestart (errors : CircuitWordErrors) (s : State) : State :=
  let next := match s.straps.mode with
    | .auto => StationState.starting
    | .held => StationState.held
  heedWarning (startLines errors
    (startBlocks next false s.table.baseBudget (s.keptCircuit errors) (fun c => (s.circuit c).faultMark) s))

/-- A STATION RESET (R177): the WITHDRAW is made due and the station enters STARTING, or SILENT with no WITHDRAW
for station number 0 and where the strap copies supply no straps (R173, log 17). An ASSERTED warning filter
then takes the station to DOWN (R175). -/
def stationReset (errors : CircuitWordErrors) (s : State) : State :=
  let starts := s.strapsKnown && s.own ≠ 0
  heedWarning (startLines errors
    (startBlocks (if starts then .starting else .silent) starts s.table.baseBudget (s.keptCircuit errors)
      (fun c => (s.circuit c).faultMark) s))

/-- A power-on reset (R174): the pins are written into both strap copies, the warning filter is NORMAL, the map
and the marks take their defaults (R10, R12), and the base budget is derived anew (R99). -/
def powerOn (pins : Straps) (s : State) : State :=
  let s1 : State :=
    { s with
      station := { s.station with strap1 := some pins, strap2 := some pins }
      control := { s.control with warning := InputFilter.normal }
      bus := { s.bus with ackSlot := false } }
  startLines CircuitWordErrors.none
    (startBlocks (if pins.station = 0 then .silent else .starting) false (baseBudgetOf pins.budgetCode)
      (fun l => some ⟨l.val, by omega⟩) (fun _ => false) s1)

/-- A conflict, counted in STARTING and ACTIVE; the third takes the station to SILENT (R148). -/
def countConflict (s : State) : State :=
  if s.running then
    let s1 : State := { s with station := { s.station with conflicts := s.station.conflicts + 1 } }
    if 3 ≤ s1.station.conflicts then goSilent s1 else s1
  else s

end Sys2Proof.Machine
end

