-- ==== Sys2Proof/Machine/BusMoves.lean ====
section
/-! DEFINITION. The Shelf Bus Interface and Command Dispatch: choosing and beginning a frame, losing or
completing it, receiving a frame, and taking a command. -/

namespace Sys2Proof.Machine

/-- The frames a station state allows (second table of R146). -/
def StationState.maySend : StationState → FrameKind → Bool
  | .active, k => k ≠ .command
  | .starting, k => k = .withdraw || k = .report
  | .down, k => k = .withdraw
  | .held, _ => false
  | .silent, _ => false

/-- Whether the source of a kind of frame has one to send (first table of R146). -/
def State.hasFrame (s : State) : FrameKind → Bool
  | .withdraw => s.bus.withdrawDue
  | .release => !s.ringUnit.releases.isEmpty
  | .claim =>
    match s.ringUnit.claim with
    | some c => c.status = .pending
    | none => false
  | .report => !s.reports.isEmpty
  | .summary => s.bus.summaryDue
  | .command => false

/-- The choice of R146: the first frame the station has and may send. -/
def State.chooseFrame (s : State) : Option FrameKind :=
  [FrameKind.withdraw, .release, .claim, .report, .summary].find? fun k =>
    s.hasFrame k && s.station.state.maySend k

/-- The octets of a chosen frame, composed from its source as the source stands (R146, R103). -/
def State.composeFrame (s : State) : FrameKind → List Octet
  | .withdraw => withdrawFrame s.own
  | .release =>
    match s.ringUnit.releases with
    | r :: _ => releaseFrame s.own r.line r.weight r.set
    | [] => []
  | .claim =>
    match s.ringUnit.claim with
    | some c => claimFrame s.own c.line c.weight c.set
    | none => []
  | .report =>
    match s.reports with
    | e :: _ => reportFrame s.own e
    | [] => []
  | .summary => summaryFrame s.own s.table.ownRow
  | .command => []

/-- Set the status of the claim in flight. -/
def State.setClaimStatus (s : State) (t : ClaimStatus) : State :=
  s.setClaim (s.ringUnit.claim.map fun c => { c with status := t })

/-- The source is told that its frame begins (R147). -/
def State.tellBegun (s : State) : FrameKind → State
  | .claim => s.setClaimStatus .sending
  | .report => s.sendHead
  | .withdraw | .release | .summary | .command => s

/-- Begin the chosen frame: its start bit is driven, and the assembly follows it (R136, R143). -/
def State.beginFrame (s : State) (k : FrameKind) : State :=
  (s.setBus { s.bus with
    tx := some ⟨k, s.composeFrame k, 0, 0, .contest⟩
    rx := RxAssembly.begun }).tellBegun k

/-- Begin a frame if one is ready (R136). -/
def State.beginIfReady (s : State) : State :=
  match s.chooseFrame with
  | some k => s.beginFrame k
  | none => s

/-- A frame that has become ready while the bus is idle begins at once, chosen as the step's work leaves its sources
(R136, R146; log 6). -/
def State.sendIfIdle (s : State) : State := if s.bus.rx.state = .idle then s.beginIfReady else s

/-- The bus becomes idle, or stays so; a frame that is ready begins (R136). -/
def becomeIdle (s : State) : State :=
  if s.bus.rx.state = .assembling then s
  else (s.setBus { s.bus with rx := RxAssembly.onIdleBus }).beginIfReady

/-- A claim whose frame was not sent: SENDING goes back to PENDING, ORPHANED ends (R116). -/
def Claim.unsent (c : Claim) : Option Claim :=
  match c.status with
  | .sending => some { c with status := .pending }
  | .orphaned => none
  | .pending => some c

/-- The source is told that its frame lost the contest or was abandoned (R147). -/
def State.tellUnsent (s : State) : FrameKind → State
  | .claim => s.setClaim (s.ringUnit.claim.bind Claim.unsent)
  | .report => s.unsendReports
  | .withdraw | .release | .summary | .command => s

/-- The own frame leaves the wire unsent; the assembly goes on as a receiver (R137, R141). -/
def State.dropFrame (s : State) (k : FrameKind) : State :=
  (s.setBus { s.bus with tx := none }).tellUnsent k

/-- The own frame loses the contest (R137). -/
def loseContest (s : State) : State :=
  match s.bus.tx with
  | some f => if f.phase = .contest then s.dropFrame f.kind else s
  | none => s

/-- A read-back mismatch after the header: the frame is abandoned and a conflict counted (R141, R148). -/
def abandonOnMismatch (s : State) : State :=
  match s.bus.tx with
  | some f =>
    if f.phase = .ack then s
    else
      let s1 := s.dropFrame f.kind
      countConflict (s1.setBus { s1.bus with rx := { s1.bus.rx with mismatchCounted := s.running } })
  | none => s

/-- The end of a frame on the wire: the assembly waits for idle (R136), and the acknowledge slot was driven or
not (R142). -/
def State.endFrame (s : State) (ack : Bool) : State :=
  s.setBus { s.bus with rx := RxAssembly.waitingForIdle, ackSlot := ack }

/-- The completion of an own frame of a kind: the conflict count is set to 0 and the source acts (R141,
R147). -/
def completeOwn (k : FrameKind) (act : State → State) (s : State) : State :=
  match s.bus.tx with
  | some f =>
    if f.kind = k then
      let s1 := s.setBus { s.bus with tx := none, rx := RxAssembly.waitingForIdle, ackSlot := false }
      act { s1 with station := { s1.station with conflicts := 0 } }
    else s
  | none => s

/-- A frame of another station can complete here: the assembly follows one and the station does not send
(R143). -/
def State.receiving (s : State) : Bool := s.bus.rx.state = .assembling && s.bus.tx.isNone

/-- A frame carrying the own number that this station did not send: a conflict, unless its read-back mismatch
has been counted already (R145, R148). -/
def takeOwnNumberFrame (s : State) : State :=
  if s.bus.rx.mismatchCounted then s.endFrame false else countConflict (s.endFrame false)

/-- A whole frame of another station: delivered, unless it carries the own number (R145). -/
def receiveFrame (station : StationNo) (deliver : State → State) (s : State) : State :=
  if s.receiving then
    if station = s.own then takeOwnNumberFrame s else deliver (s.endFrame false)
  else s

/-- The mask of a line command that allows none: all ones (R154). -/
def fullMask : Octet := 255

/-- START is taken in STARTING, ACTIVE and HELD (R155). -/
def StationState.takesStart : StationState → Bool
  | .starting | .active | .held => true
  | _ => false

/-- STATION RESET is taken in every state but DOWN (R155). -/
def StationState.takesReset : StationState → Bool
  | .down => false
  | _ => true

/-- A line command is taken: it carries another number, the station is in STARTING or ACTIVE, and it addresses a line
(R154, R155). -/
def State.takesLine (s : State) (h : CommandHeader) (mask : Octet) : Bool :=
  h.station ≠ s.own && s.running && !(addressedLines s.own h.address mask).isEmpty

/-- A station command is taken: it carries another number, the station state allows it, and it addresses the station
(R154, R155). -/
def State.takesStation (s : State) (h : CommandHeader) (allowed : StationState → Bool) : Bool :=
  h.station ≠ s.own && allowed s.station.state && addressesStation s.own h.address

/-- Command Dispatch's decision on the row a frame gives: whether it takes the command; none for a frame that is no
COMMAND (R153, R155). -/
def State.decision (s : State) : Instr → Option Bool
  | .ring h _ _ | .connect h | .releaseLine h | .tone h _ | .remap h _ | .watch h _ | .queryLine h =>
    some (s.takesLine h fullMask)
  | .stopRing h | .blockPolite h | .blockForced h _ | .unblock h => some (s.takesLine h h.mask)
  | .queryStation h | .queryTable h => some (s.takesStation h StationState.running)
  | .start h => some (s.takesStation h StationState.takesStart)
  | .stationReset h _ => some (s.takesStation h StationState.takesReset)
  | .unknownCommand _ _ => some false
  | .powerOnReset .. | .supplyRestart .. | .supplyWarning | .warningNegated | .peerClaim .. | .peerRelease ..
  | .peerSummary .. | .peerWithdraw .. | .peerReport .. | .ownNumberFrame .. | .frameDiscard .. | .busIdle
  | .contestLost | .readBackMismatch | .ownClaimCompletes | .ownReleaseCompletes | .ownReportCompletes
  | .ownSummaryCompletes | .ownWithdrawCompletes | .onHookEdge .. | .offHookEdge .. | .settle ..
  | .faultAssertedEdge .. | .faultNormalEdge .. | .clearReached .. | .seizeConfirmed .. | .tripConfirmed ..
  | .digitEnd .. | .interdigitTimeout .. | .dialToneTimeout .. | .recallTimeout .. | .phaseBoundary | .cycleStart
  | .mark | .onPortionBoundary | .reducedRingPowerChange | .lineRecordCorrection .. | .lineRecordDoubleBitError ..
  | .stationRecordCorrection .. | .stationRecordDoubleBitError .. | .tick .. | .startBit => none

/-- The completion of a COMMAND frame. The slot is driven as Command Dispatch decided at the check octet, or decides
now where the row stands for the frame from its check octet on (R142, R155, log 20). A command taken at the check
octet acts in a station state that allows it, `allowed`: its header and address have been judged there (R145, R154),
and the state at the completion is all that is looked at again (R156). -/
def receiveCommand (h : CommandHeader) (takes allowed : Bool) (act : State → State) (s : State) : State :=
  if s.receiving then
    if s.bus.rx.decided = some true then
      if allowed then act (s.endFrame true) else s.endFrame true
    else if h.station = s.own then takeOwnNumberFrame s
    else if s.bus.rx.decided = none && takes then act (s.endFrame true)
    else s.endFrame false
  else s

/-- A line command: taken in STARTING and ACTIVE, acting on each addressed line in increasing order (R154,
R155, R156). -/
def lineCommand (h : CommandHeader) (mask : Octet) (act : Line → State → State) (s : State) : State :=
  receiveCommand h (s.takesLine h mask) s.running
    (fun t => (addressedLines s.own h.address mask).foldl (fun t l => act l t) t) s

/-- A station command (R154, R155). -/
def stationCommand (h : CommandHeader) (allowed : StationState → Bool) (act : State → State) (s : State) :
    State :=
  receiveCommand h (s.takesStation h allowed) (allowed s.station.state) act s

/-- A received frame is discarded: nothing of it is applied (R144). -/
def discardFrame (s : State) : State := if s.receiving then s.endFrame false else s

/-- The frame of the own station one bit time later: CONTEST in the header octet, BODY to the stop bit of the
check octet, ACK in the slot, where it stands until its completion is taken (R135, R137, R141). -/
def TxFrame.nextBit (f : TxFrame) : TxFrame :=
  if f.phase = .ack then f
  else if f.bit < 9 then { f with bit := f.bit + 1 }
  else if f.octet + 1 < f.octets.length then { f with octet := f.octet + 1, bit := 0, phase := .body }
  else { f with octet := f.octet + 1, bit := 0, phase := .ack }

end Sys2Proof.Machine
end

