-- ==== Sys2Proof/Machine/BusEvents.lean ====
section
/-! DEFINITION. The meanings of BUS_IDLE, START_BIT, CONTEST_LOST, READ_BACK_MISMATCH and the completions of the
station's own frames. -/

namespace Sys2Proof.Machine

/-- Another station's start bit on an idle bus: the assembly begins, and a station with a frame ready joins the
contest (R136, R143). A dominant bit while the assembly waits for idle sets its count to 0 (R136). -/
def takeStartBit (s : State) : State :=
  match s.bus.rx.state with
  | .idle => (s.setBus { s.bus with rx := RxAssembly.begun }).beginIfReady
  | .waiting => s.setBus { s.bus with rx := { s.bus.rx with recessive := 0 } }
  | .assembling => s

/-- A claim that passes validation (R117). -/
def confirmClaim (c : Claim) (s : State) : State :=
  handSeizeConfirmed c.line (transition c.line .ringArmed id (s.setClaim none))

/-- A claim that fails validation: the weight leaves the own row, a RELEASE is owed, and the line goes back to
the head of its class with offset 0 (R118). -/
def withdrawClaim (c : Claim) (ctx : RingContext) (s : State) : State :=
  let s1 := (((s.removeOwnLoad c.weight c.set).appendRelease ⟨c.line, c.weight, c.set⟩).setClaim none).setRing
    c.line { ctx with offset := 0 }
  handSeizeConfirmed c.line ((transition c.line .ringQueued id s1).queueAtHead c.line)

/-- The validation of a SENDING claim; the requests are carried out for a line in RING CLAIMING (R56, R117,
R118). -/
def validateClaim (c : Claim) (s : State) : State :=
  match (s.line c.line).state, (s.line c.line).ring with
  | .ringClaiming, some ctx =>
    if s.claimPasses c.set ctx.priority then confirmClaim c s else withdrawClaim c ctx s
  | _, _ => s.setClaim none

/-- The completion of the own CLAIM frame (R117, R118, R122). -/
def claimCompleted (s : State) : State :=
  match s.ringUnit.claim with
  | some c =>
    match c.status with
    | .sending => validateClaim c s
    | .orphaned => (s.setClaim none).appendRelease ⟨c.line, c.weight, c.set⟩
    | .pending => s
  | none => s

/-- The completion of the own RELEASE frame: the head entry is removed (R127). -/
def releaseCompleted (s : State) : State :=
  s.setRingUnit { s.ringUnit with releases := s.ringUnit.releases.tail }

/-- The completion of the own SUMMARY frame (R77). -/
def summaryCompleted (s : State) : State := s.setBus { s.bus with summaryDue := false }

/-- The completion of the own WITHDRAW frame (R147). Station Control is told; the spec gives it nothing to do. -/
def withdrawCompleted (s : State) : State := s.setBus { s.bus with withdrawDue := false }

/-- BUS_IDLE (R136, R146). -/
def execBusIdle (s : State) : Host.Outcome State Fault Refusal := .next (becomeIdle s)

/-- START_BIT (R136, R143). -/
def execStartBit (s : State) : Host.Outcome State Fault Refusal := .next (takeStartBit s)

/-- CONTEST_LOST (R137). -/
def execContestLost (s : State) : Host.Outcome State Fault Refusal := .next (loseContest s)

/-- READ_BACK_MISMATCH (R141). -/
def execReadBackMismatch (s : State) : Host.Outcome State Fault Refusal := .next (abandonOnMismatch s)

/-- OWN_CLAIM_COMPLETES (R117). -/
def execOwnClaimCompletes (s : State) : Host.Outcome State Fault Refusal :=
  .next (completeOwn .claim claimCompleted s)

/-- OWN_RELEASE_COMPLETES (R127). -/
def execOwnReleaseCompletes (s : State) : Host.Outcome State Fault Refusal :=
  .next (completeOwn .release releaseCompleted s)

/-- OWN_REPORT_COMPLETES (R162). -/
def execOwnReportCompletes (s : State) : Host.Outcome State Fault Refusal :=
  .next (completeOwn .report State.reportSent s)

/-- OWN_SUMMARY_COMPLETES (R77). -/
def execOwnSummaryCompletes (s : State) : Host.Outcome State Fault Refusal :=
  .next (completeOwn .summary summaryCompleted s)

/-- OWN_WITHDRAW_COMPLETES (R147). -/
def execOwnWithdrawCompletes (s : State) : Host.Outcome State Fault Refusal :=
  .next (completeOwn .withdraw withdrawCompleted s)

end Sys2Proof.Machine
end

