-- ==== Sys2Proof/Machine/CadenceMoves.lean ====
section
/-! DEFINITION. The work of the blocks at a phase boundary and at a cycle start (R71, R75, R77, R96, R128 to
R131, R168). -/

namespace Sys2Proof.Machine

/-- The row of a PRESENT peer one cycle start older; at age 3 it is cleared (R96). -/
def PeerRow.aged (r : PeerRow) : PeerRow :=
  if r.present then (if 3 ≤ r.age + 1 then PeerRow.absent else { r with age := r.age + 1 }) else r

/-- The row is cleared by the ageing of this cycle start (R96). -/
def PeerRow.lostByAgeing (r : PeerRow) : Bool := r.present && 3 ≤ r.age + 1

/-- The station number of a peer row. -/
def rowStation (i : Fin 15) : Nat := i.val + 1

/-- Ageing of one peer row, with its PEER LOST report (R96, R97). -/
def ageRow (i : Fin 15) (s : State) : State :=
  let r := s.table.peers[i]
  let s1 : State := { s with table := { s.table with peers := s.table.peers.set i r.aged } }
  if r.lostByAgeing then queueStationReport .peerLost [octet (rowStation i)] s1 else s1

/-- Ageing of every peer row, in increasing order of station number (R97). -/
def ageRows (s : State) : State := (List.finRange 15).foldl (fun s i => ageRow i s) s

/-- The correction mark of every line record is cleared (R168). -/
def clearCorrectionMarks (s : State) : State :=
  { s with lines := tabulate fun l => { s.line l with correctionMark := false } }

/-- The ring-cycle count of a ringing line, and the no-answer change at its limit (R130, R56). -/
def countRingCycle (l : Line) (s : State) : State :=
  match (s.line l).state, (s.line l).ring with
  | .ringing, some c =>
    let s1 := s.setRing l { c with cycles := min (c.cycles + 1) 15 }
    if c.limit ≠ 0 && min (c.cycles + 1) 15 = c.limit then enterIdle l (queueLine .noAnswer l []) s1 else s1
  | _, _ => s

/-- The wait count of a queued entry, and RING DELAYED as it reaches 4 (R131). -/
def countWait (l : Line) (s : State) : State :=
  match (s.line l).ring with
  | some c =>
    if s.ringUnit.queue.contains l then
      let s1 := s.setRing l { c with waits := min (c.waits + 1) 4 }
      if c.waits = 3 then queueLine .ringDelayed l [] s1 else s1
    else s
  | none => s

/-- The counting at a cycle start, line by line in increasing order (R128, log 13). -/
def countCycles (s : State) : State :=
  (List.finRange 16).foldl (fun s l => countWait l (countRingCycle l s)) s

/-- An armed line whose rotated set holds the phase begun enters RINGING (R81). -/
def startRinging (l : Line) (s : State) : State :=
  match (s.line l).state, (s.line l).ring with
  | .ringArmed, some c =>
    if inSet (rotatedSet c.code c.offset) s.cadence.phase then transition l .ringing id s else s
  | _, _ => s

/-- The start of ringing, line by line in increasing order (R128). -/
def startRingingAll (s : State) : State := (List.finRange 16).foldl (fun s l => startRinging l s) s

/-- TRIP-CONFIRMED handed at the tick of entry into RINGING, after the work of R128 (R31, R81; log 13). -/
def handTripsAll (s : State) : State := (List.finRange 16).foldl (fun s l => handTripConfirmed l s) s

/-- The due point of the SUMMARY: the boundary into phase (own number mod 8) in ACTIVE (R77). -/
def markSummaryDue (s : State) : State :=
  if s.station.state = .active && s.own.val % 8 = s.cadence.phase.val then
    s.setBus { s.bus with summaryDue := true }
  else s

/-- The work of the Ring Placement Unit at a boundary in ACTIVE, in the order of R128. -/
def ringUnitWork (cycle : Bool) (s : State) : State :=
  if s.station.state = .active then
    handTripsAll (attemptPlacement (startRingingAll (if cycle then countCycles s else s)))
  else s

/-- What follows an announced boundary: the summary due point, the Ring Placement Unit's work, and the ring
drive from the line states as that work leaves them (R71, R77, R128). -/
def announceBoundary (cycle : Bool) (s : State) : State :=
  (ringUnitWork cycle (markSummaryDue s)).recomposeAll

/-- A cycle start made with the listen flag set ends the listen period and takes the station to ACTIVE
(R75). -/
def endListen (s : State) : State :=
  if s.cadence.listen then
    ({ s with cadence := { s.cadence with listen := false } }).setStationState .active
  else s

/-- A cycle start: phase 0, tick 0, ticks since cycle start 0, the mark driven or not (R72, R73), the listen
period ended (R75), the peer rows aged before the placement attempt (R96, R112), the correction marks
cleared (R168), and the announcement. A warning filter found ASSERTED on entry to ACTIVE then takes the
station to DOWN (R175). -/
def beginCycle (drive : Bool) (s : State) : State :=
  let s1 : State :=
    { s with cadence := { s.cadence with
        phase := 0, tick := 0, sinceStart := 0, markDrive := drive || s.cadence.markDrive } }
  heedWarning (announceBoundary true (clearCorrectionMarks (ageRows (endListen s1))))

/-- The next phase begins (R70, R71). -/
def beginPhase (s : State) : State :=
  announceBoundary false { s with cadence := { s.cadence with phase := s.cadence.phase + 1, tick := 0 } }

end Sys2Proof.Machine
end

