-- ==== Sys2Proof/Machine/CadenceEvents.lean ====
section
/-! DEFINITION. The meanings of PHASE_BOUNDARY, CYCLE_START, MARK and ON_PORTION_BOUNDARY. Each is taken only when
it is due (log 2, log 3). -/

namespace Sys2Proof.Machine

/-- The tick in phase has reached 150 while the Cadence Timer runs (R70). -/
def State.phaseEnded (s : State) : Bool := s.running && 150 ≤ s.cadence.tick

/-- The end of a phase 0..6 (R70, R71). -/
def takePhaseBoundary (s : State) : State :=
  if s.phaseEnded && s.cadence.phase ≠ 7 then beginPhase s else s

/-- The end of phase 7: the own cycle ends and the mark is driven (R72). -/
def takeCycleEnd (s : State) : State :=
  if s.phaseEnded && s.cadence.phase = 7 then beginCycle true s else s

/-- A mark seen at this tick: accepted when the ticks since cycle start stand at 100, else ignored (R73). DESIGN
CHOICE, log 28: a mark one or two ticks after a start ends the listen period there (R75), before the reduced-ring-power
filter can have taken three samples, so that its placement attempt stands under the normal base whatever the input
reads; R100 says of an input ASSERTED at the start that it is accepted before the listen period can end. -/
def takeMark (s : State) : State :=
  if s.running && s.cadence.markSeen then
    let s1 : State := { s with cadence := { s.cadence with markSeen := false } }
    if s.cadence.sinceStart = 100 then beginCycle false s1 else s1
  else s

/-- Ticks 45, 75 and 120, where the on-portions of a split phase change (R78, R80). -/
def onPortionTick (t : Nat) : Bool := t = 45 || t = 75 || t = 120

/-- The ring drive at an on-portion boundary, for every ringing line (R80). -/
def takeOnPortion (s : State) : State :=
  if s.station.state = .active && onPortionTick s.cadence.tick then s.recomposeAll else s

/-- PHASE_BOUNDARY (R71). -/
def execPhaseBoundary (s : State) : Host.Outcome State Fault Refusal := .next (takePhaseBoundary s).sendIfIdle

/-- CYCLE_START (R72). -/
def execCycleStart (s : State) : Host.Outcome State Fault Refusal := .next (takeCycleEnd s).sendIfIdle

/-- MARK (R73). -/
def execMark (s : State) : Host.Outcome State Fault Refusal := .next (takeMark s).sendIfIdle

/-- ON_PORTION_BOUNDARY (R80). -/
def execOnPortionBoundary (s : State) : Host.Outcome State Fault Refusal := .next (takeOnPortion s)

end Sys2Proof.Machine
end

