-- ==== Sys2Proof/Machine/HookEvents.lean ====
section
/-! DEFINITION. The meanings of the edges and settles of a circuit and of the threshold events of a line. Each is
taken only when it is due (log 2, log 3). -/

namespace Sys2Proof.Machine

/-- Write the hook filter of a circuit. -/
def State.setHook (s : State) (c : CircuitNo) (f : HookFilter) : State :=
  s.setCircuit c { s.circuit c with hook := f }

/-- Act on the line that maps a circuit, if any (R8); no line acts on hook or fault input while the station is in DOWN,
HELD or SILENT (R4, R39). -/
def forOwner (c : CircuitNo) (act : Line → State → State) (s : State) : State :=
  if s.running then
    match s.owner c with
    | some l => act l s
    | none => s
  else s

/-- An accepted on-hook edge: the filter changes (R6), and the line's thresholds of the tick are handed before
the edge is taken (R21). An edge whose third sample was taken before the station stopped changes the filter alone
(R4, log 2). -/
def takeOnHookEdge (c : CircuitNo) (s : State) : State :=
  if (s.circuit c).edgeDue .offHook then
    forOwner c (fun l t => takeOnHook l (handDue l t)) (s.setHook c ⟨.settled .onHook, 0⟩)
  else s

/-- An accepted off-hook edge (R6, R8, R21). -/
def takeOffHookEdge (c : CircuitNo) (s : State) : State :=
  if (s.circuit c).edgeDue .onHook then
    forOwner c (fun l t => takeOffHook l (handDue l t)) (s.setHook c ⟨.settled .offHook, 0⟩)
  else s

/-- An UNSETTLED hook filter settles (R7), and the notice goes to the line (R36, R45). -/
def takeSettleNotice (c : CircuitNo) (s : State) : State :=
  match (s.circuit c).hook.state with
  | .unsettled h =>
    if (s.circuit c).hook.run = 3 then
      forOwner c (fun l t => takeSettle l h (handDue l t)) (s.setHook c ⟨.settled h, 0⟩)
    else s
  | .settled _ => s

/-- Write the fault filter and the fault mark of a circuit. -/
def State.setFault (s : State) (c : CircuitNo) (f : InputFilter) (mark : Bool) : State :=
  s.setCircuit c { s.circuit c with fault := f, faultMark := mark }

/-- An accepted ASSERTED fault edge: the mark is set and a mapped line enters FAULT (R9). -/
def takeFaultAsserted (c : CircuitNo) (s : State) : State :=
  if (s.circuit c).fault.changeDue false then
    forOwner c (fun l t => enterFault l 0 t) (s.setFault c (s.circuit c).fault.accepted true)
  else s

/-- An accepted NORMAL fault edge: the mark stays (R9). -/
def takeFaultNormal (c : CircuitNo) (s : State) : State :=
  if (s.circuit c).fault.changeDue true then
    s.setFault c (s.circuit c).fault.accepted (s.circuit c).faultMark
  else s

/-- Do a piece of work in STARTING and ACTIVE alone (R20, R39). -/
def whenRunning (act : State → State) (s : State) : State := if s.running then act s else s

/-- ON_HOOK_EDGE (R22). -/
def execOnHookEdge (c : CircuitNo) (s : State) : Host.Outcome State Fault Refusal :=
  .next (takeOnHookEdge c s).sendIfIdle

/-- OFF_HOOK_EDGE (R24). -/
def execOffHookEdge (c : CircuitNo) (s : State) : Host.Outcome State Fault Refusal :=
  .next (takeOffHookEdge c s).sendIfIdle

/-- SETTLE (R7). -/
def execSettle (c : CircuitNo) (s : State) : Host.Outcome State Fault Refusal :=
  .next (takeSettleNotice c s).sendIfIdle

/-- FAULT_ASSERTED_EDGE (R9). -/
def execFaultAssertedEdge (c : CircuitNo) (s : State) : Host.Outcome State Fault Refusal :=
  .next (takeFaultAsserted c s).sendIfIdle

/-- FAULT_NORMAL_EDGE (R9). -/
def execFaultNormalEdge (c : CircuitNo) (s : State) : Host.Outcome State Fault Refusal :=
  .next (takeFaultNormal c s)

/-- CLEAR_REACHED (R23). -/
def execClearReached (l : Line) (s : State) : Host.Outcome State Fault Refusal :=
  .next (whenRunning (handClearReached l) s).sendIfIdle

/-- SEIZE_CONFIRMED (R28). -/
def execSeizeConfirmed (l : Line) (s : State) : Host.Outcome State Fault Refusal :=
  .next (whenRunning (handSeizeConfirmed l) s).sendIfIdle

/-- TRIP_CONFIRMED (R31). -/
def execTripConfirmed (l : Line) (s : State) : Host.Outcome State Fault Refusal :=
  .next (whenRunning (handTripConfirmed l) s).sendIfIdle

/-- DIGIT_END (R30). -/
def execDigitEnd (l : Line) (s : State) : Host.Outcome State Fault Refusal :=
  .next (whenRunning (handDigitEnd l) s).sendIfIdle

/-- INTERDIGIT_TIMEOUT (R32). -/
def execInterdigitTimeout (l : Line) (s : State) : Host.Outcome State Fault Refusal :=
  .next (whenRunning (handInterdigitTimeout l) s).sendIfIdle

/-- DIAL_TONE_TIMEOUT (R34). -/
def execDialToneTimeout (l : Line) (s : State) : Host.Outcome State Fault Refusal :=
  .next (whenRunning (handDialToneTimeout l) s).sendIfIdle

/-- RECALL_TIMEOUT (R34). -/
def execRecallTimeout (l : Line) (s : State) : Host.Outcome State Fault Refusal :=
  .next (whenRunning (handRecallTimeout l) s).sendIfIdle

end Sys2Proof.Machine
end

