-- ==== Sys2Proof/Machine/LineCommands.lean ====
section
/-! DEFINITION. The meanings of the line commands RING, STOP_RING, CONNECT, RELEASE_LINE, TONE, BLOCK_POLITE,
BLOCK_FORCED, UNBLOCK, REMAP, WATCH and QUERY_LINE. Refusal reasons: 1 BUSY, 2 STATE, 3 BLOCKED, 4 FAULT,
5 NO CIRCUIT (R160). -/

namespace Sys2Proof.Machine

/-- A RING taken for an IDLE line: the ring context, RING QUEUED, the queue entry, and a placement attempt
(R55, R109, R111). -/
def takeRing (c : RingContext) (l : Line) (s : State) : State :=
  handSeizeConfirmed l (attemptPlacement ((transition l .ringQueued id (s.setRing l c)).queueNew l))

/-- RING on a line in each state (R55). -/
def ringLine (p1 p2 : Octet) (l : Line) (s : State) : State :=
  match (s.line l).state with
  | .idle => takeRing (ringContextOf p1 p2) l s
  | .blocked => refuse l 1 3 s
  | .fault => refuse l 1 4 s
  | _ => refuse l 1 1 s

/-- STOP RING on a line (R59). -/
def stopRingLine (l : Line) (s : State) : State :=
  if (s.line l).state.isRing then enterIdle l id s else s

/-- CONNECT on a line (R60). -/
def connectLine (l : Line) (s : State) : State :=
  if (s.line l).state.isDialling then enterCall l .connected id s else refuse l 3 2 s

/-- RELEASE LINE on a line (R61). -/
def releaseLine (l : Line) (s : State) : State :=
  match (s.line l).state with
  | .seizing | .dialTone | .dialing | .connected | .recallTone | .recallDialing =>
    enterCall l .parked id s
  | _ => stopRingLine l s

/-- TONE on a line (R62). -/
def toneLine (t : Tone) (l : Line) (s : State) : State :=
  if (s.line l).state = .connected || (s.line l).state = .parked then setTone l t s else refuse l 5 2 s

/-- Polite BLOCK on a line (R63). -/
def blockPoliteLine (l : Line) (s : State) : State :=
  match (s.line l).state with
  | .idle => transition l .blocked (queueLine .blocked l []) s
  | .blocked | .fault => s
  | _ => s.setBlockPending l true

/-- Forced BLOCK on a line (R64). -/
def blockForcedLine (l : Line) (s : State) : State :=
  if (s.line l).state.outOfService then s
  else transition l .blocked (queueLine .blocked l []) (s.setBlockPending l false)

/-- A line in FAULT whose circuit passes the tests of R66: the fault mark is cleared (R10) and the record is
rewritten fresh with its circuit kept; the line stands in FAULT until it returns to service. -/
def rewriteFaulted (l : Line) (c : CircuitNo) (s : State) : State :=
  (s.setCircuit c { s.circuit c with faultMark := false }).setLine l
    { LineRecord.fresh (some c) with state := .fault }

/-- UNBLOCK on a line (R65, R66). -/
def unblockLine (l : Line) (s : State) : State :=
  match (s.line l).state with
  | .blocked => returnToService l (s.setBlockPending l false)
  | .fault =>
    match (s.line l).circuit with
    | none => refuse l 7 5 s
    | some c =>
      if (s.circuit c).fault.asserted then refuse l 7 4 s
      else returnToService l (rewriteFaulted l c s)
  | _ => s.setBlockPending l false

/-- Compose a circuit that a line has left, if it had one. -/
def State.recomposeLeft (s : State) (c : Option CircuitNo) : State :=
  match c with
  | some c => s.recompose c
  | none => s

/-- A REMAP that passes its tests (R16): BLOCKED is reported from FAULT, LINE STATE within BLOCKED. -/
def moveToCircuit (c : CircuitNo) (l : Line) (s : State) : State :=
  let r := s.line l
  let s1 := s.setLine l { r with circuit := some c, timing := Timing.fresh, ring := none }
  (transition l .blocked
    (if r.state = .fault then queueLine .blocked l [] else queueLineState l) s1).recomposeLeft r.circuit

/-- REMAP on a line: the four tests of R15 in their order. -/
def remapLine (target : Octet) (l : Line) (s : State) : State :=
  if !(s.line l).state.outOfService then refuse l 8 2 s
  else
    match remapTarget target with
    | none => refuse l 8 5 s
    | some c =>
      if (s.owner c).isSome then refuse l 8 5 s
      else if (s.circuit c).faultMark then refuse l 8 5 s
      else moveToCircuit c l s

/-- WATCH on a line (R67). -/
def watchLine (setting : Octet) (l : Line) (s : State) : State :=
  s.setLine l { s.line l with watch := setting ≠ 0 }

/-- RING (R55). -/
def execRing (h : CommandHeader) (p1 p2 : Octet) (s : State) : Host.Outcome State Fault Refusal :=
  .next (lineCommand h fullMask (ringLine p1 p2) s)

/-- STOP RING, with its mask (R59). -/
def execStopRing (h : CommandHeader) (s : State) : Host.Outcome State Fault Refusal :=
  .next (lineCommand h h.mask stopRingLine s)

/-- CONNECT (R60). -/
def execConnect (h : CommandHeader) (s : State) : Host.Outcome State Fault Refusal :=
  .next (lineCommand h fullMask connectLine s)

/-- RELEASE LINE (R61). -/
def execReleaseLine (h : CommandHeader) (s : State) : Host.Outcome State Fault Refusal :=
  .next (lineCommand h fullMask releaseLine s)

/-- TONE (R62). -/
def execTone (h : CommandHeader) (selection : Octet) (s : State) : Host.Outcome State Fault Refusal :=
  .next (lineCommand h fullMask (toneLine (toneOf selection)) s)

/-- BLOCK with parameter 0, with its mask (R63). -/
def execBlockPolite (h : CommandHeader) (s : State) : Host.Outcome State Fault Refusal :=
  .next (lineCommand h h.mask blockPoliteLine s)

/-- BLOCK with a parameter that is not 0, with its mask (R64). A parameter of 0 selects the polite form. -/
def execBlockForced (h : CommandHeader) (form : Octet) (s : State) : Host.Outcome State Fault Refusal :=
  .next (lineCommand h h.mask (if form = 0 then blockPoliteLine else blockForcedLine) s)

/-- UNBLOCK, with its mask (R65, R66). -/
def execUnblock (h : CommandHeader) (s : State) : Host.Outcome State Fault Refusal :=
  .next (lineCommand h h.mask unblockLine s)

/-- REMAP (R15, R16). -/
def execRemap (h : CommandHeader) (target : Octet) (s : State) : Host.Outcome State Fault Refusal :=
  .next (lineCommand h fullMask (remapLine target) s)

/-- WATCH (R67). -/
def execWatch (h : CommandHeader) (setting : Octet) (s : State) : Host.Outcome State Fault Refusal :=
  .next (lineCommand h fullMask (watchLine setting) s)

/-- QUERY LINE (R157). -/
def execQueryLine (h : CommandHeader) (s : State) : Host.Outcome State Fault Refusal :=
  .next (lineCommand h fullMask queueLineState s)

end Sys2Proof.Machine
end

