-- ==== Sys2Proof/Machine/PeerFrames.lean ====
section
/-! DEFINITION. The meanings of the frames of peers, PEER_CLAIM, PEER_RELEASE, PEER_SUMMARY, PEER_WITHDRAW and
PEER_REPORT, and of OWN_NUMBER_FRAME and FRAME_DISCARD. -/

namespace Sys2Proof.Machine

/-- The row of a station number 1..15; number 0 has none and callers exclude it. -/
def rowIndex (station : StationNo) : Fin 15 := ⟨station.val - 1, by omega⟩

/-- Apply a change to the row of a peer; station 0 has no row, and the table takes frames in STARTING and ACTIVE
alone (R89, R106). -/
def updateRow (station : StationNo) (f : PeerRow → PeerRow) (s : State) : State :=
  if s.running && station ≠ 0 then
    { s with table := { s.table with
        peers := s.table.peers.set (rowIndex station) (f s.table.peers[rowIndex station]) } }
  else s

/-- A CLAIM on a row: saturating at 255 (R90). -/
def PeerRow.claimed (w : Nat) (set : PhaseSet) (r : PeerRow) : PeerRow where
  cells := tabulate fun p => if inSet set p then min (r.cells[p] + w) 255 else r.cells[p]
  present := true
  age := 0

/-- A RELEASE on a row: floor 0 (R91). -/
def PeerRow.released (w : Nat) (set : PhaseSet) (r : PeerRow) : PeerRow where
  cells := tabulate fun p => if inSet set p then r.cells[p] - w else r.cells[p]
  present := true
  age := 0

/-- A SUMMARY on a row (R92). -/
def PeerRow.summarised (cells : Vector Octet 8) (_ : PeerRow) : PeerRow where
  cells := tabulate fun p => cells[p].toNat
  present := true
  age := 0

/-- A WITHDRAW on a row (R93). -/
def PeerRow.withdrawn (_ : PeerRow) : PeerRow := PeerRow.absent

/-- A REPORT on a row: an ABSENT row has all cells 0 (R86) and becomes PRESENT so (R94). -/
def PeerRow.reported (r : PeerRow) : PeerRow where
  cells := if r.present then r.cells else Vector.replicate 8 0
  present := true
  age := 0

/-- PEER_CLAIM (R90). -/
def execPeerClaim (station : StationNo) (_line : Line) (weight : Fin 16) (set : PhaseSet) (s : State) :
    Host.Outcome State Fault Refusal :=
  .next (receiveFrame station (updateRow station (PeerRow.claimed weight.val set)) s)

/-- PEER_RELEASE (R91). -/
def execPeerRelease (station : StationNo) (_line : Line) (weight : Fin 16) (set : PhaseSet) (s : State) :
    Host.Outcome State Fault Refusal :=
  .next (receiveFrame station (updateRow station (PeerRow.released weight.val set)) s)

/-- PEER_SUMMARY (R92). -/
def execPeerSummary (station : StationNo) (cells : Vector Octet 8) (s : State) :
    Host.Outcome State Fault Refusal :=
  .next (receiveFrame station (updateRow station (PeerRow.summarised cells)) s)

/-- PEER_WITHDRAW (R93). -/
def execPeerWithdraw (station : StationNo) (s : State) : Host.Outcome State Fault Refusal :=
  .next (receiveFrame station (updateRow station PeerRow.withdrawn) s)

/-- PEER_REPORT: the code, line and value of the report are not examined (R94), beyond the length that R144
allows. -/
def execPeerReport (station : StationNo) (_code _number : Octet) (values : List Octet) (s : State) :
    Host.Outcome State Fault Refusal :=
  .next (if values.length ≤ 16 then receiveFrame station (updateRow station PeerRow.reported) s
    else discardFrame s)

/-- OWN_NUMBER_FRAME: a conflict whatever the kind (R148). -/
def execOwnNumberFrame (_kind : FrameKind) (s : State) : Host.Outcome State Fault Refusal :=
  .next (receiveFrame s.own id s)

/-- FRAME_DISCARD (R144). Octets that are no ground for a discard are no event of this row (log 3). -/
def execFrameDiscard (octets : List Octet) (framing : Bool) (s : State) :
    Host.Outcome State Fault Refusal :=
  .next (if discarded octets framing then discardFrame s else s)

end Sys2Proof.Machine
end

