-- ==== Sys2Proof/Machine/RecordStore.lean ====
section
/-! DEFINITION. The meanings of LINE_RECORD_CORRECTION, LINE_RECORD_DOUBLE_BIT_ERROR, STATION_RECORD_CORRECTION and
STATION_RECORD_DOUBLE_BIT_ERROR. Which words an access finds in error is an operand (log 8). -/

namespace Sys2Proof.Machine

/-- The words of a set that an access of the record reads: the ring words only in a ring state (R166). -/
def LineRecord.reads (r : LineRecord) (w : LineWords) : LineWords :=
  { w with
    ringParameters := w.ringParameters && r.state.isRing
    ringCounts := w.ringCounts && r.state.isRing }

/-- CORRECTED for a line, and its correction mark (R167). -/
def reportCorrection (l : Line) (s : State) : State :=
  let s1 := queueLine .corrected l [0] s
  s1.setLine l { s1.line l with correctionMark := true }

/-- A correction of a line record; a repeated one sends the line to FAULT with cause MEMORY (R167, R168). -/
def correctLineRecord (l : Line) (s : State) : State :=
  if (s.line l).correctionMark then enterFault l 1 (reportCorrection l s) else reportCorrection l s

/-- The store cannot show that the line was outside the ring states, or cannot read its ring context (R169). -/
def LineRecord.blindFor (r : LineRecord) (u : LineWords) : Bool :=
  u.status || (r.state.isRing && (u.ringParameters || u.ringCounts))

/-- The record as the store rewrites it after a double-bit error (table of R169). -/
def LineRecord.rewritten (r : LineRecord) (u : LineWords) : LineRecord where
  state := .fault
  tone := .none
  watch := r.watch && !u.status
  blockPending := false
  resyncDue := r.resyncDue && !u.status
  circuit := none
  timing := Timing.fresh
  ring := none
  correctionMark := r.correctionMark

/-- The ring-leave notice of R169: without context where the store is blind (R124), with it where the status word
showed a ring state, none otherwise. -/
def memoryRingLeave (l : Line) (u : LineWords) (s : State) : State :=
  let r := s.line l
  if r.blindFor u then s.ringLeaveBlind l
  else if r.state.isRing then s.ringLeave l r.state r.ring
  else s

/-- Compose the circuit a line has lost, if it had one (R14). -/
def State.recomposeLost (s : State) (c : Option CircuitNo) : State :=
  match c with
  | some c => s.recompose c
  | none => s

/-- A double-bit error in a line record (R169); in FAULT it makes no second FAULT report and hands no notice
(R170). -/
def lineMemoryFault (l : Line) (u : LineWords) (s : State) : State :=
  let r := s.line l
  if r.state = .fault then (s.setLine l (r.rewritten u)).recomposeLost r.circuit
  else
    let s1 := (memoryRingLeave l u s).setLine l (r.rewritten u)
    (traceChange l r.state (queueLine .fault l [1] s1)).recomposeLost r.circuit

/-- An access of a line record with a double-bit error: CORRECTED for words corrected at the same access comes
before the entry into FAULT (R169; log 19). -/
def takeLineDoubleBit (l : Line) (u c : LineWords) (s : State) : State :=
  let r := s.line l
  if s.running && (r.reads u).any then
    lineMemoryFault l (r.reads u) (if (r.reads c).any then reportCorrection l s else s)
  else s

/-- Two readable strap copies that differ take the station to SILENT (R172). -/
def compareStraps (s : State) : State :=
  match s.station.strap1, s.station.strap2 with
  | some a, some b => if a = b then s else goSilent s
  | _, _ => s

/-- A correction of the station record (R172). -/
def correctStationRecord (s : State) : State := compareStraps (queueStationReport .corrected [1] s)

/-- Whether an unreadable station state word is taken to have held DOWN (R173). -/
def State.foundDown (s : State) : Bool :=
  !s.control.alarm && (s.control.warning.asserted || 0 < s.control.restartCount)

/-- The strap copies as an access reads them: one with a double-bit error supplies nothing (spec/09 section 9.4). Where
neither can be read, the straps are a fresh free value from there on (R173, log 7). -/
def State.readStraps (u : StationWords) (s : State) : State :=
  let a := if u.strap1 then none else s.station.strap1
  let b := if u.strap2 then none else s.station.strap2
  { s with
    station := { s.station with strap1 := a, strap2 := b }
    freeDraws := if a.isNone && b.isNone then s.freeDraws + 1 else s.freeDraws }

/-- Rewrite an unreadable strap copy from the other (R173). -/
def repairStraps (s : State) : State :=
  { s with station := { s.station with
      strap1 := s.station.strap1.or s.station.strap2
      strap2 := s.station.strap2.or s.station.strap1 } }

/-- The answer to one unreadable strap copy or an unreadable station state word: DOWN is kept, with the state word
rewritten where it was unreadable, and every other state takes STATION RESET behaviour (R173). -/
def rebuildStation (stateBad : Bool) (errors : CircuitWordErrors) (s : State) : State :=
  if stateBad then
    if s.foundDown then
      ({ s with station := { s.station with state := .down, conflicts := 0 } }).recomposeAll
    else stationReset errors s
  else if s.station.state = .down then s
  else stationReset errors s

/-- A double-bit error in the station record, its copies as the access reads them: SILENT where neither can be read (R173).
DESIGN CHOICE, log 26: where the station state word is unreadable too, R173 gives no conflict count, and the one that stood
is kept. DESIGN CHOICE, log 27: an unreadable copy beside a readable one is rewritten from it and answered by the first row
of the table, in a SILENT station whose two copies differed too, where the text after the table has the station leave SILENT
by power-on reset alone. -/
def stationMemoryFault (stateBad : Bool) (errors : CircuitWordErrors) (s : State) : State :=
  if s.station.strap1.isNone && s.station.strap2.isNone then goSilent s
  else rebuildStation stateBad errors (repairStraps s)

/-- An access of the station record with a double-bit error: a correction of the same access is reported first
(R173). DESIGN CHOICE, log 7: where that access can read neither strap copy, R173 gives the station CORRECTED no number, and
the number is the free value that the straps then read as. -/
def takeStationDoubleBit (u c : StationWords) (errors : CircuitWordErrors) (s : State) : State :=
  if u.any then
    let s1 := s.readStraps u
    stationMemoryFault u.state errors (if c.any then correctStationRecord s1 else s1)
  else s

/-- LINE_RECORD_CORRECTION (R167). -/
def execLineRecordCorrection (l : Line) (words : LineWords) (s : State) : Host.Outcome State Fault Refusal :=
  .next (if s.running && ((s.line l).reads words).any then correctLineRecord l s else s).sendIfIdle

/-- LINE_RECORD_DOUBLE_BIT_ERROR (R169). -/
def execLineRecordDoubleBitError (l : Line) (unreadable corrected : LineWords) (s : State) :
    Host.Outcome State Fault Refusal :=
  .next (takeLineDoubleBit l unreadable corrected s).sendIfIdle

/-- STATION_RECORD_CORRECTION (R172). -/
def execStationRecordCorrection (words : StationWords) (s : State) : Host.Outcome State Fault Refusal :=
  .next (if words.any then correctStationRecord s else s).sendIfIdle

/-- STATION_RECORD_DOUBLE_BIT_ERROR (R173). -/
def execStationRecordDoubleBitError (unreadable corrected : StationWords) (errors : CircuitWordErrors)
    (s : State) : Host.Outcome State Fault Refusal :=
  .next (takeStationDoubleBit unreadable corrected errors s).sendIfIdle

end Sys2Proof.Machine
end

