-- ==== Sys2Proof/Machine/StationCommands.lean ====
section
/-! DEFINITION. The meanings of the station commands QUERY_STATION, QUERY_TABLE, START and STATION_RESET, and
of UNKNOWN_COMMAND. -/

namespace Sys2Proof.Machine

/-- Octet 1 of STATION STATE (R104): the query is taken in STARTING and ACTIVE alone (R155). -/
def stationStateOctet (t : StationState) : Octet := if t = .active then 1 else 0

/-- The twelve value octets of STATION STATE (R104). -/
def State.stationStateValues (s : State) : List Octet :=
  [stationStateOctet s.station.state, octet s.table.baseBudget, flagOctet s.table.reduced.asserted,
    octet s.ringUnit.queue.length] ++ s.table.ownRow.toList.map octet

/-- The sixteen value octets of TABLE VIEW: each phase total, higher-order octet first (R105). -/
def State.tableViewValues (s : State) : List Octet :=
  (List.finRange 8).flatMap fun p => [octet (s.phaseTotal p / 256), octet (s.phaseTotal p % 256)]

/-- START in HELD enters STARTING; the supply restart has set every start value already (R176). -/
def startStation (s : State) : State :=
  if s.station.state = .held then heedWarning (s.setStationState .starting).recomposeAll else s

/-- QUERY STATION (R104, R158). -/
def execQueryStation (h : CommandHeader) (s : State) : Host.Outcome State Fault Refusal :=
  .next (stationCommand h StationState.running
    (fun t => queueStationReport .stationState t.stationStateValues t) s)

/-- QUERY TABLE (R105, R158). -/
def execQueryTable (h : CommandHeader) (s : State) : Host.Outcome State Fault Refusal :=
  .next (stationCommand h StationState.running
    (fun t => queueStationReport .tableView t.tableViewValues t) s)

/-- START (R159, R176). -/
def execStart (h : CommandHeader) (s : State) : Host.Outcome State Fault Refusal :=
  .next (stationCommand h StationState.takesStart startStation s)

/-- STATION RESET (R159, R177). -/
def execStationReset (h : CommandHeader) (errors : CircuitWordErrors) (s : State) :
    Host.Outcome State Fault Refusal :=
  .next (stationCommand h StationState.takesReset (stationReset errors) s)

/-- A COMMAND with an unknown code that passes its check: ignored, its slot left recessive (R144). A known code is
no frame of this row, and nothing changes (log 3). -/
def execUnknownCommand (h : CommandHeader) (code : Octet) (s : State) : Host.Outcome State Fault Refusal :=
  .next (if knownCode code then s else receiveCommand h false false id s)

end Sys2Proof.Machine
end

