-- ==== Sys2Proof/Machine/StationEvents.lean ====
section
/-! DEFINITION. The meanings of POWER_ON_RESET, SUPPLY_RESTART, SUPPLY_WARNING, WARNING_NEGATED and
REDUCED_RING_POWER_CHANGE. -/

namespace Sys2Proof.Machine

/-- The restart count stands at 20 in DOWN (R176). -/
def State.restartDue (s : State) : Bool := s.station.state = .down && 20 ≤ s.control.restartCount

/-- A supply restart, taken when it is due. -/
def takeRestart (errors : CircuitWordErrors) (s : State) : State :=
  if s.restartDue then supplyRestart errors s else s

/-- Write the warning filter. -/
def State.setWarning (s : State) (f : InputFilter) : State :=
  { s with control := { s.control with warning := f } }

/-- The warning filter accepts ASSERTED if that is due, and an ASSERTED filter takes a station in STARTING,
ACTIVE or HELD to DOWN (R175). -/
def takeWarning (s : State) : State :=
  heedWarning (if s.control.warning.changeDue false then s.setWarning s.control.warning.accepted else s)

/-- The warning filter accepts NORMAL if that is due; nothing else changes (R175). -/
def takeWarningNegated (s : State) : State :=
  if s.control.warning.changeDue true then s.setWarning s.control.warning.accepted else s

/-- Write the reduced-ring-power filter. -/
def State.setReduced (s : State) (f : InputFilter) : State :=
  { s with table := { s.table with reduced := f } }

/-- The reduced-ring-power filter accepts a change if one is due, and the base in force follows it (R100,
R101). A change whose third sample was taken before the station stopped is accepted all the same (log 2). -/
def takeReducedChange (s : State) : State :=
  if s.table.reduced.run = 3 then s.setReduced s.table.reduced.accepted else s

/-- POWER_ON_RESET (R174). -/
def execPowerOnReset (pins : Straps) (s : State) : Host.Outcome State Fault Refusal := .next (powerOn pins s)

/-- SUPPLY_RESTART (R176). -/
def execSupplyRestart (errors : CircuitWordErrors) (s : State) : Host.Outcome State Fault Refusal :=
  .next (takeRestart errors s)

/-- SUPPLY_WARNING (R175). -/
def execSupplyWarning (s : State) : Host.Outcome State Fault Refusal := .next (takeWarning s).sendIfIdle

/-- WARNING_NEGATED (R175). -/
def execWarningNegated (s : State) : Host.Outcome State Fault Refusal := .next (takeWarningNegated s)

/-- REDUCED_RING_POWER_CHANGE (R101). -/
def execReducedRingPowerChange (s : State) : Host.Outcome State Fault Refusal := .next (takeReducedChange s)

end Sys2Proof.Machine
end

