-- ==== Sys2Proof/Machine/Tick.lean ====
section
/-! DEFINITION. The meaning of TICK: what one 5 ms tick does to every input filter, count and timer. A threshold
that a count reaches is left due for its own row; an event still due from the tick before is taken first
(log 2). -/

namespace Sys2Proof.Machine

/-- One sample of a two-valued filter (R6, R100, R175); 3 leaves the change due. -/
def InputFilter.sample (v : Bool) (f : InputFilter) : InputFilter :=
  { f with run := if v = f.asserted then 0 else f.run + 1 }

/-- One sample of a hook filter (R6, R7); 3 leaves the edge or settle due. -/
def HookFilter.sample (h : Hook) (f : HookFilter) : HookFilter :=
  match f.state with
  | .settled old => { f with run := if h = old then 0 else f.run + 1 }
  | .unsettled candidate =>
    if f.run = 0 ∨ h ≠ candidate then ⟨.unsettled h, 1⟩ else { f with run := f.run + 1 }

/-- The hook sample of a circuit: from the trip input while the ring relay is operated, from the loop input
otherwise (R5). -/
def hookSample (i : Samples) (relay : Bool) (c : CircuitNo) : Hook :=
  if (if relay then i.trip.getLsbD c.val else i.loop.getLsbD c.val) then .offHook else .onHook

/-- The scan of one circuit: no loop or trip sample while blanked, the fault input always (R3, R4, R5). -/
def Circuit.scanned (i : Samples) (c : CircuitNo) (x : Circuit) : Circuit :=
  { x with
    hook := if 0 < x.blanking then x.hook else x.hook.sample (hookSample i x.ringRelay c)
    blanking := x.blanking - 1
    fault := x.fault.sample (i.fault.getLsbD c.val) }

/-- The cap of an edge count (R21). -/
def edgeCap (p : Profile) : Sense → Nat
  | .none => 0
  | .brk => clearTicks p
  | .mk => interdigitTimeoutTicks p

/-- The cap of the state timer (R34). -/
def timerCap (p : Profile) (t : LineState) : Nat :=
  if t = .dialTone then dialToneTimeoutTicks p else recallTimeoutTicks p

/-- The advance of a count that stops at its cap. -/
def advanceTo (cap n : Nat) : Nat := if n < cap then n + 1 else n

/-- The advance of a timing context by one tick (R21). -/
def Timing.advanced (p : Profile) (st : LineState) (t : Timing) : Timing :=
  { t with
    edgeCount := if t.sense = .none then t.edgeCount else advanceTo (edgeCap p t.sense) t.edgeCount
    stateTimer := t.stateTimer.map (advanceTo (timerCap p st)) }

/-- The Cadence Timer one tick later: the counts rise (R70), the mark line is sampled with the own drive on it and
a dominant sample after a recessive one is a mark (R73), and the own drive is released (R72). -/
def CadenceTimer.advanced (mark : Bool) (t : CadenceTimer) : CadenceTimer :=
  { t with
    tick := t.tick + 1
    sinceStart := advanceTo 100 t.sinceStart
    markDrive := false
    lastMark := mark || t.markDrive
    markSeen := (mark || t.markDrive) && !t.lastMark }

/-- What a tick does in STARTING and ACTIVE: scan, timing contexts, Cadence Timer, reduced ring power. -/
def advanceBlocks (i : Samples) (s : State) : State :=
  { s with
    circuits := tabulate fun c => (s.circuit c).scanned i c
    lines := tabulate fun l =>
      { s.line l with timing := (s.line l).timing.advanced s.profile (s.line l).state }
    cadence := s.cadence.advanced i.mark
    table := { s.table with reduced := s.table.reduced.sample i.reduced } }

/-- The warning filter's sample, taken in every station state (R175), and the restart count in DOWN (R176). -/
def StationControl.advanced (warning down : Bool) (k : StationControl) : StationControl :=
  { k with
    warning := k.warning.sample warning
    restartCount := if down then (if warning then 0 else advanceTo 20 k.restartCount) else k.restartCount }

/-- One tick on a part with nothing due. -/
def advanceTick (i : Samples) (s : State) : State :=
  let s1 := if s.running then advanceBlocks i s else s
  { s1 with control := s1.control.advanced i.warning (s.station.state = .down) }

/-- The events of one circuit that are due. -/
def settleCircuit (c : CircuitNo) (s : State) : State :=
  takeFaultNormal c (takeFaultAsserted c (takeSettleNotice c (takeOffHookEdge c (takeOnHookEdge c s))))

/-- Every event still due from the tick before, in the order of DESIGN CHOICE log 16: a line's thresholds before
its edge (R21), then the filters, the cadence, the supply. -/
def settleDue (s : State) : State :=
  let s1 := (List.finRange 16).foldl (fun s l => whenRunning (handDue l) s) s
  let s2 := (List.finRange 18).foldl (fun s c => settleCircuit c s) s1
  let s3 := takeMark (takeCycleEnd (takePhaseBoundary (takeOnPortion (takeReducedChange s2))))
  takeRestart CircuitWordErrors.none (takeWarning (takeWarningNegated s3))

/-- TICK (R4, R21, R70, R100, R175, R176). -/
def execTick (inputs : Samples) (s : State) : Host.Outcome State Fault Refusal :=
  .next (advanceTick inputs (settleDue s)).sendIfIdle

end Sys2Proof.Machine
end

