-- ==== Sys2Proof/Machine/Dispatch.lean ====
section
/-! DEFINITION. The dispatch of a command to its meaning: one arm per constructor of `Instr`. -/

namespace Sys2Proof.Machine

def exec (i : Instr) (s : State) : Host.Outcome State Fault Refusal :=
  match i with
  | .powerOnReset pins => Sys2Proof.Machine.execPowerOnReset pins s
  | .supplyRestart errors => Sys2Proof.Machine.execSupplyRestart errors s
  | .supplyWarning => Sys2Proof.Machine.execSupplyWarning s
  | .warningNegated => Sys2Proof.Machine.execWarningNegated s
  | .ring h p1 p2 => Sys2Proof.Machine.execRing h p1 p2 s
  | .stopRing h => Sys2Proof.Machine.execStopRing h s
  | .connect h => Sys2Proof.Machine.execConnect h s
  | .releaseLine h => Sys2Proof.Machine.execReleaseLine h s
  | .tone h selection => Sys2Proof.Machine.execTone h selection s
  | .blockPolite h => Sys2Proof.Machine.execBlockPolite h s
  | .blockForced h form => Sys2Proof.Machine.execBlockForced h form s
  | .unblock h => Sys2Proof.Machine.execUnblock h s
  | .remap h target => Sys2Proof.Machine.execRemap h target s
  | .watch h setting => Sys2Proof.Machine.execWatch h setting s
  | .queryLine h => Sys2Proof.Machine.execQueryLine h s
  | .queryStation h => Sys2Proof.Machine.execQueryStation h s
  | .queryTable h => Sys2Proof.Machine.execQueryTable h s
  | .start h => Sys2Proof.Machine.execStart h s
  | .stationReset h errors => Sys2Proof.Machine.execStationReset h errors s
  | .unknownCommand h code => Sys2Proof.Machine.execUnknownCommand h code s
  | .peerClaim station line weight set => Sys2Proof.Machine.execPeerClaim station line weight set s
  | .peerRelease station line weight set => Sys2Proof.Machine.execPeerRelease station line weight set s
  | .peerSummary station cells => Sys2Proof.Machine.execPeerSummary station cells s
  | .peerWithdraw station => Sys2Proof.Machine.execPeerWithdraw station s
  | .peerReport station code number values => Sys2Proof.Machine.execPeerReport station code number values s
  | .ownNumberFrame kind => Sys2Proof.Machine.execOwnNumberFrame kind s
  | .frameDiscard octets framing => Sys2Proof.Machine.execFrameDiscard octets framing s
  | .busIdle => Sys2Proof.Machine.execBusIdle s
  | .contestLost => Sys2Proof.Machine.execContestLost s
  | .readBackMismatch => Sys2Proof.Machine.execReadBackMismatch s
  | .ownClaimCompletes => Sys2Proof.Machine.execOwnClaimCompletes s
  | .ownReleaseCompletes => Sys2Proof.Machine.execOwnReleaseCompletes s
  | .ownReportCompletes => Sys2Proof.Machine.execOwnReportCompletes s
  | .ownSummaryCompletes => Sys2Proof.Machine.execOwnSummaryCompletes s
  | .ownWithdrawCompletes => Sys2Proof.Machine.execOwnWithdrawCompletes s
  | .onHookEdge c => Sys2Proof.Machine.execOnHookEdge c s
  | .offHookEdge c => Sys2Proof.Machine.execOffHookEdge c s
  | .settle c => Sys2Proof.Machine.execSettle c s
  | .faultAssertedEdge c => Sys2Proof.Machine.execFaultAssertedEdge c s
  | .faultNormalEdge c => Sys2Proof.Machine.execFaultNormalEdge c s
  | .clearReached l => Sys2Proof.Machine.execClearReached l s
  | .seizeConfirmed l => Sys2Proof.Machine.execSeizeConfirmed l s
  | .tripConfirmed l => Sys2Proof.Machine.execTripConfirmed l s
  | .digitEnd l => Sys2Proof.Machine.execDigitEnd l s
  | .interdigitTimeout l => Sys2Proof.Machine.execInterdigitTimeout l s
  | .dialToneTimeout l => Sys2Proof.Machine.execDialToneTimeout l s
  | .recallTimeout l => Sys2Proof.Machine.execRecallTimeout l s
  | .phaseBoundary => Sys2Proof.Machine.execPhaseBoundary s
  | .cycleStart => Sys2Proof.Machine.execCycleStart s
  | .mark => Sys2Proof.Machine.execMark s
  | .onPortionBoundary => Sys2Proof.Machine.execOnPortionBoundary s
  | .reducedRingPowerChange => Sys2Proof.Machine.execReducedRingPowerChange s
  | .lineRecordCorrection l words => Sys2Proof.Machine.execLineRecordCorrection l words s
  | .lineRecordDoubleBitError l unreadable corrected => Sys2Proof.Machine.execLineRecordDoubleBitError l unreadable corrected s
  | .stationRecordCorrection words => Sys2Proof.Machine.execStationRecordCorrection words s
  | .stationRecordDoubleBitError unreadable corrected errors => Sys2Proof.Machine.execStationRecordDoubleBitError unreadable corrected errors s
  | .tick inputs => Sys2Proof.Machine.execTick inputs s
  | .startBit => Sys2Proof.Machine.execStartBit s

end Sys2Proof.Machine
end

