-- ==== Sys2Proof/Machine/BitClock.lean ====
section
/-! DEFINITION. One bit time of the Shelf Signalling Bus: what this station drives on the data wire (pin SSD), what it
reads there, and what the frame in transmission and the receive assembly do with it. A level is true for recessive (1) and
false for dominant (0), as R134 reads them. -/

namespace Sys2Proof.Machine

/-- The level of the own frame in the bit now being sent; the acknowledge slot is left recessive (R135, R142). -/
def TxFrame.level (f : TxFrame) : Bool :=
  match f.phase with
  | .contest | .body => octetLevel (f.octets.getD f.octet 255) f.bit
  | .ack => true

/-- The assembly stands in the acknowledge slot: every octet of the frame is in (R142, R143). -/
def RxAssembly.inSlot (rx : RxAssembly) : Bool :=
  rx.state = .assembling && (match rx.expected with
    | some n => n ≤ rx.octets.length
    | none => false)

/-- What the station drives on the data wire in this bit time: its own frame, dominant in the slot of a COMMAND it has
taken, and nothing otherwise (R134, R135, R142). -/
def BusInterface.drive (b : BusInterface) : Bool :=
  match b.tx with
  | some f => f.level
  | none => !(b.rx.inSlot && b.rx.decided = some true)

/-- The level read at the middle of a bit: the wired-AND of the own drive and of the others', and recessive on an open
connection (R134, R152). -/
def WireInput.read (drive : Bool) : WireInput → Bool
  | .released => drive
  | .dominant => false
  | .broken => true

/-- A start bit read recessive, or a stop bit read dominant (R144). -/
def framingError (bits : List Bool) (v : Bool) : Bool := if bits = [] then v else bits.length = 9 && !v

/-- The assembly reads one more bit of a frame; none where it discards the frame at that bit. A fault that an octet
shows is found at its stop bit (R143, R144, log 5). -/
def RxAssembly.readBit (v : Bool) (rx : RxAssembly) : Option RxAssembly :=
  if framingError rx.bits v then none
  else if rx.bits.length < 9 then some { rx with bits := rx.bits ++ [v] }
  else if discarded (rx.octets ++ [octetOfBits rx.bits.tail]) false then none
  else some { rx with
    bits := []
    octets := rx.octets ++ [octetOfBits rx.bits.tail]
    expected := expectedLength (rx.octets ++ [octetOfBits rx.bits.tail]) }

/-- At the end of the check octet Command Dispatch decides on a COMMAND (R142, R155). -/
def State.decideCommand (s : State) : State :=
  if s.bus.rx.inSlot then
    s.setBus { s.bus with rx := { s.bus.rx with decided := (readFrame s.bus.rx.octets).bind s.decision } }
  else s

/-- The receive assembly takes one bit (R136, R143, R144). -/
def assembleBit (v : Bool) (s : State) : State :=
  match s.bus.rx.state with
  | .waiting =>
    if v then
      if s.bus.rx.recessive < 11 then
        s.setBus { s.bus with rx := { s.bus.rx with recessive := s.bus.rx.recessive + 1 } }
      else becomeIdle s
    else s.setBus { s.bus with rx := { s.bus.rx with recessive := 0 } }
  | .idle => s.beginIfReady
  | .assembling =>
    match s.bus.rx.readBit v with
    | some rx => (s.setBus { s.bus with rx := rx }).decideCommand
    | none => s.endFrame false

/-- The read-back: the own frame goes on by a bit where the bit read is the bit sent, loses the contest in its header
where it is not, and is abandoned after it (R134, R137, R141). -/
def readBack (v : Bool) (s : State) : State :=
  match s.bus.tx with
  | some f =>
    if f.phase = .ack ∨ v = f.level then s.setBus { s.bus with tx := some f.nextBit }
    else if f.phase = .contest then loseContest s
    else abandonOnMismatch s
  | none => s

/-- The row that completes the own frame of a kind (R147). -/
def completionOf : FrameKind → Option Instr
  | .withdraw => some .ownWithdrawCompletes
  | .release => some .ownReleaseCompletes
  | .claim => some .ownClaimCompletes
  | .command => none
  | .report => some .ownReportCompletes
  | .summary => some .ownSummaryCompletes

/-- The row of the frame that completes with this bit time, its acknowledge slot (R135, R141, R143, R145). -/
def State.completing (s : State) : Option Instr :=
  match s.bus.tx with
  | some f => if f.phase = .ack then completionOf f.kind else none
  | none => if s.bus.rx.inSlot then readFrame s.bus.rx.octets else none

/-- A dominant bit on an idle bus is the start bit of a frame (R136, R143). -/
def beginOnDominant (w : WireInput) (s : State) : State :=
  if s.bus.rx.state = .idle ∧ w = .dominant then takeStartBit s else s

/-- One bit time of the data wire (R134): a frame whose slot it is completes, and otherwise the bit is compared with the
bit sent and taken by the assembly. -/
def bitTime (w : WireInput) (s : State) : Host.Outcome State Fault Refusal :=
  match (beginOnDominant w s).completing with
  | some i => exec i (beginOnDominant w s)
  | none =>
    let v := w.read (beginOnDominant w s).bus.drive
    .next (assembleBit v (readBack v (beginOnDominant w s)))

end Sys2Proof.Machine
end

