-- ==== Sys2Proof/Machine/Step.lean ====
section
/-! DEFINITION. One step of the block: the command at the front of its queue, or a bus bit time when none
waits. -/

namespace Sys2Proof.Machine

/-- One step. With no command waiting, one bit time of the bus passes, with the wire as `wire` lists it and no other
station driving it where `wire` lists nothing (DESIGN CHOICE, log 4). -/
def step (s : State) : Host.Outcome State Fault Refusal :=
  match s.pending with
  | [] => bitTime (s.wire.headD .released) { s with wire := s.wire.tail }
  | c :: rest => exec c { s with pending := rest }

/-- The state with the command that a word spells put at the front of its queue; unchanged where the word spells
none. -/
def State.withFetchWord (s : State) (nbits w : Nat) : State :=
  match decodeTableWord nbits w with
  | some c => { s with pending := c :: s.pending }
  | none => s

end Sys2Proof.Machine
end

