-- ==== Sys2Proof/Safety.lean ====
section
/-! DEFINITION. The terms in which the statements speak of the block: when a row is taken, what the reports of a step
are, what a step leaves alone, and the invariants of the manual. -/

namespace Sys2Proof.Machine

/-- A COMMAND frame of another station completes at this station, and the step makes the decision on it too (R143,
R145, R155; log 20). -/
def State.Hears (s : State) (h : CommandHeader) : Prop :=
  s.receiving = true ∧ h.station ≠ s.own ∧ s.bus.rx.decided = none

/-- A line command of another station completes that addresses the line `l` alone, is allowed by the station state, and
has not been left untaken at its check octet (R154, R155, R156). -/
def State.Takes (s : State) (h : CommandHeader) (mask : Octet) (l : Line) : Prop :=
  s.receiving = true ∧ h.station ≠ s.own ∧ s.bus.rx.decided ≠ some false ∧ s.running = true
    ∧ addressedLines s.own h.address mask = [l]

/-- What the data wire brings in the bit time of an idle step (log 4). -/
def State.wireNow (s : State) : WireInput := s.wire.headD .released

/-- The state with the wire's next bit time taken off the list. -/
def State.wireTaken (s : State) : State := { s with wire := s.wire.tail }

/-- The header of a COMMAND row (R139). -/
def commandHeader : Instr → Option CommandHeader
  | .ring h _ _ | .stopRing h | .connect h | .releaseLine h | .tone h _ | .blockPolite h | .blockForced h _ | .unblock h
  | .remap h _ | .watch h _ | .queryLine h | .queryStation h | .queryTable h | .start h | .stationReset h _
  | .unknownCommand h _ => some h
  | .powerOnReset .. | .supplyRestart .. | .supplyWarning | .warningNegated | .peerClaim .. | .peerRelease ..
  | .peerSummary .. | .peerWithdraw .. | .peerReport .. | .ownNumberFrame .. | .frameDiscard .. | .busIdle
  | .contestLost | .readBackMismatch | .ownClaimCompletes | .ownReleaseCompletes | .ownReportCompletes
  | .ownSummaryCompletes | .ownWithdrawCompletes | .onHookEdge .. | .offHookEdge .. | .settle ..
  | .faultAssertedEdge .. | .faultNormalEdge .. | .clearReached .. | .seizeConfirmed .. | .tripConfirmed ..
  | .digitEnd .. | .interdigitTimeout .. | .dialToneTimeout .. | .recallTimeout .. | .phaseBoundary | .cycleStart
  | .mark | .onPortionBoundary | .reducedRingPowerChange | .lineRecordCorrection .. | .lineRecordDoubleBitError ..
  | .stationRecordCorrection .. | .stationRecordDoubleBitError .. | .tick .. | .startBit => none

/-- The octets of the frame that a frame row stands for, with the urgency bit its sender has set (R138, R139, R153); the
circuit words that a STATION RESET finds in error are no part of its frame. -/
def frameOctets (urgency : Bool) : Instr → Option (List Octet)
  | .ring h p1 p2 => some (commandFrame urgency h 1 [p1, p2])
  | .stopRing h => some (commandFrame urgency h 2 [])
  | .connect h => some (commandFrame urgency h 3 [])
  | .releaseLine h => some (commandFrame urgency h 4 [])
  | .tone h v => some (commandFrame urgency h 5 [v])
  | .blockPolite h => some (commandFrame urgency h 6 [0])
  | .blockForced h v => some (commandFrame urgency h 6 [v])
  | .unblock h => some (commandFrame urgency h 7 [])
  | .remap h v => some (commandFrame urgency h 8 [v])
  | .watch h v => some (commandFrame urgency h 9 [v])
  | .queryLine h => some (commandFrame urgency h 10 [])
  | .queryStation h => some (commandFrame urgency h 11 [])
  | .queryTable h => some (commandFrame urgency h 12 [])
  | .start h => some (commandFrame urgency h 13 [])
  | .stationReset h e => if e = ⟨0, 0⟩ then some (commandFrame urgency h 14 []) else none
  | .unknownCommand h code => some (commandFrame urgency h code [])
  | .peerClaim st l w set => some (claimFrame st l w.val set)
  | .peerRelease st l w set => some (releaseFrame st l w.val set)
  | .peerSummary st cells => some (withCheck (headerOctet .summary true st :: cells.toList))
  | .peerWithdraw st => some (withdrawFrame st)
  | .peerReport st code number values =>
    some (withCheck (headerOctet .report urgency st :: code :: number :: octet values.length :: values))
  | .powerOnReset .. | .supplyRestart .. | .supplyWarning | .warningNegated | .ownNumberFrame .. | .frameDiscard ..
  | .busIdle | .contestLost | .readBackMismatch | .ownClaimCompletes | .ownReleaseCompletes | .ownReportCompletes
  | .ownSummaryCompletes | .ownWithdrawCompletes | .onHookEdge .. | .offHookEdge .. | .settle ..
  | .faultAssertedEdge .. | .faultNormalEdge .. | .clearReached .. | .seizeConfirmed .. | .tripConfirmed ..
  | .digitEnd .. | .interdigitTimeout .. | .dialToneTimeout .. | .recallTimeout .. | .phaseBoundary | .cycleStart
  | .mark | .onPortionBoundary | .reducedRingPowerChange | .lineRecordCorrection .. | .lineRecordDoubleBitError ..
  | .stationRecordCorrection .. | .stationRecordDoubleBitError .. | .tick .. | .startBit => none

/-- A command that allows a mask, aimed by another header (R154). -/
def aimedAt (h : CommandHeader) : Instr → Instr
  | .stopRing _ => .stopRing h
  | .blockPolite _ => .blockPolite h
  | .blockForced _ v => .blockForced h v
  | .unblock _ => .unblock h
  | i => i

/-- A command aimed at some lines one after another, each time with the bus as it stands in `s` (R156). -/
def State.oneByOne (s : State) (i : Instr) (station : StationNo) (ls : List Line) : State :=
  ls.foldl (fun u l =>
    match exec (aimedAt ⟨station, shelfNumber s.own l, 255⟩ i) { u with bus := s.bus } with
    | .next v => v
    | .fault _ => u
    | .refused _ => u) s

/-- The record `b` is the record `a` but for the resync-due flag, which a full report queue may set in any line
(R164). -/
def SameButResync (a b : LineRecord) : Prop := b = { a with resyncDue := b.resyncDue }

/-- A line report (R160). -/
def State.lineEntry (s : State) (l : Line) (code : ReportCode) (values : List Octet) : ReportEntry :=
  newReport code (shelfNumber s.own l) values

/-- The TRACE of a change of state, if the line is watched (R42). -/
def State.traceEntries (s : State) (l : Line) (left entered : LineState) : List ReportEntry :=
  if (s.line l).watch then [s.lineEntry l .trace [stateOctet left, stateOctet entered]] else []

/-- The flags octet of LINE STATE (R161). -/
def State.flagsOctet (s : State) (l : Line) : Octet :=
  octet ((if (s.line l).watch then 1 else 0) + (if (s.line l).blockPending then 2 else 0)
    + (if (s.line l).resyncDue then 4 else 0))

/-- The hook filter of a circuit after a sample that reads closed, or tripped (R5, R6, R7); a run of 3 leaves the edge
or the settle due (log 2). -/
def State.sampledHook (s : State) (c : CircuitNo) (closed : Bool) : HookFilter :=
  let h := if closed then Hook.offHook else Hook.onHook
  match (s.circuit c).hook.state with
  | .settled old => ⟨.settled old, if h = old then 0 else (s.circuit c).hook.run + 1⟩
  | .unsettled candidate =>
    if (s.circuit c).hook.run = 0 ∨ h ≠ candidate then ⟨.unsettled h, 1⟩
    else ⟨.unsettled candidate, (s.circuit c).hook.run + 1⟩

/-- A frame row that carries the own station number, which this station did not send (R145). A COMMAND that the assembly
holds as taken was judged to carry another (log 20). -/
def State.CarriesOwnNumber (s : State) (i : Instr) : Prop :=
  (∃ k, i = .ownNumberFrame k) ∨ (∃ l w set, i = .peerClaim s.own l w set) ∨ (∃ l w set, i = .peerRelease s.own l w set)
    ∨ (∃ cells, i = .peerSummary s.own cells) ∨ i = .peerWithdraw s.own
    ∨ (∃ code number values, i = .peerReport s.own code number values ∧ values.length ≤ 16)
    ∨ ∃ h, commandHeader i = some h ∧ h.station = s.own ∧ i.wellFormed = true ∧ s.bus.rx.decided ≠ some true

/-- The report queue after some reports are queued one after another (R162, R163, R164). -/
def State.reportsAfter (s : State) (es : List ReportEntry) : List ReportEntry :=
  (es.foldl State.queueReport s).reports

/-- A line record that has entered a state that is neither a ring state nor out of service: pulse count, state timer
and tone as given, no ring context, and the rest kept (R33, R40, R41). -/
def LineRecord.inState (r : LineRecord) (new : LineState) (tone : Tone) (timer : Option Nat) : LineRecord :=
  { r with
    state := new
    tone := tone
    ring := none
    timing := { r.timing with pulseCount := 0, stateTimer := timer } }

/-- A line record that has entered BLOCKED or FAULT (R35, R41). -/
def LineRecord.outOfUse (r : LineRecord) (new : LineState) : LineRecord :=
  { r with state := new, tone := .none, ring := none, timing := Timing.fresh, blockPending := false }

/-- A line whose break does not stand at the clear threshold (R23). -/
def State.BreakShort (s : State) (l : Line) : Prop :=
  (s.line l).timing.sense = .brk → (s.line l).timing.edgeCount < clearTicks s.profile

/-- No threshold event of the line is due (R21, R23, R28, R30, R31, R32, R34). -/
def State.QuietLine (s : State) (l : Line) : Prop :=
  s.clearDue l = false ∧ s.tripDue l = false ∧ s.digitEndDue l = false ∧ s.interdigitDue l = false
    ∧ s.dialToneDue l = false ∧ s.recallDue l = false
    ∧ (((s.line l).state = .seizing ∨ (s.line l).state = .ringQueued ∨ (s.line l).state = .ringClaiming
        ∨ (s.line l).state = .ringArmed) → s.seizeHeld l = false)

/-- A hook edge of a circuit is due, the circuit is mapped by the line, and no threshold of the line is due. -/
def State.HookEdge (s : State) (c : CircuitNo) (l : Line) (old : Hook) : Prop :=
  s.running = true ∧ (s.circuit c).hook = ⟨.settled old, 3⟩ ∧ s.owner c = some l ∧ s.QuietLine l

/-- What a step for some lines leaves alone: the station record, Station Control, the Cadence Timer, the peer rows,
budget and filter of the table, every other line but for its resync-due flag, every circuit that those lines map
neither before nor after, and, where none of the lines was in a ring state, the Ring Placement Unit and the own
row. -/
structure LinesFrame (ls : List Line) (s t : State) : Prop where
  station : t.station = s.station
  control : t.control = s.control
  cadence : t.cadence = s.cadence
  table : t.table = { s.table with ownRow := t.table.ownRow }
  lines : ∀ m, m ∉ ls → SameButResync (s.line m) (t.line m)
  circuits : ∀ c, (∀ l ∈ ls, (s.line l).circuit ≠ some c ∧ (t.line l).circuit ≠ some c) → t.circuit c = s.circuit c
  ring : (∀ l ∈ ls, (s.line l).state.isRing = false) → t.ringUnit = s.ringUnit ∧ t.table.ownRow = s.table.ownRow
  freeDraws : t.freeDraws = s.freeDraws
  wire : t.wire = s.wire
  pending : t.pending = s.pending

/-- What the Ring Placement Unit has done after a line has left the ring states, by the state left (R120 to
R123). -/
def AfterRingLeave (l : Line) (s t : State) : Prop :=
  match (s.line l).state, (s.line l).ring, s.ringUnit.claim with
  | .ringQueued, _, _ =>
    t.ringUnit = { s.ringUnit with queue := s.ringUnit.queue.filter (· ≠ l) } ∧ t.table.ownRow = s.table.ownRow
  | .ringClaiming, _, some c =>
    c.line = l → c.status ≠ .orphaned →
      t.ringUnit = { s.ringUnit with
        claim := if c.status = .pending then none else some { c with status := .orphaned } }
      ∧ ∀ p : Phase, t.table.ownRow[p] = s.table.ownRow[p] - (if inSet c.set p then c.weight else 0)
  | .ringArmed, some r, _ | .ringing, some r, _ =>
    t.ringUnit = { s.ringUnit with
        releases := s.ringUnit.releases ++ [⟨l, r.weight, rotatedSet r.code r.offset⟩] }
      ∧ ∀ p : Phase, t.table.ownRow[p]
          = s.table.ownRow[p] - (if inSet (rotatedSet r.code r.offset) p then r.weight else 0)
  | _, _, _ => True

/-- The state in which a start leaves a line before its circuit settles: IDLE on an unmarked circuit, FAULT on a
marked one or on none, and fresh otherwise, its three flags clear (R12, R44). -/
def StartedLine (circuit : Option CircuitNo) (marked : CircuitNo → Bool) (r : LineRecord) : Prop :=
  r.state = (match circuit with
      | none => LineState.fault
      | some c => if marked c then LineState.fault else LineState.idle)
    ∧ { r with state := .idle, correctionMark := false } = LineRecord.fresh circuit

/-- The report queue that a start leaves: it is emptied, and then holds the FAULT reports of the lines on a marked circuit
or on none, and behind them the CORRECTED reports of the circuit words corrected, each in increasing order of line (R44,
R162, R171; the order of the lines is log 25). -/
def State.startReports (s : State) (e : CircuitWordErrors) (circuit : Line → Option CircuitNo)
    (marked : CircuitNo → Bool) : List ReportEntry :=
  ((List.finRange 16).flatMap fun l =>
    match circuit l with
    | none => [s.lineEntry l .fault [1]]
    | some c => if marked c then [s.lineEntry l .fault [0]] else [])
  ++ ((List.finRange 16).filter fun l => e.single.getLsbD l.val && !e.double.getLsbD l.val).map fun l =>
    s.lineEntry l .corrected [0]

/-- What every start gives the blocks besides the station state, the lines and the outputs: the Cadence Timer (R75),
the table but for its budget (R107), the Ring Placement Unit (R132) and the Shelf Bus Interface (R151). -/
def StartedBlocks (base : Nat) (withdraw : Bool) (t : State) : Prop :=
  t.cadence.phase = 0 ∧ t.cadence.tick = 0 ∧ t.cadence.sinceStart = 100 ∧ t.cadence.listen = true
    ∧ t.cadence.markDrive = false
    ∧ t.table = ⟨Vector.replicate 8 0, Vector.replicate 15 PeerRow.absent, base, ⟨false, 0⟩⟩
    ∧ t.ringUnit = ⟨[], none, []⟩
    ∧ t.bus.tx = none ∧ t.bus.rx.state = .waiting ∧ t.bus.rx.recessive = 0
    ∧ t.bus.summaryDue = false ∧ t.bus.withdrawDue = withdraw

/-- A circuit as a start leaves it, its outputs apart (R7, R17). -/
def StartedCircuit (x : Circuit) (mark : Bool) : Prop :=
  (∃ h, x.hook = ⟨.unsettled h, 0⟩) ∧ x.fault = ⟨false, 0⟩ ∧ x.blanking = 0 ∧ x.faultMark = mark

/-- The four outputs of a circuit as the table of R2 gives them, with the ring drive of R80. -/
def State.OutputsOf (s : State) (c : CircuitNo) (relay dial special cutOff : Bool) : Prop :=
  if s.station.state = .down ∨ s.station.state = .held ∨ s.station.state = .silent then
    relay = false ∧ dial = false ∧ special = false ∧ cutOff = false
  else
    match s.owner c with
    | none => relay = false ∧ dial = false ∧ special = false ∧ cutOff = true
    | some l =>
      if (s.line l).state = .blocked ∨ (s.line l).state = .fault then
        relay = false ∧ dial = false ∧ special = false ∧ cutOff = true
      else
        relay = s.ringDrive l ∧ dial = ((s.line l).tone = .dial && !relay)
          ∧ special = ((s.line l).tone = .special && !relay) ∧ cutOff = false

/-- INVARIANT of R1 and R2, kept by every row but TICK: the outputs of every circuit are those of R2. -/
def State.OutputsOk (s : State) : Prop :=
  ∀ c, s.OutputsOf c (s.circuit c).ringRelay (s.circuit c).dialSwitch (s.circuit c).specialSwitch (s.circuit c).cutOff

/-- The threshold rows of a line, each with whether it is due (R21, R23, R28, R30, R31, R32, R34). -/
def State.thresholds (s : State) (l : Line) : List (Instr × Bool) :=
  [(.digitEnd l, s.digitEndDue l), (.interdigitTimeout l, s.interdigitDue l), (.clearReached l, s.clearDue l),
    (.seizeConfirmed l, s.seizeHeld l && ((s.line l).state = .seizing || (s.line l).state = .ringQueued
      || (s.line l).state = .ringClaiming || (s.line l).state = .ringArmed)),
    (.tripConfirmed l, s.tripDue l), (.dialToneTimeout l, s.dialToneDue l), (.recallTimeout l, s.recallDue l)]

/-- The entries of PEER LOST that a cycle start queues, one for each row that ageing clears, in increasing order of
station number (R96, R97). -/
def State.peerLostEntries (s : State) : List ReportEntry :=
  ((List.finRange 15).filter fun k => s.table.peers[k].present && 2 ≤ s.table.peers[k].age).map fun k =>
    newReport .peerLost (stationNumber s.own) [octet (k.val + 1)]

/-- Nothing is due when a tick comes: no threshold, no filter change, no end of a phase, no mark, no supply event, and at
an on-portion boundary in ACTIVE the outputs are composed already. -/
structure State.Quiet (s : State) : Prop where
  lines : ∀ l, s.QuietLine l
  filters : ∀ c, (s.circuit c).hook.run < 3 ∧ (s.circuit c).fault.run < 3
  phase : s.cadence.tick < 150
  mark : s.cadence.markSeen = false
  onPortion : onPortionTick s.cadence.tick = true → s.station.state = .active → s.OutputsOk
  reduced : s.table.reduced.run < 3
  warning : s.control.warning.run < 3
  heeded : s.control.warning.asserted = true → s.station.state.heedsWarning = false
  restart : s.restartDue = false

/-- The threshold row `r` of a line is due, and no other of its thresholds. -/
def State.ThresholdDue (s : State) (l : Line) (r : Instr) : Prop :=
  s.running = true ∧ ((s.thresholds l).filter fun x => x.2).map (fun x => x.1) = [r]
    ∧ (s.setLine l (LineRecord.fresh (s.line l).circuit)).Quiet

/-- The row `r` is the one threshold due of the line that maps a circuit, in a running station whose bus is not idle. -/
def State.LoneThreshold (s : State) (c : CircuitNo) (l : Line) (r : Instr) : Prop :=
  s.running = true ∧ s.bus.rx.state ≠ .idle ∧ s.owner c = some l
    ∧ ((s.thresholds l).filter fun x => x.2).map (fun x => x.1) = [r]

/-- The row is due and nothing else is (log 2). -/
def State.OnlyDue (s : State) : Instr → Prop
  | .onPortionBoundary => s.station.state = .active ∧ onPortionTick s.cadence.tick = true
    ∧ ({ s with cadence := { s.cadence with tick := 0 } } : State).Quiet
  | .phaseBoundary => s.running = true ∧ 150 ≤ s.cadence.tick ∧ s.cadence.phase ≠ 7
    ∧ ({ s with cadence := { s.cadence with tick := 0 } } : State).Quiet
  | .cycleStart => s.running = true ∧ 150 ≤ s.cadence.tick ∧ s.cadence.phase = 7
    ∧ ({ s with cadence := { s.cadence with tick := 0 } } : State).Quiet
  | .mark => s.running = true ∧ s.cadence.markSeen = true
    ∧ ({ s with cadence := { s.cadence with markSeen := false } } : State).Quiet
  | .onHookEdge c => (s.circuit c).hook = ⟨.settled .offHook, 3⟩
    ∧ (s.setHook c ⟨.settled .offHook, 0⟩).Quiet
  | .offHookEdge c => (s.circuit c).hook = ⟨.settled .onHook, 3⟩
    ∧ (s.setHook c ⟨.settled .onHook, 0⟩).Quiet
  | .settle c => (s.circuit c).hook.run = 3 ∧ (s.circuit c).presented = none
    ∧ (s.setHook c { (s.circuit c).hook with run := 0 }).Quiet
  | .faultAssertedEdge c => (s.circuit c).fault = ⟨false, 3⟩
    ∧ (s.setFault c ⟨false, 0⟩ (s.circuit c).faultMark).Quiet
  | .faultNormalEdge c => (s.circuit c).fault = ⟨true, 3⟩
    ∧ (s.setFault c ⟨true, 0⟩ (s.circuit c).faultMark).Quiet
  | .digitEnd l => s.ThresholdDue l (.digitEnd l)
  | .interdigitTimeout l => s.ThresholdDue l (.interdigitTimeout l)
  | .clearReached l => s.ThresholdDue l (.clearReached l)
  | .seizeConfirmed l => s.ThresholdDue l (.seizeConfirmed l)
  | .tripConfirmed l => s.ThresholdDue l (.tripConfirmed l)
  | .dialToneTimeout l => s.ThresholdDue l (.dialToneTimeout l)
  | .recallTimeout l => s.ThresholdDue l (.recallTimeout l)
  | .reducedRingPowerChange => s.table.reduced.run = 3
    ∧ (s.setReduced { s.table.reduced with run := 0 }).Quiet
  | .supplyWarning => s.control.warning = ⟨false, 3⟩ ∧ (s.setWarning ⟨false, 0⟩).Quiet
  | .warningNegated => s.control.warning = ⟨true, 3⟩ ∧ (s.setWarning ⟨true, 0⟩).Quiet
  | .supplyRestart e => e = ⟨0, 0⟩ ∧ s.restartDue = true
    ∧ ({ s with control := { s.control with restartCount := 0 } } : State).Quiet
  | _ => False

/-- INVARIANT of R54, R87, R108, R116 and R126: ring contexts, ring queue, claim in flight, own row and release list
agree with the line states. -/
structure State.RingOk (s : State) : Prop where
  context : ∀ l, (s.line l).ring.isSome = (s.line l).state.isRing
  weight : ∀ l c, (s.line l).ring = some c → 1 ≤ c.weight ∧ c.weight ≤ 15
  queued : ∀ l, l ∈ s.ringUnit.queue ↔ (s.line l).state = .ringQueued
  queueOnce : s.ringUnit.queue.Nodup
  claimed : ∀ l, (s.line l).state = .ringClaiming
    ↔ ∃ c, s.ringUnit.claim = some c ∧ c.line = l ∧ c.status ≠ .orphaned
  claimLoad : ∀ c r, s.ringUnit.claim = some c → c.status ≠ .orphaned → (s.line c.line).ring = some r →
    c.weight = r.weight ∧ c.set = rotatedSet r.code r.offset
  orphanIdle : ∀ c, s.ringUnit.claim = some c → c.status = .orphaned → (s.line c.line).state.carriesLoad = false
  ownRow : ∀ p : Phase, s.table.ownRow[p] = s.requiredLoad p
  releaseOnce : (s.ringUnit.releases.map Release.line).Nodup
  releaseIdle : ∀ r ∈ s.ringUnit.releases, (s.line r.line).state.carriesLoad = false
  releaseClaim : ∀ r ∈ s.ringUnit.releases, ∀ c, s.ringUnit.claim = some c → c.line ≠ r.line

/-- INVARIANT of R11: no circuit is mapped by two lines, and a line's circuit is none only in FAULT. -/
def State.MapOk (s : State) : Prop :=
  (∀ l m c, (s.line l).circuit = some c → (s.line m).circuit = some c → l = m)
    ∧ ∀ l, (s.line l).circuit = none → (s.line l).state = .fault

/-- INVARIANT of R162 and R163: at most 32 entries, ordered by class, and no two that would coalesce. -/
def State.ReportsOk (s : State) : Prop :=
  s.reports.length ≤ 32 ∧ s.reports.Pairwise (fun a b => a.cls ≤ b.cls)
    ∧ s.reports.Pairwise (fun a b => a.coalescesWith b = false)

/-- INVARIANT of R173 and R148: the alarm is asserted in SILENT and in no other state, the restart count stands at 0
outside DOWN and never above 20, and the conflict count is at most 3, and below 3 outside SILENT. -/
def State.ControlOk (s : State) : Prop :=
  (s.control.alarm = true ↔ s.station.state = .silent)
    ∧ (s.station.state ≠ .down → s.control.restartCount = 0) ∧ s.control.restartCount ≤ 20
    ∧ s.station.conflicts ≤ 3 ∧ (s.station.state ≠ .silent → s.station.conflicts < 3)

/-- INVARIANT of R86, R90 and R96: peer cells within 0..255, ages below 3 between cycle starts, ABSENT rows empty and
at age 0, and a base budget within 16..120 (R99). -/
def State.TableOk (s : State) : Prop :=
  (∀ i : Fin 15, (∀ p : Phase, s.table.peers[i].cells[p] ≤ 255) ∧ s.table.peers[i].age < 3
    ∧ (s.table.peers[i].present = false → s.table.peers[i] = PeerRow.absent))
    ∧ 16 ≤ s.table.baseBudget ∧ s.table.baseBudget ≤ 120

end Sys2Proof.Machine
end

