-- ==== Sys2Proof/Certificates/Slice0/Obligations.lean ====
section
/-! DEFINITION. The statements for the provers. Where a row answers `t.sendIfIdle`, the statement says what the row does
in `t`, and a frame that `t` leaves ready on an idle bus then begins (R136, stated by IdleBusBeginsTheChosenFrame). Where
one step makes several sources ready, that the frame is chosen and begins at the end of the step is the model's choice,
log 6. -/

open Sys2Proof Sys2Proof.Machine

/-! ## The step -/

/-- A step takes the command at the front of the queue and leaves the rest; no row of the table stops the block, and none
touches the commands that wait or the wire of the bit times to come. -/
def Obligations.StepRunsFrontCommand : Prop :=
  ∀ (c : Instr) (s : State), step { s with pending := c :: s.pending } = exec c s
    ∧ ∃ t, exec c s = .next t ∧ t.pending = s.pending ∧ t.wire = s.wire

/-- With no command waiting a step is one bit time of the data wire (the model's choice, log 4). A waiting assembly counts a
recessive bit, to idle at the twelfth, and a dominant bit sets its count to 0. A dominant bit on an idle bus is a start bit.
An own frame drives the bits of its octets, start bit dominant, most significant data bit first, stop bit recessive, and the
slot recessive; it goes on where the bit read is the bit sent, loses the contest in its header where it is not, is abandoned
after it, and completes in its slot (R134 to R137, R141, R142, R147, R152). -/
def Obligations.IdleStepIsOneBusBitTime : Prop :=
  (∀ s : State, s.pending = [] → s.bus.tx = none →
    (s.bus.rx.state = .waiting →
      (s.wireNow = .dominant →
        step s = .next { s.wireTaken with bus := { s.bus with rx := { s.bus.rx with recessive := 0 } } })
      ∧ (s.wireNow ≠ .dominant → s.bus.rx.recessive < 11 → step s = .next { s.wireTaken with
          bus := { s.bus with rx := { s.bus.rx with recessive := s.bus.rx.recessive + 1 } } })
      ∧ (s.wireNow ≠ .dominant → 11 ≤ s.bus.rx.recessive → step s = exec .busIdle s.wireTaken))
    ∧ (s.bus.rx.state = .idle →
      (s.wireNow ≠ .dominant → step s = .next s.wireTaken.sendIfIdle)
      ∧ (s.wireNow = .dominant → ∃ t, exec .startBit s.wireTaken = .next t
        ∧ step s = .next { t with bus := { t.bus with
            tx := t.bus.tx.map fun f => { f with bit := 1 }
            rx := { t.bus.rx with bits := [false] } } })))
  ∧ (∀ (s : State) (f : TxFrame), s.pending = [] → s.bus.tx = some f → s.bus.rx.state = .assembling →
    (∀ o, f.phase ≠ .ack → f.octets[f.octet]? = some o →
      s.bus.drive = if f.bit = 0 then false else if f.bit ≤ 8 then o.getLsbD (8 - f.bit) else true)
    ∧ (f.phase = .ack → s.bus.drive = true)
    ∧ (f.phase ≠ .ack → s.wireNow.read s.bus.drive = s.bus.drive →
      ∃ t, step s = .next t ∧ t = { s.wireTaken with bus := t.bus }
        ∧ t.bus.tx = some (if f.bit < 9 then { f with bit := f.bit + 1 }
            else { f with
              octet := f.octet + 1
              bit := 0
              phase := if f.octet + 1 < f.octets.length then .body else .ack }))
    ∧ (f.phase ≠ .ack → s.wireNow.read s.bus.drive ≠ s.bus.drive → ∃ t u,
        exec (if f.phase = .contest then .contestLost else .readBackMismatch) s.wireTaken = .next u
        ∧ step s = .next t ∧ t = { u with bus := t.bus } ∧ t.bus.tx = none)
    ∧ (f.phase = .ack → ∀ i, completionOf f.kind = some i → step s = exec i s.wireTaken))
  ∧ completionOf .withdraw = some .ownWithdrawCompletes ∧ completionOf .release = some .ownReleaseCompletes
  ∧ completionOf .claim = some .ownClaimCompletes ∧ completionOf .report = some .ownReportCompletes
  ∧ completionOf .summary = some .ownSummaryCompletes
  ∧ ∀ drive : Bool, WireInput.read drive .released = drive ∧ WireInput.read drive .dominant = false
      ∧ WireInput.read drive .broken = true

/-- The assembly follows a frame bit by bit: a start bit read recessive and a stop bit read dominant discard it; eight data
bits, the most significant first, make an octet; at the stop bit of an octet the kind, the value length and the check octet
are tested and the length expected is taken; at the end of the check octet Command Dispatch decides on a COMMAND, and the
slot is driven dominant where it takes it; at the end of the slot the frame is read and acts as its row. A frame is discarded
on the four grounds of R144 alone. The bit at which a fault of an octet is found is the model's choice, log 5, and so is the step
of one bit, log 4 (R135, R142 to R145, R155). -/
def Obligations.AssemblyReadsTheWire : Prop :=
  (∀ s : State, s.pending = [] → s.bus.tx = none → s.bus.rx.state = .assembling → s.bus.rx.inSlot = false →
    s.bus.drive = true
    ∧ (s.bus.rx.bits = [] → s.wireNow ≠ .dominant → step s = .next (s.wireTaken.endFrame false))
    ∧ (s.bus.rx.bits = [] → s.wireNow = .dominant →
      step s = .next { s.wireTaken with bus := { s.bus with rx := { s.bus.rx with bits := [false] } } })
    ∧ (s.bus.rx.bits ≠ [] → s.bus.rx.bits.length < 9 → step s = .next { s.wireTaken with
        bus := { s.bus with rx := { s.bus.rx with bits := s.bus.rx.bits ++ [decide (s.wireNow ≠ .dominant)] } } })
    ∧ (s.bus.rx.bits.length = 9 → s.wireNow = .dominant → step s = .next (s.wireTaken.endFrame false))
    ∧ (s.bus.rx.bits.length = 9 → s.wireNow ≠ .dominant → ∀ o : Octet,
        (∀ i < 8, o.getLsbD i = s.bus.rx.bits.getD (8 - i) false) →
        (discarded (s.bus.rx.octets ++ [o]) false = true → step s = .next (s.wireTaken.endFrame false))
        ∧ (discarded (s.bus.rx.octets ++ [o]) false = false → ∃ t, step s = .next t
          ∧ t = { s.wireTaken with bus := { s.bus with rx := { s.bus.rx with
              bits := []
              octets := s.bus.rx.octets ++ [o]
              expected := expectedLength (s.bus.rx.octets ++ [o])
              decided := t.bus.rx.decided } } }
          ∧ t.bus.rx.decided = if t.bus.rx.inSlot then (readFrame (s.bus.rx.octets ++ [o])).bind s.decision
              else s.bus.rx.decided)))
  ∧ (∀ s : State, s.pending = [] → s.bus.tx = none → s.bus.rx.state = .assembling → ∀ n, s.bus.rx.expected = some n →
    n ≤ s.bus.rx.octets.length →
    s.bus.drive = (s.bus.rx.decided ≠ some true) ∧ ∀ i, readFrame s.bus.rx.octets = some i → step s = exec i s.wireTaken)
  ∧ ∀ (q : List Octet) (framing : Bool), discarded q framing = true ↔ framing = true
      ∨ (∃ h r, q = h :: r ∧ 6 ≤ h.toNat / 32)
      ∨ (∃ h a b n r, q = h :: a :: b :: n :: r ∧ h.toNat / 32 = 4 ∧ 16 < n.toNat)
      ∨ ∃ n, expectedLength q = some n ∧ n ≤ q.length ∧ checkOctet (q.take n) ≠ 0

/-! ## Starts and the supply -/

/-- POWER_ON_RESET gives every block its power-on values, whatever the state before it (R10, R12, R17, R44, R75, R99,
R107, R132, R151, R162, R174); with the straps of log 1 (the model's choice) it leaves State.reset. -/
def Obligations.PowerOnResetSetsEveryBlock : Prop :=
  (∀ (pins : Straps) (s : State), ∃ t, exec (.powerOnReset pins) s = .next t
    ∧ t.station = ⟨some pins, some pins, if pins.station = 0 then .silent else .starting, 0⟩
    ∧ t.control = ⟨⟨false, 0⟩, 0, decide (pins.station = 0)⟩
    ∧ (∀ l : Line, t.line l = LineRecord.fresh (some ⟨l.val, by omega⟩))
    ∧ (∀ c, StartedCircuit (t.circuit c) false)
    ∧ t.OutputsOk
    ∧ StartedBlocks (16 + 8 * min pins.budgetCode.val 13) false t
    ∧ t.reports = [] ∧ t.pending = s.pending)
  ∧ exec (.powerOnReset Config.resetStraps) State.reset = .next State.reset

/-- SUPPLY_RESTART, due at a restart count of 20 in DOWN with the warning filter NORMAL, makes a start: straps, map,
marks and base budget kept, every line fresh or in FAULT, STARTING in auto mode and HELD in held mode. The report queue is
emptied and then holds the FAULT and CORRECTED reports of the start, class by class; that within a class they stand in
increasing order of line is the model's choice, log 25 (R12, R17, R44, R75, R107, R132, R151, R162, R168, R171, R176). -/
def Obligations.SupplyRestartMakesAStart : Prop :=
  ∀ (e : CircuitWordErrors) (s : State), s.station.state = .down → 20 ≤ s.control.restartCount →
    s.control.warning.asserted = false →
    ∃ t, exec (.supplyRestart e) s = .next t
      ∧ t.station = { s.station with
          state := (match s.straps.mode with | .auto => StationState.starting | .held => StationState.held)
          conflicts := 0 }
      ∧ t.control = { s.control with restartCount := 0, alarm := false }
      ∧ (∀ l, StartedLine (if e.double.getLsbD l.val then none else (s.line l).circuit)
          (fun c => (s.circuit c).faultMark) (t.line l))
      ∧ (∀ l, (t.line l).correctionMark = (e.single.getLsbD l.val && !e.double.getLsbD l.val))
      ∧ (∀ c, StartedCircuit (t.circuit c) (s.circuit c).faultMark)
      ∧ t.OutputsOk
      ∧ StartedBlocks s.table.baseBudget false t
      ∧ t.reports = s.startReports e (fun l => if e.double.getLsbD l.val then none else (s.line l).circuit)
          (fun c => (s.circuit c).faultMark)
      ∧ t.pending = s.pending

/-- A STATION RESET taken with usable straps of a number 1..15 makes a start into STARTING with a WITHDRAW due, and drives
its acknowledge slot; with the warning filter ASSERTED the station then goes on to DOWN, the WITHDRAW still due. Every line
is fresh or in FAULT, the correction marks are those of this start, and the report queue is emptied and then holds the FAULT
and CORRECTED reports of the start, class by class; that within a class they stand in increasing order of line is the model's
choice, log 25 (R44, R149, R151, R155, R159, R162, R168, R171, R175, R177). -/
def Obligations.StationResetMakesAStart : Prop :=
  ∀ (h : CommandHeader) (e : CircuitWordErrors) (s : State), s.Hears h → s.station.state ≠ .down →
    addressesStation s.own h.address = true → s.strapsKnown = true →
    ∃ t, exec (.stationReset h e) s = .next t
      ∧ t.station = { s.station with
          state := if s.control.warning.asserted then .down else .starting
          conflicts := 0 }
      ∧ t.control = { s.control with restartCount := 0, alarm := false }
      ∧ (∀ l, StartedLine (if e.double.getLsbD l.val then none else (s.line l).circuit)
          (fun c => (s.circuit c).faultMark) (t.line l))
      ∧ (∀ c, StartedCircuit (t.circuit c) (s.circuit c).faultMark)
      ∧ t.OutputsOk
      ∧ (∀ l, (t.line l).correctionMark = (e.single.getLsbD l.val && !e.double.getLsbD l.val))
      ∧ StartedBlocks s.table.baseBudget true t
      ∧ t.reports = s.startReports e (fun l => if e.double.getLsbD l.val then none else (s.line l).circuit)
          (fun c => (s.circuit c).faultMark)
      ∧ t.bus.ackSlot = true ∧ t.pending = s.pending

/-- SUPPLY_WARNING, with the filter's change to ASSERTED due in STARTING, ACTIVE or HELD, takes the station to DOWN:
the frame is abandoned, the WITHDRAW due, every relay and switch released, line states, table and Ring Placement Unit
frozen, the mark line released and the restart count 0. The Cadence Timer stands, and where the stop overtakes the end of
a phase its tick stands at 149: the model's choice, log 2 (R18, R39, R76, R106, R132, R150, R175). -/
def Obligations.SupplyWarningTakesStationDown : Prop :=
  ∀ s : State, s.control.warning = ⟨false, 3⟩ →
    (s.station.state = .starting ∨ s.station.state = .active ∨ s.station.state = .held) →
    ∃ t : State, exec .supplyWarning s = .next t.sendIfIdle
      ∧ t.station = { s.station with state := .down }
      ∧ t.control = { s.control with warning := ⟨true, 0⟩, restartCount := 0 }
      ∧ t.bus = { s.bus with tx := none, withdrawDue := true }
      ∧ t.cadence = { s.cadence with tick := min s.cadence.tick 149, markDrive := false, markSeen := false }
      ∧ (∀ c, (t.circuit c).ringRelay = false ∧ (t.circuit c).dialSwitch = false
          ∧ (t.circuit c).specialSwitch = false ∧ (t.circuit c).cutOff = false)
      ∧ (∀ c, (t.circuit c).hook = (s.circuit c).hook ∧ (t.circuit c).fault = (s.circuit c).fault
          ∧ (t.circuit c).faultMark = (s.circuit c).faultMark)
      ∧ t.lines = s.lines ∧ t.table = s.table ∧ t.ringUnit = s.ringUnit
      ∧ t.reports = s.reports.map (fun e => { e with sending := false, replaced := false }) ∧ t.freeDraws = s.freeDraws ∧ t.pending = s.pending

/-- WARNING_NEGATED changes the filter state alone; REDUCED_RING_POWER_CHANGE changes its filter alone, and the
effective budgets follow it. A change whose third sample was taken before the station stopped is accepted in the stopped
station too: the model's choice, log 2 (R100, R101, R102, R175). -/
def Obligations.FilterChangesAreAccepted : Prop :=
  (∀ s : State, s.control.warning = ⟨true, 3⟩ →
    exec .warningNegated s = .next { s with control := { s.control with warning := ⟨false, 0⟩ } })
  ∧ (∀ s : State, s.table.reduced.run = 3 →
    ∃ t, exec .reducedRingPowerChange s = .next t
      ∧ t = { s with table := { s.table with reduced := ⟨!s.table.reduced.asserted, 0⟩ } }
      ∧ ∀ priority, t.effectiveBudget priority
          = (if s.table.reduced.asserted then s.table.baseBudget else s.table.baseBudget / 2)
            + (if priority then s.table.baseBudget / 4 else 0))

/-- START takes HELD to STARTING and sets no further start value; in STARTING and ACTIVE it is acknowledged and has
no effect (R159, R176). -/
def Obligations.StartLeavesHeld : Prop :=
  ∀ (h : CommandHeader) (s : State), s.Hears h → addressesStation s.own h.address = true →
    (s.station.state = .held → s.control.warning.asserted = false →
      ∃ t, exec (.start h) s = .next t ∧ t.station = { s.station with state := .starting } ∧ t.OutputsOk
        ∧ t = { s with station := t.station, circuits := t.circuits, bus := (s.endFrame true).bus }
        ∧ ∀ c, (t.circuit c).hook = (s.circuit c).hook ∧ (t.circuit c).fault = (s.circuit c).fault
            ∧ (t.circuit c).faultMark = (s.circuit c).faultMark)
    ∧ (s.running = true → exec (.start h) s = .next (s.endFrame true))

/-! ## Line commands -/

/-- RING on an IDLE line on an occasion with no placement attempt: RING QUEUED with the context of R55, entered behind
the last entry of its class. A line that is not IDLE is refused with BLOCKED, FAULT or BUSY, and the report is all that
the command leaves (R55, R109, R111). -/
def Obligations.RingQueuesTheLine : Prop :=
  ∀ (h : CommandHeader) (p1 p2 : Octet) (l : Line) (s : State), s.Takes h 255 l →
    ((s.line l).state = .idle → s.mayAttempt = false → s.seizeHeld l = false →
      ∃ t, exec (.ring h p1 p2) s = .next t
        ∧ (t.line l).state = .ringQueued ∧ (t.line l).tone = .none
        ∧ (∃ r, (t.line l).ring = some r
            ∧ r.priority = decide (lowHalf p1 ≠ 0)
            ∧ r.code.val = (if 3 < highHalf p1 ∨ (highHalf p1 = 3 ∧ lowHalf p1 = 0) then 0 else highHalf p1)
            ∧ r.weight = (if highHalf p2 = 0 then 1 else highHalf p2) ∧ r.limit = lowHalf p2
            ∧ r.offset = 0 ∧ r.cycles = 0 ∧ r.waits = 0)
        ∧ (lowHalf p1 = 0 → t.ringUnit.queue = s.ringUnit.queue ++ [l])
        ∧ (lowHalf p1 ≠ 0 → ∃ front back, s.ringUnit.queue = front ++ back ∧ t.ringUnit.queue = front ++ l :: back
            ∧ (l ∉ s.ringUnit.queue → (∀ m ∈ front, s.isPriority m = true)
                ∧ ∀ m ∈ back.head?, s.isPriority m = false))
        ∧ t.ringUnit.claim = s.ringUnit.claim ∧ t.ringUnit.releases = s.ringUnit.releases
        ∧ t.reports = s.reportsAfter (s.traceEntries l .idle .ringQueued))
    ∧ ((s.line l).state ≠ .idle →
      exec (.ring h p1 p2) s = .next ((s.endFrame true).queueReport (s.lineEntry l .refused
        [1, if (s.line l).state = .blocked then 3 else if (s.line l).state = .fault then 4 else 1])))

/-- RING on an IDLE line of an ACTIVE station with no claim in flight and nothing to release makes a placement attempt: the
first entry of the queue, the new one in its place included, for which an offset fits is placed at the offset chosen, its
weight enters the own row, and its claim is PENDING; a priority entry is tried ahead of every routine one and behind the
priority entries before it. Entries for which none fits stay, and where no entry fits nothing is placed (R109, R111, R112,
R115). -/
def Obligations.RingPlacesTheLine : Prop :=
  ∀ (h : CommandHeader) (p1 p2 : Octet) (l : Line) (o : Phase) (s : State), s.Takes h 255 l →
    (s.line l).state = .idle → s.station.state = .active → s.ringUnit.claim = none → s.ringUnit.releases = [] →
    l ∉ s.ringUnit.queue → s.seizeHeld l = false →
    ((∀ m ∈ s.ringUnit.queue, ∃ r, (s.line m).ring = some r
        ∧ chooseOffset s.attemptTotals s.cadence.phase r.weight (s.effectiveBudget r.priority) r.code = none) →
      chooseOffset s.attemptTotals s.cadence.phase (ringContextOf p1 p2).weight
        (s.effectiveBudget (ringContextOf p1 p2).priority) (ringContextOf p1 p2).code = some o →
      ∃ t, exec (.ring h p1 p2) s = .next t
        ∧ (t.line l).state = .ringClaiming ∧ (t.line l).ring = some { ringContextOf p1 p2 with offset := o }
        ∧ t.ringUnit = ⟨s.ringUnit.queue,
            some ⟨l, (ringContextOf p1 p2).weight, rotatedSet (ringContextOf p1 p2).code o, .pending⟩, []⟩
        ∧ ∀ p : Phase, t.table.ownRow[p] = s.table.ownRow[p]
            + (if inSet (rotatedSet (ringContextOf p1 p2).code o) p then (ringContextOf p1 p2).weight else 0))
    ∧ (∀ front back : List Line, s.ringUnit.queue = front ++ back → lowHalf p1 ≠ 0 →
      (∀ x ∈ front, ∃ c, (s.line x).ring = some c ∧ c.priority = true
        ∧ chooseOffset s.attemptTotals s.cadence.phase c.weight (s.effectiveBudget c.priority) c.code = none) →
      (∀ m ∈ back.head?, s.isPriority m = false) →
      chooseOffset s.attemptTotals s.cadence.phase (ringContextOf p1 p2).weight
        (s.effectiveBudget (ringContextOf p1 p2).priority) (ringContextOf p1 p2).code = some o →
      ∃ t, exec (.ring h p1 p2) s = .next t
        ∧ (t.line l).state = .ringClaiming ∧ (t.line l).ring = some { ringContextOf p1 p2 with offset := o }
        ∧ t.ringUnit = ⟨s.ringUnit.queue,
            some ⟨l, (ringContextOf p1 p2).weight, rotatedSet (ringContextOf p1 p2).code o, .pending⟩, []⟩
        ∧ ∀ p : Phase, t.table.ownRow[p] = s.table.ownRow[p]
            + (if inSet (rotatedSet (ringContextOf p1 p2).code o) p then (ringContextOf p1 p2).weight else 0))
    ∧ ((∀ m ∈ s.ringUnit.queue, ∃ r, (s.line m).ring = some r
        ∧ chooseOffset s.attemptTotals s.cadence.phase r.weight (s.effectiveBudget r.priority) r.code = none) →
      chooseOffset s.attemptTotals s.cadence.phase (ringContextOf p1 p2).weight
        (s.effectiveBudget (ringContextOf p1 p2).priority) (ringContextOf p1 p2).code = none →
      ∃ t, exec (.ring h p1 p2) s = .next t
        ∧ (t.line l).state = .ringQueued ∧ (t.line l).ring = some (ringContextOf p1 p2)
        ∧ (∀ m, m ∈ t.ringUnit.queue ↔ m = l ∨ m ∈ s.ringUnit.queue)
        ∧ t.ringUnit.claim = none ∧ t.ringUnit.releases = [] ∧ t.table = s.table)
    ∧ ∀ (front back : List Line) (m : Line) (r : RingContext), s.ringUnit.queue = front ++ m :: back →
      (∀ x ∈ front, ∃ c, (s.line x).ring = some c
        ∧ chooseOffset s.attemptTotals s.cadence.phase c.weight (s.effectiveBudget c.priority) c.code = none) →
      (s.line m).state = .ringQueued → (s.line m).ring = some r → (s.line m).timing.sense ≠ .mk →
      chooseOffset s.attemptTotals s.cadence.phase r.weight (s.effectiveBudget r.priority) r.code = some o →
      (lowHalf p1 = 0 ∨ r.priority = true ∧ (∀ x ∈ front, s.isPriority x = true)
        ∨ chooseOffset s.attemptTotals s.cadence.phase (ringContextOf p1 p2).weight
          (s.effectiveBudget (ringContextOf p1 p2).priority) (ringContextOf p1 p2).code = none) →
      ∃ t, exec (.ring h p1 p2) s = .next t
        ∧ (t.line l).state = .ringQueued ∧ l ∈ t.ringUnit.queue ∧ m ∉ t.ringUnit.queue
        ∧ (t.line m).state = .ringClaiming ∧ (t.line m).ring = some { r with offset := o }
        ∧ t.ringUnit.claim = some ⟨m, r.weight, rotatedSet r.code o, .pending⟩
        ∧ ∀ p : Phase, t.table.ownRow[p] = s.table.ownRow[p]
            + (if inSet (rotatedSet r.code o) p then r.weight else 0)

/-- STOP RING, and RELEASE LINE, on a line in a ring state: IDLE with no report but a TRACE; SEIZING with the make count
kept where the subscriber has lifted without confirming; BLOCKED with its report where block-pending is set. In other
states STOP RING has no effect (R37, R46, R47, R59, R61). -/
def Obligations.StopRingEndsTheRing : Prop :=
  ∀ (h : CommandHeader) (l : Line) (s : State),
    (∀ i, i = .stopRing h ∧ s.Takes h h.mask l ∨ i = .releaseLine h ∧ s.Takes h 255 l → (s.line l).state.isRing = true →
      ((s.line l).timing.sense ≠ .mk → (s.line l).blockPending = false →
        ∃ t, exec i s = .next t ∧ t.line l = (s.line l).inState .idle .none none
          ∧ t.reports = s.reportsAfter (s.traceEntries l (s.line l).state .idle))
      ∧ ((s.line l).timing.sense = .mk → (s.line l).timing.edgeCount < seizeConfirmTicks s.profile →
        (s.line l).blockPending = false →
        ∃ t, exec i s = .next t ∧ t.line l = (s.line l).inState .seizing .none none
          ∧ t.reports = s.reportsAfter (s.traceEntries l (s.line l).state .idle ++ s.traceEntries l .idle .seizing))
      ∧ ((s.line l).blockPending = true →
        ∃ t, exec i s = .next t ∧ SameButResync ((s.line l).outOfUse .blocked) (t.line l)
          ∧ t.reports = s.reportsAfter (s.traceEntries l (s.line l).state .idle
              ++ [s.lineEntry l .blocked []] ++ s.traceEntries l .idle .blocked)))
    ∧ (s.Takes h h.mask l → (s.line l).state.isRing = false → exec (.stopRing h) s = .next (s.endFrame true))

/-- CONNECT takes a dialling line to CONNECTED, and on to IDLE with CLEAR where its break stands at the clear
threshold; in any other state it is refused with STATE (R23, R60). -/
def Obligations.ConnectTakesDiallingLine : Prop :=
  ∀ (h : CommandHeader) (l : Line) (s : State), s.Takes h 255 l →
    ((s.line l).state.isDialling = true → s.BreakShort l →
      ∃ t, exec (.connect h) s = .next t ∧ t.line l = (s.line l).inState .connected .none none
        ∧ t.reports = s.reportsAfter (s.traceEntries l (s.line l).state .connected))
    ∧ ((s.line l).state.isDialling = true → (s.line l).blockPending = false → (s.line l).timing.sense = .brk →
      clearTicks s.profile ≤ (s.line l).timing.edgeCount →
      ∃ t, exec (.connect h) s = .next t ∧ SameButResync ((s.line l).inState .idle .none none) (t.line l)
        ∧ t.reports = s.reportsAfter (s.traceEntries l (s.line l).state .connected
            ++ [s.lineEntry l .clear []] ++ s.traceEntries l .connected .idle))
    ∧ ((s.line l).state.isDialling = false →
      exec (.connect h) s = .next ((s.endFrame true).queueReport (s.lineEntry l .refused [3, 2])))

/-- RELEASE LINE parks a line in SEIZING or an off-hook call state, with no report, and has no effect in IDLE, PARKED,
BLOCKED and FAULT (R61). -/
def Obligations.ReleaseLineParks : Prop :=
  ∀ (h : CommandHeader) (l : Line) (s : State), s.Takes h 255 l →
    (((s.line l).state = .seizing ∨ (s.line l).state = .dialTone ∨ (s.line l).state = .dialing
        ∨ (s.line l).state = .connected ∨ (s.line l).state = .recallTone ∨ (s.line l).state = .recallDialing) →
      s.BreakShort l →
      ∃ t, exec (.releaseLine h) s = .next t ∧ t.line l = (s.line l).inState .parked .none none
        ∧ t.reports = s.reportsAfter (s.traceEntries l (s.line l).state .parked))
    ∧ (((s.line l).state = .idle ∨ (s.line l).state = .parked ∨ (s.line l).state = .blocked
        ∨ (s.line l).state = .fault) →
      exec (.releaseLine h) s = .next (s.endFrame true))

/-- TONE sets the tone selection of a line in CONNECTED or PARKED, a value above 2 as NONE, and is refused with STATE
elsewhere (R62). -/
def Obligations.ToneSetsTheSelection : Prop :=
  ∀ (h : CommandHeader) (v : Octet) (l : Line) (s : State), s.Takes h 255 l →
    (((s.line l).state = .connected ∨ (s.line l).state = .parked) →
      ∃ t, exec (.tone h v) s = .next t
        ∧ t.line l = { s.line l with tone := if v = 1 then .dial else if v = 2 then .special else .none }
        ∧ t.reports = s.reports)
    ∧ ((s.line l).state ≠ .connected → (s.line l).state ≠ .parked →
      exec (.tone h v) s = .next ((s.endFrame true).queueReport (s.lineEntry l .refused [5, 2])))

/-- A polite BLOCK takes an IDLE line to BLOCKED with its report and sets block-pending in the other working states; a
forced BLOCK takes every working state to BLOCKED at once, with a BLOCKED report and no call report. Neither has an effect
in BLOCKED and FAULT (R63, R64). -/
def Obligations.BlockPolitelyOrAtOnce : Prop :=
  ∀ (h : CommandHeader) (form : Octet) (l : Line) (s : State), s.Takes h h.mask l →
    ((s.line l).state = .idle → ∃ t, exec (.blockPolite h) s = .next t
      ∧ (t.line l).state = .blocked ∧ (t.line l).timing = Timing.fresh ∧ (t.line l).tone = .none
      ∧ t.reports = s.reportsAfter (s.lineEntry l .blocked [] :: s.traceEntries l .idle .blocked))
    ∧ ((s.line l).state ≠ .idle → (s.line l).state ≠ .blocked → (s.line l).state ≠ .fault →
      ∃ t, exec (.blockPolite h) s = .next t ∧ t.line l = { s.line l with blockPending := true }
        ∧ t.reports = s.reports ∧ t.circuits = s.circuits)
    ∧ (form ≠ 0 → (s.line l).state ≠ .blocked → (s.line l).state ≠ .fault →
      ∃ t, exec (.blockForced h form) s = .next t ∧ SameButResync ((s.line l).outOfUse .blocked) (t.line l)
        ∧ t.reports = s.reportsAfter (s.lineEntry l .blocked [] :: s.traceEntries l (s.line l).state .blocked))
    ∧ ((s.line l).state = .blocked ∨ (s.line l).state = .fault →
      exec (.blockPolite h) s = .next (s.endFrame true) ∧ exec (.blockForced h form) s = .next (s.endFrame true))

/-- UNBLOCK of a BLOCKED line: PARKED on an OFF-HOOK circuit, IDLE on an ON-HOOK or UNSETTLED one, the sense read from
the circuit and a LINE STATE queued; in a working state it clears block-pending alone (R35, R65). -/
def Obligations.UnblockReturnsABlockedLine : Prop :=
  ∀ (h : CommandHeader) (l : Line) (s : State), s.Takes h h.mask l →
    ((s.line l).state = .blocked →
      ∃ t, exec (.unblock h) s = .next t
        ∧ (t.line l).state = (if s.presentedTo l = some .offHook then .parked else .idle)
        ∧ (t.line l).timing.sense = (match s.presentedTo l with
            | some .offHook => .mk
            | some .onHook => .brk
            | none => .none)
        ∧ (t.line l).timing.edgeCount = 0 ∧ (t.line l).timing.heldMake = 0 ∧ (t.line l).timing.pulseCount = 0
        ∧ (t.line l).timing.stateTimer = none ∧ (t.line l).blockPending = false ∧ (t.line l).tone = .none
        ∧ (t.line l).circuit = (s.line l).circuit ∧ (t.line l).watch = (s.line l).watch
        ∧ t.reports = s.reportsAfter (s.lineEntry l .lineState
            [if s.presentedTo l = some .offHook then 7 else 0, circuitOctet (s.line l).circuit, 0,
              (s.setBlockPending l false).flagsOctet l]
            :: s.traceEntries l .blocked (if s.presentedTo l = some .offHook then .parked else .idle)))
    ∧ ((s.line l).state ≠ .blocked → (s.line l).state ≠ .fault →
      exec (.unblock h) s = .next ((s.endFrame true).setLine l { s.line l with blockPending := false }))

/-- UNBLOCK of a line in FAULT: refused with NO CIRCUIT or FAULT, or the mark of its circuit is cleared, its record
rewritten fresh, and the line returned to service with no TRACE (R10, R66). -/
def Obligations.UnblockOfAFaultedLine : Prop :=
  ∀ (h : CommandHeader) (l : Line) (s : State), s.Takes h h.mask l → (s.line l).state = .fault →
    ((s.line l).circuit = none →
      exec (.unblock h) s = .next ((s.endFrame true).queueReport (s.lineEntry l .refused [7, 5])))
    ∧ (∀ c, (s.line l).circuit = some c → (s.circuit c).fault.asserted = true →
      exec (.unblock h) s = .next ((s.endFrame true).queueReport (s.lineEntry l .refused [7, 4])))
    ∧ (∀ c, (s.line l).circuit = some c → (s.circuit c).fault.asserted = false → s.reports.length < 32 →
      ∃ t, exec (.unblock h) s = .next t ∧ (t.circuit c).faultMark = false
        ∧ t.line l = { LineRecord.fresh (some c) with
            state := if s.presentedTo l = some .offHook then .parked else .idle
            timing := { Timing.fresh with sense := (match s.presentedTo l with
              | some .offHook => .mk
              | some .onHook => .brk
              | none => .none) } }
        ∧ t.reports = s.reportsAfter [s.lineEntry l .lineState
            [if s.presentedTo l = some .offHook then 7 else 0, octet c.val, 0, 0]])

/-- REMAP is refused with STATE, or with NO CIRCUIT for a target above 17, a mapped target or a marked target. One that
passes moves the line to the target circuit and into BLOCKED, with BLOCKED from FAULT and LINE STATE within BLOCKED; the
marks and filters of all circuits stand (R13, R15, R16). -/
def Obligations.RemapMovesTheLine : Prop :=
  ∀ (h : CommandHeader) (target : Octet) (l : Line) (s : State), s.Takes h 255 l →
    ((s.line l).state ≠ .blocked → (s.line l).state ≠ .fault →
      exec (.remap h target) s = .next ((s.endFrame true).queueReport (s.lineEntry l .refused [8, 2])))
    ∧ ((s.line l).state = .blocked ∨ (s.line l).state = .fault →
      (17 < target.toNat ∨ (∃ m, ∃ c, (s.line m).circuit = some c ∧ c.val = target.toNat)
        ∨ ∃ c : CircuitNo, c.val = target.toNat ∧ (s.circuit c).faultMark = true) →
      exec (.remap h target) s = .next ((s.endFrame true).queueReport (s.lineEntry l .refused [8, 5])))
    ∧ ∀ c : CircuitNo, ((s.line l).state = .blocked ∨ (s.line l).state = .fault) → c.val = target.toNat →
      (∀ m, (s.line m).circuit ≠ some c) → (s.circuit c).faultMark = false →
      ∃ t, exec (.remap h target) s = .next t
        ∧ (t.line l).circuit = some c ∧ (t.line l).state = .blocked ∧ (t.line l).timing = Timing.fresh
        ∧ (t.line l).tone = .none ∧ (t.line l).ring = none ∧ (t.line l).watch = (s.line l).watch
        ∧ (t.circuit c).cutOff = true ∧ (t.circuit c).ringRelay = false
        ∧ (∀ d, (t.circuit d).faultMark = (s.circuit d).faultMark ∧ (t.circuit d).hook = (s.circuit d).hook
            ∧ (t.circuit d).fault = (s.circuit d).fault)
        ∧ ((s.line l).state = .fault → t.reports = s.reportsAfter
            (s.lineEntry l .blocked [] :: s.traceEntries l .fault .blocked))
        ∧ ((s.line l).state = .blocked → t.reports = s.reportsAfter
            (s.lineEntry l .lineState [12, octet c.val, 0, s.flagsOctet l] :: s.traceEntries l .blocked .blocked))

/-- WATCH sets or clears the watch flag and nothing else. QUERY LINE queues a LINE STATE of four octets, or eight in a ring
state, and clears the line's resync-due flag (R67, R157, R161, R165). -/
def Obligations.WatchAndQueryLine : Prop :=
  ∀ (h : CommandHeader) (l : Line) (s : State), s.Takes h 255 l →
    (∀ v : Octet, exec (.watch h v) s = .next ((s.endFrame true).setLine l { s.line l with watch := decide (v ≠ 0) }))
    ∧ (s.reports.length < 32 → s.RingOk → ∃ t, exec (.queryLine h) s = .next t
      ∧ t.line l = { s.line l with resyncDue := false } ∧ t.circuits = s.circuits
      ∧ ((s.line l).ring = none → t.reports = s.reportsAfter [s.lineEntry l .lineState
          [stateOctet (s.line l).state, circuitOctet (s.line l).circuit, toneOctet (s.line l).tone, s.flagsOctet l]])
      ∧ (∀ r, (s.line l).ring = some r → t.reports = s.reportsAfter [s.lineEntry l .lineState
          [stateOctet (s.line l).state, circuitOctet (s.line l).circuit, toneOctet (s.line l).tone, s.flagsOctet l,
            octet r.code.val, if r.priority then 1 else 0, octet (16 * r.weight + r.offset.val),
            octet (16 * r.limit + r.cycles)]]))

/-- QUERY STATION and QUERY TABLE queue their answers, formed as the command acts, behind every entry of the queue, and
leave the rest; a full queue drops the answer and nothing else changes (R104, R105, R158). -/
def Obligations.StationQueriesAreAnswered : Prop :=
  ∀ (h : CommandHeader) (s : State), s.Hears h → s.running = true → addressesStation s.own h.address = true →
    ∀ i e, (i = .queryStation h ∧ e = newReport .stationState (BitVec.ofNat 8 (16 * s.own.val))
        ([if s.station.state = .active then 1 else 0, octet s.table.baseBudget,
          if s.table.reduced.asserted then 1 else 0, octet s.ringUnit.queue.length]
          ++ s.table.ownRow.toList.map octet)
      ∨ i = .queryTable h ∧ e = newReport .tableView (BitVec.ofNat 8 (16 * s.own.val))
        ((List.finRange 8).flatMap fun p => [octet (s.phaseTotal p / 256), octet (s.phaseTotal p % 256)])) →
      exec i s = .next { s.endFrame true with
        reports := if s.reports.length < 32 then s.reports ++ [e] else s.reports }

/-- A COMMAND that the station state does not allow, or that addresses no line and not the station, is not taken: the
slot is left recessive and the frame has no effect. The slot shows the decision. A COMMAND decided at its check octet acts
at its completion only if it was taken and the station state at the completion allows it; the slot shows the decision
whatever the state then is. Its header and address were judged with the decision, so that a STATION RESET taken by a station
that enters SILENT in the slot, its straps lost, acts there: it enters SILENT again, and that every block takes its start
values with no WITHDRAW due is the model's choice, log 17, where R178 has the queues stand unsent. The assembly holds the
decision as log 20 says (R142, R155, R156, R173, R177, R178). -/
def Obligations.UntakenCommandsHaveNoEffect : Prop :=
  (∀ (h : CommandHeader) (s : State), s.Hears h →
    (∀ i, ((∃ p1 p2, i = .ring h p1 p2) ∨ i = .connect h ∨ i = .releaseLine h ∨ (∃ v, i = .tone h v)
        ∨ (∃ v, i = .remap h v) ∨ (∃ v, i = .watch h v) ∨ i = .queryLine h) →
      (s.running = false ∨ addressedLines s.own h.address 255 = []) → exec i s = .next (s.endFrame false))
    ∧ (∀ i, (i = .stopRing h ∨ i = .blockPolite h ∨ (∃ v, i = .blockForced h v) ∨ i = .unblock h) →
      (s.running = false ∨ addressedLines s.own h.address h.mask = []) → exec i s = .next (s.endFrame false))
    ∧ (∀ i, (i = .queryStation h ∨ i = .queryTable h) →
      (s.running = false ∨ addressesStation s.own h.address = false) → exec i s = .next (s.endFrame false))
    ∧ ((s.station.state = .down ∨ s.station.state = .silent ∨ addressesStation s.own h.address = false) →
      exec (.start h) s = .next (s.endFrame false))
    ∧ (∀ e, (s.station.state = .down ∨ addressesStation s.own h.address = false) →
      exec (.stationReset h e) s = .next (s.endFrame false))
    ∧ ∀ i d, commandHeader i = some h → i.wellFormed = true → s.decision i = some d →
      ∃ t, exec i s = .next t ∧ t.bus.ackSlot = d)
  ∧ (∀ (i : Instr) (h : CommandHeader) (s : State), commandHeader i = some h → i.wellFormed = true →
    s.receiving = true →
    (s.bus.rx.decided = some false → h.station ≠ s.own → exec i s = .next (s.endFrame false))
    ∧ (s.bus.rx.decided = some true → s.decision i = some true →
      exec i s = exec i { s with bus := { s.bus with rx := { s.bus.rx with decided := none } } }))
  ∧ ∀ (h : CommandHeader) (s : State), s.receiving = true → s.bus.rx.decided = some true →
    (∀ i, ((∃ p1 p2, i = .ring h p1 p2) ∨ i = .stopRing h ∨ i = .connect h ∨ i = .releaseLine h ∨ (∃ v, i = .tone h v)
        ∨ i = .blockPolite h ∨ (∃ v, i = .blockForced h v) ∨ i = .unblock h ∨ (∃ v, i = .remap h v)
        ∨ (∃ v, i = .watch h v) ∨ i = .queryLine h ∨ i = .queryStation h ∨ i = .queryTable h) →
      s.running = false → exec i s = .next (s.endFrame true))
    ∧ (s.station.state = .down ∨ s.station.state = .silent → exec (.start h) s = .next (s.endFrame true))
    ∧ ∀ e, (s.station.state = .down → exec (.stationReset h e) s = .next (s.endFrame true))
      ∧ (s.station.state = .silent → s.control.warning.asserted = false →
        ∃ t, exec (.stationReset h e) s = .next t ∧ t.bus.ackSlot = true
          ∧ StartedBlocks s.table.baseBudget (s.strapsKnown && decide (s.own ≠ 0)) t
          ∧ t.station = { s.station with
              state := if s.strapsKnown = true ∧ s.own ≠ 0 then .starting else .silent
              conflicts := 0 })

/-- A line is addressed when its shelf line number agrees with the address in every bit position where the mask holds
a 1. STOP RING, BLOCK and UNBLOCK take the mask of the frame, every other line command all ones; a station command
compares the high half of the address alone; a high half of 0 names no line and no station except under a mask. Under a mask
each addressed line takes the command whole, in increasing order, as though it had been aimed at that line alone (R154,
R156). -/
def Obligations.MaskedAddressing : Prop :=
  (∀ (own : StationNo) (address mask : Octet) (l : Line),
    l ∈ addressedLines own address mask
      ↔ ∀ i < 8, mask.getLsbD i = true → (BitVec.ofNat 8 (16 * own.val + l.val)).getLsbD i = address.getLsbD i)
  ∧ (∀ (own : StationNo) (address : Octet) (l m : Line),
    l ∈ addressedLines own address 255 → m ∈ addressedLines own address 255 → l = m)
  ∧ (∀ (own : StationNo) (address : Octet), addressesStation own address = true
    ↔ own ≠ 0 ∧ address.toNat / 16 = own.val)
  ∧ (∀ (own : StationNo) (address : Octet), own ≠ 0 → address.toNat < 16 →
    addressedLines own address 255 = [] ∧ addressesStation own address = false)
  ∧ (∀ (h : CommandHeader) (s : State), s.Hears h → s.running = true →
    (∀ i, (i = .stopRing h ∨ i = .blockPolite h ∨ (∃ v, i = .blockForced h v) ∨ i = .unblock h) →
      ∃ t, exec i s = .next t ∧ t.bus.ackSlot = decide (addressedLines s.own h.address h.mask ≠ []))
    ∧ ∀ i, ((∃ p1 p2, i = .ring h p1 p2) ∨ i = .connect h ∨ i = .releaseLine h ∨ (∃ v, i = .tone h v)
        ∨ (∃ v, i = .remap h v) ∨ (∃ v, i = .watch h v) ∨ i = .queryLine h) →
      ∃ t, exec i s = .next t ∧ t.bus.ackSlot = decide (addressedLines s.own h.address 255 ≠ []))
  ∧ (∀ (h : CommandHeader) (s : State), s.receiving = true → h.station ≠ s.own → s.bus.rx.decided ≠ some false →
    s.running = true → addressedLines s.own h.address h.mask ≠ [] →
    (addressedLines s.own h.address h.mask).Pairwise (· < ·)
    ∧ ∀ i, (i = .stopRing h ∨ i = .blockPolite h ∨ (∃ v, i = .blockForced h v) ∨ i = .unblock h) →
      exec i s = .next (s.oneByOne i h.station (addressedLines s.own h.address h.mask)))
  ∧ ∀ (h k : CommandHeader) (e : CircuitWordErrors) (s : State), k.station = h.station →
    k.address.toNat / 16 = h.address.toNat / 16 →
    exec (.queryStation k) s = exec (.queryStation h) s ∧ exec (.queryTable k) s = exec (.queryTable h) s
      ∧ exec (.start k) s = exec (.start h) s ∧ exec (.stationReset k e) s = exec (.stationReset h e) s

/-- The frame of the line commands: for the addressed lines only their own records, their circuits, the report queue
and, where a line was in a ring state, the Ring Placement Unit and the own row change. A RING, which may place a queued
line, leaves every line alone that is neither addressed nor queued (R41, R112, R156). -/
def Obligations.LineCommandFrame : Prop :=
  ∀ (h : CommandHeader) (s : State), s.Hears h → s.running = true →
    (∀ i, (i = .connect h ∨ i = .releaseLine h ∨ (∃ v, i = .tone h v) ∨ (∃ v, i = .remap h v) ∨ (∃ v, i = .watch h v)
        ∨ i = .queryLine h) → addressedLines s.own h.address 255 ≠ [] →
      ∀ t, exec i s = .next t →
        LinesFrame (addressedLines s.own h.address 255) s t ∧ t.bus = (s.endFrame true).bus)
    ∧ (∀ i, (i = .stopRing h ∨ i = .blockPolite h ∨ (∃ v, i = .blockForced h v) ∨ i = .unblock h) →
      addressedLines s.own h.address h.mask ≠ [] →
      ∀ t, exec i s = .next t →
        LinesFrame (addressedLines s.own h.address h.mask) s t ∧ t.bus = (s.endFrame true).bus)
    ∧ ∀ p1 p2 l, addressedLines s.own h.address 255 = [l] → ∀ t, exec (.ring h p1 p2) s = .next t →
      t.station = s.station ∧ t.control = s.control ∧ t.cadence = s.cadence
        ∧ t.table = { s.table with ownRow := t.table.ownRow } ∧ t.bus = (s.endFrame true).bus
        ∧ t.ringUnit.releases = s.ringUnit.releases ∧ t.freeDraws = s.freeDraws ∧ t.pending = s.pending
        ∧ ∀ m, m ≠ l → m ∉ s.ringUnit.queue → SameButResync (s.line m) (t.line m)

/-- A line that leaves the ring states by STOP RING, RELEASE LINE, a forced BLOCK, an answer, a circuit fault or a repeated
correction of its record: the Ring Placement Unit acts by the state left alone (R120, R121, R122, R123, R168). -/
def Obligations.RingLeaveActsByTheStateLeft : Prop :=
  ∀ (l : Line) (s t : State) (i : Instr), (s.line l).state.isRing = true →
    ((∃ h, i = .stopRing h ∧ s.Takes h h.mask l) ∨ (∃ h, i = .releaseLine h ∧ s.Takes h 255 l)
      ∨ (∃ h v, i = .blockForced h v ∧ v ≠ 0 ∧ s.Takes h h.mask l)
      ∨ (i = .seizeConfirmed l ∧ s.running = true ∧ (s.line l).state ≠ .ringing ∧ s.seizeHeld l = true)
      ∨ (i = .tripConfirmed l ∧ s.running = true ∧ s.tripDue l = true)
      ∨ (∃ c, i = .faultAssertedEdge c ∧ s.running = true ∧ (s.circuit c).fault = ⟨false, 3⟩ ∧ s.owner c = some l)
      ∨ ∃ w, i = .lineRecordCorrection l w ∧ s.running = true ∧ ((s.line l).reads w).any = true
          ∧ (s.line l).correctionMark = true) →
    exec i s = .next t → ∃ u, t = u.sendIfIdle ∧ AfterRingLeave l s u

/-! ## The bus -/

/-- A peer's frame changes its own row and nothing else but the bus: a CLAIM raises the cells of its set with a ceiling of
255, a RELEASE lowers them with a floor of 0, a SUMMARY replaces all eight, a WITHDRAW clears the row, and a REPORT keeps
the cells, 0 for an ABSENT row; all but the WITHDRAW leave the row PRESENT at age 0 (R90, R91, R92, R93, R94). -/
def Obligations.PeerFramesChangeTheirRow : Prop :=
  ∀ (st : StationNo) (s : State), s.receiving = true → s.running = true → st ≠ s.own → st ≠ 0 →
    ∀ (i : Instr) (f : PeerRow → PeerRow),
      ((∃ l w set, i = .peerClaim st l w set ∧ ∀ r, (f r).present = true ∧ (f r).age = 0
          ∧ ∀ p : Phase, (f r).cells[p] = if inSet set p then min (r.cells[p] + w.val) 255 else r.cells[p])
        ∨ (∃ l w set, i = .peerRelease st l w set ∧ ∀ r, (f r).present = true ∧ (f r).age = 0
          ∧ ∀ p : Phase, (f r).cells[p] = if inSet set p then r.cells[p] - w.val else r.cells[p])
        ∨ (∃ cells, i = .peerSummary st cells ∧ ∀ r, (f r).present = true ∧ (f r).age = 0
          ∧ ∀ p : Phase, (f r).cells[p] = cells[p].toNat)
        ∨ (i = .peerWithdraw st ∧ ∀ r, f r = ⟨Vector.replicate 8 0, false, 0⟩)
        ∨ (∃ code number values, i = .peerReport st code number values ∧ values.length ≤ 16
          ∧ ∀ r, f r = ⟨if r.present then r.cells else Vector.replicate 8 0, true, 0⟩)) →
      ∃ t, exec i s = .next t
        ∧ t = { s.endFrame false with table := { s.table with peers := t.table.peers } }
        ∧ ∀ k : Fin 15, t.table.peers[k] = if k.val + 1 = st.val then f s.table.peers[k] else s.table.peers[k]

/-- Frames that change nothing but the assembly, which waits for idle with the slot left recessive: a discarded frame, a
COMMAND with an unknown code, which no decision has taken, the five kinds from station 0, and a peer's frame while the
station is in DOWN, HELD or SILENT (R89, R106, R144). -/
def Obligations.FramesWithoutEffect : Prop :=
  ∀ s : State, s.receiving = true →
    (∀ octets framing, discarded octets framing = true →
      exec (.frameDiscard octets framing) s = .next (s.endFrame false))
    ∧ (∀ h code, h.station ≠ s.own → s.bus.rx.decided ≠ some true → (code = 0 ∨ 15 ≤ code.toNat) →
      exec (.unknownCommand h code) s = .next (s.endFrame false))
    ∧ (∀ st, st ≠ s.own → (st = 0 ∨ s.running = false) →
      ∀ i, ((∃ l w set, i = .peerClaim st l w set) ∨ (∃ l w set, i = .peerRelease st l w set)
          ∨ (∃ cells, i = .peerSummary st cells) ∨ i = .peerWithdraw st
          ∨ ∃ code number values, i = .peerReport st code number values) →
        exec i s = .next (s.endFrame false))
    ∧ s.endFrame false = { s with bus := { s.bus with
        rx := { state := .waiting, recessive := 0, bits := [], octets := [], expected := none, decided := none,
                mismatchCounted := false }
        ackSlot := false } }

/-- A frame of any kind with the own number that this station did not send, and a read-back mismatch, count one conflict in
STARTING and ACTIVE; the third takes the station to SILENT with the alarm asserted and the line states as they stood. A frame
in which a mismatch was counted is not counted again, and in DOWN, HELD and SILENT nothing is counted: such a frame is
delivered nowhere and has no effect (R141, R145, R148, R178). -/
def Obligations.ConflictsAreCounted : Prop :=
  (∀ (s : State) (i : Instr), s.running = true →
    ((s.CarriesOwnNumber i ∧ s.receiving = true ∧ s.bus.rx.mismatchCounted = false)
      ∨ (i = .readBackMismatch ∧ ∃ f, s.bus.tx = some f ∧ f.phase = .body)) →
    ∃ t, exec i s = .next t ∧ t.station.conflicts = s.station.conflicts + 1 ∧ t.bus.tx = none ∧ t.lines = s.lines ∧ t.table = s.table
      ∧ t.ringUnit.queue = s.ringUnit.queue ∧ t.ringUnit.releases = s.ringUnit.releases
      ∧ (s.station.conflicts < 2 → t.station.state = s.station.state ∧ t.control = s.control
          ∧ t.circuits = s.circuits ∧ t.cadence = s.cadence)
      ∧ (2 ≤ s.station.conflicts → t.station.state = .silent ∧ t.control.alarm = true ∧ t.OutputsOk
          ∧ t.bus.withdrawDue = s.bus.withdrawDue)
      ∧ (i = .readBackMismatch → t.bus.rx.mismatchCounted = true))
  ∧ (∀ (s : State) (i : Instr), s.receiving = true → s.CarriesOwnNumber i →
    (s.bus.rx.mismatchCounted = true ∨ s.running = false) → exec i s = .next (s.endFrame false))
  ∧ ∀ (s : State) (f : TxFrame), s.running = false → s.bus.tx = some f → f.phase = .body →
    ∃ t, exec .readBackMismatch s = .next t ∧ t.station = s.station ∧ t.control = s.control ∧ t.bus.tx = none

/-- An own frame that is abandoned on a read-back mismatch, or loses the contest, leaves the wire and its source keeps what
it owes: a claim goes back to PENDING or, ORPHANED, ends, and a report loses its sending mark and stays in its place. No other
source changes, but that the third conflict, which stops the blocks, clears every sending mark (R116, R137, R141, R147, R148,
R162). -/
def Obligations.AbandonedAndLostFrames : Prop :=
  ∀ (s : State) (f : TxFrame), s.bus.tx = some f →
    (f.phase = .body → ∃ t, exec .readBackMismatch s = .next t ∧ t.bus.tx = none
      ∧ t.lines = s.lines ∧ t.table = s.table
      ∧ (f.kind = .claim → t.ringUnit = { s.ringUnit with claim := (match s.ringUnit.claim with
          | none => none
          | some c => if c.status = .orphaned then none else some { c with status := .pending }) })
      ∧ (f.kind ≠ .claim → t.ringUnit = s.ringUnit)
      ∧ t.reports = (if f.kind = .report ∨ s.running = true ∧ 2 ≤ s.station.conflicts
          then s.reports.map (fun e => { e with sending := false, replaced := false }) else s.reports))
    ∧ (f.phase = .contest → ∃ t, exec .contestLost s = .next t
      ∧ t = { s with bus := { s.bus with tx := none }, ringUnit := t.ringUnit, reports := t.reports }
      ∧ (f.kind = .claim → t.ringUnit = { s.ringUnit with claim := (match s.ringUnit.claim with
          | none => none
          | some c => if c.status = .orphaned then none else some { c with status := .pending }) })
      ∧ (f.kind ≠ .claim → t.ringUnit = s.ringUnit)
      ∧ t.reports = (if f.kind = .report
          then s.reports.map (fun e => { e with sending := false, replaced := false }) else s.reports))

/-- BUS_IDLE on an assembly that follows no frame, START_BIT on an idle bus, and a row that leaves a frame ready on an idle
bus, begin the first frame that the station has and its state allows, composed from its source, in the contest phase; a
station with none begins none. A beginning CLAIM becomes SENDING, a beginning REPORT sets the sending mark of the head, and
nothing else of any source changes. A START_BIT while the assembly waits for idle sets its count to 0 (R136, R143, R146, R147,
R162). -/
def Obligations.IdleBusBeginsTheChosenFrame : Prop :=
  ∀ s : State, s.bus.tx = none →
    (∀ (t : State) (rx : RxState), exec .busIdle s = .next t ∧ s.bus.rx.state ≠ .assembling ∧ rx = .idle
        ∨ exec .startBit s = .next t ∧ s.bus.rx.state = .idle ∧ rx = .assembling
        ∨ t = s.sendIfIdle ∧ s.bus.rx.state = .idle ∧ rx = .idle →
      t = { s with bus := t.bus, ringUnit := t.ringUnit, reports := t.reports }
        ∧ (s.chooseFrame = none → t.bus.tx = none ∧ t.ringUnit = s.ringUnit ∧ t.reports = s.reports
          ∧ t.bus.rx.state = rx)
        ∧ ∀ k, s.chooseFrame = some k → t.bus.tx = some ⟨k, s.composeFrame k, 0, 0, .contest⟩
            ∧ t.bus.rx.state = .assembling
            ∧ t.ringUnit = (if k = .claim
                then { s.ringUnit with claim := s.ringUnit.claim.map fun c => { c with status := .sending } }
                else s.ringUnit)
            ∧ t.reports = (if k = .report
                then (match s.reports with
                  | [] => []
                  | e :: q => { e with sending := true, replaced := false } :: q)
                else s.reports))
    ∧ (∃ t, exec .busIdle s = .next t) ∧ (∃ t, exec .startBit s = .next t)
    ∧ (s.bus.rx.state ≠ .idle → s.sendIfIdle = s)
    ∧ (s.bus.rx.state = .waiting →
      exec .startBit s = .next { s with bus := { s.bus with rx := { s.bus.rx with recessive := 0 } } })

/-- The order of frame selection: WITHDRAW, RELEASE, CLAIM while PENDING, REPORT, SUMMARY; STARTING sends WITHDRAW and
REPORT alone, DOWN a WITHDRAW, HELD and SILENT nothing (R146). -/
def Obligations.FrameSelectionOrder : Prop :=
  ∀ s : State,
    (s.station.state = .active → s.chooseFrame =
      if s.bus.withdrawDue then some .withdraw
      else if s.ringUnit.releases ≠ [] then some .release
      else if s.ringUnit.claim.any (fun c => c.status = .pending) then some .claim
      else if s.reports ≠ [] then some .report
      else if s.bus.summaryDue then some .summary
      else none)
    ∧ (s.station.state = .starting → s.chooseFrame =
      if s.bus.withdrawDue then some .withdraw else if s.reports ≠ [] then some .report else none)
    ∧ (s.station.state = .down → s.chooseFrame = if s.bus.withdrawDue then some .withdraw else none)
    ∧ (s.station.state = .held ∨ s.station.state = .silent → s.chooseFrame = none)

/-- The check octet is the remainder of the octets before it, read as a polynomial over the two-element field with the first
bit highest and multiplied by x⁸, on division by x⁸ + x² + x + 1, and taken over the whole frame the remainder is 0. Every
frame sent has the header 32 × kind + 16 × urgency + station and the octets of its layout, from its source as the source
stands; reports have the codes and classes of R160 (R138, R139, R140, R146, R160). -/
def Obligations.FramesAreComposedAsLaidOut : Prop :=
  (∀ q : List Octet, ∃ quotient : Polynomial (ZMod 2),
    Polynomial.X ^ 8 * (q.foldl (fun p o => Polynomial.X ^ 8 * p
        + ((List.finRange 8).map fun i => if o.getLsbD i.val then Polynomial.X ^ i.val else 0).sum) 0)
      = quotient * (Polynomial.X ^ 8 + Polynomial.X ^ 2 + Polynomial.X + 1)
        + ((List.finRange 8).map fun i => if (checkOctet q).getLsbD i.val then Polynomial.X ^ i.val else 0).sum)
  ∧ (∀ q : List Octet, withCheck q = q ++ [checkOctet q] ∧ checkOctet (withCheck q) = 0)
  ∧ checkOctet [0x46, 0x56, 0x0C] = 0xAD
  ∧ (∀ (s : State) (n : Nat), s.own.val = n →
    s.composeFrame .withdraw = withCheck [BitVec.ofNat 8 n]
    ∧ (∀ r rest, s.ringUnit.releases = r :: rest → s.composeFrame .release
        = withCheck [BitVec.ofNat 8 (32 + n), BitVec.ofNat 8 (16 * r.line.val + r.weight), r.set])
    ∧ (∀ c, s.ringUnit.claim = some c → s.composeFrame .claim
        = withCheck [BitVec.ofNat 8 (64 + n), BitVec.ofNat 8 (16 * c.line.val + c.weight), c.set])
    ∧ (∀ e rest, s.reports = e :: rest → s.composeFrame .report
        = withCheck ([BitVec.ofNat 8 (128 + (if e.cls = 1 then 0 else 16) + n), reportOctet e.code, e.number,
            BitVec.ofNat 8 e.values.length] ++ e.values))
    ∧ s.composeFrame .summary = withCheck (BitVec.ofNat 8 (176 + n)
        :: [s.table.ownRow[0], s.table.ownRow[1], s.table.ownRow[2], s.table.ownRow[3], s.table.ownRow[4],
            s.table.ownRow[5], s.table.ownRow[6], s.table.ownRow[7]].map (BitVec.ofNat 8)))
  ∧ [ReportCode.answer, .clear, .flash, .fault, .seize, .digit, .digitError, .noAnswer, .dialTimeout, .refused, .blocked,
      .lineState, .ringDelayed, .corrected, .trace, .peerLost, .stationState, .tableView].map
        (fun c => ((reportOctet c).toNat, reportClass c))
    = [(1, 1), (2, 1), (3, 1), (4, 1), (5, 2), (6, 2), (7, 2), (8, 2), (9, 2), (10, 2), (11, 2), (12, 2), (13, 3), (14, 3),
        (15, 3), (16, 3), (17, 3), (18, 3)]

/-- Reading a frame gives back the row whose frame it is, with every operand: the octets of every frame row, composed in the
layouts of R139 with the codes of R153, have the length the assembly expects, are discarded at no octet, and are read as that
row (R138, R139, R143, R144, R153). -/
def Obligations.ReadingAFrameGivesItsRow : Prop :=
  ∀ (urgency : Bool) (i : Instr) (q : List Octet), frameOctets urgency i = some q →
    (∀ h v, i = .blockForced h v → v ≠ 0) → (∀ h code, i = .unknownCommand h code → code = 0 ∨ 15 ≤ code.toNat) →
    (∀ st code number values, i = .peerReport st code number values → values.length ≤ 16) →
    readFrame q = some i ∧ expectedLength q = some q.length ∧ ∀ n ≤ q.length, discarded (q.take n) false = false

/-- The completion of the own CLAIM: within the effective budget the line is armed; above it the weight leaves the own
row, a RELEASE is owed and the line returns to the head of its class; an ORPHANED claim owes a RELEASE (R117, R118,
R122). -/
def Obligations.OwnClaimIsValidated : Prop :=
  ∀ (s : State) (f : TxFrame) (c : Claim), s.bus.tx = some f → f.kind = .claim → s.ringUnit.claim = some c →
    (∀ r, c.status = .sending → (s.line c.line).state = .ringClaiming → (s.line c.line).ring = some r →
      s.seizeHeld c.line = false → (∀ p : Phase, inSet c.set p = true → s.phaseTotal p ≤ s.effectiveBudget r.priority) →
      ∃ t, exec .ownClaimCompletes s = .next t ∧ (t.line c.line).state = .ringArmed
        ∧ (t.line c.line).ring = some r ∧ t.ringUnit = { s.ringUnit with claim := none } ∧ t.table = s.table
        ∧ t.station.conflicts = 0 ∧ t.bus.tx = none)
    ∧ (∀ r (p : Phase), c.status = .sending → (s.line c.line).state = .ringClaiming → (s.line c.line).ring = some r →
      s.seizeHeld c.line = false → inSet c.set p = true → s.effectiveBudget r.priority < s.phaseTotal p →
      ∃ t, exec .ownClaimCompletes s = .next t ∧ (t.line c.line).state = .ringQueued
        ∧ (t.line c.line).ring = some { r with offset := 0 } ∧ t.ringUnit.claim = none
        ∧ t.ringUnit.releases = s.ringUnit.releases ++ [⟨c.line, c.weight, c.set⟩]
        ∧ (r.priority = true → t.ringUnit.queue = c.line :: s.ringUnit.queue)
        ∧ (r.priority = false → c.line ∉ s.ringUnit.queue → t.ringUnit.queue
            = s.ringUnit.queue.takeWhile s.isPriority ++ c.line :: s.ringUnit.queue.dropWhile s.isPriority)
        ∧ (∀ q : Phase, t.table.ownRow[q] = s.table.ownRow[q] - (if inSet c.set q then c.weight else 0))
        ∧ t.reports = s.reportsAfter (s.traceEntries c.line .ringClaiming .ringQueued))
    ∧ (c.status = .orphaned → ∃ t, exec .ownClaimCompletes s = .next t
      ∧ t.ringUnit = { s.ringUnit with
          claim := none, releases := s.ringUnit.releases ++ [⟨c.line, c.weight, c.set⟩] }
      ∧ t.lines = s.lines ∧ t.table = s.table ∧ t.reports = s.reports)
    ∧ ∀ t, exec .ownClaimCompletes s = .next t →
      t.control = s.control ∧ t.cadence = s.cadence ∧ t.table = { s.table with ownRow := t.table.ownRow }
        ∧ (∀ m, m ≠ c.line → SameButResync (s.line m) (t.line m))
        ∧ ∀ d, (s.line c.line).circuit ≠ some d → t.circuit d = s.circuit d

/-- The completions of the own RELEASE, SUMMARY and WITHDRAW frames: the head entry is removed, or the due flag is
cleared, and the conflict count is 0; nothing else changes but the bus (R77, R127, R141, R147). That the WITHDRAW that
completes in DOWN sets the count to 0 too is the model's reading (log 15): R148 has the count stand in DOWN. -/
def Obligations.OwnFramesComplete : Prop :=
  ∀ (s : State) (f : TxFrame), s.bus.tx = some f →
    (f.kind = .release → exec .ownReleaseCompletes s = .next { s with
      bus := { s.bus with tx := none, rx := RxAssembly.waitingForIdle, ackSlot := false }
      station := { s.station with conflicts := 0 }
      ringUnit := { s.ringUnit with releases := s.ringUnit.releases.tail } })
    ∧ (f.kind = .summary → exec .ownSummaryCompletes s = .next { s with
      bus := { s.bus with tx := none, rx := RxAssembly.waitingForIdle, ackSlot := false, summaryDue := false }
      station := { s.station with conflicts := 0 } })
    ∧ (f.kind = .withdraw → exec .ownWithdrawCompletes s = .next { s with
      bus := { s.bus with tx := none, rx := RxAssembly.waitingForIdle, ackSlot := false, withdrawDue := false }
      station := { s.station with conflicts := 0 } })

/-- The completion of the own REPORT: its entry is removed, and the lowest line with resync-due set is reported and
its flag cleared; an entry whose content was replaced on the wire stays with its mark cleared (R162, R163, R165). -/
def Obligations.OwnReportCompletes : Prop :=
  ∀ (s : State) (f : TxFrame) (e : ReportEntry) (front back : List ReportEntry), s.bus.tx = some f →
    f.kind = .report → s.reports = front ++ e :: back → (∀ x ∈ front, x.sending = false) → e.sending = true →
    s.reports.length ≤ 32 →
    (e.replaced = true → ∃ t, exec .ownReportCompletes s = .next t
      ∧ t.reports = s.reports.map ReportEntry.offWire ∧ t.lines = s.lines)
    ∧ (e.replaced = false → (∀ l, (s.line l).resyncDue = false) → ∃ t, exec .ownReportCompletes s = .next t
      ∧ t.reports = front ++ back ∧ t.lines = s.lines)
    ∧ (∀ l, e.replaced = false → (s.line l).resyncDue = true → (∀ m < l, (s.line m).resyncDue = false) →
      ∃ t, exec .ownReportCompletes s = .next t
        ∧ t.reports = ({ s with reports := front ++ back }).reportsAfter
            [s.lineEntry l .lineState (lineStateValues (s.line l))]
        ∧ t.line l = { s.line l with resyncDue := false } ∧ ∀ m, m ≠ l → t.line m = s.line m)
    ∧ ∀ t, exec .ownReportCompletes s = .next t → t = { s with
        lines := t.lines
        reports := t.reports
        bus := { s.bus with tx := none, rx := RxAssembly.waitingForIdle, ackSlot := false }
        station := { s.station with conflicts := 0 } }

/-- The report queue. A LINE STATE, TRACE or CORRECTED report coalesces with the entry of its code and number, and for
CORRECTED its value: the entry keeps its place and its mark with the new values. Another report enters behind the last entry
of its class. At 32 entries a class 3 report is dropped; a class 1 or class 2 report displaces the newest class 3 entry whose
sending mark is clear, and where there is none a class 1 report the newest such class 2 entry, setting the resync-due flag of
that entry's line; a report that can displace none is dropped and sets the flag of its own line (R162, R163, R164). -/
def Obligations.FullQueueDisplacesOrDrops : Prop :=
  (∀ new old : ReportEntry, new.coalescesWith old = true ↔ new.code = old.code ∧ new.number = old.number
    ∧ (new.code = .lineState ∨ new.code = .trace ∨ new.code = .corrected ∧ new.values = old.values))
  ∧ ∀ (s : State) (e : ReportEntry), s.ReportsOk →
    (∀ front old back, s.reports = front ++ old :: back → e.coalescesWith old = true →
      s.queueReport e = { s with reports :=
        front ++ { old with values := e.values, replaced := old.sending } :: back })
    ∧ ((∀ x ∈ s.reports, e.coalescesWith x = false) →
      (s.reports.length < 32 → s.queueReport e = { s with
        reports := s.reports.filter (fun x => x.cls ≤ e.cls) ++ e :: s.reports.filter (fun x => e.cls < x.cls) })
      ∧ (s.reports.length = 32 →
        (e.cls = 3 → s.queueReport e = s)
        ∧ (∀ front d back, s.reports = front ++ d :: back → d.cls = 3 → d.sending = false →
          (∀ x ∈ back, x.cls = 3 → x.sending = true) → e.cls ≠ 3 →
          s.queueReport e = { s with reports := (front ++ back).filter (fun x => x.cls ≤ e.cls)
            ++ e :: (front ++ back).filter (fun x => e.cls < x.cls) })
        ∧ ((∀ x ∈ s.reports, x.cls = 3 → x.sending = true) →
          (∀ front d back, s.reports = front ++ d :: back → d.cls = 2 → d.sending = false →
            (∀ x ∈ back, x.cls = 2 → x.sending = true) → e.cls = 1 →
            s.queueReport e = { s.setLine (lineOfNumber d.number)
                { s.line (lineOfNumber d.number) with resyncDue := true } with
              reports := (front ++ back).filter (fun x => x.cls ≤ e.cls)
                ++ e :: (front ++ back).filter (fun x => e.cls < x.cls) })
          ∧ (e.cls = 2 ∨ e.cls = 1 ∧ (∀ x ∈ s.reports, x.cls = 2 → x.sending = true) →
            s.queueReport e = s.setLine (lineOfNumber e.number)
              { s.line (lineOfNumber e.number) with resyncDue := true }))))

/-! ## The hook path -/

/-- An on-hook edge begins a break with the make count held: SEIZING returns to IDLE, DIAL TONE and RECALL TONE lose
their tone, and no other state changes. An off-hook edge outside a break of a call state begins a hold: IDLE goes to
SEIZING. An edge of a spare, or of a line in BLOCKED or FAULT, changes its filter alone, and so does one whose third sample
was taken before the station stopped, the model's choice of log 2. A threshold of the line that is due at the edge is handed
first, and the line takes the edge as that leaves it (R4, R8, R21, R22, R24, R27, R35, R40, R47, R58). -/
def Obligations.EdgesBeginABreakOrAHold : Prop :=
  (∀ (c : CircuitNo) (l : Line) (s : State), s.HookEdge c l .offHook → (s.line l).state.outOfService = false →
    ∃ t : State, exec (.onHookEdge c) s = .next t.sendIfIdle ∧ (t.circuit c).hook = ⟨.settled .onHook, 0⟩
      ∧ ((s.line l).state ≠ .seizing → t.line l = { s.line l with
          tone := if (s.line l).state = .dialTone ∨ (s.line l).state = .recallTone then .none else (s.line l).tone
          timing := { (s.line l).timing with
            sense := .brk
            edgeCount := 0
            heldMake := if (s.line l).timing.sense = .mk then (s.line l).timing.edgeCount else 0 } }
        ∧ t.reports = s.reports)
      ∧ ((s.line l).state = .seizing → (s.line l).blockPending = false → (t.line l).state = .idle
        ∧ (t.line l).timing.sense = .brk ∧ (t.line l).timing.edgeCount = 0
        ∧ t.reports = s.reportsAfter (s.traceEntries l .seizing .idle))
      ∧ ((s.line l).state = .seizing → (s.line l).blockPending = true → (t.line l).state = .blocked))
  ∧ (∀ (c : CircuitNo) (l : Line) (s : State), s.HookEdge c l .onHook → (s.line l).state.outOfService = false →
    ¬((s.line l).state.isCall = true ∧ (s.line l).timing.sense = .brk) →
    ∃ t : State, exec (.offHookEdge c) s = .next t.sendIfIdle ∧ (t.circuit c).hook = ⟨.settled .offHook, 0⟩
      ∧ (t.line l).timing.sense = .mk ∧ (t.line l).timing.edgeCount = 0
      ∧ (t.line l).timing.heldMake = (s.line l).timing.heldMake
      ∧ ((s.line l).state = .idle → (t.line l).state = .seizing
        ∧ t.reports = s.reportsAfter (s.traceEntries l .idle .seizing))
      ∧ ((s.line l).state ≠ .idle → t.line l = { s.line l with
          timing := { (s.line l).timing with sense := .mk, edgeCount := 0 } } ∧ t.reports = s.reports))
  ∧ (∀ (c : CircuitNo) (s : State), (s.owner c = none ∨ s.running = false
      ∨ ∃ l, s.owner c = some l ∧ ((s.line l).state = .blocked ∨ (s.line l).state = .fault)) →
    ((s.circuit c).hook = ⟨.settled .offHook, 3⟩ →
      exec (.onHookEdge c) s = .next (s.setCircuit c { s.circuit c with hook := ⟨.settled .onHook, 0⟩ }).sendIfIdle)
    ∧ ((s.circuit c).hook = ⟨.settled .onHook, 3⟩ →
      exec (.offHookEdge c) s = .next (s.setCircuit c { s.circuit c with hook := ⟨.settled .offHook, 0⟩ }).sendIfIdle))
  ∧ ∀ (c : CircuitNo) (l : Line) (r : Instr) (s t : State), s.LoneThreshold c l r → exec r s = .next t → t.QuietLine l →
    ((s.circuit c).hook = ⟨.settled .offHook, 3⟩ → exec (.onHookEdge c) s = exec (.onHookEdge c) t)
    ∧ ((s.circuit c).hook = ⟨.settled .onHook, 3⟩ → exec (.offHookEdge c) s = exec (.offHookEdge c) t)

/-- The break classes of R25, and an off-hook edge that ends a break of a call state: a HIT resumes the make, restores a
removed tone, and hands the DIGIT-END or interdigit TIMEOUT that the resumed count has reached; a PULSE or LONG PULSE counts
in the dialling states, and a FLASH drives the transitions of R48 to R53 (R24 to R30, R32). -/
def Obligations.OffHookEdgeEndsABreak : Prop :=
  (∀ n, 3 ≤ n →
    (n ≤ 120 → classifyBreak .a n
      = (if n ≤ 7 then .hit else if n ≤ 20 then .pulse else if n ≤ 23 then .longPulse else .flash))
    ∧ (n ≤ 160 → classifyBreak .b n
      = (if n ≤ 7 then .hit else if n ≤ 24 then .pulse else if n ≤ 29 then .longPulse else .flash)))
  ∧ ∀ (c : CircuitNo) (l : Line) (s : State), s.HookEdge c l .onHook → (s.line l).state.isCall = true →
    (s.line l).timing.sense = .brk →
    (classifyBreak s.profile (s.line l).timing.edgeCount = .hit →
      ((s.line l).state ≠ .dialing ∧ (s.line l).state ≠ .recallDialing
        ∨ (s.line l).timing.heldMake + (s.line l).timing.edgeCount < interdigitMakeTicks s.profile
        ∨ (s.line l).timing.pulseCount = 0
          ∧ (s.line l).timing.heldMake + (s.line l).timing.edgeCount < interdigitTimeoutTicks s.profile) →
      ∃ t : State, exec (.offHookEdge c) s = .next t.sendIfIdle ∧ t.reports = s.reports
        ∧ t.line l = { s.line l with
            tone := if (s.line l).state = .dialTone then .dial
              else if (s.line l).state = .recallTone then .special else (s.line l).tone
            timing := { (s.line l).timing with
              sense := .mk
              edgeCount := min ((s.line l).timing.heldMake + (s.line l).timing.edgeCount)
                (interdigitTimeoutTicks s.profile) } })
    ∧ (classifyBreak s.profile (s.line l).timing.edgeCount = .hit →
      ((s.line l).state = .dialing ∨ (s.line l).state = .recallDialing) →
      (0 < (s.line l).timing.pulseCount →
        interdigitMakeTicks s.profile ≤ (s.line l).timing.heldMake + (s.line l).timing.edgeCount →
        (s.line l).timing.heldMake + (s.line l).timing.edgeCount < interdigitTimeoutTicks s.profile →
        ∃ t : State, exec (.offHookEdge c) s = .next t.sendIfIdle
          ∧ SameButResync { s.line l with timing := { (s.line l).timing with
              sense := .mk
              edgeCount := (s.line l).timing.heldMake + (s.line l).timing.edgeCount
              pulseCount := 0 } } (t.line l)
          ∧ t.reports = s.reportsAfter [if (s.line l).timing.pulseCount ≤ 10
              then s.lineEntry l .digit [octet ((s.line l).timing.pulseCount % 10)]
              else s.lineEntry l .digitError [octet (s.line l).timing.pulseCount]])
      ∧ ((s.line l).timing.pulseCount = 0 →
        interdigitTimeoutTicks s.profile ≤ (s.line l).timing.heldMake + (s.line l).timing.edgeCount →
        ∃ t : State, exec (.offHookEdge c) s = .next t.sendIfIdle
          ∧ (t.line l).state = (if (s.line l).state = .dialing then .parked else .connected)
          ∧ (t.line l).timing.sense = .mk ∧ (t.line l).timing.edgeCount = interdigitTimeoutTicks s.profile
          ∧ (t.line l).timing.stateTimer = none ∧ (t.line l).tone = .none
          ∧ t.reports = s.reportsAfter (s.lineEntry l .dialTimeout [stateOctet (s.line l).state]
              :: s.traceEntries l (s.line l).state (if (s.line l).state = .dialing then .parked else .connected))))
    ∧ (classifyBreak s.profile (s.line l).timing.edgeCount = .pulse
        ∨ classifyBreak s.profile (s.line l).timing.edgeCount = .longPulse →
      ∃ t : State, exec (.offHookEdge c) s = .next t.sendIfIdle
        ∧ (t.line l).timing.sense = .mk ∧ (t.line l).timing.edgeCount = 0
        ∧ (t.line l).timing.pulseCount = (if (s.line l).state.isDialling then min ((s.line l).timing.pulseCount + 1) 15
            else (s.line l).timing.pulseCount)
        ∧ (t.line l).state = (if (s.line l).state = .dialTone then .dialing
            else if (s.line l).state = .recallTone then .recallDialing else (s.line l).state)
        ∧ t.reports = (if (s.line l).state = .dialTone then s.reportsAfter (s.traceEntries l .dialTone .dialing)
            else if (s.line l).state = .recallTone then s.reportsAfter (s.traceEntries l .recallTone .recallDialing)
            else s.reports))
    ∧ (classifyBreak s.profile (s.line l).timing.edgeCount = .flash →
      ∃ t : State, exec (.offHookEdge c) s = .next t.sendIfIdle
        ∧ (t.line l).timing.sense = .mk ∧ (t.line l).timing.edgeCount = 0
        ∧ ((s.line l).state = .parked → (t.line l).state = .parked ∧ t.reports = s.reports)
        ∧ ((s.line l).state = .dialTone → (t.line l).state = .dialTone ∧ (t.line l).tone = .dial
          ∧ (t.line l).timing.stateTimer = some 0 ∧ t.reports = s.reportsAfter (s.traceEntries l .dialTone .dialTone))
        ∧ ((s.line l).state = .dialing → (t.line l).state = .dialTone ∧ (t.line l).tone = .dial
          ∧ (t.line l).timing.stateTimer = some 0 ∧ (t.line l).timing.pulseCount = 0
          ∧ t.reports = s.reportsAfter (s.lineEntry l .flash [] :: s.traceEntries l .dialing .dialTone))
        ∧ ((s.line l).state = .connected → (t.line l).state = .recallTone ∧ (t.line l).tone = .special
          ∧ (t.line l).timing.stateTimer = some 0
          ∧ t.reports = s.reportsAfter (s.lineEntry l .flash [] :: s.traceEntries l .connected .recallTone))
        ∧ ((s.line l).state = .recallTone ∨ (s.line l).state = .recallDialing → (t.line l).state = .connected
          ∧ (t.line l).tone = .none ∧ (t.line l).timing.pulseCount = 0
          ∧ t.reports = s.reportsAfter (s.lineEntry l .flash [] :: s.traceEntries l (s.line l).state .connected)))

/-- A settle notice: the filter settles, a context with no sense takes the hook state, and an IDLE line found OFF-HOOK
is PARKED with a LINE STATE. A spare settles the same way with no notice, a line in BLOCKED or FAULT takes none, and so it is
for a circuit whose third sample was taken before the station stopped, the model's choice of log 2. A threshold of the line
that is due at the settle is handed first (R4, R7, R21, R35, R36, R45). -/
def Obligations.SettleNotice : Prop :=
  (∀ (c : CircuitNo) (k : Hook) (s : State), (s.owner c = none ∨ s.running = false
      ∨ ∃ l, s.owner c = some l ∧ ((s.line l).state = .blocked ∨ (s.line l).state = .fault)) →
    (s.circuit c).hook = ⟨.unsettled k, 3⟩ →
    exec (.settle c) s = .next (s.setCircuit c { s.circuit c with hook := ⟨.settled k, 0⟩ }).sendIfIdle)
  ∧ (∀ (c : CircuitNo) (l : Line) (r : Instr) (k : Hook) (s t : State), s.LoneThreshold c l r → exec r s = .next t →
    t.QuietLine l → (s.circuit c).hook = ⟨.unsettled k, 3⟩ → exec (.settle c) s = exec (.settle c) t)
  ∧ ∀ (c : CircuitNo) (l : Line) (k : Hook) (s : State), s.running = true →
    (s.circuit c).hook = ⟨.unsettled k, 3⟩ → s.owner c = some l → s.QuietLine l → (s.line l).state.outOfService = false →
    (s.line l).timing.sense = .none →
    ∃ t : State, exec (.settle c) s = .next t.sendIfIdle ∧ (t.circuit c).hook = ⟨.settled k, 0⟩
      ∧ (t.line l).timing.sense = (if k = .offHook then .mk else .brk) ∧ (t.line l).timing.edgeCount = 0
      ∧ (t.line l).timing.heldMake = 0 ∧ (t.line l).timing.pulseCount = 0
      ∧ ((s.line l).state = .idle → k = .offHook → (t.line l).state = .parked
        ∧ t.reports = s.reportsAfter (s.lineEntry l .lineState [7, octet c.val, 0, s.flagsOctet l]
            :: s.traceEntries l .idle .parked))
      ∧ ((s.line l).state ≠ .idle ∨ k = .onHook → (t.line l).state = (s.line l).state ∧ t.reports = s.reports)

/-- A fault edge: ASSERTED sets the mark and sends a mapped line to FAULT with cause CIRCUIT, without a second report
where it stands in FAULT; on a spare circuit it sets the mark and nothing goes to a line, and so it does where the third
sample was taken before the station stopped, the model's choice of log 2; NORMAL changes the filter alone (R4, R9, R68). -/
def Obligations.FaultEdges : Prop :=
  (∀ (c : CircuitNo) (l : Line) (s : State), s.running = true → (s.circuit c).fault = ⟨false, 3⟩ → s.owner c = some l →
    ∃ t : State, exec (.faultAssertedEdge c) s = .next t.sendIfIdle ∧ (t.circuit c).faultMark = true ∧ (t.circuit c).fault = ⟨true, 0⟩
      ∧ ((s.line l).state ≠ .fault → SameButResync ((s.line l).outOfUse .fault) (t.line l)
        ∧ t.reports = s.reportsAfter (s.lineEntry l .fault [0] :: s.traceEntries l (s.line l).state .fault)
        ∧ (t.circuit c).ringRelay = false ∧ (t.circuit c).dialSwitch = false ∧ (t.circuit c).specialSwitch = false
        ∧ (t.circuit c).cutOff = true)
      ∧ ((s.line l).state = .fault → t.lines = s.lines ∧ t.reports = s.reports))
  ∧ (∀ (c : CircuitNo) (s : State), (s.circuit c).fault = ⟨false, 3⟩ → (s.owner c = none ∨ s.running = false) →
    exec (.faultAssertedEdge c) s
      = .next (s.setCircuit c { s.circuit c with fault := ⟨true, 0⟩, faultMark := true }).sendIfIdle)
  ∧ (∀ (c : CircuitNo) (s : State), (s.circuit c).fault = ⟨true, 3⟩ →
    exec (.faultNormalEdge c) s = .next (s.setCircuit c { s.circuit c with fault := ⟨false, 0⟩ }))

/-- CLEAR_REACHED takes a call state to IDLE with CLEAR, and on to BLOCKED where block-pending is set. SEIZE_CONFIRMED takes
SEIZING to DIAL TONE with SEIZE, and a ring state before RINGING to CONNECTED with ANSWER before ring; TRIP_CONFIRMED takes
RINGING to CONNECTED with ANSWER on ring. The thresholds are 121, 20 and 4 ticks in profile A, and 161, 30 and 6 in profile
B (R23, R28, R31, R46, R47, R57). -/
def Obligations.ClearSeizeAndTripConfirmed : Prop :=
  ([Profile.a, .b].map fun p => (clearTicks p, seizeConfirmTicks p, tripConfirmTicks p)) = [(121, 20, 4), (161, 30, 6)]
  ∧ ∀ (l : Line) (s : State), s.running = true →
    ((s.line l).state.isCall = true → (s.line l).timing.sense = .brk →
      clearTicks s.profile ≤ (s.line l).timing.edgeCount →
      ((s.line l).blockPending = false →
        ∃ t : State, exec (.clearReached l) s = .next t.sendIfIdle ∧ SameButResync ((s.line l).inState .idle .none none) (t.line l)
          ∧ t.reports = s.reportsAfter (s.lineEntry l .clear [] :: s.traceEntries l (s.line l).state .idle))
      ∧ ((s.line l).blockPending = true →
        ∃ t : State, exec (.clearReached l) s = .next t.sendIfIdle ∧ SameButResync ((s.line l).outOfUse .blocked) (t.line l)
          ∧ t.reports = s.reportsAfter (s.lineEntry l .clear [] :: s.traceEntries l (s.line l).state .idle
              ++ s.lineEntry l .blocked [] :: s.traceEntries l .idle .blocked)))
    ∧ ((s.line l).timing.sense = .mk →
      ((s.line l).state = .seizing → seizeConfirmTicks s.profile ≤ (s.line l).timing.edgeCount →
        ∃ t : State, exec (.seizeConfirmed l) s = .next t.sendIfIdle
          ∧ SameButResync ((s.line l).inState .dialTone .dial (some 0)) (t.line l)
          ∧ t.reports = s.reportsAfter (s.lineEntry l .seize [] :: s.traceEntries l .seizing .dialTone))
      ∧ ((s.line l).state = .ringQueued ∨ (s.line l).state = .ringClaiming ∨ (s.line l).state = .ringArmed →
        seizeConfirmTicks s.profile ≤ (s.line l).timing.edgeCount →
        ∃ t : State, exec (.seizeConfirmed l) s = .next t.sendIfIdle
          ∧ SameButResync ((s.line l).inState .connected .none none) (t.line l)
          ∧ t.reports = s.reportsAfter (s.lineEntry l .answer [0] :: s.traceEntries l (s.line l).state .connected))
      ∧ ((s.line l).state = .ringing → tripConfirmTicks s.profile ≤ (s.line l).timing.edgeCount →
        ∃ t : State, exec (.tripConfirmed l) s = .next t.sendIfIdle
          ∧ SameButResync ((s.line l).inState .connected .none none) (t.line l)
          ∧ t.reports = s.reportsAfter (s.lineEntry l .answer [1] :: s.traceEntries l .ringing .connected)))

/-- DIGIT_END forms the digit, ten pulses as 0, or a digit error from 11 pulses, and sets the pulse count to 0. The
interdigit timeout takes DIALING to PARKED and RECALL DIALING to CONNECTED, the dial-tone timeout DIAL TONE to PARKED, and
the recall timeout RECALL TONE to CONNECTED, each with DIAL TIMEOUT naming the state left. The interdigit make, the
interdigit timeout, the dial-tone timeout and the recall timeout are 40, 4000, 3000 and 3000 ticks in profile A, and 50, 5000,
4000 and 4000 in profile B (R30, R32, R34, R48, R49, R51, R52). -/
def Obligations.DigitsAndTimeouts : Prop :=
  ([Profile.a, .b].map fun p => (interdigitMakeTicks p, interdigitTimeoutTicks p, dialToneTimeoutTicks p,
      recallTimeoutTicks p)) = [(40, 4000, 3000, 3000), (50, 5000, 4000, 4000)]
  ∧ ∀ (l : Line) (s : State), s.running = true →
    ((s.line l).timing.sense = .mk → ((s.line l).state = .dialing ∨ (s.line l).state = .recallDialing) →
      (0 < (s.line l).timing.pulseCount → interdigitMakeTicks s.profile ≤ (s.line l).timing.edgeCount →
        ∃ t : State, exec (.digitEnd l) s = .next t.sendIfIdle
          ∧ SameButResync { s.line l with timing := { (s.line l).timing with pulseCount := 0 } } (t.line l)
          ∧ t.reports = s.reportsAfter [if (s.line l).timing.pulseCount ≤ 10
              then s.lineEntry l .digit [octet ((s.line l).timing.pulseCount % 10)]
              else s.lineEntry l .digitError [octet (s.line l).timing.pulseCount]])
      ∧ ((s.line l).timing.pulseCount = 0 → interdigitTimeoutTicks s.profile ≤ (s.line l).timing.edgeCount →
        ∃ t : State, exec (.interdigitTimeout l) s = .next t.sendIfIdle
          ∧ SameButResync ((s.line l).inState (if (s.line l).state = .dialing then .parked else .connected) .none none)
              (t.line l)
          ∧ t.reports = s.reportsAfter (s.lineEntry l .dialTimeout [stateOctet (s.line l).state]
              :: s.traceEntries l (s.line l).state (if (s.line l).state = .dialing then .parked else .connected))))
    ∧ ∀ n, (s.line l).timing.stateTimer = some n → s.BreakShort l →
      ((s.line l).state = .dialTone → dialToneTimeoutTicks s.profile ≤ n →
        ∃ t : State, exec (.dialToneTimeout l) s = .next t.sendIfIdle
          ∧ SameButResync ((s.line l).inState .parked .none none) (t.line l)
          ∧ t.reports = s.reportsAfter (s.lineEntry l .dialTimeout [2] :: s.traceEntries l .dialTone .parked))
      ∧ ((s.line l).state = .recallTone → recallTimeoutTicks s.profile ≤ n →
        ∃ t : State, exec (.recallTimeout l) s = .next t.sendIfIdle
          ∧ SameButResync ((s.line l).inState .connected .none none) (t.line l)
          ∧ t.reports = s.reportsAfter (s.lineEntry l .dialTimeout [5] :: s.traceEntries l .recallTone .connected))

/-- The frame of the hook path and of the record errors of a line: an edge, a settle, a fault edge, a threshold event, a
correction or a double-bit error of one line changes that line, its circuit, the report queue and, for a ring line, the
Ring Placement Unit and the own row (R19, R39, R41, R124, R169). -/
def Obligations.OneLineFrame : Prop :=
  ∀ (l : Line) (s t : State) (i : Instr),
    ((∃ c, s.owner c = some l ∧ (i = .onHookEdge c ∨ i = .offHookEdge c ∨ i = .settle c ∨ i = .faultAssertedEdge c
        ∨ i = .faultNormalEdge c))
      ∨ i = .clearReached l ∨ i = .seizeConfirmed l ∨ i = .tripConfirmed l ∨ i = .digitEnd l
      ∨ i = .interdigitTimeout l ∨ i = .dialToneTimeout l ∨ i = .recallTimeout l
      ∨ (∃ w, i = .lineRecordCorrection l w) ∨ (∃ u w, s.RingOk ∧ i = .lineRecordDoubleBitError l u w)) →
    exec i s = .next t → ∃ u, (t = u ∨ t = u.sendIfIdle) ∧ LinesFrame [l] s u ∧ u.bus = s.bus

/-! ## The cadence and the ring path -/

/-- The end of a phase 0..6 begins the next phase at tick 0, makes the SUMMARY due at the station's own phase in
ACTIVE, starts the ringing of the armed lines whose set holds the phase, and makes a placement attempt: the first entry of
the ring queue for which an offset fits is placed; in STARTING the timer moves and the outputs are composed, and nothing else
changes (R71, R77, R81, R111, R112, R115, R128). -/
def Obligations.PhaseBoundaryBeginsThePhase : Prop :=
  ∀ s : State, s.running = true → 150 ≤ s.cadence.tick → s.cadence.phase ≠ 7 →
    ∃ t : State, exec .phaseBoundary s = .next t.sendIfIdle
      ∧ t.cadence = { s.cadence with phase := s.cadence.phase + 1, tick := 0 }
      ∧ t.station = s.station ∧ t.control = s.control ∧ t.table.peers = s.table.peers
      ∧ t.bus = { s.bus with summaryDue := (s.bus.summaryDue
          || decide (s.station.state = .active ∧ s.own.val % 8 = (s.cadence.phase + 1).val)) }
      ∧ (∀ l, (s.line l).state.isRing = false → l ∉ s.ringUnit.queue → SameButResync (s.line l) (t.line l))
      ∧ (s.station.state = .starting → t = { s with cadence := t.cadence, circuits := t.circuits })
      ∧ (s.station.state = .active → ∀ l r, (s.line l).state = .ringArmed → (s.line l).ring = some r →
          l ∉ s.ringUnit.queue →
          ((s.line l).timing.sense = .mk → (s.line l).timing.edgeCount < tripConfirmTicks s.profile) →
          (t.line l).state = (if inSet (rotatedSet r.code r.offset) (s.cadence.phase + 1) then .ringing else .ringArmed)
            ∧ (t.line l).ring = some r)
      ∧ (s.station.state = .active → (∀ m, (s.line m).timing.sense ≠ .mk) →
        (s.ringUnit.claim ≠ none ∨ s.ringUnit.releases ≠ []
            ∨ (∀ m ∈ s.ringUnit.queue, ∃ r, (s.line m).ring = some r
              ∧ chooseOffset s.attemptTotals (s.cadence.phase + 1) r.weight (s.effectiveBudget r.priority) r.code = none) →
          t.ringUnit = s.ringUnit ∧ t.table = s.table)
        ∧ ∀ (front back : List Line) (m : Line) (r : RingContext) (o : Phase), s.ringUnit.claim = none →
          s.ringUnit.releases = [] → s.ringUnit.queue = front ++ m :: back →
          (∀ x ∈ front, ∃ c, (s.line x).ring = some c ∧ chooseOffset s.attemptTotals (s.cadence.phase + 1) c.weight
            (s.effectiveBudget c.priority) c.code = none) →
          (s.line m).state = .ringQueued → (s.line m).ring = some r →
          chooseOffset s.attemptTotals (s.cadence.phase + 1) r.weight (s.effectiveBudget r.priority) r.code = some o →
          (t.line m).state = .ringClaiming ∧ (t.line m).ring = some { r with offset := o }
            ∧ t.ringUnit = ⟨s.ringUnit.queue.filter (· ≠ m), some ⟨m, r.weight, rotatedSet r.code o, .pending⟩, []⟩
            ∧ ∀ p : Phase, t.table.ownRow[p] = s.table.ownRow[p]
                + (if inSet (rotatedSet r.code o) p then r.weight else 0))

/-- The own cycle end, and a mark accepted at 100 ticks since cycle start, make a cycle start at phase 0, tick 0; the
own one drives the mark line. A cycle start made in the listen period ends it in ACTIVE, peer rows age, each row cleared
queues PEER LOST, in increasing order of station number, and correction marks are cleared. A mark seen earlier is ignored
(R72, R73, R75, R77, R96, R97, R168). -/
def Obligations.CycleStarts : Prop :=
  (∀ (s : State) (i : Instr), s.running = true → s.control.warning.asserted = false →
    (i = .cycleStart ∧ 150 ≤ s.cadence.tick ∧ s.cadence.phase = 7
      ∨ i = .mark ∧ s.cadence.markSeen = true ∧ s.cadence.sinceStart = 100) →
    ∃ t : State, exec i s = .next t.sendIfIdle
      ∧ t.cadence.phase = 0 ∧ t.cadence.tick = 0 ∧ t.cadence.sinceStart = 0 ∧ t.cadence.listen = false
      ∧ (i = .cycleStart → t.cadence.markDrive = true) ∧ (i = .mark → t.cadence.markDrive = s.cadence.markDrive)
      ∧ t.station = { s.station with state := if s.cadence.listen then .active else s.station.state }
      ∧ t.control = s.control
      ∧ t.bus = { s.bus with summaryDue := (s.bus.summaryDue
          || decide (t.station.state = .active ∧ s.own.val % 8 = 0)) }
      ∧ (∀ l, (t.line l).correctionMark = false)
      ∧ (∀ l, (s.line l).state.isRing = false → l ∉ s.ringUnit.queue →
          SameButResync { s.line l with correctionMark := false } (t.line l))
      ∧ ((∀ l, (s.line l).state.isRing = false) → s.ringUnit.queue = [] → t.reports = s.reportsAfter s.peerLostEntries)
      ∧ t.table = { s.table with ownRow := t.table.ownRow, peers := t.table.peers }
      ∧ ∀ k : Fin 15, t.table.peers[k]
          = if s.table.peers[k].present = false then s.table.peers[k]
            else if s.table.peers[k].age < 2 then { s.table.peers[k] with age := s.table.peers[k].age + 1 }
            else ⟨Vector.replicate 8 0, false, 0⟩)
  ∧ ∀ s : State, s.running = true → s.cadence.sinceStart ≠ 100 → s.cadence.markSeen = true →
    exec .mark s = .next ({ s with cadence := { s.cadence with markSeen := false } } : State).sendIfIdle

/-- At the cycle start of an ACTIVE station, its own or one made on an accepted mark, every RINGING line counts one cycle,
and one that reaches its no-answer limit goes to IDLE with NO ANSWER, or on to BLOCKED where block-pending is set, with its
RELEASE owed; every queued line waits one more, whether or not it is then placed, and RING DELAYED is queued as the count
reaches 4. That the PEER LOST reports of the ageing come before the reports of this pass is the model's choice, log 13: R71
and R128 leave that order open. Nothing is said of a line with a running make, which may confirm in the same step (R97, R123,
R128, R130, R131). -/
def Obligations.CycleStartCounts : Prop :=
  ∀ (s t : State) (i : Instr), s.running = true → (s.station.state = .active ∨ s.cadence.listen = true) →
    s.control.warning.asserted = false →
    (i = .cycleStart ∧ 150 ≤ s.cadence.tick ∧ s.cadence.phase = 7
      ∨ i = .mark ∧ s.cadence.markSeen = true ∧ s.cadence.sinceStart = 100) →
    s.bus.rx.state ≠ .idle → exec i s = .next t →
    (∀ l r, (s.line l).state = .ringing → (s.line l).ring = some r → (s.line l).timing.sense ≠ .mk →
      l ∉ s.ringUnit.queue →
      (r.limit = 0 ∨ min (r.cycles + 1) 15 ≠ r.limit →
        (t.line l).state = .ringing ∧ (t.line l).ring = some { r with cycles := min (r.cycles + 1) 15 }
        ∧ ((∀ m, m ≠ l → (s.line m).state.isRing = false) → s.ringUnit.queue = [] →
          t.reports = s.reportsAfter s.peerLostEntries))
      ∧ (r.limit ≠ 0 → min (r.cycles + 1) 15 = r.limit →
        (t.line l).state = (if (s.line l).blockPending then .blocked else .idle) ∧ (t.line l).ring = none
          ∧ (⟨l, r.weight, rotatedSet r.code r.offset⟩ : Release) ∈ t.ringUnit.releases
          ∧ ((∀ m, m ≠ l → (s.line m).state.isRing = false) → s.ringUnit.queue = [] →
            t.reports = s.reportsAfter (s.peerLostEntries ++ s.lineEntry l .noAnswer [] :: s.traceEntries l .ringing .idle
              ++ if (s.line l).blockPending then s.lineEntry l .blocked [] :: s.traceEntries l .idle .blocked else []))))
    ∧ (∀ l r, (s.line l).state = .ringQueued → (s.line l).ring = some r → (s.line l).timing.sense ≠ .mk →
      l ∈ s.ringUnit.queue →
      ((t.line l).state = .ringQueued ∧ (t.line l).ring = some { r with waits := min (r.waits + 1) 4 }
        ∨ (t.line l).state = .ringClaiming ∧ s.ringUnit.claim = none
          ∧ ∃ o, (t.line l).ring = some { r with waits := min (r.waits + 1) 4, offset := o })
      ∧ ((∀ m, m ≠ l → (s.line m).state.isRing = false) → s.ringUnit.queue = [l] →
        s.ringUnit.claim ≠ none ∨ s.ringUnit.releases ≠ [] →
        (t.line l).state = .ringQueued ∧ t.reports = s.reportsAfter (s.peerLostEntries
          ++ if r.waits = 3 then [s.lineEntry l .ringDelayed []] else [])))

/-- The Cadence Table: the ring sets {0,1}, {0}, {0,1} and {0,1,4,5} of codes 0 to 3, advanced by the offset, and a full
phase on throughout, or a split one, of code 2 alone, on for ticks 0..44 and 75..119. At tick 45, 75 or 120 in ACTIVE the ring
relay of every circuit whose line is RINGING is as the ring drive requests, a relay that changes starts blanking of 2, and
only circuits change (R3, R78, R79, R80). -/
def Obligations.OnPortionBoundaryDrivesTheRelays : Prop :=
  (∀ (code : Fin 4) (o q : Phase), inSet (rotatedSet code o) q = true
    ↔ q = o ∨ code ≠ 1 ∧ q = o + 1 ∨ code = 3 ∧ (q = o + 4 ∨ q = o + 5))
  ∧ (∀ (code : Fin 4) (p : Phase) (n : Nat), n < 150 → (onPortion (phaseCode code p) n = true
    ↔ (p = 0 ∨ code ≠ 1 ∧ p = 1 ∨ code = 3 ∧ (p = 4 ∨ p = 5)) ∧ (code = 2 → n < 45 ∨ 75 ≤ n ∧ n < 120)))
  ∧ ∀ s : State, s.station.state = .active → (s.cadence.tick = 45 ∨ s.cadence.tick = 75 ∨ s.cadence.tick = 120) →
    ∃ t, exec .onPortionBoundary s = .next t ∧ t = { s with circuits := t.circuits } ∧ t.OutputsOk
      ∧ (∀ c l r, s.owner c = some l → (s.line l).state = .ringing → (s.line l).ring = some r →
          (t.circuit c).ringRelay = (inSet (rotatedSet r.code r.offset) s.cadence.phase
            && onPortion (phaseCode r.code (s.cadence.phase - r.offset)) s.cadence.tick))
      ∧ ∀ c, (t.circuit c).blanking = if (t.circuit c).ringRelay = (s.circuit c).ringRelay then (s.circuit c).blanking
          else 2

/-- The offset that a placement chooses fits, and no other offset that fits has a lower cost, or an equal cost and a
lower delay, or equals it in both and is lower; for code 3 it is below 4. The cost is the largest phase total plus weight over
the rotated set, the delay the smallest (q - c - 1) mod 8. Where none fits the attempt goes on to the next entry (R114, with
the fit, cost and delay of R113). -/
def Obligations.PlacementChoosesTheBestOffset : Prop :=
  (∀ (T : Vector Nat 8) (c : Phase) (w E : Nat) (code : Fin 4),
    (∀ o, chooseOffset T c w E code = some o →
      (code = 3 → o.val < 4) ∧ (∀ q : Phase, inSet (rotatedSet code o) q = true → T[q] + w ≤ E)
      ∧ ∀ o' : Phase, (∀ q : Phase, inSet (rotatedSet code o') q = true → T[q] + w ≤ E) →
        cost T w (rotatedSet code o) < cost T w (rotatedSet code o')
        ∨ cost T w (rotatedSet code o) = cost T w (rotatedSet code o')
          ∧ (delay c (rotatedSet code o) < delay c (rotatedSet code o')
            ∨ delay c (rotatedSet code o) = delay c (rotatedSet code o') ∧ o ≤ o'))
    ∧ (chooseOffset T c w E code = none → ∀ o : Phase, ∃ q : Phase, inSet (rotatedSet code o) q = true ∧ E < T[q] + w))
  ∧ (∀ o : Phase, rotatedSet 3 (o + 4) = rotatedSet 3 o)
  ∧ (∀ (code : Fin 4) (o o' : Phase), code ≠ 3 → rotatedSet code o = rotatedSet code o' → o = o')
  ∧ (∀ (c : Phase) (set : PhaseSet), inSet set (c + 1) = true → delay c set = 0)
  ∧ (∀ (T : Vector Nat 8) (w : Nat) (code : Fin 4) (o : Phase),
    (∀ q : Phase, inSet (rotatedSet code o) q = true → T[q] + w ≤ cost T w (rotatedSet code o))
    ∧ ∃ q : Phase, inSet (rotatedSet code o) q = true ∧ cost T w (rotatedSet code o) = T[q] + w)
  ∧ (∀ (c : Phase) (code : Fin 4) (o : Phase),
    (∀ q : Phase, inSet (rotatedSet code o) q = true →
      delay c (rotatedSet code o) ≤ (q.val + 8 - c.val - 1) % 8)
    ∧ ∃ q : Phase, inSet (rotatedSet code o) q = true ∧ delay c (rotatedSet code o) = (q.val + 8 - c.val - 1) % 8)
  ∧ ∀ (s : State) (l : Line) (rest : List Line) (r : RingContext), s.ringUnit.queue = l :: rest →
    (s.line l).ring = some r →
    (chooseOffset s.attemptTotals s.cadence.phase r.weight (s.effectiveBudget r.priority) r.code = none →
      s.findPlacement = (s.setRingUnit { s.ringUnit with queue := rest }).findPlacement)
    ∧ ∀ o, chooseOffset s.attemptTotals s.cadence.phase r.weight (s.effectiveBudget r.priority) r.code = some o →
      s.findPlacement = some (l, o)

/-! ## The record store -/

/-- A correction of a line record queues CORRECTED and sets the mark, and a repeated one sends the line to FAULT with
cause MEMORY, its circuit kept; of a line already in FAULT it queues CORRECTED and nothing more (R167, R168, R170). -/
def Obligations.LineRecordCorrections : Prop :=
  ∀ (l : Line) (w : LineWords) (s : State), s.running = true → ((s.line l).reads w).any = true →
    ((s.line l).correctionMark = false →
      ∃ t : State, exec (.lineRecordCorrection l w) s = .next t.sendIfIdle ∧ t.line l = { s.line l with correctionMark := true }
        ∧ t.reports = s.reportsAfter [s.lineEntry l .corrected [0]] ∧ t.circuits = s.circuits
        ∧ t.ringUnit = s.ringUnit ∧ t.table = s.table ∧ ∀ m, m ≠ l → t.line m = s.line m)
    ∧ ((s.line l).correctionMark = true → (s.line l).state ≠ .fault →
      ∃ t : State, exec (.lineRecordCorrection l w) s = .next t.sendIfIdle ∧ SameButResync ((s.line l).outOfUse .fault) (t.line l)
        ∧ t.reports = s.reportsAfter (s.lineEntry l .corrected [0] :: s.lineEntry l .fault [1]
            :: s.traceEntries l (s.line l).state .fault))
    ∧ ((s.line l).correctionMark = true → (s.line l).state = .fault →
      exec (.lineRecordCorrection l w) s
        = .next ({ s with reports := s.reportsAfter [s.lineEntry l .corrected [0]] } : State).sendIfIdle)

/-- A double-bit error of a line record outside FAULT sends the line to FAULT on no circuit, its circuit composed as a
spare, with a FAULT report; the watch flag survives a readable status word. A line in a ring state leaves the Ring Placement
Unit as its state gives, with the same entries, load and RELEASE whether its words could be read or its load was found in the
own row. A line already in FAULT loses its circuit, with no report and no notice; that this holds too where its status word
is the unreadable one follows log 19 (R14, R124, R169, R170). -/
def Obligations.LineRecordDoubleBitError : Prop :=
  (∀ (l : Line) (u : LineWords) (c : CircuitNo) (s : State), s.running = true → s.MapOk → ((s.line l).reads u).any = true →
    (s.line l).state ≠ .fault → (s.line l).circuit = some c →
    ∃ t : State, exec (.lineRecordDoubleBitError l u ⟨false, false, false, false, false, false⟩) s = .next t.sendIfIdle
      ∧ (t.line l).state = .fault ∧ (t.line l).circuit = none ∧ (t.line l).tone = .none
      ∧ (t.line l).blockPending = false ∧ (t.line l).timing = Timing.fresh ∧ (t.line l).ring = none
      ∧ (t.line l).watch = ((s.line l).watch && !u.status)
      ∧ (t.circuit c).ringRelay = false ∧ (t.circuit c).dialSwitch = false ∧ (t.circuit c).specialSwitch = false
      ∧ (t.circuit c).cutOff = true ∧ (t.circuit c).faultMark = (s.circuit c).faultMark
      ∧ (t.circuit c).hook = (s.circuit c).hook
      ∧ t.reports = s.reportsAfter (s.lineEntry l .fault [1]
          :: if u.status then [] else s.traceEntries l (s.line l).state .fault)
      ∧ (s.RingOk → (s.line l).state.isRing = true → AfterRingLeave l s t)
      ∧ (s.RingOk → (s.line l).state.isRing = false → t.ringUnit = s.ringUnit ∧ t.table = s.table))
  ∧ ∀ (l : Line) (u w : LineWords) (s : State), s.running = true → s.MapOk → ((s.line l).reads u).any = true →
    (s.line l).state = .fault → ((s.line l).reads w).any = false →
    ∃ t : State, exec (.lineRecordDoubleBitError l u w) s = .next t.sendIfIdle
      ∧ (t.line l).state = .fault ∧ (t.line l).circuit = none ∧ (t.line l).watch = ((s.line l).watch && !u.status)
      ∧ (t.line l).resyncDue = ((s.line l).resyncDue && !u.status) ∧ (t.line l).blockPending = false
      ∧ (∀ m, m ≠ l → t.line m = s.line m)
      ∧ (∀ c, (s.line l).circuit = some c → (t.circuit c).ringRelay = false ∧ (t.circuit c).cutOff = true
          ∧ (t.circuit c).faultMark = (s.circuit c).faultMark)
      ∧ t.reports = s.reports ∧ t.ringUnit = s.ringUnit ∧ t.table = s.table

/-- A correction of the station record with equal copies queues a station CORRECTED and nothing more, and one that finds two
readable copies that differ takes the station to SILENT. A double-bit error in both copies takes the station to SILENT with
the alarm asserted; one in either copy, outside DOWN, resets the station, to SILENT where the number is 0 and on to DOWN where
the warning filter is ASSERTED, and in DOWN rewrites the copy alone. One in the station state word keeps a station in DOWN
where the alarm is negated and the warning filter is ASSERTED or the restart count stands above 0, and resets it otherwise.
Where one copy cannot be read in a SILENT station whose copies differed, the table of R173 resets the station and the text
after it leaves it SILENT: the reset is the model's choice, log 27 (R172, R173, R175, R177, R178). -/
def Obligations.StationRecordErrors : Prop :=
  (∀ (w : StationWords) (a b : Straps) (s : State), w.any = true → s.station.strap1 = some a → s.station.strap2 = some b →
    (a = b → exec (.stationRecordCorrection w) s = .next (s.queueReport (newReport .corrected
      (BitVec.ofNat 8 (16 * a.station.val)) [1])).sendIfIdle)
    ∧ (a ≠ b → ∃ t, exec (.stationRecordCorrection w) s = .next t
      ∧ t.station = { s.station with state := .silent } ∧ t.control.alarm = true ∧ t.ringUnit = s.ringUnit
      ∧ t.table = s.table ∧ t.bus = { s.bus with tx := none } ∧ t.OutputsOk))
  ∧ (∀ (b : Bool) (e : CircuitWordErrors) (s : State),
    ∃ t, exec (.stationRecordDoubleBitError ⟨true, true, b⟩ ⟨false, false, false⟩ e) s = .next t
      ∧ t.station.state = .silent ∧ t.control.alarm = true ∧ t.station.strap1 = none ∧ t.station.strap2 = none
      ∧ t.lines = s.lines ∧ t.ringUnit = s.ringUnit ∧ t.table = s.table ∧ t.bus = { s.bus with tx := none })
  ∧ (∀ (first : Bool) (a : Straps) (e : CircuitWordErrors) (s : State),
    (if first then s.station.strap2 else s.station.strap1) = some a →
    (s.station.state = .down →
      exec (.stationRecordDoubleBitError ⟨first, !first, false⟩ ⟨false, false, false⟩ e) s
        = .next ({ s with station := { s.station with strap1 := some a, strap2 := some a } } : State).sendIfIdle)
    ∧ (s.station.state ≠ .down →
      ∃ t, exec (.stationRecordDoubleBitError ⟨first, !first, false⟩ ⟨false, false, false⟩ e) s = .next t
        ∧ t.station.strap1 = some a ∧ t.station.strap2 = some a ∧ t.station.conflicts = 0
        ∧ StartedBlocks s.table.baseBudget (decide (a.station ≠ 0)) t
        ∧ t.station.state = (if a.station = 0 then .silent
            else if s.control.warning.asserted then .down else .starting)
        ∧ t.control.alarm = decide (a.station = 0)))
  ∧ ∀ (a : Straps) (e : CircuitWordErrors) (s : State), s.station.strap1 = some a → s.station.strap2 = some a →
    (s.control.alarm = false → s.control.warning.asserted = true ∨ 0 < s.control.restartCount →
      ∃ t : State, exec (.stationRecordDoubleBitError ⟨false, false, true⟩ ⟨false, false, false⟩ e) s = .next t.sendIfIdle
        ∧ t = { s with station := ⟨some a, some a, .down, 0⟩, circuits := t.circuits } ∧ t.OutputsOk)
    ∧ (s.control.alarm = true ∨ s.control.warning.asserted = false ∧ s.control.restartCount = 0 →
      ∃ t, exec (.stationRecordDoubleBitError ⟨false, false, true⟩ ⟨false, false, false⟩ e) s = .next t
        ∧ t.station.strap1 = some a ∧ t.station.strap2 = some a ∧ t.station.conflicts = 0
        ∧ StartedBlocks s.table.baseBudget (decide (a.station ≠ 0)) t
        ∧ t.station.state = (if a.station = 0 then .silent
            else if s.control.warning.asserted then .down else .starting)
        ∧ t.control.alarm = decide (a.station = 0))

/-! ## The tick -/

/-- A TICK with nothing due. In STARTING and ACTIVE every count, filter and timer moves by one sample and nothing else
changes; in DOWN the blocks stand, the warning filter samples, and the restart count rises or is set to 0; in HELD and SILENT
the warning filter samples alone. A TICK that finds an event still due takes it first, as its row does. A filter's run
of 3 and a tick in phase of 150 leave their event due (log 2), and the mark line shows the own drive too (log 10): the
model's choices (R3 to R7, R20, R21, R34, R70, R72, R73, R76, R100, R106, R175, R176). -/
def Obligations.TickAdvancesTheCounts : Prop :=
  (∀ (i : Samples) (s : State), s.running = true → s.Quiet →
    ∃ t : State, exec (.tick i) s = .next t.sendIfIdle
      ∧ t = { s with circuits := t.circuits, lines := t.lines, cadence := t.cadence, table := t.table, control := t.control }
      ∧ (∀ c, t.circuit c = { s.circuit c with
          blanking := (s.circuit c).blanking - 1
          fault := ⟨(s.circuit c).fault.asserted,
            if i.fault.getLsbD c.val = (s.circuit c).fault.asserted then 0 else (s.circuit c).fault.run + 1⟩
          hook := if 0 < (s.circuit c).blanking then (s.circuit c).hook
            else s.sampledHook c (if (s.circuit c).ringRelay then i.trip.getLsbD c.val else i.loop.getLsbD c.val) })
      ∧ (∀ l, t.line l = { s.line l with timing := { (s.line l).timing with
          edgeCount := (t.line l).timing.edgeCount
          stateTimer := (t.line l).timing.stateTimer } })
      ∧ (∀ l, (s.line l).timing.sense = .none → (t.line l).timing.edgeCount = (s.line l).timing.edgeCount)
      ∧ (∀ l, (s.line l).timing.sense = .brk → (s.line l).timing.edgeCount ≤ clearTicks s.profile →
          (t.line l).timing.edgeCount = min ((s.line l).timing.edgeCount + 1) (clearTicks s.profile))
      ∧ (∀ l, (s.line l).timing.sense = .mk → (s.line l).timing.edgeCount ≤ interdigitTimeoutTicks s.profile →
          (t.line l).timing.edgeCount = min ((s.line l).timing.edgeCount + 1) (interdigitTimeoutTicks s.profile))
      ∧ (∀ l, (s.line l).timing.stateTimer = none → (t.line l).timing.stateTimer = none)
      ∧ (∀ l n, (s.line l).timing.stateTimer = some n →
          n < (if (s.line l).state = .dialTone then dialToneTimeoutTicks s.profile else recallTimeoutTicks s.profile) →
          (t.line l).timing.stateTimer = some (n + 1))
      ∧ t.cadence = { s.cadence with
          tick := s.cadence.tick + 1
          sinceStart := if s.cadence.sinceStart < 100 then s.cadence.sinceStart + 1 else s.cadence.sinceStart
          markDrive := false
          lastMark := i.mark || s.cadence.markDrive
          markSeen := (i.mark || s.cadence.markDrive) && !s.cadence.lastMark }
      ∧ t.table = { s.table with reduced := ⟨s.table.reduced.asserted,
          if i.reduced = s.table.reduced.asserted then 0 else s.table.reduced.run + 1⟩ }
      ∧ t.control = { s.control with warning := ⟨s.control.warning.asserted,
          if i.warning = s.control.warning.asserted then 0 else s.control.warning.run + 1⟩ })
  ∧ (∀ (i : Samples) (s : State), s.running = false → s.Quiet →
    exec (.tick i) s = .next ({ s with control := { s.control with
      warning := ⟨s.control.warning.asserted,
        if i.warning = s.control.warning.asserted then 0 else s.control.warning.run + 1⟩
      restartCount := if s.station.state = .down then (if i.warning then 0 else s.control.restartCount + 1)
        else s.control.restartCount } } : State).sendIfIdle)
  ∧ ∀ (i : Samples) (r : Instr) (s t : State), s.bus.rx.state ≠ .idle → s.OnlyDue r → exec r s = .next t → t.Quiet →
    exec (.tick i) s = exec (.tick i) t

/-! ## The whole machine -/

/-- A set fault mark is cleared in two cases: by a power-on reset, which clears all 18, and by an UNBLOCK taken for a line
in FAULT that maps the circuit while its filtered fault state is NORMAL, the line then leaving FAULT; with the state
ASSERTED the mark stays and the command is refused as FAULT. A supply restart and a STATION RESET leave every mark
(R10). -/
def Obligations.FaultMarksAreClearedInTwoCases : Prop :=
  (∀ pins s, ∃ t, exec (.powerOnReset pins) s = .next t ∧ ∀ c, (t.circuit c).faultMark = false)
  ∧ (∀ (h : CommandHeader) (l : Line) (c : CircuitNo) (s : State), s.Takes h h.mask l → (s.line l).state = .fault →
    (s.line l).circuit = some c →
    ((s.circuit c).fault.asserted = false →
      ∃ t, exec (.unblock h) s = .next t ∧ (t.circuit c).faultMark = false ∧ (t.line l).state ≠ .fault)
    ∧ ((s.circuit c).fault.asserted = true →
      ∃ t, exec (.unblock h) s = .next t ∧ t.circuits = s.circuits ∧ (t.line l).state = .fault
        ∧ t.reports = s.reportsAfter [s.lineEntry l .refused [7, 4]]))
  ∧ (∀ (i : Instr) (s t : State) (c : CircuitNo), exec i s = .next t → (s.circuit c).faultMark = true →
    (t.circuit c).faultMark = false → (∃ pins, i = .powerOnReset pins)
      ∨ ∃ h l, i = .unblock h ∧ l ∈ addressedLines s.own h.address h.mask ∧ (s.line l).state = .fault
          ∧ (s.line l).circuit = some c ∧ (s.circuit c).fault.asserted = false)
  ∧ ∀ (h : CommandHeader) (e : CircuitWordErrors) (s t : State) (c : CircuitNo),
    exec (.supplyRestart e) s = .next t ∨ exec (.stationReset h e) s = .next t →
    (t.circuit c).faultMark = (s.circuit c).faultMark

/-- The base budget changes at a power-on reset alone, and the straps there and at a double-bit error of the station
record; SILENT is left by a power-on reset, a STATION RESET and such an error alone (R99, R173, R174, R178). -/
def Obligations.StrapsBudgetAndSilentAreKept : Prop :=
  ∀ (i : Instr) (s t : State), exec i s = .next t → (∀ pins, i ≠ .powerOnReset pins) →
    t.table.baseBudget = s.table.baseBudget
      ∧ ((∀ u c e, i ≠ .stationRecordDoubleBitError u c e) →
        t.station.strap1 = s.station.strap1 ∧ t.station.strap2 = s.station.strap2
          ∧ (s.station.state = .silent → (∀ h e, i ≠ .stationReset h e) → t.station.state = .silent))

/-- A row other than TICK and the starts that leaves a ring relay in another position leaves the blanking count of its
circuit at 2, and one that leaves the relay where it was leaves the count or sets it to 2; TICK lowers counts and may
change relays where something is due (R3). -/
def Obligations.RelayChangeStartsBlanking : Prop :=
  ∀ (i : Instr) (s t : State) (c : CircuitNo), exec i s = .next t → (∀ x, i ≠ .tick x) →
    (∀ pins, i ≠ .powerOnReset pins) → (∀ e, i ≠ .supplyRestart e) → (∀ h e, i ≠ .stationReset h e) →
    (∀ u w e, i ≠ .stationRecordDoubleBitError u w e) →
    (t.circuit c).blanking = 2
      ∨ (t.circuit c).blanking = (s.circuit c).blanking ∧ (t.circuit c).ringRelay = (s.circuit c).ringRelay

/-- The invariants of the manual hold at State.reset. -/
def Obligations.InvariantsHoldAtReset : Prop :=
  State.reset.RingOk ∧ State.reset.MapOk ∧ State.reset.ReportsOk ∧ State.reset.ControlOk ∧ State.reset.TableOk
    ∧ State.reset.OutputsOk

/-- Every step keeps ring contexts, ring queue, claim in flight, own row and release list in agreement; in every state the
own-row cell of a phase is the sum of the weights of the lines in RING CLAIMING, RING ARMED and RINGING whose rotated set
holds it, and so is at most 240 (R54, R87, R108, R116, R126). -/
def Obligations.StepKeepsRingBookkeeping : Prop :=
  ∀ s t : State, s.RingOk → step s = .next t → t.RingOk ∧ ∀ p : Phase, t.table.ownRow[p] ≤ 240

/-- Every step from a state with sound ring bookkeeping keeps the Circuit Map one to one, with no circuit only in FAULT; every
step keeps the report queue within 32 entries, in class order, with no two entries that would coalesce; alarm, restart count
and conflict count as the station state has them; and the peer rows and the base budget within their bounds (R11, R86, R90,
R96, R99, R148, R162, R163, R173, R176). -/
def Obligations.StepKeepsMapQueueControlAndTable : Prop :=
  ∀ s t : State, step s = .next t →
    (s.RingOk → s.MapOk → t.MapOk) ∧ (s.ReportsOk → t.ReportsOk) ∧ (s.ControlOk → t.ControlOk) ∧ (s.TableOk → t.TableOk)

/-- Every row but TICK keeps the outputs of all circuits as R2 composes them (R1, R2). TICK is left out because a tick that
reaches 45, 75 or 120 leaves the ring drive's change due until ON_PORTION_BOUNDARY or the next TICK, and at tick 150 the ring
drive requests what it requested at tick 149 until the boundary is taken: the model's choices (log 2). -/
def Obligations.OutputsFollowTheirComposition : Prop :=
  ∀ (i : Instr) (s t : State), (∀ x, i ≠ .tick x) → s.OutputsOk → exec i s = .next t → t.OutputsOk
end

