-- ==== Sys2Proof/Laws/BitClock.lean ====
section
/-! SUPPORT. What a bit time can do: the levels of an octet and their reading, the assembly's bit, and the two ways a bit
time goes. -/

namespace Sys2Proof.Machine

/-- The eight data bits of an octet on the wire read back as the octet. -/
theorem octetOfBits_octetLevel : ∀ o : Octet, octetOfBits ((List.range 8).map fun b => octetLevel o (b + 1)) = o := by
  decide +kernel

/-- An octet that equals the running remainder leaves the remainder 0. -/
@[simp] theorem checkStep_self (r : Octet) : checkStep r r = 0 := by
  simp [checkStep, checkBit]

/-- The running remainder goes on from octet to octet. -/
theorem checkOctet_concat (q : List Octet) (o : Octet) : checkOctet (q ++ [o]) = checkStep (checkOctet q) o := by
  simp [checkOctet]

/-- A bit read leaves all of the assembly but its bits, its octets and the length it expects. -/
theorem RxAssembly.readBit_frame {v : Bool} {rx rx' : RxAssembly} (h : rx.readBit v = some rx') :
    rx' = { rx with bits := rx'.bits, octets := rx'.octets, expected := rx'.expected } := by
  unfold RxAssembly.readBit at h
  split at h <;> [simp at h; skip]
  split at h <;> [(cases h; rfl); skip]
  split at h <;> [simp at h; (cases h; rfl)]

/-- Command Dispatch's decision changes the assembly's record of it alone. -/
theorem decideCommand_frame (s : State) : ∃ d, s.decideCommand
    = { s with bus := { s.bus with rx := { s.bus.rx with decided := d } } } := by
  unfold State.decideCommand
  split
  · exact ⟨_, rfl⟩
  · exact ⟨s.bus.rx.decided, rfl⟩

/-- A bit taken by the assembly within a frame changes the Shelf Bus Interface alone. -/
theorem assembleBit_frame {v : Bool} {s : State} (h : s.bus.rx.state = .assembling) :
    assembleBit v s = { s with bus := (assembleBit v s).bus } := by
  unfold assembleBit
  simp only [h]
  split
  · obtain ⟨d, hd⟩ := decideCommand_frame (s.setBus { s.bus with rx := ‹RxAssembly› })
    rw [hd]; rfl
  · rfl

/-- A station that sends nothing reads nothing back. -/
theorem readBack_of_none {v : Bool} {s : State} (h : s.bus.tx = none) : readBack v s = s := by
  simp [readBack, h]

/-- A frame that stands in its slot completes with the bit time, as its row. -/
theorem bitTime_of_completing {w : WireInput} {s : State} {i : Instr} (h : (beginOnDominant w s).completing = some i) :
    bitTime w s = exec i (beginOnDominant w s) := by
  simp [bitTime, h]

/-- Otherwise the bit is compared with the bit sent and taken by the assembly. -/
theorem bitTime_of_not_completing {w : WireInput} {s : State} (h : (beginOnDominant w s).completing = none) :
    bitTime w s = .next (assembleBit (w.read (beginOnDominant w s).bus.drive)
      (readBack (w.read (beginOnDominant w s).bus.drive) (beginOnDominant w s))) := by
  simp [bitTime, h]

/-- A bit time that finds the bus not idle, or the wire not driven, begins no frame. -/
theorem beginOnDominant_of_not {w : WireInput} {s : State} (h : ¬(s.bus.rx.state = .idle ∧ w = .dominant)) :
    beginOnDominant w s = s := by
  simp [beginOnDominant, h]

end Sys2Proof.Machine
end

