-- ==== Sys2Proof/Laws/State.lean ====
section
/-! SUPPORT. What each update of the state leaves in each field, and how the derived readings of the state follow: every
lemma is true by computation and tagged for simp. -/

namespace Sys2Proof.Machine

variable (s : State)

/-! ### State.setLine -/

@[simp] theorem State.setLine_circuits (l : Line) (r : LineRecord) : (s.setLine l r).circuits = s.circuits := rfl
@[simp] theorem State.setLine_lines (l : Line) (r : LineRecord) : (s.setLine l r).lines = s.lines.set l r := rfl
@[simp] theorem State.setLine_station (l : Line) (r : LineRecord) : (s.setLine l r).station = s.station := rfl
@[simp] theorem State.setLine_control (l : Line) (r : LineRecord) : (s.setLine l r).control = s.control := rfl
@[simp] theorem State.setLine_cadence (l : Line) (r : LineRecord) : (s.setLine l r).cadence = s.cadence := rfl
@[simp] theorem State.setLine_table (l : Line) (r : LineRecord) : (s.setLine l r).table = s.table := rfl
@[simp] theorem State.setLine_ringUnit (l : Line) (r : LineRecord) : (s.setLine l r).ringUnit = s.ringUnit := rfl
@[simp] theorem State.setLine_bus (l : Line) (r : LineRecord) : (s.setLine l r).bus = s.bus := rfl
@[simp] theorem State.setLine_reports (l : Line) (r : LineRecord) : (s.setLine l r).reports = s.reports := rfl
@[simp] theorem State.setLine_freeDraws (l : Line) (r : LineRecord) : (s.setLine l r).freeDraws = s.freeDraws := rfl
@[simp] theorem State.setLine_wire (l : Line) (r : LineRecord) : (s.setLine l r).wire = s.wire := rfl
@[simp] theorem State.setLine_pending (l : Line) (r : LineRecord) : (s.setLine l r).pending = s.pending := rfl

/-! ### State.setCircuit -/

@[simp] theorem State.setCircuit_circuits (c : CircuitNo) (x : Circuit) : (s.setCircuit c x).circuits = s.circuits.set c x := rfl
@[simp] theorem State.setCircuit_lines (c : CircuitNo) (x : Circuit) : (s.setCircuit c x).lines = s.lines := rfl
@[simp] theorem State.setCircuit_station (c : CircuitNo) (x : Circuit) : (s.setCircuit c x).station = s.station := rfl
@[simp] theorem State.setCircuit_control (c : CircuitNo) (x : Circuit) : (s.setCircuit c x).control = s.control := rfl
@[simp] theorem State.setCircuit_cadence (c : CircuitNo) (x : Circuit) : (s.setCircuit c x).cadence = s.cadence := rfl
@[simp] theorem State.setCircuit_table (c : CircuitNo) (x : Circuit) : (s.setCircuit c x).table = s.table := rfl
@[simp] theorem State.setCircuit_ringUnit (c : CircuitNo) (x : Circuit) : (s.setCircuit c x).ringUnit = s.ringUnit := rfl
@[simp] theorem State.setCircuit_bus (c : CircuitNo) (x : Circuit) : (s.setCircuit c x).bus = s.bus := rfl
@[simp] theorem State.setCircuit_reports (c : CircuitNo) (x : Circuit) : (s.setCircuit c x).reports = s.reports := rfl
@[simp] theorem State.setCircuit_freeDraws (c : CircuitNo) (x : Circuit) : (s.setCircuit c x).freeDraws = s.freeDraws := rfl
@[simp] theorem State.setCircuit_wire (c : CircuitNo) (x : Circuit) : (s.setCircuit c x).wire = s.wire := rfl
@[simp] theorem State.setCircuit_pending (c : CircuitNo) (x : Circuit) : (s.setCircuit c x).pending = s.pending := rfl

/-! ### State.setReports -/

@[simp] theorem State.setReports_circuits (q : List ReportEntry) : (s.setReports q).circuits = s.circuits := rfl
@[simp] theorem State.setReports_lines (q : List ReportEntry) : (s.setReports q).lines = s.lines := rfl
@[simp] theorem State.setReports_station (q : List ReportEntry) : (s.setReports q).station = s.station := rfl
@[simp] theorem State.setReports_control (q : List ReportEntry) : (s.setReports q).control = s.control := rfl
@[simp] theorem State.setReports_cadence (q : List ReportEntry) : (s.setReports q).cadence = s.cadence := rfl
@[simp] theorem State.setReports_table (q : List ReportEntry) : (s.setReports q).table = s.table := rfl
@[simp] theorem State.setReports_ringUnit (q : List ReportEntry) : (s.setReports q).ringUnit = s.ringUnit := rfl
@[simp] theorem State.setReports_bus (q : List ReportEntry) : (s.setReports q).bus = s.bus := rfl
@[simp] theorem State.setReports_reports (q : List ReportEntry) : (s.setReports q).reports = q := rfl
@[simp] theorem State.setReports_freeDraws (q : List ReportEntry) : (s.setReports q).freeDraws = s.freeDraws := rfl
@[simp] theorem State.setReports_wire (q : List ReportEntry) : (s.setReports q).wire = s.wire := rfl
@[simp] theorem State.setReports_pending (q : List ReportEntry) : (s.setReports q).pending = s.pending := rfl

/-! ### State.setRingUnit -/

@[simp] theorem State.setRingUnit_circuits (u : RingUnit) : (s.setRingUnit u).circuits = s.circuits := rfl
@[simp] theorem State.setRingUnit_lines (u : RingUnit) : (s.setRingUnit u).lines = s.lines := rfl
@[simp] theorem State.setRingUnit_station (u : RingUnit) : (s.setRingUnit u).station = s.station := rfl
@[simp] theorem State.setRingUnit_control (u : RingUnit) : (s.setRingUnit u).control = s.control := rfl
@[simp] theorem State.setRingUnit_cadence (u : RingUnit) : (s.setRingUnit u).cadence = s.cadence := rfl
@[simp] theorem State.setRingUnit_table (u : RingUnit) : (s.setRingUnit u).table = s.table := rfl
@[simp] theorem State.setRingUnit_ringUnit (u : RingUnit) : (s.setRingUnit u).ringUnit = u := rfl
@[simp] theorem State.setRingUnit_bus (u : RingUnit) : (s.setRingUnit u).bus = s.bus := rfl
@[simp] theorem State.setRingUnit_reports (u : RingUnit) : (s.setRingUnit u).reports = s.reports := rfl
@[simp] theorem State.setRingUnit_freeDraws (u : RingUnit) : (s.setRingUnit u).freeDraws = s.freeDraws := rfl
@[simp] theorem State.setRingUnit_wire (u : RingUnit) : (s.setRingUnit u).wire = s.wire := rfl
@[simp] theorem State.setRingUnit_pending (u : RingUnit) : (s.setRingUnit u).pending = s.pending := rfl

/-! ### State.setOwnRow -/

@[simp] theorem State.setOwnRow_circuits (row : Vector Nat 8) : (s.setOwnRow row).circuits = s.circuits := rfl
@[simp] theorem State.setOwnRow_lines (row : Vector Nat 8) : (s.setOwnRow row).lines = s.lines := rfl
@[simp] theorem State.setOwnRow_station (row : Vector Nat 8) : (s.setOwnRow row).station = s.station := rfl
@[simp] theorem State.setOwnRow_control (row : Vector Nat 8) : (s.setOwnRow row).control = s.control := rfl
@[simp] theorem State.setOwnRow_cadence (row : Vector Nat 8) : (s.setOwnRow row).cadence = s.cadence := rfl
@[simp] theorem State.setOwnRow_table (row : Vector Nat 8) : (s.setOwnRow row).table = { s.table with ownRow := row } := rfl
@[simp] theorem State.setOwnRow_ringUnit (row : Vector Nat 8) : (s.setOwnRow row).ringUnit = s.ringUnit := rfl
@[simp] theorem State.setOwnRow_bus (row : Vector Nat 8) : (s.setOwnRow row).bus = s.bus := rfl
@[simp] theorem State.setOwnRow_reports (row : Vector Nat 8) : (s.setOwnRow row).reports = s.reports := rfl
@[simp] theorem State.setOwnRow_freeDraws (row : Vector Nat 8) : (s.setOwnRow row).freeDraws = s.freeDraws := rfl
@[simp] theorem State.setOwnRow_wire (row : Vector Nat 8) : (s.setOwnRow row).wire = s.wire := rfl
@[simp] theorem State.setOwnRow_pending (row : Vector Nat 8) : (s.setOwnRow row).pending = s.pending := rfl

/-! ### State.setBus -/

@[simp] theorem State.setBus_circuits (b : BusInterface) : (s.setBus b).circuits = s.circuits := rfl
@[simp] theorem State.setBus_lines (b : BusInterface) : (s.setBus b).lines = s.lines := rfl
@[simp] theorem State.setBus_station (b : BusInterface) : (s.setBus b).station = s.station := rfl
@[simp] theorem State.setBus_control (b : BusInterface) : (s.setBus b).control = s.control := rfl
@[simp] theorem State.setBus_cadence (b : BusInterface) : (s.setBus b).cadence = s.cadence := rfl
@[simp] theorem State.setBus_table (b : BusInterface) : (s.setBus b).table = s.table := rfl
@[simp] theorem State.setBus_ringUnit (b : BusInterface) : (s.setBus b).ringUnit = s.ringUnit := rfl
@[simp] theorem State.setBus_bus (b : BusInterface) : (s.setBus b).bus = b := rfl
@[simp] theorem State.setBus_reports (b : BusInterface) : (s.setBus b).reports = s.reports := rfl
@[simp] theorem State.setBus_freeDraws (b : BusInterface) : (s.setBus b).freeDraws = s.freeDraws := rfl
@[simp] theorem State.setBus_wire (b : BusInterface) : (s.setBus b).wire = s.wire := rfl
@[simp] theorem State.setBus_pending (b : BusInterface) : (s.setBus b).pending = s.pending := rfl

/-! ### State.setStationState -/

@[simp] theorem State.setStationState_circuits (t : StationState) : (s.setStationState t).circuits = s.circuits := rfl
@[simp] theorem State.setStationState_lines (t : StationState) : (s.setStationState t).lines = s.lines := rfl
@[simp] theorem State.setStationState_station (t : StationState) : (s.setStationState t).station = { s.station with state := t } := rfl
@[simp] theorem State.setStationState_control (t : StationState) : (s.setStationState t).control = s.control := rfl
@[simp] theorem State.setStationState_cadence (t : StationState) : (s.setStationState t).cadence = s.cadence := rfl
@[simp] theorem State.setStationState_table (t : StationState) : (s.setStationState t).table = s.table := rfl
@[simp] theorem State.setStationState_ringUnit (t : StationState) : (s.setStationState t).ringUnit = s.ringUnit := rfl
@[simp] theorem State.setStationState_bus (t : StationState) : (s.setStationState t).bus = s.bus := rfl
@[simp] theorem State.setStationState_reports (t : StationState) : (s.setStationState t).reports = s.reports := rfl
@[simp] theorem State.setStationState_freeDraws (t : StationState) : (s.setStationState t).freeDraws = s.freeDraws := rfl
@[simp] theorem State.setStationState_wire (t : StationState) : (s.setStationState t).wire = s.wire := rfl
@[simp] theorem State.setStationState_pending (t : StationState) : (s.setStationState t).pending = s.pending := rfl

/-! ### State.setWarning -/

@[simp] theorem State.setWarning_circuits (f : InputFilter) : (s.setWarning f).circuits = s.circuits := rfl
@[simp] theorem State.setWarning_lines (f : InputFilter) : (s.setWarning f).lines = s.lines := rfl
@[simp] theorem State.setWarning_station (f : InputFilter) : (s.setWarning f).station = s.station := rfl
@[simp] theorem State.setWarning_control (f : InputFilter) : (s.setWarning f).control = { s.control with warning := f } := rfl
@[simp] theorem State.setWarning_cadence (f : InputFilter) : (s.setWarning f).cadence = s.cadence := rfl
@[simp] theorem State.setWarning_table (f : InputFilter) : (s.setWarning f).table = s.table := rfl
@[simp] theorem State.setWarning_ringUnit (f : InputFilter) : (s.setWarning f).ringUnit = s.ringUnit := rfl
@[simp] theorem State.setWarning_bus (f : InputFilter) : (s.setWarning f).bus = s.bus := rfl
@[simp] theorem State.setWarning_reports (f : InputFilter) : (s.setWarning f).reports = s.reports := rfl
@[simp] theorem State.setWarning_freeDraws (f : InputFilter) : (s.setWarning f).freeDraws = s.freeDraws := rfl
@[simp] theorem State.setWarning_wire (f : InputFilter) : (s.setWarning f).wire = s.wire := rfl
@[simp] theorem State.setWarning_pending (f : InputFilter) : (s.setWarning f).pending = s.pending := rfl

/-! ### State.setReduced -/

@[simp] theorem State.setReduced_circuits (f : InputFilter) : (s.setReduced f).circuits = s.circuits := rfl
@[simp] theorem State.setReduced_lines (f : InputFilter) : (s.setReduced f).lines = s.lines := rfl
@[simp] theorem State.setReduced_station (f : InputFilter) : (s.setReduced f).station = s.station := rfl
@[simp] theorem State.setReduced_control (f : InputFilter) : (s.setReduced f).control = s.control := rfl
@[simp] theorem State.setReduced_cadence (f : InputFilter) : (s.setReduced f).cadence = s.cadence := rfl
@[simp] theorem State.setReduced_table (f : InputFilter) : (s.setReduced f).table = { s.table with reduced := f } := rfl
@[simp] theorem State.setReduced_ringUnit (f : InputFilter) : (s.setReduced f).ringUnit = s.ringUnit := rfl
@[simp] theorem State.setReduced_bus (f : InputFilter) : (s.setReduced f).bus = s.bus := rfl
@[simp] theorem State.setReduced_reports (f : InputFilter) : (s.setReduced f).reports = s.reports := rfl
@[simp] theorem State.setReduced_freeDraws (f : InputFilter) : (s.setReduced f).freeDraws = s.freeDraws := rfl
@[simp] theorem State.setReduced_wire (f : InputFilter) : (s.setReduced f).wire = s.wire := rfl
@[simp] theorem State.setReduced_pending (f : InputFilter) : (s.setReduced f).pending = s.pending := rfl

/-! ### State.recomposeAll -/

@[simp] theorem State.recomposeAll_circuits : s.recomposeAll.circuits = tabulate s.composed := rfl
@[simp] theorem State.recomposeAll_lines : s.recomposeAll.lines = s.lines := rfl
@[simp] theorem State.recomposeAll_station : s.recomposeAll.station = s.station := rfl
@[simp] theorem State.recomposeAll_control : s.recomposeAll.control = s.control := rfl
@[simp] theorem State.recomposeAll_cadence : s.recomposeAll.cadence = s.cadence := rfl
@[simp] theorem State.recomposeAll_table : s.recomposeAll.table = s.table := rfl
@[simp] theorem State.recomposeAll_ringUnit : s.recomposeAll.ringUnit = s.ringUnit := rfl
@[simp] theorem State.recomposeAll_bus : s.recomposeAll.bus = s.bus := rfl
@[simp] theorem State.recomposeAll_reports : s.recomposeAll.reports = s.reports := rfl
@[simp] theorem State.recomposeAll_freeDraws : s.recomposeAll.freeDraws = s.freeDraws := rfl
@[simp] theorem State.recomposeAll_wire : s.recomposeAll.wire = s.wire := rfl
@[simp] theorem State.recomposeAll_pending : s.recomposeAll.pending = s.pending := rfl

/-! ### Readings of lines and circuits -/

@[simp] theorem State.line_setLine_self (l : Line) (r : LineRecord) : (s.setLine l r).line l = r := by
  simp [State.line]

theorem State.line_setLine (l m : Line) (r : LineRecord) :
    (s.setLine l r).line m = if m = l then r else s.line m := by
  simp only [State.line, State.setLine_lines, Fin.getElem_fin, Vector.getElem_set, Fin.ext_iff, eq_comm]

@[simp] theorem State.line_setLine_ne {l m : Line} (h : m ≠ l) (r : LineRecord) :
    (s.setLine l r).line m = s.line m := by
  rw [State.line_setLine, if_neg h]

@[simp] theorem State.circuit_setCircuit_self (c : CircuitNo) (x : Circuit) : (s.setCircuit c x).circuit c = x := by
  simp [State.circuit]

theorem State.circuit_setCircuit (c d : CircuitNo) (x : Circuit) :
    (s.setCircuit c x).circuit d = if d = c then x else s.circuit d := by
  simp only [State.circuit, State.setCircuit_circuits, Fin.getElem_fin, Vector.getElem_set, Fin.ext_iff, eq_comm]

@[simp] theorem State.circuit_setCircuit_ne {c d : CircuitNo} (h : d ≠ c) (x : Circuit) :
    (s.setCircuit c x).circuit d = s.circuit d := by
  rw [State.circuit_setCircuit, if_neg h]

@[simp] theorem State.circuit_recomposeAll (c : CircuitNo) : s.recomposeAll.circuit c = s.composed c := by
  simp [State.circuit]

@[simp] theorem State.setLine_line_self (l : Line) : s.setLine l (s.line l) = s := by
  simp [State.setLine, State.line]

/-- Equal lists of lines read the same. -/
theorem State.line_congr {s t : State} (h : t.lines = s.lines) (l : Line) : t.line l = s.line l := by
  simp [State.line, h]

/-- Equal lists of circuits read the same. -/
theorem State.circuit_congr {s t : State} (h : t.circuits = s.circuits) (c : CircuitNo) :
    t.circuit c = s.circuit c := by
  simp [State.circuit, h]

/-- Two states with the same line records everywhere hold the same lines. -/
theorem State.lines_ext {s t : State} (h : ∀ l, t.line l = s.line l) : t.lines = s.lines :=
  Vector.ext fun i hi => h ⟨i, hi⟩

/-- Two states with the same circuits everywhere hold the same circuits. -/
theorem State.circuits_ext {s t : State} (h : ∀ c, t.circuit c = s.circuit c) : t.circuits = s.circuits :=
  Vector.ext fun i hi => h ⟨i, hi⟩

@[simp] theorem State.circuit_setLine (l : Line) (r : LineRecord) (m : CircuitNo) : (s.setLine l r).circuit m = s.circuit m := rfl
@[simp] theorem State.straps_setLine (l : Line) (r : LineRecord) : (s.setLine l r).straps = s.straps := rfl
@[simp] theorem State.own_setLine (l : Line) (r : LineRecord) : (s.setLine l r).own = s.own := rfl
@[simp] theorem State.profile_setLine (l : Line) (r : LineRecord) : (s.setLine l r).profile = s.profile := rfl
@[simp] theorem State.running_setLine (l : Line) (r : LineRecord) : (s.setLine l r).running = s.running := rfl
@[simp] theorem State.line_setCircuit (c : CircuitNo) (x : Circuit) (m : Line) : (s.setCircuit c x).line m = s.line m := rfl
@[simp] theorem State.straps_setCircuit (c : CircuitNo) (x : Circuit) : (s.setCircuit c x).straps = s.straps := rfl
@[simp] theorem State.own_setCircuit (c : CircuitNo) (x : Circuit) : (s.setCircuit c x).own = s.own := rfl
@[simp] theorem State.profile_setCircuit (c : CircuitNo) (x : Circuit) : (s.setCircuit c x).profile = s.profile := rfl
@[simp] theorem State.running_setCircuit (c : CircuitNo) (x : Circuit) : (s.setCircuit c x).running = s.running := rfl
@[simp] theorem State.line_setReports (q : List ReportEntry) (m : Line) : (s.setReports q).line m = s.line m := rfl
@[simp] theorem State.circuit_setReports (q : List ReportEntry) (m : CircuitNo) : (s.setReports q).circuit m = s.circuit m := rfl
@[simp] theorem State.straps_setReports (q : List ReportEntry) : (s.setReports q).straps = s.straps := rfl
@[simp] theorem State.own_setReports (q : List ReportEntry) : (s.setReports q).own = s.own := rfl
@[simp] theorem State.profile_setReports (q : List ReportEntry) : (s.setReports q).profile = s.profile := rfl
@[simp] theorem State.running_setReports (q : List ReportEntry) : (s.setReports q).running = s.running := rfl
@[simp] theorem State.line_setRingUnit (u : RingUnit) (m : Line) : (s.setRingUnit u).line m = s.line m := rfl
@[simp] theorem State.circuit_setRingUnit (u : RingUnit) (m : CircuitNo) : (s.setRingUnit u).circuit m = s.circuit m := rfl
@[simp] theorem State.straps_setRingUnit (u : RingUnit) : (s.setRingUnit u).straps = s.straps := rfl
@[simp] theorem State.own_setRingUnit (u : RingUnit) : (s.setRingUnit u).own = s.own := rfl
@[simp] theorem State.profile_setRingUnit (u : RingUnit) : (s.setRingUnit u).profile = s.profile := rfl
@[simp] theorem State.running_setRingUnit (u : RingUnit) : (s.setRingUnit u).running = s.running := rfl
@[simp] theorem State.line_setOwnRow (row : Vector Nat 8) (m : Line) : (s.setOwnRow row).line m = s.line m := rfl
@[simp] theorem State.circuit_setOwnRow (row : Vector Nat 8) (m : CircuitNo) : (s.setOwnRow row).circuit m = s.circuit m := rfl
@[simp] theorem State.straps_setOwnRow (row : Vector Nat 8) : (s.setOwnRow row).straps = s.straps := rfl
@[simp] theorem State.own_setOwnRow (row : Vector Nat 8) : (s.setOwnRow row).own = s.own := rfl
@[simp] theorem State.profile_setOwnRow (row : Vector Nat 8) : (s.setOwnRow row).profile = s.profile := rfl
@[simp] theorem State.running_setOwnRow (row : Vector Nat 8) : (s.setOwnRow row).running = s.running := rfl
@[simp] theorem State.line_setBus (b : BusInterface) (m : Line) : (s.setBus b).line m = s.line m := rfl
@[simp] theorem State.circuit_setBus (b : BusInterface) (m : CircuitNo) : (s.setBus b).circuit m = s.circuit m := rfl
@[simp] theorem State.straps_setBus (b : BusInterface) : (s.setBus b).straps = s.straps := rfl
@[simp] theorem State.own_setBus (b : BusInterface) : (s.setBus b).own = s.own := rfl
@[simp] theorem State.profile_setBus (b : BusInterface) : (s.setBus b).profile = s.profile := rfl
@[simp] theorem State.running_setBus (b : BusInterface) : (s.setBus b).running = s.running := rfl
@[simp] theorem State.line_setStationState (t : StationState) (m : Line) : (s.setStationState t).line m = s.line m := rfl
@[simp] theorem State.circuit_setStationState (t : StationState) (m : CircuitNo) : (s.setStationState t).circuit m = s.circuit m := rfl
@[simp] theorem State.straps_setStationState (t : StationState) : (s.setStationState t).straps = s.straps := rfl
@[simp] theorem State.own_setStationState (t : StationState) : (s.setStationState t).own = s.own := rfl
@[simp] theorem State.profile_setStationState (t : StationState) : (s.setStationState t).profile = s.profile := rfl
@[simp] theorem State.line_setWarning (f : InputFilter) (m : Line) : (s.setWarning f).line m = s.line m := rfl
@[simp] theorem State.circuit_setWarning (f : InputFilter) (m : CircuitNo) : (s.setWarning f).circuit m = s.circuit m := rfl
@[simp] theorem State.straps_setWarning (f : InputFilter) : (s.setWarning f).straps = s.straps := rfl
@[simp] theorem State.own_setWarning (f : InputFilter) : (s.setWarning f).own = s.own := rfl
@[simp] theorem State.profile_setWarning (f : InputFilter) : (s.setWarning f).profile = s.profile := rfl
@[simp] theorem State.running_setWarning (f : InputFilter) : (s.setWarning f).running = s.running := rfl
@[simp] theorem State.line_setReduced (f : InputFilter) (m : Line) : (s.setReduced f).line m = s.line m := rfl
@[simp] theorem State.circuit_setReduced (f : InputFilter) (m : CircuitNo) : (s.setReduced f).circuit m = s.circuit m := rfl
@[simp] theorem State.straps_setReduced (f : InputFilter) : (s.setReduced f).straps = s.straps := rfl
@[simp] theorem State.own_setReduced (f : InputFilter) : (s.setReduced f).own = s.own := rfl
@[simp] theorem State.profile_setReduced (f : InputFilter) : (s.setReduced f).profile = s.profile := rfl
@[simp] theorem State.running_setReduced (f : InputFilter) : (s.setReduced f).running = s.running := rfl
@[simp] theorem State.line_recomposeAll (m : Line) : s.recomposeAll.line m = s.line m := rfl
@[simp] theorem State.straps_recomposeAll : s.recomposeAll.straps = s.straps := rfl
@[simp] theorem State.own_recomposeAll : s.recomposeAll.own = s.own := rfl
@[simp] theorem State.profile_recomposeAll : s.recomposeAll.profile = s.profile := rfl
@[simp] theorem State.running_recomposeAll : s.recomposeAll.running = s.running := rfl

/-! ### Derived updates as base updates -/

@[simp] theorem State.setTiming_eq (l : Line) (t : Timing) :
    s.setTiming l t = s.setLine l { s.line l with timing := t } := rfl
@[simp] theorem State.setBlockPending_eq (l : Line) (b : Bool) :
    s.setBlockPending l b = s.setLine l { s.line l with blockPending := b } := rfl
@[simp] theorem State.setRing_eq (l : Line) (c : RingContext) :
    s.setRing l c = s.setLine l { s.line l with ring := some c } := rfl
@[simp] theorem State.setHook_eq (c : CircuitNo) (f : HookFilter) :
    s.setHook c f = s.setCircuit c { s.circuit c with hook := f } := rfl
@[simp] theorem State.setFault_eq (c : CircuitNo) (f : InputFilter) (mark : Bool) :
    s.setFault c f mark = s.setCircuit c { s.circuit c with fault := f, faultMark := mark } := rfl
@[simp] theorem State.clearResync_eq (l : Line) :
    s.clearResync l = s.setLine l { s.line l with resyncDue := false } := rfl
@[simp] theorem State.setClaim_eq (c : Option Claim) :
    s.setClaim c = s.setRingUnit { s.ringUnit with claim := c } := rfl
@[simp] theorem State.appendRelease_eq (r : Release) :
    s.appendRelease r = s.setRingUnit { s.ringUnit with releases := s.ringUnit.releases ++ [r] } := rfl
@[simp] theorem State.unqueue_eq (l : Line) :
    s.unqueue l = s.setRingUnit { s.ringUnit with queue := s.ringUnit.queue.filter (· ≠ l) } := rfl
@[simp] theorem State.addOwnLoad_eq (w : Nat) (set : PhaseSet) :
    s.addOwnLoad w set = s.setOwnRow (addLoad w set s.table.ownRow) := rfl
@[simp] theorem State.removeOwnLoad_eq (w : Nat) (set : PhaseSet) :
    s.removeOwnLoad w set = s.setOwnRow (removeLoad w set s.table.ownRow) := rfl
@[simp] theorem State.recompose_eq (c : CircuitNo) : s.recompose c = s.setCircuit c (s.composed c) := rfl
@[simp] theorem State.endFrame_eq (ack : Bool) :
    s.endFrame ack = s.setBus { s.bus with rx := RxAssembly.waitingForIdle, ackSlot := ack } := rfl

@[simp] theorem getElem_addLoad_nat (w : Nat) (set : PhaseSet) (row : Vector Nat 8) (i : Nat) (h : i < 8) :
    (addLoad w set row)[i] = row[i] + (if inSet set ⟨i, h⟩ then w else 0) := by
  simp only [addLoad, getElem_tabulate]
  split <;> simp_all

theorem getElem_addLoad (w : Nat) (set : PhaseSet) (row : Vector Nat 8) (p : Phase) :
    (addLoad w set row)[p] = row[p] + (if inSet set p then w else 0) :=
  getElem_addLoad_nat w set row p p.isLt

@[simp] theorem getElem_removeLoad_nat (w : Nat) (set : PhaseSet) (row : Vector Nat 8) (i : Nat) (h : i < 8) :
    (removeLoad w set row)[i] = row[i] - (if inSet set ⟨i, h⟩ then w else 0) := by
  simp only [removeLoad, getElem_tabulate]
  split <;> simp_all

theorem getElem_removeLoad (w : Nat) (set : PhaseSet) (row : Vector Nat 8) (p : Phase) :
    (removeLoad w set row)[p] = row[p] - (if inSet set p then w else 0) :=
  getElem_removeLoad_nat w set row p p.isLt

end Sys2Proof.Machine
end

