-- ==== Sys2Proof/Laws/Bus.lean ====
section
/-! SUPPORT. What the beginning of a frame can do: the bus interface, the status of the claim in flight and the marks of
the report queue change, and nothing else. -/

namespace Sys2Proof.Machine

/-- The fields that the beginning of a frame leaves alone. -/
structure BeginFrame (s t : State) : Prop where
  circuits : t.circuits = s.circuits
  lines : t.lines = s.lines
  station : t.station = s.station
  control : t.control = s.control
  cadence : t.cadence = s.cadence
  table : t.table = s.table
  queue : t.ringUnit.queue = s.ringUnit.queue
  releases : t.ringUnit.releases = s.ringUnit.releases
  freeDraws : t.freeDraws = s.freeDraws
  wire : t.wire = s.wire
  pending : t.pending = s.pending
  length : t.reports.length = s.reports.length

theorem BeginFrame.rfl {s : State} : BeginFrame s s :=
  ⟨Eq.refl _, Eq.refl _, Eq.refl _, Eq.refl _, Eq.refl _, Eq.refl _, Eq.refl _, Eq.refl _, Eq.refl _, Eq.refl _, Eq.refl _,
    Eq.refl _⟩

theorem sendHead_eq (s : State) : ∃ q, s.sendHead = s.setReports q ∧ q.length = s.reports.length := by
  unfold State.sendHead
  split
  · exact ⟨s.reports, Eq.refl _, Eq.refl _⟩
  · rename_i e q hq
    exact ⟨_, Eq.refl _, by simp [hq]⟩

theorem beginFrame_frame (s : State) (k : FrameKind) : BeginFrame s (s.beginFrame k) := by
  unfold State.beginFrame State.tellBegun
  split
  · exact ⟨Eq.refl _, Eq.refl _, Eq.refl _, Eq.refl _, Eq.refl _, Eq.refl _, Eq.refl _, Eq.refl _, Eq.refl _, Eq.refl _,
      Eq.refl _, Eq.refl _⟩
  · obtain ⟨q, hq, hl⟩ := sendHead_eq (s.setBus { s.bus with
      tx := some ⟨.report, s.composeFrame .report, 0, 0, .contest⟩
      rx := RxAssembly.begun })
    rw [hq]
    exact ⟨Eq.refl _, Eq.refl _, Eq.refl _, Eq.refl _, Eq.refl _, Eq.refl _, Eq.refl _, Eq.refl _, Eq.refl _, Eq.refl _, Eq.refl _,
      hl⟩
  all_goals
    exact ⟨Eq.refl _, Eq.refl _, Eq.refl _, Eq.refl _, Eq.refl _, Eq.refl _, Eq.refl _, Eq.refl _, Eq.refl _, Eq.refl _,
      Eq.refl _, Eq.refl _⟩

theorem beginIfReady_frame (s : State) : BeginFrame s s.beginIfReady := by
  unfold State.beginIfReady
  split
  · exact beginFrame_frame s _
  · exact .rfl

theorem sendIfIdle_frame (s : State) : BeginFrame s s.sendIfIdle := by
  unfold State.sendIfIdle
  split
  · exact beginIfReady_frame s
  · exact .rfl

theorem sendIfIdle_of_not_idle {s : State} (h : s.bus.rx.state ≠ .idle) : s.sendIfIdle = s := if_neg h

@[simp] theorem sendIfIdle_circuits (s : State) : s.sendIfIdle.circuits = s.circuits := (sendIfIdle_frame s).circuits
@[simp] theorem sendIfIdle_lines (s : State) : s.sendIfIdle.lines = s.lines := (sendIfIdle_frame s).lines
@[simp] theorem sendIfIdle_station (s : State) : s.sendIfIdle.station = s.station := (sendIfIdle_frame s).station
@[simp] theorem sendIfIdle_control (s : State) : s.sendIfIdle.control = s.control := (sendIfIdle_frame s).control
@[simp] theorem sendIfIdle_cadence (s : State) : s.sendIfIdle.cadence = s.cadence := (sendIfIdle_frame s).cadence
@[simp] theorem sendIfIdle_table (s : State) : s.sendIfIdle.table = s.table := (sendIfIdle_frame s).table
@[simp] theorem sendIfIdle_freeDraws (s : State) : s.sendIfIdle.freeDraws = s.freeDraws := (sendIfIdle_frame s).freeDraws
@[simp] theorem sendIfIdle_wire (s : State) : s.sendIfIdle.wire = s.wire := (sendIfIdle_frame s).wire
@[simp] theorem sendIfIdle_pending (s : State) : s.sendIfIdle.pending = s.pending := (sendIfIdle_frame s).pending
@[simp] theorem sendIfIdle_queue (s : State) : s.sendIfIdle.ringUnit.queue = s.ringUnit.queue := (sendIfIdle_frame s).queue
@[simp] theorem sendIfIdle_releases (s : State) : s.sendIfIdle.ringUnit.releases = s.ringUnit.releases :=
  (sendIfIdle_frame s).releases

@[simp] theorem sendIfIdle_line (s : State) (l : Line) : s.sendIfIdle.line l = s.line l := by
  simp [State.line]

@[simp] theorem sendIfIdle_circuit (s : State) (c : CircuitNo) : s.sendIfIdle.circuit c = s.circuit c := by
  simp [State.circuit]

/-- An idle bus never has a frame ready: one that becomes ready there begins in the same step (R136). -/
def State.IdleBusOk (s : State) : Prop := s.bus.rx.state = .idle → s.bus.tx = none ∧ s.chooseFrame = none

theorem beginFrame_assembling (s : State) (k : FrameKind) : (s.beginFrame k).bus.rx.state = .assembling := by
  unfold State.beginFrame State.tellBegun
  split
  · rfl
  · unfold State.sendHead
    split <;> rfl
  all_goals rfl

theorem idleBusOk_sendIfIdle {s : State} (h : s.bus.rx.state = .idle → s.bus.tx = none) : s.sendIfIdle.IdleBusOk := by
  by_cases hx : s.bus.rx.state = .idle
  · rw [State.sendIfIdle, if_pos hx, State.beginIfReady]
    split
    · intro hi
      rw [beginFrame_assembling] at hi
      cases hi
    · exact fun _ => ⟨h hx, ‹_›⟩
  · rw [sendIfIdle_of_not_idle hx]
    exact fun hi => absurd hi hx

end Sys2Proof.Machine
end

