-- ==== Sys2Proof/Laws/Reports.lean ====
section
/-! SUPPORT. What queueing a report can do: only the report queue and resync-due flags change, the queue depends on the
queue alone, and it keeps its length, its order and its coalescing. -/

namespace Sys2Proof.Machine

/-! ### Records that differ in the resync-due flag alone -/

@[simp] theorem SameButResync.refl (a : LineRecord) : SameButResync a a := rfl

theorem SameButResync.trans {a b c : LineRecord} (h : SameButResync a b) (k : SameButResync b c) :
    SameButResync a c := by
  unfold SameButResync at *
  rw [h] at k
  exact k

@[simp] theorem SameButResync.of_flag (a : LineRecord) (x : Bool) : SameButResync a { a with resyncDue := x } := rfl

/-- Every other field is the same. -/
theorem SameButResync.fields {a b : LineRecord} (h : SameButResync a b) :
    b.state = a.state ∧ b.tone = a.tone ∧ b.watch = a.watch ∧ b.blockPending = a.blockPending
      ∧ b.circuit = a.circuit ∧ b.timing = a.timing ∧ b.ring = a.ring ∧ b.correctionMark = a.correctionMark := by
  rw [h]
  exact ⟨rfl, rfl, rfl, rfl, rfl, rfl, rfl, rfl⟩

/-- Nothing but the report queue and resync-due flags differs between two states. -/
structure OnlyReports (s t : State) : Prop where
  eq : t = { s with lines := t.lines, reports := t.reports }
  lines : ∀ m, SameButResync (s.line m) (t.line m)

@[simp] theorem OnlyReports.refl (s : State) : OnlyReports s s := ⟨rfl, fun _ => rfl⟩

theorem OnlyReports.trans {s t u : State} (h : OnlyReports s t) (k : OnlyReports t u) : OnlyReports s u :=
  ⟨by rw [k.eq, h.eq], fun m => (h.lines m).trans (k.lines m)⟩

/-- A new report queue leaves the rest. -/
@[simp] theorem onlyReports_setReports (s : State) (q : List ReportEntry) : OnlyReports s (s.setReports q) :=
  ⟨rfl, fun _ => rfl⟩

/-- A resync-due flag leaves the rest. -/
theorem onlyReports_setResync (s : State) (l : Line) (x : Bool) :
    OnlyReports s (s.setLine l { s.line l with resyncDue := x }) := by
  refine ⟨rfl, fun m => ?_⟩
  by_cases h : m = l
  · subst h; simp
  · simp [h]

/-! ### Queueing -/

/-- What queueing a report can do. -/
theorem onlyReports_queueReport (s : State) (e : ReportEntry) : OnlyReports s (s.queueReport e) := by
  unfold State.queueReport
  split
  · simp
  split
  · simp
  split
  · split
    · exact (onlyReports_setReports ..).trans (onlyReports_setResync ..)
    · simp
  · split
    · simp
    · exact onlyReports_setResync ..

/-- A class 3 report changes the queue alone: nothing is displaced for it and nothing records its drop (R164). -/
theorem queueReport_class3 (s : State) (e : ReportEntry) (h : e.cls = 3) :
    s.queueReport e = s.setReports (s.queueReport e).reports := by
  unfold State.queueReport
  split
  · simp
  split
  · simp
  simp [displacedBy, h, State.setReports]

/-- The queue after a report depends on the queue before it alone. -/
theorem queueReport_reports_congr {s t : State} (h : t.reports = s.reports) (e : ReportEntry) :
    (t.queueReport e).reports = (s.queueReport e).reports := by
  unfold State.queueReport
  rw [h]
  split
  · rfl
  split
  · rfl
  split
  · split <;> rfl
  · split
    · exact h
    · exact h

@[simp] theorem onlyReports_queueLine (code : ReportCode) (l : Line) (v : List Octet) (s : State) :
    OnlyReports s (queueLine code l v s) := onlyReports_queueReport ..

@[simp] theorem onlyReports_queueStationReport (code : ReportCode) (v : List Octet) (s : State) :
    OnlyReports s (queueStationReport code v s) := onlyReports_queueReport ..

@[simp] theorem onlyReports_refuse (l : Line) (c r : Octet) (s : State) : OnlyReports s (refuse l c r s) :=
  onlyReports_queueReport ..

@[simp] theorem onlyReports_id (s : State) : OnlyReports s (id s) := OnlyReports.refl s

@[simp] theorem onlyReports_traceChange (l : Line) (left : LineState) (s : State) :
    OnlyReports s (traceChange l left s) := by
  unfold traceChange
  split
  · exact onlyReports_queueLine ..
  · exact OnlyReports.refl s

@[simp] theorem onlyReports_queueLineState (l : Line) (s : State) : OnlyReports s (queueLineState l s) := by
  unfold queueLineState
  split
  · exact (onlyReports_queueReport ..).trans (onlyReports_setResync ..)
  · exact onlyReports_queueReport ..

/-- A TRACE changes the queue alone. -/
theorem traceChange_eq (l : Line) (left : LineState) (s : State) :
    traceChange l left s = s.setReports (traceChange l left s).reports := by
  unfold traceChange queueLine
  split
  · exact queueReport_class3 _ _ rfl
  · rfl

@[simp] theorem traceChange_line (l m : Line) (left : LineState) (s : State) :
    (traceChange l left s).line m = s.line m := by
  rw [traceChange_eq]; rfl

/-! ### The statements' reading of the queue -/

@[simp] theorem reportsAfter_nil (s : State) : s.reportsAfter [] = s.reports := rfl

/-- Reports that are queued after others. -/
theorem reportsAfter_append (s : State) (a b : List ReportEntry) :
    s.reportsAfter (a ++ b) = (a.foldl State.queueReport s).reportsAfter b := by
  simp [State.reportsAfter, List.foldl_append]

/-- The queue after some reports depends on the queue before them alone. -/
theorem reportsAfter_congr {s t : State} (h : t.reports = s.reports) (es : List ReportEntry) :
    t.reportsAfter es = s.reportsAfter es := by
  unfold State.reportsAfter
  induction es generalizing s t with
  | nil => exact h
  | cons e es ih => exact ih (queueReport_reports_congr h e)

theorem reportsAfter_cons (s : State) (e : ReportEntry) (es : List ReportEntry) :
    s.reportsAfter (e :: es) = (s.queueReport e).reportsAfter es := rfl

/-- Queueing reports one after another. -/
theorem reportsAfter_then (s : State) (a b : List ReportEntry) {t : State} (h : t.reports = s.reportsAfter a) :
    t.reportsAfter b = s.reportsAfter (a ++ b) := by
  rw [reportsAfter_append]
  exact reportsAfter_congr h b

/-! ### The invariant of the queue -/

theorem coalescesWith_comm (a b : ReportEntry) : a.coalescesWith b = b.coalescesWith a := by
  unfold ReportEntry.coalescesWith
  by_cases h : a.code = b.code
  · rw [h]
    simp only [decide_true, Bool.true_and]
    rw [decide_eq_decide.2 (eq_comm (a := a.number)), decide_eq_decide.2 (eq_comm (a := a.values))]
  · simp [h, Ne.symm h]

/-- A queue that meets the invariant of R162 and R163, its length apart. -/
def QueueOk (q : List ReportEntry) : Prop :=
  q.Pairwise (fun a b => a.cls ≤ b.cls) ∧ q.Pairwise (fun a b => a.coalescesWith b = false)

theorem QueueOk.nil : QueueOk [] := ⟨.nil, .nil⟩

theorem QueueOk.sublist {q r : List ReportEntry} (h : QueueOk q) (k : r.Sublist q) : QueueOk r :=
  ⟨h.1.sublist k, h.2.sublist k⟩

/-- Rewriting entries in place keeps the invariant where code and number stand, and for CORRECTED the values. -/
theorem QueueOk.map {q : List ReportEntry} (h : QueueOk q) (f : ReportEntry → ReportEntry)
    (hf : ∀ e ∈ q, (f e).code = e.code ∧ (f e).number = e.number ∧ (e.code = .corrected → (f e).values = e.values)) :
    QueueOk (q.map f) := by
  constructor
  · rw [List.pairwise_map]
    refine h.1.imp_of_mem fun ha hb hab => ?_
    simpa [ReportEntry.cls, (hf _ ha).1, (hf _ hb).1] using hab
  · rw [List.pairwise_map]
    refine h.2.imp_of_mem fun {a b} ha hb hab => ?_
    rw [Bool.eq_false_iff] at hab ⊢
    intro hc
    apply hab
    obtain ⟨ha1, ha2, ha3⟩ := hf _ ha
    obtain ⟨hb1, hb2, hb3⟩ := hf _ hb
    simp only [ReportEntry.coalescesWith, ha1, ha2, hb1, hb2, Bool.and_eq_true, decide_eq_true_eq,
      Bool.or_eq_true] at hc ⊢
    refine ⟨hc.1, hc.2.imp id fun hcor => ⟨hcor.1, ?_⟩⟩
    rw [← ha3 hcor.1, ← hb3 (hc.1.1 ▸ hcor.1)]
    exact hcor.2

theorem mem_insertReport {e x : ReportEntry} {q : List ReportEntry} :
    x ∈ insertReport e q ↔ x = e ∨ x ∈ q := by
  induction q with
  | nil => simp [insertReport]
  | cons y q ih =>
    unfold insertReport
    split
    · simp only [List.mem_cons, ih]; tauto
    · simp

@[simp] theorem length_insertReport (e : ReportEntry) (q : List ReportEntry) :
    (insertReport e q).length = q.length + 1 := by
  induction q with
  | nil => rfl
  | cons x q ih =>
    unfold insertReport
    split
    · simp [ih]
    · simp

/-- A new entry stands behind its class and ahead of the higher class numbers (R162). -/
theorem QueueOk.insert {q : List ReportEntry} (h : QueueOk q) {e : ReportEntry}
    (he : q.any e.coalescesWith = false) : QueueOk (insertReport e q) := by
  have hne : ∀ x ∈ q, e.coalescesWith x = false := by simpa using he
  clear he
  induction q with
  | nil => exact ⟨by simp [insertReport], by simp [insertReport]⟩
  | cons x q ih =>
    obtain ⟨h1, h2⟩ := h
    rw [List.pairwise_cons] at h1 h2
    unfold insertReport
    split
    · rename_i hx
      obtain ⟨i1, i2⟩ := ih ⟨h1.2, h2.2⟩ fun y hy => hne y (by simp [hy])
      refine ⟨List.pairwise_cons.2 ⟨fun y hy => ?_, i1⟩, List.pairwise_cons.2 ⟨fun y hy => ?_, i2⟩⟩
      · rcases mem_insertReport.1 hy with rfl | hy
        · exact hx
        · exact h1.1 y hy
      · rcases mem_insertReport.1 hy with rfl | hy
        · rw [coalescesWith_comm]; exact hne x (by simp)
        · exact h2.1 y hy
    · rename_i hx
      refine ⟨List.pairwise_cons.2 ⟨fun y hy => ?_, List.pairwise_cons.2 h1⟩,
        List.pairwise_cons.2 ⟨fun y hy => hne y hy, List.pairwise_cons.2 h2⟩⟩
      rcases List.mem_cons.1 hy with rfl | hy
      · omega
      · have := h1.1 y hy
        omega

/-- An entry leaves the queue for a newer report: the rest is one shorter. -/
theorem removeNewest_spec {cls : Nat} {q : List ReportEntry} {d : ReportEntry} {rest : List ReportEntry}
    (h : removeNewest cls q = some (d, rest)) :
    rest.Sublist q ∧ q.length = rest.length + 1 ∧ d ∈ q ∧ d.cls = cls ∧ d.sending = false := by
  induction q generalizing d rest with
  | nil => simp [removeNewest] at h
  | cons x q ih =>
    unfold removeNewest at h
    split at h
    · rename_i y r hr
      obtain ⟨rfl, rfl⟩ : y = d ∧ x :: r = rest := by simpa using h
      obtain ⟨a, b, c, e⟩ := ih hr
      exact ⟨a.cons_cons x, by simp [b], by simp [c], e⟩
    · split at h
      · rename_i hx
        obtain ⟨rfl, rfl⟩ : x = d ∧ q = rest := by simpa using h
        simp at hx
        exact ⟨List.sublist_cons_self .., rfl, by simp, hx⟩
      · simp at h

/-- A displaced entry is of a lower class than the report, with its sending mark clear (R164). -/
theorem displacedBy_spec {e d : ReportEntry} {q rest : List ReportEntry} (h : displacedBy e q = some (d, rest)) :
    rest.Sublist q ∧ q.length = rest.length + 1 ∧ d ∈ q ∧ d.sending = false := by
  unfold displacedBy at h
  split at h
  · simp at h
  split at h
  · rename_i r hr
    obtain ⟨a, b, c, -, e⟩ := removeNewest_spec (hr.trans h)
    exact ⟨a, b, c, e⟩
  · split at h
    · obtain ⟨a, b, c, -, e⟩ := removeNewest_spec h
      exact ⟨a, b, c, e⟩
    · simp at h

/-- Every way in which a report is queued keeps the queue's invariant. -/
theorem queueReport_reportsOk {s : State} (h : s.ReportsOk) (e : ReportEntry) : (s.queueReport e).ReportsOk := by
  obtain ⟨hl, hq⟩ := h
  have hq : QueueOk s.reports := hq
  unfold State.queueReport State.ReportsOk
  split
  · refine ⟨by simpa [coalesce] using hl, hq.map _ fun x hx => ?_⟩
    split
    · rename_i hc
      refine ⟨rfl, rfl, fun hcor => ?_⟩
      simp only [ReportEntry.coalescesWith, Bool.and_eq_true, decide_eq_true_eq, Bool.or_eq_true] at hc
      obtain ⟨⟨h1, -⟩, (h2 | h2) | h2⟩ := hc
      · simp [h1, hcor] at h2
      · simp [h1, hcor] at h2
      · exact h2.2
    · exact ⟨rfl, rfl, fun _ => rfl⟩
  · rename_i hc
    have hc : s.reports.any e.coalescesWith = false := by simpa using hc
    split
    · rename_i hlt
      exact ⟨by simpa [reportCapacity] using hlt, hq.insert hc⟩
    split
    · rename_i d rest hd
      obtain ⟨a, b, -, -⟩ := displacedBy_spec hd
      have hr : QueueOk (insertReport e rest) := (hq.sublist a).insert (by
        rw [List.any_eq_false] at hc ⊢
        exact fun x hx => hc x (a.subset hx))
      have hlen : (insertReport e rest).length ≤ 32 := by simp; omega
      split
      · exact ⟨hlen, hr⟩
      · exact ⟨hlen, hr⟩
    · split
      · exact ⟨hl, hq⟩
      · exact ⟨hl, hq⟩

/-- The invariant of the queue depends on the queue alone. -/
theorem State.ReportsOk.congr {s t : State} (h : s.ReportsOk) (k : t.reports = s.reports) : t.ReportsOk := by
  unfold State.ReportsOk
  rw [k]
  exact h

end Sys2Proof.Machine
end

