-- ==== Sys2Proof/Laws/LineMoves.lean ====
section
/-! SUPPORT. What the moves of one line can do: the ring-leave notice, the change of state, and every move of the hook path
and of the line commands but RING and REMAP. -/

namespace Sys2Proof.Machine

/-! ### Outputs -/

@[simp] theorem withOutputs_hook (x : Circuit) (a b c d : Bool) : (x.withOutputs a b c d).hook = x.hook := rfl

@[simp] theorem withOutputs_fault (x : Circuit) (a b c d : Bool) : (x.withOutputs a b c d).fault = x.fault := rfl

@[simp] theorem withOutputs_faultMark (x : Circuit) (a b c d : Bool) :
    (x.withOutputs a b c d).faultMark = x.faultMark := rfl

/-- Composing outputs leaves the filters and the fault mark (R2). -/
theorem composed_keeps (s : State) (c : CircuitNo) :
    (s.composed c).hook = (s.circuit c).hook ∧ (s.composed c).fault = (s.circuit c).fault
      ∧ (s.composed c).faultMark = (s.circuit c).faultMark := by
  unfold State.composed
  split
  · exact ⟨rfl, rfl, rfl⟩
  split
  · exact ⟨rfl, rfl, rfl⟩
  split <;> exact ⟨rfl, rfl, rfl⟩

/-- The circuits after a line's circuit is composed anew. -/
theorem recomposeLine_circuit (s : State) (l : Line) (d : CircuitNo) :
    (s.recomposeLine l).circuit d = if (s.line l).circuit = some d then s.composed d else s.circuit d := by
  unfold State.recomposeLine
  split
  · rename_i c hc
    simp only [State.recompose_eq, State.circuit_setCircuit, hc, Option.some.injEq, eq_comm (a := d)]
    split
    · rename_i h; rw [h]
    · rfl
  · rename_i hc
    simp [hc]

/-- Composing a line's circuit anew changes that circuit alone. -/
theorem recomposeLine_eq (s : State) (l : Line) :
    s.recomposeLine l = { s with circuits := (s.recomposeLine l).circuits } := by
  unfold State.recomposeLine
  split <;> rfl

/-! ### The ring-leave notice -/

/-- A ring-leave notice changes the Ring Placement Unit and the own row alone (R120 to R123). -/
theorem ringLeave_eq (s : State) (l : Line) (left : LineState) (ctx : Option RingContext) :
    s.ringLeave l left ctx = { s with
      ringUnit := (s.ringLeave l left ctx).ringUnit
      table := { s.table with ownRow := (s.ringLeave l left ctx).table.ownRow } } := by
  unfold State.ringLeave State.leaveClaim
  repeat' split
  all_goals rfl

/-- The notice's effect depends on the Ring Placement Unit and the table alone. -/
theorem ringLeave_congr {s t : State} (h : t.ringUnit = s.ringUnit) (k : t.table = s.table) (l : Line)
    (left : LineState) (ctx : Option RingContext) :
    (t.ringLeave l left ctx).ringUnit = (s.ringLeave l left ctx).ringUnit
      ∧ (t.ringLeave l left ctx).table = (s.ringLeave l left ctx).table := by
  unfold State.ringLeave State.leaveClaim
  rw [h]
  repeat' split
  all_goals simp [State.leaveLoad, h, k]

/-! ### The change of state -/

/-- A change of state changes the line's record, its circuit's outputs, and, where the line leaves the ring states, the
Ring Placement Unit and the own row (R41). -/
theorem enterState_eq (l : Line) (new : LineState) (s : State) :
    enterState l new s = { s with
      lines := (s.setLine l ((s.line l).entering new)).lines
      circuits := (enterState l new s).circuits
      ringUnit := (enterState l new s).ringUnit
      table := { s.table with ownRow := (enterState l new s).table.ownRow } } := by
  simp only [enterState]
  split
  · rw [recomposeLine_eq, ringLeave_eq]
    rfl
  · rw [recomposeLine_eq]
    rfl

theorem enterState_line (l m : Line) (new : LineState) (s : State) :
    (enterState l new s).line m = if m = l then (s.line l).entering new else s.line m := by
  rw [State.line_congr (s := s.setLine l ((s.line l).entering new)) (by rw [enterState_eq]), State.line_setLine]

@[simp] theorem enterState_line_self (l : Line) (new : LineState) (s : State) :
    (enterState l new s).line l = (s.line l).entering new := by
  rw [enterState_line, if_pos rfl]

@[simp] theorem enterState_reports (l : Line) (new : LineState) (s : State) :
    (enterState l new s).reports = s.reports := by
  rw [enterState_eq]

@[simp] theorem enterState_own (l : Line) (new : LineState) (s : State) : (enterState l new s).own = s.own := by
  rw [enterState_eq]; rfl

@[simp] theorem enterState_profile (l : Line) (new : LineState) (s : State) :
    (enterState l new s).profile = s.profile := by
  rw [enterState_eq]; rfl

/-- A change of state that is no departure from the ring states leaves the Ring Placement Unit and the own row. -/
theorem enterState_ring_of_not_leaving (l : Line) (new : LineState) (s : State)
    (h : (s.line l).state.isRing = false ∨ new.isRing = true) :
    (enterState l new s).ringUnit = s.ringUnit ∧ (enterState l new s).table = s.table := by
  have hb : ((s.line l).state.isRing && !new.isRing) = false := by rcases h with h | h <;> simp [h]
  simp only [enterState, hb, Bool.false_eq_true, if_false]
  rw [recomposeLine_eq]
  exact ⟨rfl, rfl⟩

/-- A departure from the ring states hands the ring-leave notice, and the Ring Placement Unit acts on it. -/
theorem enterState_ring_of_leaving (l : Line) (new : LineState) (s : State) (h : (s.line l).state.isRing = true)
    (k : new.isRing = false) :
    (enterState l new s).ringUnit = (s.ringLeave l (s.line l).state (s.line l).ring).ringUnit
      ∧ (enterState l new s).table = (s.ringLeave l (s.line l).state (s.line l).ring).table := by
  simp only [enterState, h, k, Bool.not_false, Bool.and_self, if_true]
  rw [recomposeLine_eq]
  exact ringLeave_congr (s := s) (t := s.setLine l ((s.line l).entering new)) rfl rfl _ _ _

/-! ### What a move of one line leaves alone -/

/-- A move of the line `l`: its record but for the circuit field, its circuit's outputs, the report queue, resync-due
flags, and, for a line in a ring state, the Ring Placement Unit and the own row. -/
structure LineMove (l : Line) (s t : State) : Prop where
  eq : t = { s with
    lines := t.lines, circuits := t.circuits, ringUnit := t.ringUnit, reports := t.reports
    table := { s.table with ownRow := t.table.ownRow } }
  lines : ∀ m, m ≠ l → SameButResync (s.line m) (t.line m)
  circuit : (t.line l).circuit = (s.line l).circuit
  circuits : ∀ d, (s.line l).circuit ≠ some d → t.circuit d = s.circuit d
  filters : ∀ d, (t.circuit d).hook = (s.circuit d).hook ∧ (t.circuit d).fault = (s.circuit d).fault
    ∧ (t.circuit d).faultMark = (s.circuit d).faultMark
  ring : (s.line l).state.isRing = false →
    (t.line l).state.isRing = false ∧ t.ringUnit = s.ringUnit ∧ t.table.ownRow = s.table.ownRow

theorem LineMove.refl (l : Line) (s : State) : LineMove l s s :=
  ⟨rfl, fun _ _ => rfl, rfl, fun _ _ => rfl, fun _ => ⟨rfl, rfl, rfl⟩, fun h => ⟨h, rfl, rfl⟩⟩

theorem LineMove.trans {l : Line} {s t u : State} (h : LineMove l s t) (k : LineMove l t u) : LineMove l s u where
  eq := by rw [k.eq, h.eq]
  lines m hm := (h.lines m hm).trans (k.lines m hm)
  circuit := k.circuit.trans h.circuit
  circuits d hd := (k.circuits d (by rwa [h.circuit])).trans (h.circuits d hd)
  filters d := by
    obtain ⟨a, b, c⟩ := h.filters d
    obtain ⟨a', b', c'⟩ := k.filters d
    exact ⟨a'.trans a, b'.trans b, c'.trans c⟩
  ring hr := by
    obtain ⟨a, b, c⟩ := h.ring hr
    obtain ⟨a', b', c'⟩ := k.ring a
    exact ⟨a', b'.trans b, c'.trans c⟩

theorem OnlyReports.lineMove {s t : State} (h : OnlyReports s t) (l : Line) : LineMove l s t where
  eq := by rw [h.eq]
  lines m _ := h.lines m
  circuit := (h.lines l).fields.2.2.2.2.1
  circuits d _ := State.circuit_congr (by rw [h.eq]) d
  filters d := by rw [State.circuit_congr (t := t) (s := s) (by rw [h.eq]) d]; exact ⟨rfl, rfl, rfl⟩
  ring hr := ⟨by rw [(h.lines l).fields.1]; exact hr, by rw [h.eq], by rw [h.eq]⟩

/-- A new record with the circuit and the ring standing of the old one. -/
theorem lineMove_setLine (l : Line) (s : State) (r : LineRecord) (hc : r.circuit = (s.line l).circuit)
    (hr : (s.line l).state.isRing = false → r.state.isRing = false) : LineMove l s (s.setLine l r) where
  eq := rfl
  lines m hm := by simp [hm]
  circuit := by simp [hc]
  circuits _ _ := rfl
  filters _ := ⟨rfl, rfl, rfl⟩
  ring h := ⟨by simpa using hr h, rfl, rfl⟩

theorem lineMove_recomposeLine (l : Line) (s : State) : LineMove l s (s.recomposeLine l) where
  eq := by rw [recomposeLine_eq]
  lines m _ := by rw [State.line_congr (t := s.recomposeLine l) (s := s) (by rw [recomposeLine_eq])]; exact .refl _
  circuit := by rw [State.line_congr (t := s.recomposeLine l) (s := s) (by rw [recomposeLine_eq])]
  circuits d hd := by rw [recomposeLine_circuit, if_neg hd]
  filters d := by
    rw [recomposeLine_circuit]
    split
    · exact composed_keeps s d
    · exact ⟨rfl, rfl, rfl⟩
  ring h := by
    rw [State.line_congr (t := s.recomposeLine l) (s := s) (by rw [recomposeLine_eq])]
    exact ⟨h, by rw [recomposeLine_eq], by rw [recomposeLine_eq]⟩

/-- A change to a state outside the ring states, or between ring states. -/
theorem lineMove_enterState (l : Line) (new : LineState) (s : State)
    (h : (s.line l).state.isRing = false → new.isRing = false) : LineMove l s (enterState l new s) where
  eq := by rw [enterState_eq]
  lines m hm := by rw [enterState_line, if_neg hm]; exact .refl _
  circuit := by rw [enterState_line_self]; rfl
  circuits d hd := by
    simp only [enterState]
    rw [recomposeLine_circuit]
    split
    · rw [State.line_congr (t := State.ringLeave _ _ _ _) (s := s.setLine l ((s.line l).entering new))
          (by rw [ringLeave_eq]), State.line_setLine_self,
        if_neg (by simpa [LineRecord.entering] using hd), ringLeave_eq]
      rfl
    · simp only [State.line_setLine_self]
      rw [if_neg (by simpa [LineRecord.entering] using hd)]
      rfl
  filters d := by
    simp only [enterState]
    rw [recomposeLine_circuit]
    split
    · split
      · obtain ⟨a, b, c⟩ := composed_keeps ((s.setLine l ((s.line l).entering new)).ringLeave l (s.line l).state
          (s.line l).ring) d
        rw [a, b, c, ringLeave_eq]
        exact ⟨rfl, rfl, rfl⟩
      · rw [ringLeave_eq]
        exact ⟨rfl, rfl, rfl⟩
    · split
      · exact composed_keeps (s.setLine l ((s.line l).entering new)) d
      · exact ⟨rfl, rfl, rfl⟩
  ring hr := by
    obtain ⟨a, b⟩ := enterState_ring_of_not_leaving l new s (.inl hr)
    exact ⟨by simpa [LineRecord.entering] using h hr, a, by rw [b]⟩

/-- A change of state with its reports. -/
theorem lineMove_transition (l : Line) (new : LineState) (report : State → State) (s : State)
    (hr : ∀ t, OnlyReports t (report t)) (h : (s.line l).state.isRing = false → new.isRing = false) :
    LineMove l s (transition l new report s) :=
  ((lineMove_enterState l new s h).trans ((hr _).lineMove l)).trans ((onlyReports_traceChange ..).lineMove l)

/-- The exact record after a change of state with reports that drop nothing. -/
theorem transition_line (l : Line) (new : LineState) (report : State → State) (s : State) :
    (transition l new report s).line l = (report (enterState l new s)).line l := by
  simp [transition]

theorem transition_same (l : Line) (new : LineState) (report : State → State) (s : State)
    (hr : ∀ t, OnlyReports t (report t)) :
    SameButResync ((s.line l).entering new) ((transition l new report s).line l) := by
  rw [transition_line]
  simpa using (hr (enterState l new s)).lines l

/-- The Ring Placement Unit and the own row after a change of state. -/
theorem transition_ring (l : Line) (new : LineState) (report : State → State) (s : State)
    (hr : ∀ t, OnlyReports t (report t)) :
    (transition l new report s).ringUnit = (enterState l new s).ringUnit
      ∧ (transition l new report s).table = (enterState l new s).table := by
  unfold transition
  rw [(onlyReports_traceChange ..).eq, (hr _).eq]
  exact ⟨rfl, rfl⟩

theorem traceChange_reports (l : Line) (left : LineState) (s : State) :
    (traceChange l left s).reports = s.reportsAfter (s.traceEntries l left (s.line l).state) := by
  unfold traceChange State.traceEntries queueLine State.lineEntry
  split <;> rfl

/-- The TRACE entries depend on the watch flag and the own number alone. -/
theorem traceEntries_congr {s t : State} (l : Line) (a b : LineState) (hw : (t.line l).watch = (s.line l).watch)
    (ho : t.own = s.own) : t.traceEntries l a b = s.traceEntries l a b := by
  simp [State.traceEntries, State.lineEntry, hw, ho]

theorem OnlyReports.own {s t : State} (h : OnlyReports s t) : t.own = s.own := by rw [h.eq]; rfl

theorem OnlyReports.profile {s t : State} (h : OnlyReports s t) : t.profile = s.profile := by rw [h.eq]; rfl

/-- The reports of a change of state: those of the transition, then the TRACE of a watched line (R42, log 11). -/
theorem transition_reports (l : Line) (new : LineState) (report : State → State) (s : State)
    (hr : ∀ t, OnlyReports t (report t)) (es : List ReportEntry)
    (he : (report (enterState l new s)).reports = s.reportsAfter es) :
    (transition l new report s).reports = s.reportsAfter (es ++ s.traceEntries l (s.line l).state new) := by
  unfold transition
  rw [traceChange_reports]
  have hs := (hr (enterState l new s)).lines l
  have hst : ((report (enterState l new s)).line l).state = new := by
    rw [hs.fields.1]; simp [LineRecord.entering]
  rw [hst, traceEntries_congr (s := s) (t := report (enterState l new s)) l _ _
    (by rw [hs.fields.2.2.1]; simp [LineRecord.entering]) (by rw [(hr _).own]; simp)]
  exact reportsAfter_then s es _ he

theorem LineMove.own {l : Line} {s t : State} (h : LineMove l s t) : t.own = s.own := by rw [h.eq]; rfl

theorem LineMove.profile {l : Line} {s t : State} (h : LineMove l s t) : t.profile = s.profile := by rw [h.eq]; rfl

/-! ### The moves, each as a path of primitive ones -/

/-- What the moves of one line but RING, REMAP and the ring requests are made of: reports, edits of the record that keep
state, tone, circuit and ring context, tone selections, and changes to a state outside the ring states. -/
inductive LinePath (l : Line) : State → State → Prop
  | refl (s : State) : LinePath l s s
  | report (s : State) (e : ReportEntry) : LinePath l s (s.queueReport e)
  | edit (s : State) (r : LineRecord) (hs : r.state = (s.line l).state) (ht : r.tone = (s.line l).tone)
      (hc : r.circuit = (s.line l).circuit) (hr : r.ring = (s.line l).ring) : LinePath l s (s.setLine l r)
  | tone (s : State) (t : Tone) : LinePath l s (setTone l t s)
  | enter (s : State) (new : LineState) (hn : new.isRing = false) : LinePath l s (enterState l new s)
  | trans {s t u : State} (h : LinePath l s t) (k : LinePath l t u) : LinePath l s u

/-- What a path leaves alone. -/
theorem LinePath.lineMove {l : Line} {s t : State} (h : LinePath l s t) : LineMove l s t := by
  induction h with
  | refl s => exact .refl l s
  | report s e => exact (onlyReports_queueReport s e).lineMove l
  | edit s r hs ht hc hr => exact lineMove_setLine l s r hc fun h => by rw [hs]; exact h
  | tone s t => exact (lineMove_setLine l s { s.line l with tone := t } rfl id).trans (lineMove_recomposeLine ..)
  | enter s new hn => exact lineMove_enterState l new s fun _ => hn
  | trans _ _ h k => exact h.trans k

section Moves
variable (l : Line) (s : State)

theorem linePath_queueLine (code : ReportCode) (m : Line) (v : List Octet) : LinePath l s (queueLine code m v s) :=
  .report s _

theorem linePath_refuse (c r : Octet) : LinePath l s (refuse l c r s) := .report s _

theorem linePath_queueLineState : LinePath l s (queueLineState l s) := by
  unfold queueLineState
  split
  · exact (LinePath.report s _).trans (.edit _ _ rfl rfl rfl rfl)
  · exact .report s _

theorem linePath_traceChange (left : LineState) : LinePath l s (traceChange l left s) := by
  unfold traceChange
  split
  · exact linePath_queueLine ..
  · exact .refl s

theorem linePath_transition (new : LineState) (report : State → State) (hr : ∀ t, LinePath l t (report t))
    (hn : new.isRing = false) : LinePath l s (transition l new report s) :=
  ((LinePath.enter s new hn).trans (hr _)).trans (linePath_traceChange ..)

theorem linePath_setTiming (t : Timing) : LinePath l s (s.setTiming l t) := .edit s _ rfl rfl rfl rfl

theorem linePath_setBlockPending (b : Bool) : LinePath l s (s.setBlockPending l b) := .edit s _ rfl rfl rfl rfl

theorem linePath_setTone (t : Tone) : LinePath l s (setTone l t s) := .tone s t

theorem linePath_handSeizeConfirmed : LinePath l s (handSeizeConfirmed l s) := by
  unfold handSeizeConfirmed
  split
  · split
    · exact linePath_transition _ _ _ _ (fun _ => linePath_queueLine ..) rfl
    iterate 3 exact linePath_transition _ _ _ _ (fun _ => linePath_queueLine ..) rfl
    · exact .refl s
  · exact .refl s

theorem linePath_handTripConfirmed : LinePath l s (handTripConfirmed l s) := by
  unfold handTripConfirmed
  split
  · exact linePath_transition _ _ _ _ (fun _ => linePath_queueLine ..) rfl
  · exact .refl s

theorem linePath_enterIdle (report : State → State) (hr : ∀ t, LinePath l t (report t)) :
    LinePath l s (enterIdle l report s) := by
  have h1 : LinePath l s (transition l .idle report s) := linePath_transition _ _ _ _ hr rfl
  unfold enterIdle
  simp only
  split
  · exact (h1.trans (linePath_setBlockPending ..)).trans
      (linePath_transition _ _ _ _ (fun _ => linePath_queueLine ..) rfl)
  split
  · exact (h1.trans (linePath_transition _ _ _ _ .refl rfl)).trans
      (linePath_handSeizeConfirmed ..)
  · exact h1

theorem linePath_handClearReached : LinePath l s (handClearReached l s) := by
  unfold handClearReached
  split
  · exact linePath_enterIdle _ _ _ fun _ => linePath_queueLine ..
  · exact .refl s

theorem linePath_enterCall (new : LineState) (report : State → State) (hr : ∀ t, LinePath l t (report t))
    (h : new.isRing = false) : LinePath l s (enterCall l new report s) :=
  (linePath_transition _ _ _ _ hr h).trans (linePath_handClearReached ..)

theorem linePath_handDigitEnd : LinePath l s (handDigitEnd l s) := by
  unfold handDigitEnd queueDigit
  split
  · refine (linePath_setTiming l s { (s.line l).timing with pulseCount := 0 }).trans ?_
    split <;> exact linePath_queueLine ..
  · exact .refl s

theorem linePath_handInterdigitTimeout : LinePath l s (handInterdigitTimeout l s) := by
  unfold handInterdigitTimeout
  split
  · split
    · exact linePath_enterCall _ _ _ _ (fun _ => linePath_queueLine ..) rfl
    · exact linePath_enterCall _ _ _ _ (fun _ => linePath_queueLine ..) rfl
    · exact .refl s
  · exact .refl s

theorem linePath_handDialToneTimeout : LinePath l s (handDialToneTimeout l s) := by
  unfold handDialToneTimeout
  split
  · exact linePath_enterCall _ _ _ _ (fun _ => linePath_queueLine ..) rfl
  · exact .refl s

theorem linePath_handRecallTimeout : LinePath l s (handRecallTimeout l s) := by
  unfold handRecallTimeout
  split
  · exact linePath_enterCall _ _ _ _ (fun _ => linePath_queueLine ..) rfl
  · exact .refl s

theorem linePath_handDue : LinePath l s (handDue l s) :=
  ((((((linePath_handDigitEnd l s).trans (linePath_handInterdigitTimeout ..)).trans
    (linePath_handClearReached ..)).trans (linePath_handSeizeConfirmed ..)).trans
    (linePath_handTripConfirmed ..)).trans (linePath_handDialToneTimeout ..)).trans (linePath_handRecallTimeout ..)

theorem linePath_takeOnHook : LinePath l s (takeOnHook l s) := by
  unfold takeOnHook
  split
  · exact .refl s
  · simp only
    split
    · exact (linePath_setTiming ..).trans (linePath_enterIdle _ _ _ .refl)
    · exact (linePath_setTiming ..).trans (linePath_setTone ..)
    · exact (linePath_setTiming ..).trans (linePath_setTone ..)
    · exact linePath_setTiming ..

theorem linePath_takeHit : LinePath l s (takeHit l s) := by
  unfold takeHit
  simp only
  refine LinePath.trans ?_ ((linePath_handDigitEnd ..).trans (linePath_handInterdigitTimeout ..))
  split
  · exact (linePath_setTiming ..).trans (linePath_setTone ..)
  · exact (linePath_setTiming ..).trans (linePath_setTone ..)
  · exact linePath_setTiming ..

theorem linePath_takePulse : LinePath l s (takePulse l s) := by
  unfold takePulse
  simp only
  split
  · split
    · exact (linePath_setTiming ..).trans (linePath_transition _ _ _ _ .refl rfl)
    · exact (linePath_setTiming ..).trans (linePath_transition _ _ _ _ .refl rfl)
    · exact linePath_setTiming ..
  · exact linePath_setTiming ..

theorem linePath_takeFlash : LinePath l s (takeFlash l s) := by
  unfold takeFlash
  simp only
  split
  · exact (linePath_setTiming ..).trans (linePath_transition _ _ _ _ .refl rfl)
  iterate 4
    · exact (linePath_setTiming ..).trans
        (linePath_transition _ _ _ _ (fun _ => linePath_queueLine ..) rfl)
  · exact linePath_setTiming ..

theorem linePath_takeOffHook : LinePath l s (takeOffHook l s) := by
  unfold takeOffHook
  split
  · exact .refl s
  split
  · unfold endBreak
    split
    · exact linePath_takeHit ..
    · exact linePath_takePulse ..
    · exact linePath_takePulse ..
    · exact linePath_takeFlash ..
  · unfold beginHold
    simp only
    split
    · exact (linePath_setTiming ..).trans (linePath_transition _ _ _ _ .refl rfl)
    · exact linePath_setTiming ..

theorem linePath_takeSettle (h : Hook) : LinePath l s (takeSettle l h s) := by
  unfold takeSettle
  split
  · exact .refl s
  · have h1 : LinePath l s (if (s.line l).timing.sense = .none then
        s.setTiming l { (s.line l).timing with sense := senseOf h, edgeCount := 0, heldMake := 0, pulseCount := 0 }
        else s) := by
      split
      · exact linePath_setTiming ..
      · exact .refl s
    simp only
    split
    · exact h1.trans (linePath_enterCall _ _ _ _ (linePath_queueLineState l) rfl)
    · exact h1

theorem linePath_enterFault (cause : Octet) : LinePath l s (enterFault l cause s) := by
  unfold enterFault
  split
  · exact .refl s
  · exact (linePath_setBlockPending ..).trans
      (linePath_transition _ _ _ _ (fun _ => linePath_queueLine ..) rfl)

theorem linePath_returnToService : LinePath l s (returnToService l s) := by
  unfold returnToService
  split
  all_goals
    exact (linePath_setTiming ..).trans
      (linePath_transition _ _ _ _ (linePath_queueLineState l) rfl)

theorem linePath_stopRingLine : LinePath l s (stopRingLine l s) := by
  unfold stopRingLine
  split
  · exact linePath_enterIdle _ _ _ .refl
  · exact .refl s

theorem linePath_connectLine : LinePath l s (connectLine l s) := by
  unfold connectLine
  split
  · exact linePath_enterCall _ _ _ _ .refl rfl
  · exact linePath_refuse ..

theorem linePath_releaseLine : LinePath l s (releaseLine l s) := by
  unfold releaseLine
  split
  iterate 6 exact linePath_enterCall _ _ _ _ .refl rfl
  · exact linePath_stopRingLine ..

theorem linePath_toneLine (t : Tone) : LinePath l s (toneLine t l s) := by
  unfold toneLine
  split
  · exact linePath_setTone ..
  · exact linePath_refuse ..

theorem linePath_blockPoliteLine : LinePath l s (blockPoliteLine l s) := by
  unfold blockPoliteLine
  split
  · exact linePath_transition _ _ _ _ (fun _ => linePath_queueLine ..) rfl
  · exact .refl s
  · exact .refl s
  · exact linePath_setBlockPending ..

theorem linePath_blockForcedLine : LinePath l s (blockForcedLine l s) := by
  unfold blockForcedLine
  split
  · exact .refl s
  · exact (linePath_setBlockPending ..).trans
      (linePath_transition _ _ _ _ (fun _ => linePath_queueLine ..) rfl)

theorem linePath_watchLine (v : Octet) : LinePath l s (watchLine v l s) := .edit s _ rfl rfl rfl rfl

theorem linePath_correctLineRecord : LinePath l s (correctLineRecord l s) := by
  have h : LinePath l s (reportCorrection l s) := by
    unfold reportCorrection
    exact (linePath_queueLine ..).trans (.edit _ _ rfl rfl rfl rfl)
  unfold correctLineRecord
  split
  · exact h.trans (linePath_enterFault ..)
  · exact h

end Moves

end Sys2Proof.Machine
end

