-- ==== Sys2Proof/Laws/RingUnit.lean ====
section
/-! SUPPORT. How the Ring Placement Unit's bookkeeping (`State.RingOk`) is kept: by moves that leave it alone, by a departure
from the ring states, and by each of the unit's own requests. -/

namespace Sys2Proof.Machine

/-! ### Loads -/

theorem sum_split {α : Type} [DecidableEq α] (f : α → Nat) (a : α) (q : List α) (h : q.Nodup) :
    (q.map f).sum = (q.map fun m => if m = a then 0 else f m).sum + if a ∈ q then f a else 0 := by
  induction q with
  | nil => rfl
  | cons x q ih =>
    rw [List.nodup_cons] at h
    simp only [List.map_cons, List.sum_cons, ih h.2, List.mem_cons]
    by_cases hx : x = a
    · subst hx; simp [h.1]; omega
    · simp [hx, Ne.symm hx]; omega

/-- The own row that R87 requires is the row without a line and the line's own load (R124). -/
theorem requiredLoad_split (s : State) (l : Line) (p : Phase) :
    s.requiredLoad p = s.loadWithout l p + (s.line l).loadIn p := by
  have h := sum_split (fun m => (s.line m).loadIn p) l (List.finRange 16) (List.nodup_finRange 16)
  simpa [State.requiredLoad, State.loadWithout] using h

/-- The row without a line depends on the other lines' states and ring contexts alone. -/
theorem loadWithout_congr {s t : State} (l : Line)
    (h : ∀ m, m ≠ l → (t.line m).state = (s.line m).state ∧ (t.line m).ring = (s.line m).ring) (p : Phase) :
    t.loadWithout l p = s.loadWithout l p := by
  unfold State.loadWithout
  congr 1
  refine List.map_congr_left fun m _ => ?_
  by_cases hm : m = l
  · simp [hm]
  · simp only [hm, if_false, LineRecord.loadIn, (h m hm).1, (h m hm).2]

/-- The required row after a change of one line. -/
theorem requiredLoad_change {s t : State} (l : Line)
    (h : ∀ m, m ≠ l → (t.line m).state = (s.line m).state ∧ (t.line m).ring = (s.line m).ring) (p : Phase) :
    t.requiredLoad p + (s.line l).loadIn p = s.requiredLoad p + (t.line l).loadIn p := by
  rw [requiredLoad_split t l, requiredLoad_split s l, loadWithout_congr l h]
  omega

theorem loadIn_of_not_carrying (r : LineRecord) (h : r.state.carriesLoad = false) (p : Phase) : r.loadIn p = 0 := by
  unfold LineRecord.loadIn
  split
  · simp [h]
  · rfl

theorem loadIn_of_carrying {r : LineRecord} {c : RingContext} (h : r.state.carriesLoad = true) (k : r.ring = some c)
    (p : Phase) : r.loadIn p = if inSet (rotatedSet c.code c.offset) p then c.weight else 0 := by
  simp [LineRecord.loadIn, k, h]

theorem carriesLoad_of_not_ring {t : LineState} (h : t.isRing = false) : t.carriesLoad = false := by
  cases t <;> simp_all [LineState.isRing, LineState.carriesLoad]

/-- A cell of the own row is the load of a line and that of the others. -/
theorem State.RingOk.ownRow_split {s : State} (h : s.RingOk) (l : Line) (p : Phase) :
    s.table.ownRow[p] = s.loadWithout l p + (s.line l).loadIn p := by
  rw [h.ownRow, requiredLoad_split s l]

/-! ### Moves that leave the bookkeeping alone -/

/-- The bookkeeping is read from line states, ring contexts, the unit and the own row alone. -/
theorem State.RingOk.congr {s t : State} (h : s.RingOk)
    (hl : ∀ m, (t.line m).state = (s.line m).state ∧ (t.line m).ring = (s.line m).ring)
    (hu : t.ringUnit = s.ringUnit) (hr : t.table.ownRow = s.table.ownRow) : t.RingOk where
  context m := by rw [(hl m).1, (hl m).2]; exact h.context m
  weight m c hc := h.weight m c (by rw [← (hl m).2]; exact hc)
  queued m := by rw [hu, (hl m).1]; exact h.queued m
  queueOnce := by rw [hu]; exact h.queueOnce
  claimed m := by rw [hu, (hl m).1]; exact h.claimed m
  claimLoad c r hc ho hr := h.claimLoad c r (by rw [← hu]; exact hc) ho (by rw [← (hl c.line).2]; exact hr)
  orphanIdle c hc ho := by rw [(hl c.line).1]; exact h.orphanIdle c (by rw [← hu]; exact hc) ho
  ownRow p := by
    have := requiredLoad_change (s := s) (t := t) 0 (fun m _ => hl m) p
    rw [hr, h.ownRow]
    simp only [LineRecord.loadIn, (hl 0).1, (hl 0).2] at this
    omega
  releaseOnce := by rw [hu]; exact h.releaseOnce
  releaseIdle r hr := by rw [(hl r.line).1]; exact h.releaseIdle r (by rw [← hu]; exact hr)
  releaseClaim r hr c hc := h.releaseClaim r (by rw [← hu]; exact hr) c (by rw [← hu]; exact hc)

theorem OnlyReports.ringOk {s t : State} (k : OnlyReports s t) (h : s.RingOk) : t.RingOk :=
  h.congr (fun m => ⟨(k.lines m).fields.1, (k.lines m).fields.2.2.2.2.2.2.1⟩) (by rw [k.eq]) (by rw [k.eq])

/-- A new record with the state and the ring context of the old one. -/
theorem ringOk_setLine {s : State} (h : s.RingOk) (l : Line) (r : LineRecord) (hs : r.state = (s.line l).state)
    (hr : r.ring = (s.line l).ring) : (s.setLine l r).RingOk := by
  refine h.congr (fun m => ?_) rfl rfl
  rw [State.line_setLine]
  split
  · rename_i hm; rw [hm]; exact ⟨hs, hr⟩
  · exact ⟨rfl, rfl⟩

/-! ### Departures from the ring states -/

theorem ring_isSome {s : State} (h : s.RingOk) {l : Line} (hl : (s.line l).state.isRing = true) :
    ∃ c, (s.line l).ring = some c := by
  have := h.context l
  rw [hl] at this
  exact Option.isSome_iff_exists.1 this

/-- A line outside the ring states takes no part in the bookkeeping. -/
theorem State.RingOk.outside {s : State} (h : s.RingOk) {l : Line} (hl : (s.line l).state.isRing = false) :
    (s.line l).ring = none ∧ l ∉ s.ringUnit.queue
      ∧ ∀ c, s.ringUnit.claim = some c → c.line = l → c.status = .orphaned := by
  refine ⟨?_, ?_, ?_⟩
  · have := h.context l
    rw [hl] at this
    simpa using this
  · rw [h.queued]
    intro hq
    simp [hq, LineState.isRing] at hl
  · intro c hc hcl
    by_contra ho
    have := (h.claimed l).2 ⟨c, hc, hcl, ho⟩
    simp [this, LineState.isRing] at hl

/-- The state after a line has taken a state outside the ring states without a ring context, where the unit and the own row
meet these conditions. -/
theorem State.RingOk.depart {s t : State} (h : s.RingOk) (l : Line)
    (hl : ∀ m, m ≠ l → (t.line m).state = (s.line m).state ∧ (t.line m).ring = (s.line m).ring)
    (hs : (t.line l).state.isRing = false) (hr : (t.line l).ring = none)
    (hq : t.ringUnit.queue = s.ringUnit.queue.filter (· ≠ l))
    (hc : ∀ c, t.ringUnit.claim = some c → ∃ c', s.ringUnit.claim = some c' ∧ c'.line = c.line ∧ c'.weight = c.weight
      ∧ c'.set = c.set ∧ (c.line = l → c.status = .orphaned) ∧ (c.line ≠ l → c'.status = c.status))
    (hc' : ∀ c, s.ringUnit.claim = some c → c.line ≠ l → t.ringUnit.claim = some c)
    (hrel : t.ringUnit.releases = s.ringUnit.releases
      ∨ ∃ w set, t.ringUnit.releases = s.ringUnit.releases ++ [⟨l, w, set⟩] ∧ (s.line l).state.carriesLoad = true
        ∧ ∀ c, s.ringUnit.claim = some c → c.line ≠ l)
    (hrow : ∀ p : Phase, t.table.ownRow[p] = s.table.ownRow[p] - (s.line l).loadIn p) : t.RingOk where
  context m := by
    by_cases hm : m = l
    · rw [hm, hs, hr]; rfl
    · rw [(hl m hm).1, (hl m hm).2]; exact h.context m
  weight m c hmc := by
    by_cases hm : m = l
    · rw [hm, hr] at hmc; simp at hmc
    · exact h.weight m c (by rw [← (hl m hm).2]; exact hmc)
  queued m := by
    rw [hq]
    by_cases hm : m = l
    · subst hm
      simp only [List.mem_filter, ne_eq, decide_not, Bool.not_eq_true', decide_eq_false_iff_not, not_true_eq_false,
        and_false, false_iff]
      intro hx; simp [hx, LineState.isRing] at hs
    · simp only [List.mem_filter, ne_eq, hm, not_false_eq_true, decide_true, and_true, (hl m hm).1]
      exact h.queued m
  queueOnce := by rw [hq]; exact h.queueOnce.filter _
  claimed m := by
    by_cases hm : m = l
    · subst hm
      constructor
      · intro hx; simp [hx, LineState.isRing] at hs
      · rintro ⟨c, hcc, hcl, ho⟩
        obtain ⟨-, -, -, -, -, h1, -⟩ := hc c hcc
        exact absurd (h1 hcl) ho
    · rw [(hl m hm).1, h.claimed m]
      constructor
      · rintro ⟨c, hcc, hcl, ho⟩
        exact ⟨c, hc' c hcc (by rw [hcl]; exact hm), hcl, ho⟩
      · rintro ⟨c, hcc, hcl, ho⟩
        obtain ⟨c', h1, h2, -, -, -, h3⟩ := hc c hcc
        exact ⟨c', h1, h2.trans hcl, by rw [h3 (by rw [hcl]; exact hm)]; exact ho⟩
  claimLoad c r hcc ho hcr := by
    obtain ⟨c', h1, h2, h3, h4, h5, h6⟩ := hc c hcc
    have hne : c.line ≠ l := fun hx => ho (h5 hx)
    have := h.claimLoad c' r h1 (by rw [h6 hne]; exact ho) (by rw [h2, ← (hl c.line hne).2]; exact hcr)
    rw [← h3, ← h4]; exact this
  orphanIdle c hcc ho := by
    obtain ⟨c', h1, h2, -, -, -, h6⟩ := hc c hcc
    by_cases hx : c.line = l
    · rw [hx]; exact carriesLoad_of_not_ring hs
    · rw [(hl c.line hx).1, ← h2]
      exact h.orphanIdle c' h1 (by rw [h6 hx]; exact ho)
  ownRow p := by
    have h1 := requiredLoad_change l hl p
    rw [loadIn_of_not_carrying (t.line l) (carriesLoad_of_not_ring hs), Nat.add_zero] at h1
    rw [hrow, h.ownRow]; omega
  releaseOnce := by
    rcases hrel with hrel | ⟨w, set, hrel, hcar, -⟩
    · rw [hrel]; exact h.releaseOnce
    · rw [hrel, List.map_append, List.nodup_append]
      refine ⟨h.releaseOnce, by simp, ?_⟩
      intro a ha b hb
      simp only [List.map_cons, List.map_nil, List.mem_singleton] at hb
      obtain ⟨r, hr1, rfl⟩ := List.mem_map.1 ha
      intro hab
      have := h.releaseIdle r hr1
      rw [hab, hb, hcar] at this
      simp at this
  releaseIdle r hrr := by
    by_cases hx : r.line = l
    · rw [hx]; exact carriesLoad_of_not_ring hs
    · rw [(hl _ hx).1]
      apply h.releaseIdle
      rcases hrel with hrel | ⟨w, set, hrel, -, -⟩
      · rw [← hrel]; exact hrr
      · rw [hrel] at hrr
        rcases List.mem_append.1 hrr with h1 | h1
        · exact h1
        · simp only [List.mem_singleton] at h1
          rw [h1] at hx; simp at hx
  releaseClaim r hrr c hcc := by
    obtain ⟨c', h1, h2, -⟩ := hc c hcc
    rw [← h2]
    rcases hrel with hrel | ⟨w, set, hrel, -, hne⟩
    · exact h.releaseClaim r (by rw [← hrel]; exact hrr) c' h1
    · rw [hrel] at hrr
      rcases List.mem_append.1 hrr with h3 | h3
      · exact h.releaseClaim r h3 c' h1
      · simp only [List.mem_singleton] at h3
        rw [h3]; exact hne c' h1

/-- The ring-leave notice of a line in a ring state keeps the bookkeeping (R120 to R123). -/
theorem State.RingOk.leave {s t : State} (h : s.RingOk) (l : Line)
    (hl : ∀ m, m ≠ l → (t.line m).state = (s.line m).state ∧ (t.line m).ring = (s.line m).ring)
    (hring : (s.line l).state.isRing = true)
    (hs : (t.line l).state.isRing = false) (hr : (t.line l).ring = none)
    (hu : t.ringUnit = (s.ringLeave l (s.line l).state (s.line l).ring).ringUnit)
    (hrow : t.table.ownRow = (s.ringLeave l (s.line l).state (s.line l).ring).table.ownRow) : t.RingOk := by
  obtain ⟨c, hc⟩ := ring_isSome h hring
  have hnotq : (s.line l).state ≠ .ringQueued → s.ringUnit.queue.filter (· ≠ l) = s.ringUnit.queue := by
    intro hne
    rw [List.filter_eq_self]
    intro m hm
    have : m ≠ l := by rintro rfl; exact hne ((h.queued _).1 hm)
    simpa using this
  have hload : ∀ {x : LineState}, (s.line l).state = x → x.carriesLoad = true → ∀ p : Phase,
      (s.line l).loadIn p = if inSet (rotatedSet c.code c.offset) p then c.weight else 0 := by
    intro x hx hcar p
    exact loadIn_of_carrying (by rw [hx]; exact hcar) hc p
  rw [hc] at hu hrow
  cases hst : (s.line l).state <;> simp [hst, LineState.isRing] at hring
  case ringQueued =>
    rw [hst] at hu hrow
    simp only [State.ringLeave, State.unqueue_eq, State.setRingUnit_ringUnit, State.setRingUnit_table] at hu hrow
    refine h.depart l hl hs hr (by rw [hu]) (fun d hd => ?_) (fun d hd _ => by rw [hu]; exact hd)
      (.inl (by rw [hu])) (fun p => ?_)
    · rw [hu] at hd
      refine ⟨d, hd, rfl, rfl, rfl, fun hdl => ?_, fun _ => rfl⟩
      by_contra ho
      have := (h.claimed l).2 ⟨d, hd, hdl, ho⟩
      rw [hst] at this; simp at this
    · rw [hrow, loadIn_of_not_carrying _ (by rw [hst]; rfl)]; rfl
  case ringClaiming =>
    obtain ⟨d, hd, hdl, hdo⟩ := (h.claimed l).1 hst
    obtain ⟨hw, hset⟩ := h.claimLoad d c hd hdo (by rw [hdl]; exact hc)
    rw [hst] at hu hrow
    simp only [State.ringLeave, State.leaveClaim, hd, hdl, if_true] at hu hrow
    have hrow' : ∀ p : Phase, t.table.ownRow[p] = s.table.ownRow[p] - (s.line l).loadIn p := by
      intro p
      rw [hload hst rfl p, hrow]
      cases hds : d.status <;> simp_all
    refine h.depart l hl hs hr ?_ (fun e he => ?_) (fun e he hne => ?_) (.inl ?_) hrow'
    · rw [hnotq (by rw [hst]; simp), hu]
      cases hds : d.status <;> simp_all
    · rw [hu] at he
      cases hds : d.status
      · simp [hds] at he
      · simp only [hds, State.setClaim_eq, State.setRingUnit_ringUnit, Option.some.injEq] at he
        subst he
        exact ⟨d, hd, hdl, rfl, rfl, fun _ => rfl, fun hne => absurd rfl hne⟩
      · exact absurd hds hdo
    · rw [hd] at he
      obtain rfl : d = e := by simpa using he
      exact absurd hdl hne
    · rw [hu]
      cases hds : d.status <;> simp_all
  all_goals
    rw [hst] at hu hrow
    simp only [State.ringLeave, State.leaveLoad, State.appendRelease_eq, State.removeOwnLoad_eq,
      State.setRingUnit_ringUnit, State.setRingUnit_table, State.setOwnRow_ringUnit, State.setOwnRow_table] at hu hrow
    have hne : ∀ d, s.ringUnit.claim = some d → d.line ≠ l := by
      intro d hd hdl
      by_cases ho : d.status = .orphaned
      · have := h.orphanIdle d hd ho
        rw [hdl, hst] at this; simp [LineState.carriesLoad] at this
      · have := (h.claimed l).2 ⟨d, hd, hdl, ho⟩
        rw [hst] at this; simp at this
    refine h.depart l hl hs hr ?_ (fun d hd => ?_) (fun d hd _ => by rw [hu]; exact hd)
      (.inr ⟨c.weight, rotatedSet c.code c.offset, by rw [hu], by rw [hst]; rfl, hne⟩) (fun p => ?_)
    · rw [hnotq (by rw [hst]; simp), hu]
    · rw [hu] at hd
      exact ⟨d, hd, rfl, rfl, rfl, fun hdl => absurd hdl (hne d hd), fun _ => rfl⟩
    · rw [hload hst rfl p, hrow, getElem_removeLoad]

/-- A change of state that ends outside the ring states keeps the bookkeeping. -/
theorem ringOk_enterState {s : State} (h : s.RingOk) (l : Line) (new : LineState) (hn : new.isRing = false) :
    (enterState l new s).RingOk := by
  have hl : ∀ m, m ≠ l → ((enterState l new s).line m).state = (s.line m).state
      ∧ ((enterState l new s).line m).ring = (s.line m).ring := by
    intro m hm
    rw [enterState_line, if_neg hm]
    exact ⟨rfl, rfl⟩
  have hs : ((enterState l new s).line l).state.isRing = false := by simpa [LineRecord.entering] using hn
  have hr : ((enterState l new s).line l).ring = none := by simp [LineRecord.entering, hn]
  cases hring : (s.line l).state.isRing
  · obtain ⟨hu, hrow⟩ := enterState_ring_of_not_leaving l new s (.inl hring)
    obtain ⟨-, hq, ho⟩ := h.outside hring
    have hf : s.ringUnit.queue.filter (· ≠ l) = s.ringUnit.queue := by
      rw [List.filter_eq_self]
      intro m hm
      have : m ≠ l := by rintro rfl; exact hq hm
      simpa using this
    refine h.depart l hl hs hr (by rw [hu, hf]) (fun c hc => ?_) (fun c hc _ => by rw [hu]; exact hc)
      (.inl (by rw [hu])) (fun p => ?_)
    · rw [hu] at hc
      exact ⟨c, hc, rfl, rfl, rfl, ho c hc, fun _ => rfl⟩
    · rw [hrow, loadIn_of_not_carrying _ (carriesLoad_of_not_ring hring)]; rfl
  · obtain ⟨hu, hrow⟩ := enterState_ring_of_leaving l new s hring hn
    exact h.leave l hl hring hs hr hu (by rw [hrow])

/-- A change of state with its reports that ends outside the ring states keeps the bookkeeping. -/
theorem ringOk_transition {s : State} (h : s.RingOk) (l : Line) (new : LineState) (report : State → State)
    (hr : ∀ t, OnlyReports t (report t)) (hn : new.isRing = false) : (transition l new report s).RingOk :=
  (onlyReports_traceChange ..).ringOk ((hr _).ringOk (ringOk_enterState h l new hn))

/-! ### Moves of one line -/

/-- Every path of one line keeps the bookkeeping. -/
theorem LinePath.ringOk {l : Line} {s t : State} (k : LinePath l s t) (h : s.RingOk) : t.RingOk := by
  induction k with
  | refl s => exact h
  | report s e => exact (onlyReports_queueReport s e).ringOk h
  | edit s r hs ht hc hr => exact ringOk_setLine h l r hs hr
  | tone s t =>
    refine (ringOk_setLine h l { s.line l with tone := t } rfl rfl).congr (fun m => ?_) ?_ ?_
    · rw [State.line_congr (t := setTone l t s) (s := s.setLine l { s.line l with tone := t })
        (by simp only [setTone]; rw [recomposeLine_eq])]
      exact ⟨rfl, rfl⟩
    · simp only [setTone]; rw [recomposeLine_eq]
    · simp only [setTone]; rw [recomposeLine_eq]
  | enter s new hn => exact ringOk_enterState h l new hn
  | trans _ _ ih1 ih2 => exact ih2 (ih1 h)

/-! ### The unit's own requests -/

/-- The other lines, and the unit, after a change between ring states. -/
theorem transition_others (l m : Line) (new : LineState) (s : State) (hm : m ≠ l) :
    (transition l new id s).line m = s.line m := by
  simp [transition, enterState_line, hm]

theorem transition_id_line (l : Line) (new : LineState) (s : State) :
    (transition l new id s).line l = (s.line l).entering new := by
  simp [transition]

theorem transition_id_ring (l : Line) (new : LineState) (s : State)
    (h : (s.line l).state.isRing = false ∨ new.isRing = true) :
    (transition l new id s).ringUnit = s.ringUnit ∧ (transition l new id s).table = s.table := by
  obtain ⟨a, b⟩ := transition_ring l new id s onlyReports_id
  obtain ⟨c, d⟩ := enterState_ring_of_not_leaving l new s h
  exact ⟨a.trans c, b.trans d⟩

/-- A line's own load after an edit of one line: the required row where neither record carries load. -/
theorem requiredLoad_same {s t : State} (l : Line)
    (h : ∀ m, m ≠ l → (t.line m).state = (s.line m).state ∧ (t.line m).ring = (s.line m).ring)
    (hload : ∀ p, (t.line l).loadIn p = (s.line l).loadIn p) (p : Phase) : t.requiredLoad p = s.requiredLoad p := by
  have := requiredLoad_change l h p
  rw [hload] at this
  omega

/-- An idle line enters RING QUEUED with a context and is entered in the ring queue (R55, R109). -/
theorem State.RingOk.enqueue {s t : State} (h : s.RingOk) (l : Line) (c : RingContext)
    (hl : ∀ m, m ≠ l → (t.line m).state = (s.line m).state ∧ (t.line m).ring = (s.line m).ring)
    (hs : (t.line l).state = .ringQueued) (hr : (t.line l).ring = some c) (hw : 1 ≤ c.weight ∧ c.weight ≤ 15)
    (hnot : l ∉ s.ringUnit.queue) (hq : ∀ m, m ∈ t.ringUnit.queue ↔ m = l ∨ m ∈ s.ringUnit.queue)
    (hnd : t.ringUnit.queue.Nodup)
    (hc : ∀ d, t.ringUnit.claim = some d ↔ s.ringUnit.claim = some d ∧ (d.line ≠ l ∨ d.status = .orphaned))
    (hrel : t.ringUnit.releases = s.ringUnit.releases
      ∨ ∃ w set, t.ringUnit.releases = s.ringUnit.releases ++ [⟨l, w, set⟩] ∧ (∀ r ∈ s.ringUnit.releases, r.line ≠ l)
        ∧ t.ringUnit.claim = none)
    (hrow : ∀ p : Phase, t.table.ownRow[p] = s.table.ownRow[p] - (s.line l).loadIn p) : t.RingOk where
  context m := by
    by_cases hm : m = l
    · rw [hm, hs, hr]; rfl
    · rw [(hl m hm).1, (hl m hm).2]; exact h.context m
  weight m d hd := by
    by_cases hm : m = l
    · rw [hm, hr] at hd
      obtain rfl : c = d := by simpa using hd
      exact hw
    · exact h.weight m d (by rw [← (hl m hm).2]; exact hd)
  queued m := by
    rw [hq]
    by_cases hm : m = l
    · simp [hm, hs]
    · rw [(hl m hm).1, ← h.queued]; simp [hm]
  queueOnce := hnd
  claimed m := by
    by_cases hm : m = l
    · subst hm
      rw [hs]
      constructor
      · intro hx; simp at hx
      · rintro ⟨d, hd, hdl, ho⟩
        rcases ((hc d).1 hd).2 with h1 | h1
        · exact absurd hdl h1
        · exact absurd h1 ho
    · rw [(hl m hm).1, h.claimed m]
      constructor
      · rintro ⟨d, hd, hdl, ho⟩
        exact ⟨d, (hc d).2 ⟨hd, .inl (by rw [hdl]; exact hm)⟩, hdl, ho⟩
      · rintro ⟨d, hd, hdl, ho⟩
        exact ⟨d, ((hc d).1 hd).1, hdl, ho⟩
  claimLoad d r hd ho hdr := by
    obtain ⟨h1, h2⟩ := (hc d).1 hd
    have hne : d.line ≠ l := h2.resolve_right ho
    exact h.claimLoad d r h1 ho (by rw [← (hl _ hne).2]; exact hdr)
  orphanIdle d hd ho := by
    obtain ⟨h1, -⟩ := (hc d).1 hd
    by_cases hx : d.line = l
    · rw [hx, hs]; rfl
    · rw [(hl _ hx).1]; exact h.orphanIdle d h1 ho
  ownRow p := by
    have h1 := requiredLoad_change l hl p
    rw [loadIn_of_not_carrying (t.line l) (by rw [hs]; rfl), Nat.add_zero] at h1
    rw [hrow, h.ownRow]; omega
  releaseOnce := by
    rcases hrel with hrel | ⟨w, set, hrel, hno, -⟩
    · rw [hrel]; exact h.releaseOnce
    · rw [hrel, List.map_append, List.nodup_append]
      refine ⟨h.releaseOnce, by simp, ?_⟩
      intro a ha b hb hab
      simp only [List.map_cons, List.map_nil, List.mem_singleton] at hb
      obtain ⟨r, hr1, rfl⟩ := List.mem_map.1 ha
      exact hno r hr1 (hab.trans hb)
  releaseIdle r hrr := by
    by_cases hx : r.line = l
    · rw [hx, hs]; rfl
    · rw [(hl _ hx).1]
      apply h.releaseIdle
      rcases hrel with hrel | ⟨w, set, hrel, -, -⟩
      · rw [← hrel]; exact hrr
      · rw [hrel] at hrr
        rcases List.mem_append.1 hrr with h1 | h1
        · exact h1
        · simp only [List.mem_singleton] at h1
          rw [h1] at hx; simp at hx
  releaseClaim r hrr d hd := by
    rcases hrel with hrel | ⟨w, set, -, -, hno⟩
    · exact h.releaseClaim r (by rw [← hrel]; exact hrr) d ((hc d).1 hd).1
    · rw [hno] at hd; simp at hd

/-- The ring queue after an entry (R109). -/
theorem mem_afterPriority (s : State) (l m : Line) (q : List Line) : m ∈ s.afterPriority l q ↔ m = l ∨ m ∈ q := by
  have h := List.takeWhile_append_dropWhile (p := s.isPriority) (l := q)
  constructor
  · intro hm
    simp only [State.afterPriority, List.mem_append, List.mem_cons] at hm
    rw [← h, List.mem_append]
    tauto
  · intro hm
    rw [← h, List.mem_append] at hm
    simp only [State.afterPriority, List.mem_append, List.mem_cons]
    tauto

theorem nodup_afterPriority (s : State) (l : Line) (q : List Line) (hq : q.Nodup) (hl : l ∉ q) :
    (s.afterPriority l q).Nodup := by
  have h : (s.afterPriority l q).Perm (l :: q) := by
    unfold State.afterPriority
    refine List.perm_middle.trans (List.Perm.cons l ?_)
    rw [List.takeWhile_append_dropWhile]
  exact h.nodup_iff.2 (List.nodup_cons.2 ⟨hl, hq⟩)

theorem queueNew_spec (s : State) (l : Line) :
    s.queueNew l = s.setRingUnit { s.ringUnit with queue := (s.queueNew l).ringUnit.queue }
      ∧ (∀ m, m ∈ (s.queueNew l).ringUnit.queue ↔ m = l ∨ m ∈ s.ringUnit.queue)
      ∧ (s.ringUnit.queue.Nodup → l ∉ s.ringUnit.queue → (s.queueNew l).ringUnit.queue.Nodup) := by
  refine ⟨rfl, fun m => ?_, fun hq hl => ?_⟩
  · simp only [State.queueNew, State.setRingUnit_ringUnit]
    split
    · exact mem_afterPriority ..
    · simp [or_comm]
  · simp only [State.queueNew, State.setRingUnit_ringUnit]
    split
    · exact nodup_afterPriority s l _ hq hl
    · simpa [List.nodup_append, hq] using fun a ha => by rintro rfl; exact hl ha

theorem queueAtHead_spec (s : State) (l : Line) :
    s.queueAtHead l = s.setRingUnit { s.ringUnit with queue := (s.queueAtHead l).ringUnit.queue }
      ∧ (∀ m, m ∈ (s.queueAtHead l).ringUnit.queue ↔ m = l ∨ m ∈ s.ringUnit.queue)
      ∧ (s.ringUnit.queue.Nodup → l ∉ s.ringUnit.queue → (s.queueAtHead l).ringUnit.queue.Nodup) := by
  refine ⟨rfl, fun m => ?_, fun hq hl => ?_⟩
  · simp only [State.queueAtHead, State.setRingUnit_ringUnit]
    split
    · simp
    · exact mem_afterPriority ..
  · simp only [State.queueAtHead, State.setRingUnit_ringUnit]
    split
    · exact List.nodup_cons.2 ⟨hl, hq⟩
    · exact nodup_afterPriority s l _ hq hl

/-- A ring context that a RING creates has a weight of 1..15 (R55). -/
theorem ringContextOf_weight (p1 p2 : Octet) :
    1 ≤ (ringContextOf p1 p2).weight ∧ (ringContextOf p1 p2).weight ≤ 15 := by
  have := p2.isLt
  have h : (ringContextOf p1 p2).weight = if p2.toNat / 16 = 0 then 1 else p2.toNat / 16 := rfl
  rw [h]
  split <;> omega

/-- Taking a RING up to its queue entry keeps the bookkeeping (R55, R109). -/
theorem ringOk_ringRequest {s : State} (h : s.RingOk) (l : Line) (c : RingContext)
    (hw : 1 ≤ c.weight ∧ c.weight ≤ 15) (hi : (s.line l).state = .idle) :
    ((transition l .ringQueued id (s.setRing l c)).queueNew l).RingOk := by
  have hir : (s.line l).state.isRing = false := by rw [hi]; rfl
  obtain ⟨-, hq, ho⟩ := h.outside hir
  have hid : ((s.setRing l c).line l).state.isRing = false := by simpa using hir
  obtain ⟨hu, ht⟩ := transition_id_ring l .ringQueued (s.setRing l c) (.inl hid)
  obtain ⟨he, hm, hn⟩ := queueNew_spec (transition l .ringQueued id (s.setRing l c)) l
  rw [hu] at hm hn
  have hline : ∀ m, ((transition l .ringQueued id (s.setRing l c)).queueNew l).line m
      = (transition l .ringQueued id (s.setRing l c)).line m := fun m => by rw [he]; rfl
  have hunit : ((transition l .ringQueued id (s.setRing l c)).queueNew l).ringUnit.claim = s.ringUnit.claim
      ∧ ((transition l .ringQueued id (s.setRing l c)).queueNew l).ringUnit.releases = s.ringUnit.releases := by
    rw [he, State.setRingUnit_ringUnit, hu]
    exact ⟨rfl, rfl⟩
  have hrow : ((transition l .ringQueued id (s.setRing l c)).queueNew l).table = s.table := by
    rw [he, State.setRingUnit_table, ht]
    rfl
  refine h.enqueue l c (fun m hml => ?_) ?_ ?_ hw hq hm (hn h.queueOnce hq) (fun d => ?_) (.inl hunit.2) (fun p => ?_)
  · rw [hline, transition_others _ _ _ _ hml]; simp [hml]
  · rw [hline, transition_id_line]; rfl
  · rw [hline, transition_id_line]; simp [LineRecord.entering, LineState.isRing]
  · rw [hunit.1]
    constructor
    · intro hd
      by_cases hx : d.line = l
      · exact ⟨hd, .inr (ho d hd hx)⟩
      · exact ⟨hd, .inl hx⟩
    · exact And.left
  · rw [hrow, loadIn_of_not_carrying _ (carriesLoad_of_not_ring hir)]
    rfl

/-- The placement of a queued line, up to its claim, keeps the bookkeeping where no claim is in flight and nothing is to
release (R111, R115). -/
theorem ringOk_placed {s : State} (h : s.RingOk) (l : Line) (o : Phase) (c : RingContext)
    (hl : (s.line l).state = .ringQueued) (hc : (s.line l).ring = some c) (hcl : s.ringUnit.claim = none)
    (hre : s.ringUnit.releases = []) :
    (transition l .ringClaiming id ((((s.unqueue l).setRing l { c with offset := o }).addOwnLoad c.weight
      (rotatedSet c.code o)).setClaim (some ⟨l, c.weight, rotatedSet c.code o, .pending⟩))).RingOk := by
  generalize hs1 : ((((s.unqueue l).setRing l { c with offset := o }).addOwnLoad c.weight
      (rotatedSet c.code o)).setClaim (some ⟨l, c.weight, rotatedSet c.code o, .pending⟩)) = s1
  obtain ⟨hu, ht⟩ := transition_id_ring l .ringClaiming s1 (.inr rfl)
  have hu1 : s1.ringUnit = ⟨s.ringUnit.queue.filter (· ≠ l), some ⟨l, c.weight, rotatedSet c.code o, .pending⟩, []⟩ := by
    rw [← hs1]; simp [hre]
  have hrow : ∀ p : Phase, s1.table.ownRow[p]
      = s.table.ownRow[p] + (if inSet (rotatedSet c.code o) p then c.weight else 0) := by
    intro p; rw [← hs1]; simp
  have hother : ∀ m, m ≠ l → (transition l .ringClaiming id s1).line m = s.line m := by
    intro m hm; rw [transition_others _ _ _ _ hm, ← hs1]; simp [hm]
  have hself : (transition l .ringClaiming id s1).line l
      = (({ s.line l with ring := some { c with offset := o } } : LineRecord)).entering .ringClaiming := by
    rw [transition_id_line, ← hs1]; simp
  have hst : ((transition l .ringClaiming id s1).line l).state = .ringClaiming := by rw [hself]; rfl
  have hring : ((transition l .ringClaiming id s1).line l).ring = some { c with offset := o } := by rw [hself]; rfl
  refine
    { context := fun m => ?_, weight := fun m d hd => ?_, queued := fun m => ?_, queueOnce := ?_, claimed := fun m => ?_
      claimLoad := fun d r hd ho hr => ?_, orphanIdle := fun d hd ho => ?_, ownRow := fun p => ?_, releaseOnce := ?_
      releaseIdle := fun r hr => ?_, releaseClaim := fun r hr => ?_ }
  · by_cases hm : m = l
    · rw [hm, hst, hring]; rfl
    · rw [hother m hm]; exact h.context m
  · by_cases hm : m = l
    · rw [hm, hring] at hd
      obtain rfl : ({ c with offset := o } : RingContext) = d := by simpa using hd
      exact h.weight l c hc
    · exact h.weight m d (by rw [← hother m hm]; exact hd)
  · rw [hu, hu1]
    by_cases hm : m = l
    · simp [hm, hst]
    · rw [hother m hm]; simpa [hm] using h.queued m
  · rw [hu, hu1]; exact h.queueOnce.filter _
  · rw [hu, hu1]
    by_cases hm : m = l
    · simp [hm, hst]
    · rw [hother m hm, h.claimed m, hcl]
      simp [Ne.symm hm]
  · rw [hu, hu1] at hd
    obtain rfl : (⟨l, c.weight, rotatedSet c.code o, .pending⟩ : Claim) = d := by simpa using hd
    rw [hring] at hr
    obtain rfl : ({ c with offset := o } : RingContext) = r := by simpa using hr
    exact ⟨rfl, rfl⟩
  · rw [hu, hu1] at hd
    obtain rfl : (⟨l, c.weight, rotatedSet c.code o, .pending⟩ : Claim) = d := by simpa using hd
    simp at ho
  · have h1 := requiredLoad_change (s := s) (t := transition l .ringClaiming id s1) l
      (fun m hm => by rw [hother m hm]; exact ⟨rfl, rfl⟩) p
    rw [loadIn_of_not_carrying (s.line l) (by rw [hl]; rfl), loadIn_of_carrying (by rw [hst]; rfl) hring] at h1
    rw [ht, hrow, h.ownRow]
    simpa using h1.symm
  · rw [hu, hu1]; exact .nil
  · rw [hu, hu1] at hr; simp at hr
  · rw [hu, hu1] at hr; simp at hr

/-- A change between ring states in which the line carries its load before and after, the unit and own row standing. -/
theorem ringOk_carried {s : State} (h : s.RingOk) (l : Line) (new : LineState) (u : RingUnit)
    (hc : (s.line l).state.carriesLoad = true) (hn : new.carriesLoad = true) (hn2 : new ≠ .ringClaiming)
    (hu1 : u.queue = s.ringUnit.queue) (hu2 : u.releases = s.ringUnit.releases)
    (hu3 : ∀ d, u.claim = some d → s.ringUnit.claim = some d ∧ d.line ≠ l)
    (hu4 : ∀ d, s.ringUnit.claim = some d → d.line ≠ l → u.claim = some d)
    (hrel : ∀ r ∈ s.ringUnit.releases, r.line ≠ l) :
    (transition l new id (s.setRingUnit u)).RingOk := by
  have hnr : new.isRing = true := by cases new <;> simp_all [LineState.carriesLoad, LineState.isRing]
  have hlr : (s.line l).state.isRing = true := by
    revert hc; cases (s.line l).state <;> simp [LineState.carriesLoad, LineState.isRing]
  obtain ⟨hu, ht⟩ := transition_id_ring l new (s.setRingUnit u) (.inr hnr)
  obtain ⟨c, hring⟩ := ring_isSome h hlr
  have hother : ∀ m, m ≠ l → (transition l new id (s.setRingUnit u)).line m = s.line m := by
    intro m hm; rw [transition_others _ _ _ _ hm]; rfl
  have hst : ((transition l new id (s.setRingUnit u)).line l).state = new := by rw [transition_id_line]; rfl
  have hr : ((transition l new id (s.setRingUnit u)).line l).ring = some c := by
    rw [transition_id_line]; simp [LineRecord.entering, hnr, hring]
  simp only [State.setRingUnit_ringUnit] at hu
  refine
    { context := fun m => ?_, weight := fun m d hd => ?_, queued := fun m => ?_, queueOnce := ?_, claimed := fun m => ?_
      claimLoad := fun d r hd ho hr' => ?_, orphanIdle := fun d hd ho => ?_, ownRow := fun p => ?_, releaseOnce := ?_
      releaseIdle := fun r hr' => ?_, releaseClaim := fun r hr' d hd => ?_ }
  · by_cases hm : m = l
    · rw [hm, hst, hr, hnr]; rfl
    · rw [hother m hm]; exact h.context m
  · by_cases hm : m = l
    · rw [hm, hr] at hd; exact h.weight l d (by rw [hring]; exact hd)
    · exact h.weight m d (by rw [← hother m hm]; exact hd)
  · rw [hu, hu1, h.queued]
    by_cases hm : m = l
    · rw [hm, hst]
      constructor
      · intro hx; rw [hx] at hc; simp [LineState.carriesLoad] at hc
      · intro hx; rw [hx] at hn; simp [LineState.carriesLoad] at hn
    · rw [hother m hm]
  · rw [hu, hu1]; exact h.queueOnce
  · rw [hu]
    by_cases hm : m = l
    · rw [hm, hst]
      constructor
      · intro hx; exact absurd hx hn2
      · rintro ⟨d, hd, hdl, -⟩; exact absurd hdl (hu3 d hd).2
    · rw [hother m hm, h.claimed m]
      constructor
      · rintro ⟨d, hd, hdl, ho⟩; exact ⟨d, hu4 d hd (by rw [hdl]; exact hm), hdl, ho⟩
      · rintro ⟨d, hd, hdl, ho⟩; exact ⟨d, (hu3 d hd).1, hdl, ho⟩
  · rw [hu] at hd
    obtain ⟨h1, h2⟩ := hu3 d hd
    exact h.claimLoad d r h1 ho (by rw [← hother _ h2]; exact hr')
  · rw [hu] at hd
    obtain ⟨h1, h2⟩ := hu3 d hd
    rw [hother _ h2]; exact h.orphanIdle d h1 ho
  · rw [ht, requiredLoad_same (s := s) l (fun m hm => by rw [hother m hm]; exact ⟨rfl, rfl⟩) (fun q => by
      rw [loadIn_of_carrying hc hring, loadIn_of_carrying (by rw [hst]; exact hn) hr])]
    exact h.ownRow p
  · rw [hu, hu2]; exact h.releaseOnce
  · rw [hu, hu2] at hr'
    have hx := hrel r hr'
    rw [hother _ hx]
    exact h.releaseIdle r hr'
  · rw [hu, hu2] at hr'
    rw [hu] at hd
    exact h.releaseClaim r hr' d (hu3 d hd).1

/-- The claim in flight ends: its line is armed (R117). -/
theorem ringOk_confirmed {s : State} (h : s.RingOk) (c : Claim) (hc : s.ringUnit.claim = some c)
    (hl : (s.line c.line).state = .ringClaiming) :
    (transition c.line .ringArmed id (s.setClaim none)).RingOk := by
  refine ringOk_carried h c.line .ringArmed _ (by rw [hl]; rfl) rfl (by simp) rfl rfl (by simp) (fun d hd hne => ?_)
    (fun r hr => ?_)
  · rw [hc] at hd
    obtain rfl : c = d := by simpa using hd
    exact absurd rfl hne
  · exact (h.releaseClaim r hr c hc).symm

/-- An armed line starts ringing (R81). -/
theorem ringOk_started {s : State} (h : s.RingOk) (l : Line) (hl : (s.line l).state = .ringArmed) :
    (transition l .ringing id s).RingOk := by
  have hcar : (s.line l).state.carriesLoad = true := by rw [hl]; rfl
  have hk := ringOk_carried h l .ringing s.ringUnit hcar rfl (by simp) rfl rfl (fun d hd => ⟨hd, ?_⟩)
    (fun d hd _ => hd) (fun r hr hrl => ?_)
  · exact hk
  · rintro hdl
    by_cases ho : d.status = .orphaned
    · have := h.orphanIdle d hd ho
      rw [hdl, hcar] at this; simp at this
    · have := (h.claimed l).2 ⟨d, hd, hdl, ho⟩
      rw [hl] at this; simp at this
  · have := h.releaseIdle r hr
    rw [hrl, hcar] at this; simp at this

/-- A claim that fails validation (R118). -/
theorem ringOk_withdrawn {s : State} (h : s.RingOk) (c : Claim) (ctx : RingContext)
    (hc : s.ringUnit.claim = some c) (hl : (s.line c.line).state = .ringClaiming)
    (hctx : (s.line c.line).ring = some ctx) :
    ((transition c.line .ringQueued id ((((s.removeOwnLoad c.weight c.set).appendRelease
      ⟨c.line, c.weight, c.set⟩).setClaim none).setRing c.line { ctx with offset := 0 })).queueAtHead c.line).RingOk := by
  generalize hs1 : ((((s.removeOwnLoad c.weight c.set).appendRelease ⟨c.line, c.weight, c.set⟩).setClaim none).setRing
    c.line { ctx with offset := 0 }) = s1
  have ho : c.status ≠ .orphaned := by
    obtain ⟨d, hd, -, hdo⟩ := (h.claimed _).1 hl
    rw [hc] at hd
    obtain rfl : c = d := by simpa using hd
    exact hdo
  obtain ⟨hw, hset⟩ := h.claimLoad c ctx hc ho hctx
  obtain ⟨hu, ht⟩ := transition_id_ring c.line .ringQueued s1 (.inr rfl)
  obtain ⟨he, hm, hn⟩ := queueAtHead_spec (transition c.line .ringQueued id s1) c.line
  have hu1 : s1.ringUnit = ⟨s.ringUnit.queue, none, s.ringUnit.releases ++ [⟨c.line, c.weight, c.set⟩]⟩ := by
    rw [← hs1]; simp
  have hq : c.line ∉ s.ringUnit.queue := by rw [h.queued, hl]; simp
  have hline : ∀ m, ((transition c.line .ringQueued id s1).queueAtHead c.line).line m
      = (transition c.line .ringQueued id s1).line m := fun m => by rw [he]; rfl
  rw [hu, hu1] at hm hn
  refine h.enqueue c.line { ctx with offset := 0 } (fun m hml => ?_) ?_ ?_ (h.weight c.line ctx hctx) hq hm
    (hn h.queueOnce hq) (fun d => ?_) (.inr ⟨c.weight, c.set, ?_, fun r hr => (h.releaseClaim r hr c hc).symm, ?_⟩)
    (fun p => ?_)
  · rw [hline, transition_others _ _ _ _ hml, ← hs1]; simp [hml]
  · rw [hline, transition_id_line]; rfl
  · rw [hline, transition_id_line, ← hs1]; simp [LineRecord.entering, LineState.isRing]
  · rw [he]
    simp only [State.setRingUnit_ringUnit, hu, hu1, hc, Option.some.injEq]
    constructor
    · intro hx; simp at hx
    · rintro ⟨rfl, hx | hx⟩
      · exact absurd rfl hx
      · exact absurd hx ho
  · rw [he]; simp [hu, hu1]
  · rw [he]; simp [hu, hu1]
  · rw [he, loadIn_of_carrying (by rw [hl]; rfl) hctx, ← hset, ← hw, State.setRingUnit_table, ht, ← getElem_removeLoad,
      ← hs1]
    rfl

/-- A ring context keeps its code, class, weight and offset while its counts change (R130, R131). -/
theorem ringOk_recount {s : State} (h : s.RingOk) (l : Line) (c c' : RingContext) (hc : (s.line l).ring = some c)
    (h1 : c'.code = c.code) (h2 : c'.weight = c.weight) (h3 : c'.offset = c.offset) : (s.setRing l c').RingOk := by
  have hother : ∀ m, m ≠ l → (s.setRing l c').line m = s.line m := by intro m hm; simp [hm]
  have hst : ((s.setRing l c').line l).state = (s.line l).state := by simp
  have hr : ((s.setRing l c').line l).ring = some c' := by simp
  have hlst : ∀ m, ((s.setRing l c').line m).state = (s.line m).state := by
    intro m; by_cases hm : m = l
    · rw [hm, hst]
    · rw [hother m hm]
  refine
    { context := fun m => ?_, weight := fun m d hd => ?_, queued := fun m => ?_, queueOnce := h.queueOnce
      claimed := fun m => ?_, claimLoad := fun d r hd ho hr' => ?_, orphanIdle := fun d hd ho => ?_
      ownRow := fun p => ?_, releaseOnce := h.releaseOnce, releaseIdle := fun r hr' => ?_
      releaseClaim := h.releaseClaim }
  · by_cases hm : m = l
    · rw [hm, hst, hr, ← h.context l, hc]; rfl
    · rw [hother m hm]; exact h.context m
  · by_cases hm : m = l
    · rw [hm, hr] at hd
      obtain rfl : c' = d := by simpa using hd
      rw [h2]; exact h.weight l c hc
    · exact h.weight m d (by rw [← hother m hm]; exact hd)
  · rw [hlst]; exact h.queued m
  · rw [hlst]; exact h.claimed m
  · by_cases hm : d.line = l
    · rw [hm, hr] at hr'
      obtain rfl : c' = r := by simpa using hr'
      have := h.claimLoad d c hd ho (by rw [hm]; exact hc)
      rw [h1, h2, h3]; exact this
    · exact h.claimLoad d r hd ho (by rw [← hother _ hm]; exact hr')
  · rw [hlst]; exact h.orphanIdle d hd ho
  · rw [requiredLoad_same (s := s) l (fun m hm => by rw [hother m hm]; exact ⟨rfl, rfl⟩) (fun q => by
      simp only [LineRecord.loadIn, hst, hr, hc, h1, h2, h3])]
    exact h.ownRow p
  · rw [hlst]; exact h.releaseIdle r hr'

/-- The claim in flight changes its status, ends for a line outside RING CLAIMING, or leaves a RELEASE to send (R116,
R122, R127). -/
theorem ringOk_claim {s : State} (h : s.RingOk) (u : RingUnit) (hq : u.queue = s.ringUnit.queue)
    (hc : ∀ d, u.claim = some d → ∃ c, s.ringUnit.claim = some c ∧ c.line = d.line ∧ c.weight = d.weight ∧ c.set = d.set
      ∧ (c.status = .orphaned ↔ d.status = .orphaned))
    (hc' : u.claim = none → ∀ c, s.ringUnit.claim = some c → c.status = .orphaned)
    (hr : u.releases = s.ringUnit.releases ∨ u.releases = s.ringUnit.releases.tail
      ∨ u.claim = none ∧ ∃ c, s.ringUnit.claim = some c
        ∧ u.releases = s.ringUnit.releases ++ [⟨c.line, c.weight, c.set⟩]) : (s.setRingUnit u).RingOk where
  context := h.context
  weight := h.weight
  queued m := by rw [State.setRingUnit_ringUnit, hq]; exact h.queued m
  queueOnce := by rw [State.setRingUnit_ringUnit, hq]; exact h.queueOnce
  claimed m := by
    rw [State.setRingUnit_ringUnit]
    rw [State.line_setRingUnit, h.claimed m]
    constructor
    · rintro ⟨c, h1, h2, h3⟩
      cases hd : u.claim with
      | none => exact absurd (hc' hd c h1) h3
      | some d =>
        obtain ⟨c', g1, g2, -, -, g5⟩ := hc d hd
        rw [h1] at g1
        obtain rfl : c = c' := by simpa using g1
        exact ⟨d, rfl, g2.symm.trans h2, fun hx => h3 (g5.2 hx)⟩
    · rintro ⟨d, h1, h2, h3⟩
      obtain ⟨c, g1, g2, -, -, g5⟩ := hc d h1
      exact ⟨c, g1, g2.trans h2, fun hx => h3 (g5.1 hx)⟩
  claimLoad d r hd ho hr' := by
    obtain ⟨c, g1, g2, g3, g4, g5⟩ := hc d hd
    rw [← g3, ← g4]
    exact h.claimLoad c r g1 (fun hx => ho (g5.1 hx)) (by rw [g2]; exact hr')
  orphanIdle d hd ho := by
    obtain ⟨c, g1, g2, -, -, g5⟩ := hc d hd
    rw [← g2]; exact h.orphanIdle c g1 (g5.2 ho)
  ownRow p := h.ownRow p
  releaseOnce := by
    rw [State.setRingUnit_ringUnit]
    rcases hr with hr | hr | ⟨hn, c, hc1, hr⟩
    · rw [hr]; exact h.releaseOnce
    · rw [hr, List.map_tail]; exact h.releaseOnce.sublist (List.tail_sublist _)
    · rw [hr, List.map_append, List.nodup_append]
      refine ⟨h.releaseOnce, by simp, ?_⟩
      intro a ha b hb hab
      simp only [List.map_cons, List.map_nil, List.mem_singleton] at hb
      obtain ⟨r, hr1, rfl⟩ := List.mem_map.1 ha
      exact h.releaseClaim r hr1 c hc1 (hab.trans hb).symm
  releaseIdle r hrr := by
    rw [State.setRingUnit_ringUnit] at hrr
    rcases hr with hr | hr | ⟨hn, c, hc1, hr⟩
    · exact h.releaseIdle r (by rw [← hr]; exact hrr)
    · exact h.releaseIdle r (List.mem_of_mem_tail (by rw [← hr]; exact hrr))
    · rw [hr] at hrr
      rcases List.mem_append.1 hrr with h1 | h1
      · exact h.releaseIdle r h1
      · simp only [List.mem_singleton] at h1
        rw [h1]; exact h.orphanIdle c hc1 (hc' hn c hc1)
  releaseClaim r hrr d hd := by
    rw [State.setRingUnit_ringUnit] at hrr hd
    obtain ⟨c, g1, g2, -⟩ := hc d hd
    rw [← g2]
    rcases hr with hr | hr | ⟨hn, -⟩
    · exact h.releaseClaim r (by rw [← hr]; exact hrr) c g1
    · exact h.releaseClaim r (List.mem_of_mem_tail (by rw [← hr]; exact hrr)) c g1
    · rw [hn] at hd; simp at hd

/-- The values a start gives keep the bookkeeping (R44, R107, R132). -/
theorem ringOk_started_blocks {t : State} (hl : ∀ l, (t.line l).state.isRing = false ∧ (t.line l).ring = none)
    (hu : t.ringUnit = ⟨[], none, []⟩) (hr : ∀ p : Phase, t.table.ownRow[p] = 0) : t.RingOk where
  context l := by rw [(hl l).1, (hl l).2]; rfl
  weight l c hc := by rw [(hl l).2] at hc; simp at hc
  queued l := by
    rw [hu]
    constructor
    · intro hx; simp at hx
    · intro hx; have := (hl l).1; rw [hx] at this; simp [LineState.isRing] at this
  queueOnce := by rw [hu]; exact .nil
  claimed l := by
    rw [hu]
    constructor
    · intro hx; have := (hl l).1; rw [hx] at this; simp [LineState.isRing] at this
    · rintro ⟨c, hc, -⟩; simp at hc
  claimLoad c r hc := by rw [hu] at hc; simp at hc
  orphanIdle c hc := by rw [hu] at hc; simp at hc
  ownRow p := by
    rw [hr, State.requiredLoad]
    refine (List.sum_eq_zero fun x hx => ?_).symm
    obtain ⟨m, -, rfl⟩ := List.mem_map.1 hx
    exact loadIn_of_not_carrying _ (carriesLoad_of_not_ring (hl m).1) p
  releaseOnce := by rw [hu]; exact .nil
  releaseIdle r hx := by rw [hu] at hx; simp at hx
  releaseClaim r hx := by rw [hu] at hx; simp at hx

/-- The own row is at most 240 where the bookkeeping holds (R87). -/
theorem State.RingOk.ownRow_le {s : State} (h : s.RingOk) (p : Phase) : s.table.ownRow[p] ≤ 240 := by
  rw [h.ownRow, State.requiredLoad]
  have hb : ∀ x ∈ (List.finRange 16).map fun m => (s.line m).loadIn p, x ≤ 15 := by
    intro x hx
    obtain ⟨m, -, rfl⟩ := List.mem_map.1 hx
    unfold LineRecord.loadIn
    split
    · rename_i c hc
      split
      · exact (h.weight m c hc).2
      · omega
    · omega
  simpa using List.sum_le_card_nsmul _ _ hb

end Sys2Proof.Machine
end

