-- ==== Sys2Proof/Laws/RingMeanings.lean ====
section
/-! SUPPORT. Every meaning of the table keeps the Ring Placement Unit's bookkeeping (`State.RingOk`), one lemma for each
shared operation. -/

namespace Sys2Proof.Machine

/-! ### Folds -/

/-- What every step of a fold keeps, the fold keeps. -/
theorem foldl_keeps {α β : Type} (P : β → Prop) (f : β → α → β) (hf : ∀ b a, P b → P (f b a)) (q : List α) {b : β}
    (h : P b) : P (q.foldl f b) := by
  induction q generalizing b with
  | nil => exact h
  | cons a q ih => exact ih (hf b a h)

/-! ### Blocks that take no part in the bookkeeping -/

/-- A state that differs in other fields alone. -/
theorem ringOk_other {s t : State} (h : s.RingOk) (hl : t.lines = s.lines) (hu : t.ringUnit = s.ringUnit)
    (hr : t.table.ownRow = s.table.ownRow) : t.RingOk :=
  h.congr (fun m => by rw [State.line_congr hl]; exact ⟨rfl, rfl⟩) hu hr

theorem unsendReports_eq (s : State) : s.unsendReports = s.setReports (s.reports.map ReportEntry.offWire) := rfl

/-- Stopping the blocks changes the mark drive, a tick in phase that is due to end its phase, the frame in
transmission, the sending marks and the outputs alone. -/
theorem stopBlocks_eq (s : State) : s.stopBlocks = { s with
    circuits := s.stopBlocks.circuits
    cadence := { s.cadence with tick := min s.cadence.tick 149, markDrive := false, markSeen := false }
    bus := { s.bus with tx := none }
    reports := s.reports.map ReportEntry.offWire } := rfl

theorem ringOk_goDown {s : State} (h : s.RingOk) : (goDown s).RingOk := ringOk_other h rfl rfl rfl

theorem ringOk_goSilent {s : State} (h : s.RingOk) : (goSilent s).RingOk := ringOk_other h rfl rfl rfl

theorem ringOk_heedWarning {s : State} (h : s.RingOk) : (heedWarning s).RingOk := by
  unfold heedWarning
  split
  · exact ringOk_goDown h
  · exact h

theorem ringOk_countConflict {s : State} (h : s.RingOk) : (countConflict s).RingOk := by
  unfold countConflict
  split
  · dsimp only
    split
    · exact ringOk_goSilent (ringOk_other h rfl rfl rfl)
    · exact ringOk_other h rfl rfl rfl
  · exact h

theorem ringOk_endFrame {s : State} (h : s.RingOk) (ack : Bool) : (s.endFrame ack).RingOk := ringOk_other h rfl rfl rfl

/-! ### The starts -/

/-- The lines of a start: none in a ring state, with the unit and the own row at their start values (R44, R107, R132). -/
def StartedRing (t : State) : Prop :=
  (∀ l, (t.line l).state.isRing = false ∧ (t.line l).ring = none) ∧ t.ringUnit = ⟨[], none, []⟩
    ∧ ∀ p : Phase, t.table.ownRow[p] = 0

theorem OnlyReports.startedRing {s t : State} (k : OnlyReports s t) (h : StartedRing s) : StartedRing t := by
  obtain ⟨h1, h2, h3⟩ := h
  refine ⟨fun l => ?_, by rw [k.eq]; exact h2, fun p => by rw [k.eq]; exact h3 p⟩
  rw [(k.lines l).fields.1, (k.lines l).fields.2.2.2.2.2.2.1]
  exact h1 l

theorem startedRing_enterFault {s : State} (h : StartedRing s) (l : Line) (cause : Octet) :
    StartedRing (enterFault l cause s) := by
  obtain ⟨h1, h2, h3⟩ := h
  have k := (linePath_enterFault l s cause).lineMove
  obtain ⟨a, b, c⟩ := k.ring (h1 l).1
  refine ⟨fun m => ?_, b.trans h2, fun p => by rw [c]; exact h3 p⟩
  by_cases hm : m = l
  · subst hm
    refine ⟨a, ?_⟩
    have hr := (linePath_enterFault m s cause).ringOk (ringOk_started_blocks h1 h2 h3)
    exact (hr.outside a).1
  · rw [(k.lines m hm).fields.1, (k.lines m hm).fields.2.2.2.2.2.2.1]
    exact h1 m

theorem startedRing_setMark {s : State} (h : StartedRing s) (l : Line) (b : Bool) :
    StartedRing (s.setLine l { s.line l with correctionMark := b }) := by
  obtain ⟨h1, h2, h3⟩ := h
  refine ⟨fun m => ?_, h2, h3⟩
  by_cases hm : m = l
  · subst hm; simpa using h1 m
  · simpa [hm] using h1 m

theorem startedRing_startLines {s : State} (h : StartedRing s) (e : CircuitWordErrors) :
    StartedRing (startLines e s) := by
  have hf : ∀ (t : State) (l : Line), StartedRing t → StartedRing (startFault l (startCorrection e l t)) := by
    intro t l ht
    have hc : StartedRing (startCorrection e l t) := by
      unfold startCorrection
      split
      · exact startedRing_setMark ((onlyReports_queueLine ..).startedRing ht) _ _
      · exact ht
    unfold startFault
    split
    · exact startedRing_enterFault hc _ _
    · split
      · exact startedRing_enterFault hc _ _
      · exact hc
  obtain ⟨h1, h2, h3⟩ := foldl_keeps StartedRing _ hf (List.finRange 16) h
  exact ⟨h1, h2, h3⟩

theorem startedRing_startBlocks (s : State) (n : StationState) (w : Bool) (b : Nat) (f : Line → Option CircuitNo)
    (g : CircuitNo → Bool) : StartedRing (startBlocks n w b f g s) := by
  refine ⟨fun l => ?_, rfl, fun p => ?_⟩
  · simp [startBlocks, State.line, LineRecord.fresh, LineState.isRing]
  · simp [startBlocks]

theorem StartedRing.ringOk {t : State} (h : StartedRing t) : t.RingOk := ringOk_started_blocks h.1 h.2.1 h.2.2

/-- Every start leaves the bookkeeping sound, whatever the state before it. -/
theorem ringOk_start (e : CircuitWordErrors) (s : State) (n : StationState) (w : Bool) (b : Nat)
    (f : Line → Option CircuitNo) (g : CircuitNo → Bool) : (startLines e (startBlocks n w b f g s)).RingOk :=
  (startedRing_startLines (startedRing_startBlocks s n w b f g) e).ringOk

theorem ringOk_powerOn (pins : Straps) (s : State) : (powerOn pins s).RingOk := ringOk_start ..

theorem ringOk_supplyRestart (e : CircuitWordErrors) (s : State) : (supplyRestart e s).RingOk :=
  ringOk_heedWarning (ringOk_start ..)

theorem ringOk_stationReset (e : CircuitWordErrors) (s : State) : (stationReset e s).RingOk :=
  ringOk_heedWarning (ringOk_start ..)

/-! ### Placement -/

theorem ringOk_place {s : State} (h : s.RingOk) (l : Line) (o : Phase) (hl : (s.line l).state = .ringQueued)
    (hcl : s.ringUnit.claim = none) (hre : s.ringUnit.releases = []) : (place l o s).RingOk := by
  unfold place
  split
  · rename_i c hc
    exact (linePath_handSeizeConfirmed ..).ringOk (ringOk_placed h l o c hl hc hcl hre)
  · exact h

/-- A placement that is found is one of a queued line. -/
theorem findPlacement_mem {s : State} {l : Line} {o : Phase} (h : s.findPlacement = some (l, o)) :
    l ∈ s.ringUnit.queue := by
  unfold State.findPlacement at h
  obtain ⟨m, hm, hx⟩ := List.exists_of_findSome?_eq_some h
  split at hx
  · simp only [Option.map_eq_some_iff, Prod.mk.injEq] at hx
    obtain ⟨_, -, rfl, -⟩ := hx
    exact hm
  · simp at hx

theorem ringOk_attemptPlacement {s : State} (h : s.RingOk) : (attemptPlacement s).RingOk := by
  unfold attemptPlacement
  split
  · rename_i hm
    simp only [State.mayAttempt, Bool.and_eq_true, decide_eq_true_eq, Option.isNone_iff_eq_none,
      List.isEmpty_iff] at hm
    split
    · rename_i l o hf
      exact ringOk_place h l o ((h.queued l).1 (findPlacement_mem hf)) hm.1.2 hm.2
    · exact h
  · exact h

theorem ringOk_ringLine {s : State} (h : s.RingOk) (p1 p2 : Octet) (l : Line) : (ringLine p1 p2 l s).RingOk := by
  unfold ringLine
  split
  · rename_i hi
    exact (linePath_handSeizeConfirmed ..).ringOk
      (ringOk_attemptPlacement (ringOk_ringRequest h l _ (ringContextOf_weight p1 p2) hi))
  all_goals exact (linePath_refuse ..).ringOk h

/-! ### UNBLOCK and REMAP -/

theorem ringOk_setCircuit {s : State} (h : s.RingOk) (c : CircuitNo) (x : Circuit) : (s.setCircuit c x).RingOk :=
  ringOk_other h rfl rfl rfl

theorem ringOk_unblockLine {s : State} (h : s.RingOk) (l : Line) : (unblockLine l s).RingOk := by
  unfold unblockLine
  split
  · exact (linePath_returnToService ..).ringOk ((linePath_setBlockPending ..).ringOk h)
  · rename_i hf
    split
    · exact (linePath_refuse ..).ringOk h
    · rename_i c _
      split
      · exact (linePath_refuse ..).ringOk h
      · refine (linePath_returnToService ..).ringOk ?_
        have hr : (s.line l).ring = none := (h.outside (by rw [hf]; rfl)).1
        exact ringOk_setLine (ringOk_setCircuit h c _) l _ hf.symm hr.symm
  · exact (linePath_setBlockPending ..).ringOk h

theorem ringOk_recomposeLeft {s : State} (h : s.RingOk) (c : Option CircuitNo) : (s.recomposeLeft c).RingOk := by
  unfold State.recomposeLeft
  split
  · exact ringOk_setCircuit h _ _
  · exact h

theorem ringOk_remapLine {s : State} (h : s.RingOk) (target : Octet) (l : Line) : (remapLine target l s).RingOk := by
  unfold remapLine
  split
  · exact (linePath_refuse ..).ringOk h
  rename_i ho
  split
  · exact (linePath_refuse ..).ringOk h
  split
  · exact (linePath_refuse ..).ringOk h
  split
  · exact (linePath_refuse ..).ringOk h
  · rename_i c _ _ _
    have hn : (s.line l).state.isRing = false := by
      revert ho; cases (s.line l).state <;> simp [LineState.outOfService, LineState.isRing]
    refine ringOk_recomposeLeft ?_ _
    refine ringOk_transition (ringOk_setLine h l
      { s.line l with circuit := some c, timing := Timing.fresh, ring := none } rfl (h.outside hn).1.symm) l .blocked _
      (fun t => ?_) rfl
    split
    · exact onlyReports_queueLine ..
    · exact onlyReports_queueLineState ..

/-! ### The own CLAIM -/

theorem ringOk_validateClaim {s : State} (h : s.RingOk) (c : Claim) (hc : s.ringUnit.claim = some c)
    (hs : c.status = .sending) : (validateClaim c s).RingOk := by
  unfold validateClaim
  split
  · rename_i ctx hl hctx
    split
    · exact (linePath_handSeizeConfirmed ..).ringOk (ringOk_confirmed h c hc hl)
    · exact (linePath_handSeizeConfirmed ..).ringOk (ringOk_withdrawn h c ctx hc hl hctx)
  · rename_i hno
    exfalso
    have hl := (h.claimed c.line).2 ⟨c, hc, rfl, by rw [hs]; simp⟩
    obtain ⟨ctx, hctx⟩ := ring_isSome h (by rw [hl]; rfl)
    exact hno ctx hl hctx

theorem ringOk_claimCompleted {s : State} (h : s.RingOk) : (claimCompleted s).RingOk := by
  unfold claimCompleted
  split
  · rename_i c hc
    split
    · rename_i hs
      exact ringOk_validateClaim h c hc hs
    · rename_i hs
      refine ringOk_claim h _ rfl (by simp) (fun _ d hd => ?_) (.inr (.inr ⟨rfl, c, hc, rfl⟩))
      rw [hc] at hd
      obtain rfl : c = d := by simpa using hd
      exact hs
    · exact h
  · exact h

/-- The claim in flight after its frame begins, or leaves the wire unsent (R116). -/
theorem ringOk_claimMapped {s : State} (h : s.RingOk) (f : Claim → Option Claim)
    (hf : ∀ c d, f c = some d → d.line = c.line ∧ d.weight = c.weight ∧ d.set = c.set
      ∧ (c.status = .orphaned ↔ d.status = .orphaned))
    (hn : ∀ c, f c = none → c.status = .orphaned) : (s.setClaim (s.ringUnit.claim.bind f)).RingOk := by
  refine ringOk_claim h _ rfl (fun d hd => ?_) (fun hnone c hc => ?_) (.inl rfl)
  · obtain ⟨c, hc, hcd⟩ := Option.bind_eq_some_iff.1 hd
    obtain ⟨a, b, e, g⟩ := hf c d hcd
    exact ⟨c, hc, a.symm, b.symm, e.symm, g⟩
  · simp only [hc, Option.bind_some] at hnone
    exact hn c hnone

theorem ringOk_tellUnsent {s : State} (h : s.RingOk) (k : FrameKind) : (s.tellUnsent k).RingOk := by
  cases k
  case claim =>
    refine ringOk_claimMapped h Claim.unsent (fun c d hd => ?_) (fun c hc => ?_)
    · unfold Claim.unsent at hd
      split at hd <;> simp_all
      · rw [← hd]; simp
    · unfold Claim.unsent at hc
      split at hc <;> simp_all
  all_goals exact ringOk_other h rfl rfl rfl

/-- A frame begins: a chosen CLAIM is PENDING, and becomes SENDING (R116, R146). -/
theorem ringOk_beginFrame {s : State} (h : s.RingOk) (k : FrameKind) (hk : s.hasFrame k = true) :
    (s.beginFrame k).RingOk := by
  have hb : (s.setBus { s.bus with
      tx := some ⟨k, s.composeFrame k, 0, 0, .contest⟩, rx := RxAssembly.begun }).RingOk :=
    ringOk_other h rfl rfl rfl
  unfold State.beginFrame
  cases k
  case claim =>
    refine ringOk_claim hb _ rfl (fun d hd => ?_) (fun hn c hc => ?_) (.inl rfl)
    · simp only [Option.map_eq_some_iff] at hd
      obtain ⟨c, hc, rfl⟩ := hd
      refine ⟨c, hc, rfl, rfl, rfl, ?_⟩
      have hc' : s.ringUnit.claim = some c := hc
      simp only [State.hasFrame, hc', decide_eq_true_eq] at hk
      simp [hk]
    · rw [hc] at hn; simp at hn
  case report =>
    refine ringOk_other hb ?_ ?_ ?_ <;>
    · simp only [State.tellBegun, State.sendHead]
      split <;> rfl
  all_goals exact hb

theorem chooseFrame_has {s : State} {k : FrameKind} (h : s.chooseFrame = some k) : s.hasFrame k = true := by
  have := List.find?_some h
  simp only [Bool.and_eq_true] at this
  exact this.1

theorem ringOk_beginIfReady {s : State} (h : s.RingOk) : s.beginIfReady.RingOk := by
  unfold State.beginIfReady
  split
  · rename_i k hk
    exact ringOk_beginFrame h k (chooseFrame_has hk)
  · exact h

theorem ringOk_sendIfIdle {s : State} (h : s.RingOk) : s.sendIfIdle.RingOk := by
  unfold State.sendIfIdle
  split
  · exact ringOk_beginIfReady h
  · exact h

theorem ringOk_becomeIdle {s : State} (h : s.RingOk) : (becomeIdle s).RingOk := by
  unfold becomeIdle
  split
  · exact h
  · exact ringOk_beginIfReady (ringOk_other h rfl rfl rfl)

theorem ringOk_takeStartBit {s : State} (h : s.RingOk) : (takeStartBit s).RingOk := by
  unfold takeStartBit
  split
  · exact ringOk_beginIfReady (ringOk_other h rfl rfl rfl)
  · exact ringOk_other h rfl rfl rfl
  · exact h

theorem ringOk_dropFrame {s : State} (h : s.RingOk) (k : FrameKind) : (s.dropFrame k).RingOk :=
  ringOk_tellUnsent (ringOk_other (t := s.setBus { s.bus with tx := none }) h rfl rfl rfl) k

theorem ringOk_loseContest {s : State} (h : s.RingOk) : (loseContest s).RingOk := by
  unfold loseContest
  split
  · split
    · exact ringOk_dropFrame h _
    · exact h
  · exact h

theorem ringOk_abandonOnMismatch {s : State} (h : s.RingOk) : (abandonOnMismatch s).RingOk := by
  unfold abandonOnMismatch
  split
  · split
    · exact h
    · exact ringOk_countConflict (ringOk_other (ringOk_dropFrame h _) rfl rfl rfl)
  · exact h

/-! ### The bit clock -/

theorem ringOk_decideCommand {s : State} (h : s.RingOk) : s.decideCommand.RingOk := by
  unfold State.decideCommand
  split
  · exact ringOk_other h rfl rfl rfl
  · exact h

theorem ringOk_assembleBit {s : State} (h : s.RingOk) (v : Bool) : (assembleBit v s).RingOk := by
  unfold assembleBit
  split
  · split
    · split
      · exact ringOk_other h rfl rfl rfl
      · exact ringOk_becomeIdle h
    · exact ringOk_other h rfl rfl rfl
  · exact ringOk_beginIfReady h
  · split
    · exact ringOk_decideCommand (ringOk_other h rfl rfl rfl)
    · exact ringOk_endFrame h _

theorem ringOk_readBack {s : State} (h : s.RingOk) (v : Bool) : (readBack v s).RingOk := by
  unfold readBack
  split
  · split
    · exact ringOk_other h rfl rfl rfl
    · split
      · exact ringOk_loseContest h
      · exact ringOk_abandonOnMismatch h
  · exact h

theorem ringOk_beginOnDominant {s : State} (h : s.RingOk) (w : WireInput) : (beginOnDominant w s).RingOk := by
  unfold beginOnDominant
  split
  · exact ringOk_takeStartBit h
  · exact h

/-- A bit time keeps the bookkeeping if every row does. -/
theorem ringOk_bitTime {s : State} (h : s.RingOk) (w : WireInput)
    (he : ∀ i u t, State.RingOk u → exec i u = .next t → t.RingOk) {t : State} (ht : bitTime w s = .next t) : t.RingOk := by
  unfold bitTime at ht
  have hb := ringOk_beginOnDominant h w
  split at ht
  · exact he _ _ _ hb ht
  · obtain rfl := by simpa using ht
    exact ringOk_assembleBit (ringOk_readBack hb _) _

theorem ringOk_completeOwn {s : State} (h : s.RingOk) (k : FrameKind) (act : State → State)
    (ha : ∀ t, t.RingOk → (act t).RingOk) : (completeOwn k act s).RingOk := by
  unfold completeOwn
  split
  · split
    · exact ha _ (ringOk_other h rfl rfl rfl)
    · exact h
  · exact h

theorem onlyReports_reportSent (s : State) : OnlyReports s s.reportSent := by
  unfold State.reportSent
  split
  · exact .refl s
  · split
    · exact onlyReports_setReports ..
    · refine (onlyReports_setReports s (s.reports.eraseP fun e => e.sending)).trans ?_
      unfold State.settleResync
      split
      · exact onlyReports_queueLineState ..
      · exact .refl _

theorem ringOk_releaseCompleted {s : State} (h : s.RingOk) : (releaseCompleted s).RingOk :=
  ringOk_claim h _ rfl (fun d hd => ⟨d, hd, rfl, rfl, rfl, Iff.rfl⟩) (fun hn c hc => by
    have hn' : s.ringUnit.claim = none := hn
    rw [hc] at hn'; simp at hn') (.inr (.inl rfl))

/-! ### Frames of others -/

theorem ringOk_takeOwnNumberFrame {s : State} (h : s.RingOk) : (takeOwnNumberFrame s).RingOk := by
  unfold takeOwnNumberFrame
  split
  · exact ringOk_endFrame h _
  · exact ringOk_countConflict (ringOk_endFrame h _)

theorem ringOk_receiveFrame {s : State} (h : s.RingOk) (st : StationNo) (d : State → State)
    (hd : ∀ t, t.RingOk → (d t).RingOk) : (receiveFrame st d s).RingOk := by
  unfold receiveFrame
  split
  · split
    · exact ringOk_takeOwnNumberFrame h
    · exact hd _ (ringOk_endFrame h _)
  · exact h

theorem ringOk_receiveCommand {s : State} (h : s.RingOk) (hd : CommandHeader) (takes allowed : Bool)
    (act : State → State) (ha : ∀ t, t.RingOk → (act t).RingOk) :
    (receiveCommand hd takes allowed act s).RingOk := by
  unfold receiveCommand
  repeat' split
  · exact ha _ (ringOk_endFrame h _)
  · exact ringOk_endFrame h _
  · exact ringOk_takeOwnNumberFrame h
  · exact ha _ (ringOk_endFrame h _)
  · exact ringOk_endFrame h _
  · exact h

theorem ringOk_lineCommand {s : State} (h : s.RingOk) (hd : CommandHeader) (mask : Octet) (act : Line → State → State)
    (ha : ∀ l t, t.RingOk → (act l t).RingOk) : (lineCommand hd mask act s).RingOk :=
  ringOk_receiveCommand h hd _ _ _ fun _ ht => foldl_keeps State.RingOk _ (fun t l => ha l t) _ ht

theorem ringOk_updateRow {s : State} (h : s.RingOk) (st : StationNo) (f : PeerRow → PeerRow) :
    (updateRow st f s).RingOk := by
  unfold updateRow
  split
  · exact ringOk_other h rfl rfl rfl
  · exact h

theorem ringOk_discardFrame {s : State} (h : s.RingOk) : (discardFrame s).RingOk := by
  unfold discardFrame
  split
  · exact ringOk_endFrame h _
  · exact h

theorem ringOk_startStation {s : State} (h : s.RingOk) : (startStation s).RingOk := by
  unfold startStation
  split
  · exact ringOk_heedWarning (ringOk_other h rfl rfl rfl)
  · exact h

/-! ### Edges and thresholds -/

theorem ringOk_forOwner {s : State} (h : s.RingOk) (c : CircuitNo) (act : Line → State → State)
    (ha : ∀ l t, t.RingOk → (act l t).RingOk) : (forOwner c act s).RingOk := by
  unfold forOwner
  repeat' split
  · exact ha _ _ h
  · exact h
  · exact h

theorem ringOk_takeOnHookEdge {s : State} (h : s.RingOk) (c : CircuitNo) : (takeOnHookEdge c s).RingOk := by
  unfold takeOnHookEdge
  split
  · exact ringOk_forOwner (ringOk_setCircuit h _ _) _ _ fun l t ht =>
      ((linePath_handDue l t).trans (linePath_takeOnHook ..)).ringOk ht
  · exact h

theorem ringOk_takeOffHookEdge {s : State} (h : s.RingOk) (c : CircuitNo) : (takeOffHookEdge c s).RingOk := by
  unfold takeOffHookEdge
  split
  · exact ringOk_forOwner (ringOk_setCircuit h _ _) _ _ fun l t ht =>
      ((linePath_handDue l t).trans (linePath_takeOffHook ..)).ringOk ht
  · exact h

theorem ringOk_takeSettleNotice {s : State} (h : s.RingOk) (c : CircuitNo) : (takeSettleNotice c s).RingOk := by
  unfold takeSettleNotice
  split
  · split
    · exact ringOk_forOwner (ringOk_setCircuit h _ _) _ _ fun l t ht =>
        ((linePath_handDue l t).trans (linePath_takeSettle ..)).ringOk ht
    · exact h
  · exact h

theorem ringOk_takeFaultAsserted {s : State} (h : s.RingOk) (c : CircuitNo) : (takeFaultAsserted c s).RingOk := by
  unfold takeFaultAsserted
  split
  · exact ringOk_forOwner (ringOk_setCircuit h _ _) _ _ fun l t ht => (linePath_enterFault ..).ringOk ht
  · exact h

theorem ringOk_takeFaultNormal {s : State} (h : s.RingOk) (c : CircuitNo) : (takeFaultNormal c s).RingOk := by
  unfold takeFaultNormal
  split
  · exact ringOk_setCircuit h _ _
  · exact h

theorem ringOk_whenRunning {s : State} (h : s.RingOk) (act : State → State) (ha : ∀ t, t.RingOk → (act t).RingOk) :
    (whenRunning act s).RingOk := by
  unfold whenRunning
  split
  · exact ha _ h
  · exact h

/-! ### The cadence -/

theorem ringOk_countRingCycle {s : State} (h : s.RingOk) (l : Line) : (countRingCycle l s).RingOk := by
  unfold countRingCycle
  split
  · rename_i c _ hc
    have h1 := ringOk_recount h l c { c with cycles := min (c.cycles + 1) 15 } hc rfl rfl rfl
    dsimp only
    split
    · exact (linePath_enterIdle _ _ _ fun _ => linePath_queueLine ..).ringOk h1
    · exact h1
  · exact h

theorem ringOk_countWait {s : State} (h : s.RingOk) (l : Line) : (countWait l s).RingOk := by
  unfold countWait
  split
  · rename_i c hc
    split
    · have h1 := ringOk_recount h l c { c with waits := min (c.waits + 1) 4 } hc rfl rfl rfl
      dsimp only
      split
      · exact (onlyReports_queueLine ..).ringOk h1
      · exact h1
    · exact h
  · exact h

theorem ringOk_startRinging {s : State} (h : s.RingOk) (l : Line) : (startRinging l s).RingOk := by
  unfold startRinging
  split
  · rename_i c hl _
    split
    · exact ringOk_started h l hl
    · exact h
  · exact h

theorem ringOk_ringUnitWork {s : State} (h : s.RingOk) (cycle : Bool) : (ringUnitWork cycle s).RingOk := by
  unfold ringUnitWork
  split
  · refine foldl_keeps State.RingOk _ (fun t l ht => (linePath_handTripConfirmed ..).ringOk ht) _ ?_
    refine ringOk_attemptPlacement (foldl_keeps State.RingOk _ (fun t l ht => ringOk_startRinging ht l) _ ?_)
    split
    · exact foldl_keeps State.RingOk _ (fun t l ht => ringOk_countWait (ringOk_countRingCycle ht l) l) _ h
    · exact h
  · exact h

theorem ringOk_announceBoundary {s : State} (h : s.RingOk) (cycle : Bool) : (announceBoundary cycle s).RingOk := by
  refine ringOk_other (ringOk_ringUnitWork (cycle := cycle) (s := markSummaryDue s) ?_) rfl rfl rfl
  unfold markSummaryDue
  split
  · exact ringOk_other h rfl rfl rfl
  · exact h

theorem ringOk_ageRow {s : State} (h : s.RingOk) (i : Fin 15) : (ageRow i s).RingOk := by
  unfold ageRow
  dsimp only
  split
  · exact (onlyReports_queueStationReport ..).ringOk (ringOk_other h rfl rfl rfl)
  · exact ringOk_other h rfl rfl rfl

theorem ringOk_clearCorrectionMarks {s : State} (h : s.RingOk) : (clearCorrectionMarks s).RingOk :=
  h.congr (fun m => by simp [clearCorrectionMarks, State.line]) rfl rfl

theorem ringOk_beginCycle {s : State} (h : s.RingOk) (drive : Bool) : (beginCycle drive s).RingOk := by
  unfold beginCycle
  refine ringOk_heedWarning (ringOk_announceBoundary (ringOk_clearCorrectionMarks
    (foldl_keeps State.RingOk _ (fun t i ht => ringOk_ageRow ht i) _ ?_)) _)
  unfold endListen
  split <;> exact ringOk_other h rfl rfl rfl

theorem ringOk_takePhaseBoundary {s : State} (h : s.RingOk) : (takePhaseBoundary s).RingOk := by
  unfold takePhaseBoundary
  split
  · have h1 : ({ s with cadence := { s.cadence with phase := s.cadence.phase + 1, tick := 0 } } : State).RingOk :=
      ringOk_other h rfl rfl rfl
    exact ringOk_announceBoundary h1 false
  · exact h

theorem ringOk_takeCycleEnd {s : State} (h : s.RingOk) : (takeCycleEnd s).RingOk := by
  unfold takeCycleEnd
  split
  · exact ringOk_beginCycle h _
  · exact h

theorem ringOk_takeMark {s : State} (h : s.RingOk) : (takeMark s).RingOk := by
  unfold takeMark
  split
  · have h1 : ({ s with cadence := { s.cadence with markSeen := false } } : State).RingOk := ringOk_other h rfl rfl rfl
    dsimp only
    split
    · exact ringOk_beginCycle h1 false
    · exact h1
  · exact h

theorem ringOk_takeOnPortion {s : State} (h : s.RingOk) : (takeOnPortion s).RingOk := by
  unfold takeOnPortion
  split
  · exact ringOk_other h rfl rfl rfl
  · exact h

/-! ### Supply and tick -/

theorem ringOk_takeRestart {s : State} (h : s.RingOk) (e : CircuitWordErrors) : (takeRestart e s).RingOk := by
  unfold takeRestart
  split
  · exact ringOk_supplyRestart ..
  · exact h

theorem ringOk_takeWarning {s : State} (h : s.RingOk) : (takeWarning s).RingOk := by
  unfold takeWarning
  split
  · exact ringOk_heedWarning (ringOk_other h rfl rfl rfl)
  · exact ringOk_heedWarning h

theorem ringOk_takeWarningNegated {s : State} (h : s.RingOk) : (takeWarningNegated s).RingOk := by
  unfold takeWarningNegated
  split
  · exact ringOk_other h rfl rfl rfl
  · exact h

theorem ringOk_takeReducedChange {s : State} (h : s.RingOk) : (takeReducedChange s).RingOk := by
  unfold takeReducedChange
  split
  · exact ringOk_other h rfl rfl rfl
  · exact h

theorem ringOk_settleCircuit {s : State} (h : s.RingOk) (c : CircuitNo) : (settleCircuit c s).RingOk :=
  ringOk_takeFaultNormal (ringOk_takeFaultAsserted (ringOk_takeSettleNotice (ringOk_takeOffHookEdge
    (ringOk_takeOnHookEdge h c) c) c) c) c

theorem ringOk_settleDue {s : State} (h : s.RingOk) : (settleDue s).RingOk := by
  refine ringOk_takeRestart (ringOk_takeWarning (ringOk_takeWarningNegated (ringOk_takeMark (ringOk_takeCycleEnd
    (ringOk_takePhaseBoundary (ringOk_takeOnPortion (ringOk_takeReducedChange ?_))))))) _
  refine foldl_keeps State.RingOk _ (fun t c ht => ringOk_settleCircuit ht c) _ ?_
  exact foldl_keeps State.RingOk _
    (fun t l ht => ringOk_whenRunning ht _ fun u hu => (linePath_handDue ..).ringOk hu) _ h

theorem ringOk_advanceTick {s : State} (h : s.RingOk) (i : Samples) : (advanceTick i s).RingOk := by
  unfold advanceTick
  split
  · exact h.congr (fun m => by simp [advanceBlocks, State.line]) rfl rfl
  · exact ringOk_other h rfl rfl rfl

/-! ### The record store -/

/-- The rewritten record is outside the ring states. -/
theorem rewritten_ring (r : LineRecord) (u : LineWords) :
    (r.rewritten u).state.isRing = false ∧ (r.rewritten u).ring = none := ⟨rfl, rfl⟩

theorem mem_excess_fold (s : State) (l : Line) (q : List Phase) (acc : PhaseSet) (p : Phase) :
    inSet (q.foldl (fun acc p => if 0 < s.excess l p then acc ||| (1#8 <<< p.val) else acc) acc) p = true
      ↔ inSet acc p = true ∨ p ∈ q ∧ 0 < s.excess l p := by
  induction q generalizing acc with
  | nil => simp
  | cons x q ih =>
    rw [List.foldl_cons, ih]
    have hbit : ∀ (a : PhaseSet) (x p : Phase),
        inSet (a ||| (1#8 <<< x.val)) p = true ↔ inSet a p = true ∨ p = x := by
      intro a x p
      have : ((1#8 <<< x.val).getLsbD p.val = true) ↔ p = x := by revert x p; decide
      simp only [inSet, BitVec.getLsbD_or, Bool.or_eq_true, this]
    split
    · rename_i hx
      rw [hbit]
      constructor
      · rintro ((h | rfl) | ⟨h, k⟩)
        · exact .inl h
        · exact .inr ⟨by simp, hx⟩
        · exact .inr ⟨by simp [h], k⟩
      · rintro (h | ⟨h, k⟩)
        · exact .inl (.inl h)
        · rcases List.mem_cons.1 h with rfl | h
          · exact .inl (.inr rfl)
          · exact .inr ⟨h, k⟩
    · rename_i hx
      constructor
      · rintro (h | ⟨h, k⟩)
        · exact .inl h
        · exact .inr ⟨by simp [h], k⟩
      · rintro (h | ⟨h, k⟩)
        · exact .inl h
        · rcases List.mem_cons.1 h with rfl | h
          · exact absurd k hx
          · exact .inr ⟨h, k⟩

/-- The phases in which the own row exceeds the formed row (R124). -/
theorem inSet_excessSet (s : State) (l : Line) (p : Phase) : inSet (s.excessSet l) p = true ↔ 0 < s.excess l p := by
  unfold State.excessSet
  rw [mem_excess_fold]
  have : inSet 0#8 p = false := by revert p; decide
  rw [show (0 : PhaseSet) = 0#8 from rfl, this]
  simp

theorem fold_max_le (f : Phase → Nat) (q : List Phase) (a b : Nat) (ha : a ≤ b) (h : ∀ p ∈ q, f p ≤ b) :
    q.foldl (fun m p => max m (f p)) a ≤ b := by
  induction q generalizing a with
  | nil => exact ha
  | cons x q ih =>
    exact ih (max a (f x)) (max_le ha (h x (by simp))) fun p hp => h p (by simp [hp])

theorem le_fold_max (f : Phase → Nat) (q : List Phase) (a : Nat) :
    a ≤ q.foldl (fun m p => max m (f p)) a ∧ ∀ p ∈ q, f p ≤ q.foldl (fun m p => max m (f p)) a := by
  induction q generalizing a with
  | nil => simp
  | cons x q ih =>
    obtain ⟨h1, h2⟩ := ih (max a (f x))
    refine ⟨(le_max_left _ _).trans h1, fun p hp => ?_⟩
    rcases List.mem_cons.1 hp with rfl | hp
    · exact (le_max_right _ _).trans h1
    · exact h2 p hp

/-- Where the excess is one weight over a set and 0 elsewhere, removing the excess weight over the excess set removes the
excess (R124). -/
theorem excess_removed (s : State) (l : Line) (w : Nat) (P : Phase → Bool)
    (h : ∀ p, s.excess l p = if P p then w else 0) (p : Phase) :
    (if inSet (s.excessSet l) p then s.excessWeight l else 0) = s.excess l p := by
  by_cases hp : inSet (s.excessSet l) p = true
  · rw [if_pos hp]
    have hpos := (inSet_excessSet s l p).1 hp
    apply Nat.le_antisymm
    · refine fold_max_le _ _ _ _ (Nat.zero_le _) fun q _ => ?_
      rw [h p] at hpos ⊢
      rw [h q]
      split at hpos
      · rename_i hpp
        rw [if_pos hpp]; split <;> omega
      · omega
    · exact (le_fold_max (s.excess l) (List.finRange 8) 0).2 p (List.mem_finRange p)
  · rw [if_neg hp]
    rw [inSet_excessSet] at hp
    omega

/-- The row without a line depends on the lines alone. -/
theorem loadWithout_lines {s t : State} (h : t.lines = s.lines) (l : Line) (p : Phase) :
    t.loadWithout l p = s.loadWithout l p :=
  loadWithout_congr l (fun m _ => by rw [State.line_congr h]; exact ⟨rfl, rfl⟩) p

/-- The notice for the line of the claim in flight (R121, R122). -/
theorem leaveClaim_own {s : State} {l : Line} {c : Claim} (hc : s.ringUnit.claim = some c) (hl : c.line = l)
    (ho : c.status ≠ .orphaned) : s.leaveClaim l = (s.removeOwnLoad c.weight c.set).setClaim
      (if c.status = .pending then none else some { c with status := .orphaned }) := by
  unfold State.leaveClaim
  rw [hc]
  dsimp only
  rw [if_pos hl]
  split <;> simp_all

/-- The notice without a context leaves the own row as R87 requires it without the line, and owes a RELEASE for a confirmed
load alone (R124). -/
theorem ringOk_ringLeaveBlind {s t : State} (h : s.RingOk) (l : Line)
    (hl : ∀ m, m ≠ l → (t.line m).state = (s.line m).state ∧ (t.line m).ring = (s.line m).ring)
    (hs : (t.line l).state.isRing = false) (hr : (t.line l).ring = none)
    (hu : t.ringUnit = (s.ringLeaveBlind l).ringUnit) (ht : t.table = (s.ringLeaveBlind l).table) : t.RingOk := by
  -- the state before the excess is taken out
  generalize hv : (s.unqueue l).leaveClaim l = v at *
  have hblind : s.ringLeaveBlind l = v.leaveExcess l := by rw [State.ringLeaveBlind, hv]
  have hvl : v.lines = s.lines := by
    rw [← hv]; unfold State.leaveClaim; repeat' split
    all_goals rfl
  have hvq : v.ringUnit.queue = s.ringUnit.queue.filter (· ≠ l) := by
    rw [← hv]; unfold State.leaveClaim; repeat' split
    all_goals rfl
  have hvr : v.ringUnit.releases = s.ringUnit.releases := by
    rw [← hv]; unfold State.leaveClaim; repeat' split
    all_goals rfl
  -- the load that is still in the own row
  have key : (∃ c, s.ringUnit.claim = some c ∧ c.line = l ∧ c.status ≠ .orphaned
        ∧ v.ringUnit.claim = (if c.status = .pending then none else some { c with status := .orphaned })
        ∧ ∀ p, v.excess l p = 0)
      ∨ ((s.line l).state ≠ .ringClaiming ∧ v.ringUnit.claim = s.ringUnit.claim
        ∧ v.table.ownRow = s.table.ownRow ∧ ∀ p, v.excess l p = (s.line l).loadIn p) := by
    by_cases hcl : (s.line l).state = .ringClaiming
    · left
      obtain ⟨c, hc, hcl', hco⟩ := (h.claimed l).1 hcl
      obtain ⟨ctx, hctx⟩ := ring_isSome h (l := l) (by rw [hcl]; rfl)
      obtain ⟨hw, hset⟩ := h.claimLoad c ctx hc hco (by rw [hcl']; exact hctx)
      have hc2 : (s.unqueue l).ringUnit.claim = some c := hc
      refine ⟨c, hc, hcl', hco, ?_, fun p => ?_⟩
      · rw [← hv]
        rw [leaveClaim_own hc2 hcl' hco]
        rfl
      · have hrow : v.table.ownRow[p] = s.table.ownRow[p] - (s.line l).loadIn p := by
          rw [← hv, loadIn_of_carrying (by rw [hcl]; rfl) hctx, ← hw, ← hset]
          rw [leaveClaim_own hc2 hcl' hco]
          simp
        rw [State.excess, hrow, loadWithout_lines hvl, h.ownRow_split l]
        omega
    · right
      have hno : ∀ c, s.ringUnit.claim = some c → c.line = l → c.status = .orphaned := by
        intro c hc hcl'
        by_contra ho
        exact hcl ((h.claimed l).2 ⟨c, hc, hcl', ho⟩)
      have hvv : v = s.unqueue l := by
        rw [← hv]
        unfold State.leaveClaim
        split
        · rename_i c hc
          split
          · rename_i hcl'
            have := hno c hc hcl'
            split <;> simp_all
          · rfl
        · rfl
      refine ⟨hcl, by rw [hvv]; rfl, by rw [hvv]; rfl, fun p => ?_⟩
      rw [State.excess, loadWithout_lines hvl, hvv]
      have := h.ownRow_split l p
      simp only [State.unqueue_eq, State.setRingUnit_table]
      omega
  -- what removing the excess does
  have hex : ∀ p : Phase, (v.leaveExcess l).table.ownRow[p] = v.table.ownRow[p] - v.excess l p := by
    intro p
    have huni : ∃ (w : Nat) (P : Phase → Bool), ∀ q, v.excess l q = if P q then w else 0 := by
      rcases key with ⟨c, -, -, -, -, hz⟩ | ⟨-, -, -, hz⟩
      · exact ⟨0, fun _ => false, fun q => by simp [hz q]⟩
      · by_cases hcar : (s.line l).state.carriesLoad = true
        · obtain ⟨ctx, hctx⟩ := ring_isSome h (l := l) (by
            revert hcar; cases (s.line l).state <;> simp [LineState.carriesLoad, LineState.isRing])
          exact ⟨ctx.weight, inSet (rotatedSet ctx.code ctx.offset), fun q => by
            rw [hz q, loadIn_of_carrying hcar hctx]⟩
        · exact ⟨0, fun _ => false, fun q => by
            rw [hz q, loadIn_of_not_carrying _ (by simpa using hcar)]; rfl⟩
    obtain ⟨w, P, hP⟩ := huni
    have hr' := excess_removed v l w P hP p
    unfold State.leaveExcess
    split
    · rename_i hz
      have := (le_fold_max (v.excess l) (List.finRange 8) 0).2 p (List.mem_finRange p)
      rw [show (List.finRange 8).foldl (fun m p => max m (v.excess l p)) 0 = v.excessWeight l from rfl, hz] at this
      omega
    · have : (((v.removeOwnLoad (v.excessWeight l) (v.excessSet l)).appendRelease
          ⟨l, v.excessWeight l, v.excessSet l⟩).table.ownRow[p]) = v.table.ownRow[p]
            - (if inSet (v.excessSet l) p then v.excessWeight l else 0) := by simp
      rw [this, hr']
  have hexu : (v.leaveExcess l).ringUnit = v.ringUnit
      ∨ (v.leaveExcess l).ringUnit = { v.ringUnit with
          releases := v.ringUnit.releases ++ [⟨l, v.excessWeight l, v.excessSet l⟩] } ∧ v.excessWeight l ≠ 0 := by
    unfold State.leaveExcess
    split
    · exact .inl rfl
    · rename_i hz
      exact .inr ⟨rfl, hz⟩
  have hexc : (v.leaveExcess l).ringUnit.claim = v.ringUnit.claim := by
    rcases hexu with h1 | ⟨h1, -⟩ <;> rw [h1]
  rw [hblind] at hu ht
  have hweight : (∀ p, v.excess l p = 0) → v.excessWeight l = 0 := by
    intro hz
    exact Nat.le_zero.1 (fold_max_le _ _ _ _ (Nat.le_refl 0) fun p _ => by rw [hz p])
  refine h.depart l hl hs hr ?_ (fun d hd => ?_) (fun d hd hne => ?_) ?_ (fun p => ?_)
  · rw [hu]
    rcases hexu with h1 | ⟨h1, -⟩ <;> rw [h1] <;> exact hvq
  · rw [hu, hexc] at hd
    rcases key with ⟨c, hc, hcl, hco, hvc, -⟩ | ⟨hncl, hvc, -, -⟩
    · rw [hvc] at hd
      split at hd
      · simp at hd
      · obtain rfl : ({ c with status := .orphaned } : Claim) = d := by simpa using hd
        exact ⟨c, hc, rfl, rfl, rfl, fun _ => rfl, fun hne => absurd hcl hne⟩
    · rw [hvc] at hd
      refine ⟨d, hd, rfl, rfl, rfl, fun hdl => ?_, fun _ => rfl⟩
      by_contra ho
      exact hncl ((h.claimed l).2 ⟨d, hd, hdl, ho⟩)
  · rw [hu, hexc]
    rcases key with ⟨c, hc, hcl, -, -, -⟩ | ⟨-, hvc, -, -⟩
    · rw [hd] at hc
      obtain rfl : d = c := by simpa using hc
      exact absurd hcl hne
    · rw [hvc]; exact hd
  · rw [hu]
    rcases hexu with h1 | ⟨h1, hz⟩
    · left; rw [h1]; exact hvr
    · right
      refine ⟨v.excessWeight l, v.excessSet l, by rw [h1, hvr], ?_, ?_⟩
      · by_contra hcar
        apply hz
        apply hweight
        intro p
        rcases key with ⟨c, -, -, -, -, hz⟩ | ⟨-, -, -, hz⟩
        · exact hz p
        · rw [hz p, loadIn_of_not_carrying _ (by simpa using hcar)]
      · intro d hd hdl
        rcases key with ⟨c, -, -, -, -, hz'⟩ | ⟨hncl, -, -, hz'⟩
        · exact hz (hweight hz')
        · by_cases ho : d.status = .orphaned
          · have := h.orphanIdle d hd ho
            rw [hdl] at this
            exact hz (hweight fun p => by rw [hz' p, loadIn_of_not_carrying _ this])
          · exact hncl ((h.claimed l).2 ⟨d, hd, hdl, ho⟩)
  · rw [ht, hex]
    rcases key with ⟨c, hc, hcl, hco, -, hz⟩ | ⟨-, -, hvrow, hz⟩
    · have hst := (h.claimed l).2 ⟨c, hc, hcl, hco⟩
      have h0 := hz p
      rw [State.excess, loadWithout_lines hvl] at h0
      rw [hz p, h.ownRow_split l p]
      obtain ⟨ctx, hctx⟩ := ring_isSome h (l := l) (by rw [hst]; rfl)
      obtain ⟨hw, hset⟩ := h.claimLoad c ctx hc hco (by rw [hcl]; exact hctx)
      have hrow : v.table.ownRow[p] = s.table.ownRow[p] - (s.line l).loadIn p := by
        have hc2 : (s.unqueue l).ringUnit.claim = some c := hc
        rw [← hv, loadIn_of_carrying (by rw [hst]; rfl) hctx, ← hw, ← hset]
        rw [leaveClaim_own hc2 hcl hco]
        simp
      rw [hrow, h.ownRow_split l p]
      omega
    · rw [hvrow, hz p]

theorem ringOk_recomposeLost {s : State} (h : s.RingOk) (c : Option CircuitNo) : (s.recomposeLost c).RingOk := by
  unfold State.recomposeLost
  split
  · exact ringOk_setCircuit h _ _
  · exact h

/-- A double-bit error in a line record keeps the bookkeeping, with or without the record's words (R124, R169). -/
theorem ringOk_lineMemoryFault {s : State} (h : s.RingOk) (l : Line) (u : LineWords) :
    (lineMemoryFault l u s).RingOk := by
  unfold lineMemoryFault
  dsimp only
  split
  · rename_i hf
    refine ringOk_recomposeLost (ringOk_setLine h l _ hf.symm ?_) _
    exact (h.outside (by rw [hf]; rfl)).1.symm
  · refine ringOk_recomposeLost ((onlyReports_traceChange ..).ringOk ((onlyReports_queueLine ..).ringOk ?_)) _
    have hother : ∀ m, m ≠ l →
        (((memoryRingLeave l u s).setLine l ((s.line l).rewritten u)).line m).state = (s.line m).state
          ∧ (((memoryRingLeave l u s).setLine l ((s.line l).rewritten u)).line m).ring = (s.line m).ring := by
      intro m hm
      have hlines : (memoryRingLeave l u s).lines = s.lines := by
        unfold memoryRingLeave
        dsimp only
        split
        · unfold State.ringLeaveBlind State.leaveExcess State.leaveClaim
          repeat' split
          all_goals rfl
        · split
          · rw [ringLeave_eq]
          · rfl
      rw [State.line_setLine_ne _ hm, State.line_congr hlines]
      exact ⟨rfl, rfl⟩
    have hself : (((memoryRingLeave l u s).setLine l ((s.line l).rewritten u)).line l) = (s.line l).rewritten u := by
      simp
    have hs : (((memoryRingLeave l u s).setLine l ((s.line l).rewritten u)).line l).state.isRing = false := by
      rw [hself]; rfl
    have hr : (((memoryRingLeave l u s).setLine l ((s.line l).rewritten u)).line l).ring = none := by
      rw [hself]; rfl
    by_cases hb : (s.line l).blindFor u = true
    · exact ringOk_ringLeaveBlind h l hother hs hr (by simp [memoryRingLeave, hb]) (by simp [memoryRingLeave, hb])
    · by_cases hring : (s.line l).state.isRing = true
      · exact h.leave l hother hring hs hr (by simp [memoryRingLeave, hb, hring])
          (by simp [memoryRingLeave, hb, hring])
      · have hring : (s.line l).state.isRing = false := by simpa using hring
        have hm : memoryRingLeave l u s = s := by simp [memoryRingLeave, hb, hring]
        rw [hm] at hother hs hr ⊢
        obtain ⟨-, hq, ho⟩ := h.outside hring
        have hf : s.ringUnit.queue.filter (· ≠ l) = s.ringUnit.queue := by
          rw [List.filter_eq_self]
          intro x hx
          have : x ≠ l := fun hxl => hq (hxl ▸ hx)
          simpa using this
        refine h.depart l hother hs hr hf.symm (fun c hc => ⟨c, hc, rfl, rfl, rfl, ho c hc, fun _ => rfl⟩)
          (fun c hc _ => hc) (.inl rfl) (fun p => ?_)
        rw [loadIn_of_not_carrying _ (carriesLoad_of_not_ring hring)]
        rfl

theorem ringOk_takeLineDoubleBit {s : State} (h : s.RingOk) (l : Line) (u c : LineWords) :
    (takeLineDoubleBit l u c s).RingOk := by
  unfold takeLineDoubleBit
  dsimp only
  split
  · refine ringOk_lineMemoryFault ?_ _ _
    split
    · exact ringOk_setLine ((onlyReports_queueLine ..).ringOk h) l _ rfl rfl
    · exact h
  · exact h

theorem ringOk_compareStraps {s : State} (h : s.RingOk) : (compareStraps s).RingOk := by
  unfold compareStraps
  split
  · split
    · exact h
    · exact ringOk_goSilent h
  · exact h

theorem ringOk_correctStationRecord {s : State} (h : s.RingOk) : (correctStationRecord s).RingOk :=
  ringOk_compareStraps ((onlyReports_queueStationReport ..).ringOk h)

theorem ringOk_rebuildStation {s : State} (h : s.RingOk) (stateBad : Bool) (e : CircuitWordErrors) :
    (rebuildStation stateBad e s).RingOk := by
  unfold rebuildStation
  repeat' split
  · exact ringOk_other h rfl rfl rfl
  · exact ringOk_stationReset ..
  · exact h
  · exact ringOk_stationReset ..

theorem ringOk_stationMemoryFault {s : State} (h : s.RingOk) (stateBad : Bool) (e : CircuitWordErrors) :
    (stationMemoryFault stateBad e s).RingOk := by
  have hr : (repairStraps s).RingOk := ringOk_other h rfl rfl rfl
  unfold stationMemoryFault
  split
  · exact ringOk_goSilent h
  · exact ringOk_rebuildStation hr ..

theorem ringOk_takeStationDoubleBit {s : State} (h : s.RingOk) (u c : StationWords) (e : CircuitWordErrors) :
    (takeStationDoubleBit u c e s).RingOk := by
  have hr : (s.readStraps u).RingOk := ringOk_other h rfl rfl rfl
  unfold takeStationDoubleBit
  dsimp only
  repeat' split
  · exact ringOk_stationMemoryFault (ringOk_correctStationRecord hr) ..
  · exact ringOk_stationMemoryFault hr ..
  · exact h

end Sys2Proof.Machine
end

