-- ==== Sys2Proof/Tests/Slice0.lean ====
section
/-! SUPPORT. Tests: ill-formed commands refused, the manual's worked examples, one small step for each command, and the
states that meet the hypotheses of the statements. -/

namespace Sys2Proof.Tests

-- Each theorem here is a kernel evaluation; one after another keeps their memory small.
set_option Elab.async false

open Sys2Proof.Machine

/-! ## Small states -/

/-- Station 6 in a station state, its assembly following a frame of another station. -/
def station (t : StationState) : State :=
  { State.reset with
    station := ⟨some Config.resetStraps, some Config.resetStraps, t, 0⟩
    bus := ⟨none, RxAssembly.begun, false, false, false⟩ }

/-- A record on circuit 1. -/
def record (t : LineState) (timing : Timing) : LineRecord :=
  { LineRecord.fresh (some 1) with state := t, timing := timing }

/-- A running break, or make, of `n` ticks. -/
def breakOf (n : Nat) : Timing := ⟨.brk, n, 0, 0, none⟩

def makeOf (n : Nat) : Timing := ⟨.mk, n, 0, 0, none⟩

/-- Station 6 in ACTIVE with this record for line 1. -/
def withLine (r : LineRecord) : State := (station .active).setLine 1 r

/-- Line 1 in a state with a timing context. -/
def lineIn (t : LineState) (timing : Timing) : State := withLine (record t timing)

/-- A ring context: code 0, routine, weight 6, offset 2, no-answer limit 4 (6.9.1). -/
def context : RingContext := ⟨0, false, 6, 2, 4, 0, 0⟩

/-- Line 1 in a ring state with that context. -/
def ringIn (t : LineState) (timing : Timing) : State := withLine { record t timing with ring := some context }

/-- The header of a command from call control for line 1 of station 6, shelf line number 97. -/
def toLine : CommandHeader := ⟨0, 97, 255⟩

/-- The state that an outcome leads to. -/
def after (o : Host.Outcome State Fault Refusal) : State :=
  match o with
  | .next t => t
  | _ => station .silent

/-- The step that the header of line 1 leads to. -/
def run (i : Instr) (s : State) : State := after (exec i s)

/-! ## Ill-formed commands -/

theorem test_wf_forced_block : (Instr.blockForced toLine 0).wellFormed = false
    ∧ (Instr.blockForced toLine 1).wellFormed = true := by decide

theorem test_wf_unknown_command : (Instr.unknownCommand toLine 14).wellFormed = false
    ∧ (Instr.unknownCommand toLine 1).wellFormed = false ∧ (Instr.unknownCommand toLine 0).wellFormed = true
    ∧ (Instr.unknownCommand toLine 15).wellFormed = true := by decide

theorem test_wf_peer_frames : (Instr.peerClaim 0 1 2 3).wellFormed = false
    ∧ (Instr.peerRelease 0 1 2 3).wellFormed = false ∧ (Instr.peerSummary 0 (Vector.replicate 8 0)).wellFormed = false
    ∧ (Instr.peerWithdraw 0).wellFormed = false ∧ (Instr.peerReport 0 1 2 []).wellFormed = false
    ∧ (Instr.peerWithdraw 15).wellFormed = true := by decide

theorem test_wf_report_length : (Instr.peerReport 3 1 2 (List.replicate 17 0)).wellFormed = false
    ∧ (Instr.peerReport 3 1 2 (List.replicate 16 0)).wellFormed = true := by decide

theorem test_wf_line_words :
    (Instr.lineRecordCorrection 1 ⟨false, false, false, false, false, false⟩).wellFormed = false
    ∧ (Instr.lineRecordCorrection 1 ⟨false, false, true, false, false, false⟩).wellFormed = true
    ∧ (Instr.lineRecordDoubleBitError 1 ⟨false, false, false, false, false, false⟩
        ⟨true, false, false, false, false, false⟩).wellFormed = false
    ∧ (Instr.lineRecordDoubleBitError 1 ⟨true, false, false, false, false, false⟩
        ⟨true, false, false, false, false, false⟩).wellFormed = false
    ∧ (Instr.lineRecordDoubleBitError 1 ⟨true, false, false, false, false, false⟩
        ⟨false, true, false, false, false, false⟩).wellFormed = true := by decide

theorem test_wf_station_words : (Instr.stationRecordCorrection ⟨false, false, false⟩).wellFormed = false
    ∧ (Instr.stationRecordCorrection ⟨false, false, true⟩).wellFormed = true
    ∧ (Instr.stationRecordDoubleBitError ⟨false, false, false⟩ ⟨true, false, false⟩ ⟨0, 0⟩).wellFormed = false
    ∧ (Instr.stationRecordDoubleBitError ⟨true, false, false⟩ ⟨true, false, false⟩ ⟨0, 0⟩).wellFormed = false
    ∧ (Instr.stationRecordDoubleBitError ⟨true, false, false⟩ ⟨false, true, false⟩ ⟨0, 0⟩).wellFormed = true := by
  decide

theorem test_wf_start_errors : (Instr.supplyRestart ⟨3, 2⟩).wellFormed = false
    ∧ (Instr.supplyRestart ⟨1, 2⟩).wellFormed = true ∧ (Instr.stationReset toLine ⟨8, 8⟩).wellFormed = false
    ∧ (Instr.stationReset toLine ⟨8, 4⟩).wellFormed = true := by decide

/-- No row of the table gives bits, so no word spells a command. -/
theorem test_no_word_spells_a_command : decodeTableWord 8 1 = none ∧ decodeTableWord 0 0 = none := by decide

/-! ## Worked examples of the manual -/

/-- 7.4.1: station 6 claims line 5, weight 6, set 2 and 3: octets 70, 86, 12, check octet 173. -/
theorem test_check_octet_example : claimFrame 6 5 6 12 = [70, 86, 12, 173] := by decide +kernel

/-- 7.4.1 read back: the octets give the CLAIM with its line, weight and set. -/
theorem test_read_example : readFrame [70, 86, 12, 173] = some (.peerClaim 6 5 6 12)
    ∧ readFrame (commandFrame true toLine 6 [0]) = some (.blockPolite toLine)
    ∧ readFrame (reportFrame 12 (newReport .flash 193 [])) = some (.peerReport 12 3 193 []) := by decide +kernel

/-- R135: octet 70, 01000110, on the wire: start bit dominant, data bits from the most significant, stop bit recessive. -/
theorem test_octet_levels : (List.range 10).map (octetLevel 70)
      = [false, false, true, false, false, false, true, true, false, true]
    ∧ octetOfBits [false, true, false, false, false, true, true, false] = 70 := by decide

/-- R153: the codes of the commands and their parameter octets. -/
theorem test_command_codes :
    (commandOf toLine 1 [0, 100] = some (.ring toLine 0 100) ∧ commandOf toLine 2 [] = some (.stopRing toLine)
      ∧ commandOf toLine 3 [] = some (.connect toLine) ∧ commandOf toLine 4 [] = some (.releaseLine toLine)
      ∧ commandOf toLine 5 [2] = some (.tone toLine 2) ∧ commandOf toLine 6 [0] = some (.blockPolite toLine)
      ∧ commandOf toLine 6 [1] = some (.blockForced toLine 1) ∧ commandOf toLine 7 [] = some (.unblock toLine))
    ∧ (commandOf toLine 8 [16] = some (.remap toLine 16) ∧ commandOf toLine 9 [1] = some (.watch toLine 1)
      ∧ commandOf toLine 10 [] = some (.queryLine toLine) ∧ commandOf toLine 11 [] = some (.queryStation toLine)
      ∧ commandOf toLine 12 [] = some (.queryTable toLine) ∧ commandOf toLine 13 [] = some (.start toLine)
      ∧ commandOf toLine 14 [] = some (.stationReset toLine ⟨0, 0⟩))
    ∧ commandOf toLine 15 [] = some (.unknownCommand toLine 15) ∧ commandOf toLine 0 [] = some (.unknownCommand toLine 0) := by
  decide

/-- 7.10.1: the five headers. -/
theorem test_header_examples : headerOctet .claim false 9 = 73 ∧ headerOctet .command true 0 = 112
    ∧ headerOctet .report false 12 = 140 ∧ headerOctet .report true 4 = 148 ∧ headerOctet .summary true 2 = 178
    ∧ headerOctet .release false 4 = 36 := by decide

/-- 6.9.1: the placement of line 5, routine at E = 40 and priority at E = 50. -/
theorem test_placement_example :
    chooseOffset ⟨#[34, 30, 12, 8, 20, 25, 38, 40], rfl⟩ 2 6 40 0 = some 2
    ∧ chooseOffset ⟨#[34, 30, 12, 8, 20, 25, 38, 40], rfl⟩ 2 6 50 0 = some 2 := by decide

/-- 6.9.1: costs and delays of the table, and the offsets that do not fit. -/
theorem test_placement_costs :
    (cost ⟨#[34, 30, 12, 8, 20, 25, 38, 40], rfl⟩ 6 (rotatedSet 0 0) = 40 ∧ delay 2 (rotatedSet 0 0) = 5)
    ∧ (cost ⟨#[34, 30, 12, 8, 20, 25, 38, 40], rfl⟩ 6 (rotatedSet 0 1) = 36 ∧ delay 2 (rotatedSet 0 1) = 6)
    ∧ delay 2 (rotatedSet 0 4) = 1
    ∧ (fits ⟨#[34, 30, 12, 8, 20, 25, 38, 40], rfl⟩ 6 40 (rotatedSet 0 5) = false)
    ∧ (fits ⟨#[34, 30, 12, 8, 20, 25, 38, 40], rfl⟩ 6 40 (rotatedSet 0 7) = false) := by decide

/-- 6.9.2: weight 8 on code 0 fits at offset 6 alone; weight 12 on code 1 fits nowhere afterwards. -/
theorem test_clash_placements :
    chooseOffset ⟨#[34, 34, 34, 34, 36, 36, 26, 26], rfl⟩ 5 8 40 0 = some 6
    ∧ chooseOffset ⟨#[34, 34, 34, 34, 36, 36, 36, 36], rfl⟩ 5 8 40 0 = none
    ∧ chooseOffset ⟨#[34, 34, 34, 34, 36, 36, 34, 34], rfl⟩ 6 12 40 1 = none := by decide

/-- 4.7.2 and 4.7.3: rotated sets and code phases. -/
theorem test_rotated_sets : setPhases (rotatedSet 2 5) = [5, 6] ∧ setPhases (rotatedSet 0 2) = [2, 3]
    ∧ setPhases (rotatedSet 1 1) = [1] ∧ setPhases (rotatedSet 3 1) = [1, 2, 5, 6] ∧ codePhase 3 2 = 1
    ∧ phaseCode 0 (codePhase 0 2) = .silent ∧ phaseCode 3 (codePhase 1 1) = .full
    ∧ phaseCode 2 (codePhase 6 5) = .split := by decide

/-- 2.8.3: one break under both profiles. -/
theorem test_break_classes :
    ([3, 7, 8, 20, 22, 24, 28, 30, 70, 120].map (classifyBreak .a)
      = [.hit, .hit, .pulse, .pulse, .longPulse, .flash, .flash, .flash, .flash, .flash])
    ∧ ([3, 7, 8, 20, 22, 24, 28, 30, 70, 160].map (classifyBreak .b)
      = [.hit, .hit, .pulse, .pulse, .pulse, .pulse, .longPulse, .flash, .flash, .flash]) := by decide

/-- R99, R102 and 5.9.3: budget code 3 gives 40, and 20 with a reserve of 10 under reduced ring power; codes 14 and 15 are
taken as 13. -/
theorem test_budgets : baseBudgetOf 3 = 40 ∧ baseBudgetOf 0 = 16 ∧ baseBudgetOf 13 = 120 ∧ baseBudgetOf 15 = 120
    ∧ State.reset.effectiveBudget false = 40 ∧ State.reset.effectiveBudget true = 50
    ∧ ({ State.reset with table := { State.reset.table with reduced := ⟨true, 0⟩ } } : State).effectiveBudget false = 20
    ∧ ({ State.reset with table := { State.reset.table with reduced := ⟨true, 0⟩ } } : State).effectiveBudget true
      = 30 := by decide +kernel

/-- Shelf line numbers of the examples: 84, 165, 147 and 104, and masks over a line's low bits. -/
theorem test_addressing : shelfNumber 5 4 = 84 ∧ shelfNumber 10 5 = 165 ∧ shelfNumber 9 3 = 147
    ∧ shelfNumber 6 8 = 104 ∧ addressedLines 6 97 255 = [1] ∧ addressedLines 6 97 254 = [0, 1]
    ∧ (addressedLines 6 97 240).length = 16 ∧ (addressedLines 6 0 0).length = 16 ∧ addressedLines 6 81 255 = []
    ∧ addressedLines 6 1 15 = [1] ∧ addressesStation 6 105 = true ∧ addressesStation 6 81 = false := by decide +kernel

/-- 8.5.1: a full queue of 2, 28 and 2 entries. A CLEAR displaces RING DELAYED, a DIGIT then the TRACE, and a SEIZE is
dropped with resync-due of line 7. -/
def fullQueue : State :=
  { station .active with reports :=
      [newReport .flash 96 [], newReport .flash 97 []] ++ List.replicate 28 (newReport .seize 104 [])
        ++ [newReport .trace 100 [0, 1], newReport .ringDelayed 105 []] }

theorem test_full_queue_displaces :
    ((queueLine .clear 11 [] fullQueue).reports.map ReportEntry.cls).count 1 = 3
    ∧ (queueLine .clear 11 [] fullQueue).reports.contains (newReport .ringDelayed 105 []) = false
    ∧ (queueLine .digit 2 [7] (queueLine .clear 11 [] fullQueue)).reports.contains (newReport .trace 100 [0, 1])
      = false
    ∧ ((queueLine .seize 7 [] (queueLine .digit 2 [7] (queueLine .clear 11 [] fullQueue))).line 7).resyncDue = true
    ∧ ((queueLine .answer 12 [0] (queueLine .digit 2 [7] (queueLine .clear 11 [] fullQueue))).line 2).resyncDue
      = true := by decide +kernel

/-! ## One small step for each command -/

/-- R174: the number 0 takes the station to SILENT; R99: code 13 gives a base budget of 120. -/
theorem test_powerOnReset : (run (.powerOnReset ⟨0, 3, .a, .auto⟩) (station .active)).station.state = .silent
    ∧ (run (.powerOnReset ⟨0, 3, .a, .auto⟩) (station .active)).control.alarm = true
    ∧ (run (.powerOnReset ⟨9, 13, .a, .auto⟩) (station .down)).table.baseBudget = 120
    ∧ (run (.powerOnReset ⟨9, 13, .a, .auto⟩) (station .down)).station.state = .starting := by decide +kernel

/-- Station 6 in DOWN with the restart count at 20. -/
def restarting (mode : RestartMode) : State :=
  let s := (station .down).setLine 1 { record .ringing (makeOf 3) with ring := some context }
  { s with
    station := ⟨some ⟨6, 3, .a, mode⟩, some ⟨6, 3, .a, mode⟩, .down, 0⟩
    control := ⟨⟨false, 0⟩, 20, false⟩ }

/-- 10.2.1: at count 20 a supply restart; HELD in held mode; lines fresh. -/
theorem test_supplyRestart : (run (.supplyRestart ⟨0, 0⟩) (restarting .auto)).station.state = .starting
    ∧ (run (.supplyRestart ⟨0, 0⟩) (restarting .held)).station.state = .held
    ∧ (run (.supplyRestart ⟨0, 0⟩) (restarting .auto)).line 1 = LineRecord.fresh (some 1) := by decide +kernel

/-- R171: a circuit word that cannot be read leaves the line in FAULT on no circuit. -/
theorem test_supplyRestart_lost_circuit :
    ((run (.supplyRestart ⟨0, 2⟩) (restarting .auto)).line 1).state = .fault
    ∧ ((run (.supplyRestart ⟨0, 2⟩) (restarting .auto)).line 1).circuit = none
    ∧ ((run (.supplyRestart ⟨0, 2⟩) (restarting .auto)).circuit 1).cutOff = true
    ∧ ((run (.supplyRestart ⟨2, 0⟩) (restarting .auto)).line 1).correctionMark = true := by decide +kernel

/-- Station 6 with the warning filter's change to ASSERTED due and line 1 RINGING in phase 2. -/
def warned (t : StationState) : State :=
  let s := (station t).setLine 1 { record .ringing (breakOf 9) with ring := some context }
  let s2 : State := { s with
    control := ⟨⟨false, 3⟩, 0, false⟩
    cadence := { s.cadence with phase := 2, tick := 10 } }
  s2.recomposeAll

/-- 10.2.1: DOWN, the relay released, the WITHDRAW due, the line frozen. -/
theorem test_supplyWarning : ((warned .active).circuit 1).ringRelay = true
    ∧ (run .supplyWarning (warned .active)).station.state = .down
    ∧ ((run .supplyWarning (warned .active)).circuit 1).ringRelay = false
    ∧ (run .supplyWarning (warned .active)).bus.withdrawDue = true
    ∧ ((run .supplyWarning (warned .active)).line 1).state = .ringing := by decide +kernel

/-- R70, R76: a stop that overtakes the end of a phase leaves the tick in phase at 149. -/
theorem test_supplyWarning_tick :
    (run .supplyWarning { warned .active with cadence := { (warned .active).cadence with tick := 150 } }).cadence.tick = 149 := by
  decide +kernel

/-- Station 6 in DOWN, the filter's change to NORMAL due. -/
def negated : State := { station .down with control := ⟨⟨true, 3⟩, 7, false⟩ }

/-- R175: the filter alone changes. -/
theorem test_warningNegated : (run .warningNegated negated).station.state = .down
    ∧ (run .warningNegated negated).control = ⟨⟨false, 0⟩, 7, false⟩ := by decide +kernel

/-- 6.9.1: station 6 in phase 2 with the totals of the example in one peer row. -/
def placing : State :=
  let s := station .active
  { s with
    cadence := { s.cadence with phase := 2 }
    table := { s.table with
      peers := s.table.peers.set 0 ⟨⟨#[34, 30, 12, 8, 20, 25, 38, 40], rfl⟩, true, 0⟩ } }

theorem test_ring_places : ((run (.ring ⟨0, 101, 255⟩ 0x00 0x64) placing).line 5).state = .ringClaiming
    ∧ ((run (.ring ⟨0, 101, 255⟩ 0x00 0x64) placing).line 5).ring = some ⟨0, false, 6, 2, 4, 0, 0⟩
    ∧ (run (.ring ⟨0, 101, 255⟩ 0x00 0x64) placing).table.ownRow = ⟨#[0, 0, 6, 6, 0, 0, 0, 0], rfl⟩
    ∧ (run (.ring ⟨0, 101, 255⟩ 0x00 0x64) placing).ringUnit = ⟨[], some ⟨5, 6, 12, .pending⟩, []⟩ := by
  decide +kernel

/-- 3.9.2: a RING for a BLOCKED line: REFUSED, code 1, BLOCKED. -/
theorem test_ring_refused : (run (.ring toLine 0x00 0x52) (lineIn .blocked Timing.fresh)).reports
    = [newReport .refused 97 [1, 3]] := by decide +kernel

/-- 3.9.3: STOP RING before the ring trip: SEIZING with the make kept. -/
theorem test_stopRing : ((run (.stopRing toLine) (ringIn .ringing (makeOf 4))).line 1).state = .seizing
    ∧ ((run (.stopRing toLine) (ringIn .ringing (makeOf 4))).line 1).timing = makeOf 4
    ∧ (run (.stopRing toLine) (ringIn .ringing (makeOf 4))).ringUnit.releases = [⟨1, 6, 12⟩]
    ∧ (run (.stopRing toLine) (ringIn .ringing (makeOf 4))).reports = [] := by decide +kernel

/-- 3.9.1: CONNECT of a watched dialling line: CONNECTED, with TRACE. -/
theorem test_connect :
    ((run (.connect toLine) (withLine { record .dialing (makeOf 50) with watch := true })).line 1).state = .connected
    ∧ (run (.connect toLine) (withLine { record .dialing (makeOf 50) with watch := true })).reports
      = [newReport .trace 97 [3, 4]] := by decide +kernel

/-- R61: a connected line is PARKED; an idle one is left alone. -/
theorem test_releaseLine : ((run (.releaseLine toLine) (lineIn .connected (makeOf 50))).line 1).state = .parked
    ∧ ((run (.releaseLine toLine) (lineIn .idle (breakOf 50))).line 1).state = .idle := by decide +kernel

/-- R62: value 2 is SPECIAL and closes the switch; value 3 is NONE. -/
theorem test_tone : ((run (.tone toLine 2) (lineIn .parked (makeOf 50))).line 1).tone = .special
    ∧ ((run (.tone toLine 2) (lineIn .parked (makeOf 50))).circuit 1).specialSwitch = true
    ∧ ((run (.tone toLine 3) (lineIn .parked (makeOf 50))).line 1).tone = .none := by decide +kernel

/-- 3.9.2: a polite BLOCK does not shorten the ringing; R63: it takes an IDLE line out of service. -/
theorem test_blockPolite : ((run (.blockPolite toLine) (ringIn .ringing (breakOf 9))).line 1).state = .ringing
    ∧ ((run (.blockPolite toLine) (ringIn .ringing (breakOf 9))).line 1).blockPending = true
    ∧ ((run (.blockPolite toLine) (lineIn .idle (breakOf 9))).circuit 1).cutOff = true := by decide +kernel

/-- R64: BLOCKED at once, with BLOCKED and no CLEAR. -/
theorem test_blockForced : ((run (.blockForced toLine 1) (lineIn .connected (makeOf 9))).line 1).state = .blocked
    ∧ (run (.blockForced toLine 1) (lineIn .connected (makeOf 9))).reports = [newReport .blocked 97 []] := by
  decide +kernel

/-- A circuit 1 with this hook filter under a line 1 with this record. -/
def withHook (r : LineRecord) (f : HookFilter) : State :=
  (withLine r).setCircuit 1 { (withLine r).circuit 1 with hook := f }

/-- 3.9.2 and 1.6.3: UNBLOCK of a line whose circuit reads ON-HOOK: IDLE with LINE STATE, cut-off released. -/
theorem test_unblock :
    ((run (.unblock toLine) (withHook (record .blocked Timing.fresh) ⟨.settled .onHook, 0⟩)).line 1).state = .idle
    ∧ ((run (.unblock toLine) (withHook (record .blocked Timing.fresh) ⟨.settled .onHook, 0⟩)).line 1).timing.sense
      = .brk
    ∧ (run (.unblock toLine) (withHook (record .blocked Timing.fresh) ⟨.settled .onHook, 0⟩)).reports
      = [newReport .lineState 97 [0, 1, 0, 0]] := by decide +kernel

/-- R66: a line in FAULT whose circuit's filtered fault state is NORMAL: the mark goes and the line is PARKED OFF-HOOK. -/
theorem test_unblock_fault :
    (((run (.unblock toLine) (withHook (record .fault Timing.fresh) ⟨.settled .offHook, 0⟩)).line 1).state = .parked)
    ∧ (run (.unblock toLine) (withLine { record .fault Timing.fresh with circuit := none })).reports
      = [newReport .refused 97 [7, 5]] := by decide +kernel

/-- 1.6.3: a target that is mapped is refused with NO CIRCUIT. -/
theorem test_remap_refused : (run (.remap toLine 9) (lineIn .fault Timing.fresh)).reports
    = [newReport .refused 97 [8, 5]] := by decide +kernel

/-- 1.6.3: a spare is taken; from FAULT with BLOCKED, within BLOCKED with LINE STATE; the left circuit is a spare. -/
theorem test_remap_moves : ((run (.remap toLine 16) (lineIn .fault Timing.fresh)).line 1).circuit = some 16
    ∧ ((run (.remap toLine 16) (lineIn .fault Timing.fresh)).line 1).state = .blocked
    ∧ (run (.remap toLine 16) (lineIn .fault Timing.fresh)).reports = [newReport .blocked 97 []]
    ∧ (run (.remap toLine 17) (lineIn .blocked Timing.fresh)).reports = [newReport .lineState 97 [12, 17, 0, 0]]
    ∧ ((run (.remap toLine 16) (lineIn .fault Timing.fresh)).circuit 1).cutOff = true := by decide +kernel

/-- R67: any value but 0 sets the flag. -/
theorem test_watch : ((run (.watch toLine 2) (lineIn .idle Timing.fresh)).line 1).watch = true
    ∧ (run (.watch toLine 2) (lineIn .idle Timing.fresh)).reports = [] := by decide +kernel

/-- R161: four octets, and four more in a ring state: code 0, routine, 16 × 6 + 2, 16 × 4 + 0. -/
theorem test_queryLine : (run (.queryLine toLine) (ringIn .ringing (breakOf 9))).reports
      = [newReport .lineState 97 [11, 1, 0, 0, 0, 0, 98, 64]]
    ∧ (run (.queryLine toLine) (lineIn .connected (makeOf 9))).reports
      = [newReport .lineState 97 [4, 1, 0, 0]] := by decide +kernel

/-- R104: ACTIVE, B = 40, NORMAL, an empty queue and eight own cells of 0, under the number 96. -/
theorem test_queryStation : (run (.queryStation toLine) (station .active)).reports
    = [newReport .stationState 96 [1, 40, 0, 0, 0, 0, 0, 0, 0, 0, 0, 0]] := by decide +kernel

/-- Station 6 with two PRESENT peer rows. -/
def twoPeers : State :=
  let s := station .active
  { s with table := { s.table with peers :=
    (s.table.peers.set 0 ⟨⟨#[255, 0, 0, 0, 0, 0, 0, 3], rfl⟩, true, 0⟩).set 1 ⟨⟨#[45, 0, 0, 0, 0, 0, 0, 0], rfl⟩, true, 0⟩ } }

/-- R105: a total of 300 is sent as 1, 44. -/
theorem test_queryTable : (run (.queryTable toLine) twoPeers).reports
    = [newReport .tableView 96 [1, 44, 0, 0, 0, 0, 0, 0, 0, 0, 0, 0, 0, 0, 0, 3]] := by decide +kernel

/-- R176: START leaves HELD. R155: it is not taken in DOWN. -/
theorem test_start : (run (.start toLine) (station .held)).station.state = .starting
    ∧ (run (.start toLine) (station .held)).bus.ackSlot = true
    ∧ (run (.start toLine) (station .down)).station.state = .down
    ∧ (run (.start toLine) (station .down)).bus.ackSlot = false := by decide +kernel

/-- R177: STATION RESET makes the WITHDRAW due and enters STARTING, from SILENT too. -/
theorem test_stationReset : (run (.stationReset toLine ⟨0, 0⟩) (station .silent)).station.state = .starting
    ∧ (run (.stationReset toLine ⟨0, 0⟩) (station .silent)).bus.withdrawDue = true
    ∧ (run (.stationReset toLine ⟨0, 0⟩) (station .silent)).control.alarm = false
    ∧ (run (.stationReset toLine ⟨0, 0⟩) (station .silent)).bus.ackSlot = true := by decide +kernel

/-- Station 6 in ACTIVE whose warning filter is ASSERTED, as a start may find it. -/
def resetWarned : State := { station .active with control := ⟨⟨true, 0⟩, 0, false⟩ }

/-- R175, R177: a STATION RESET under an ASSERTED warning ends in DOWN with the WITHDRAW due. R171: circuit word 1 is
corrected, and circuit word 2 cannot be read. -/
theorem test_stationReset_warned : (run (.stationReset toLine ⟨2, 4⟩) resetWarned).station.state = .down
    ∧ (run (.stationReset toLine ⟨2, 4⟩) resetWarned).bus.withdrawDue = true
    ∧ (run (.stationReset toLine ⟨2, 4⟩) resetWarned).reports = [newReport .fault 98 [1], newReport .corrected 97 [0]]
    ∧ ((run (.stationReset toLine ⟨2, 4⟩) resetWarned).line 1).correctionMark = true := by decide +kernel

/-- R144: an unknown code is ignored and its slot left recessive. -/
theorem test_unknownCommand : (run (.unknownCommand toLine 15) (station .active)).bus.ackSlot = false
    ∧ (run (.unknownCommand toLine 15) (station .active)).bus.rx.state = .waiting
    ∧ (run (.unknownCommand toLine 15) (station .active)).reports = [] := by decide +kernel

/-- 5.9.2 and 5.9.1: station 6's row of station 9 at 248 in phases 0 and 1, PRESENT at age 1. -/
def peerNine : State :=
  { station .active with table := { (station .active).table with
      peers := (station .active).table.peers.set 8 ⟨⟨#[248, 248, 0, 0, 0, 0, 0, 0], rfl⟩, true, 1⟩ } }

theorem test_peerClaim : (run (.peerClaim 9 0 12 3) peerNine).table.peers[8]
    = ⟨⟨#[255, 255, 0, 0, 0, 0, 0, 0], rfl⟩, true, 0⟩ := by decide +kernel

theorem test_peerRelease : (run (.peerRelease 9 0 12 3) peerNine).table.peers[8]
      = ⟨⟨#[236, 236, 0, 0, 0, 0, 0, 0], rfl⟩, true, 0⟩
    ∧ (run (.peerRelease 11 3 8 12) peerNine).table.peers[10] = ⟨Vector.replicate 8 0, true, 0⟩ := by decide +kernel

theorem test_peerSummary :
    (run (.peerSummary 9 ⟨#[207, 207, 0, 0, 0, 0, 0, 0], rfl⟩) peerNine).table.peers[8]
      = ⟨⟨#[207, 207, 0, 0, 0, 0, 0, 0], rfl⟩, true, 0⟩
    ∧ (run (.peerSummary 2 ⟨#[10, 10, 0, 0, 0, 0, 6, 6], rfl⟩) peerNine).table.peers[1]
      = ⟨⟨#[10, 10, 0, 0, 0, 0, 6, 6], rfl⟩, true, 0⟩ := by decide +kernel

/-- R93. -/
theorem test_peerWithdraw : (run (.peerWithdraw 9) peerNine).table.peers[8] = ⟨Vector.replicate 8 0, false, 0⟩ := by
  decide +kernel

/-- R94: the cells stand, the age is 0; an ABSENT row becomes PRESENT. -/
theorem test_peerReport : (run (.peerReport 9 1 144 [0]) peerNine).table.peers[8]
      = ⟨⟨#[248, 248, 0, 0, 0, 0, 0, 0], rfl⟩, true, 0⟩
    ∧ (run (.peerReport 4 1 64 [0]) peerNine).table.peers[3] = ⟨Vector.replicate 8 0, true, 0⟩ := by decide +kernel

/-- 7.10.2: the third conflict takes the station to SILENT with the alarm asserted. -/
theorem test_ownNumberFrame : (run (.ownNumberFrame .report) (station .active)).station.conflicts = 1
    ∧ (run (.ownNumberFrame .report) { station .active with
        station := { (station .active).station with conflicts := 2 } }).station.state = .silent
    ∧ (run (.ownNumberFrame .report) { station .active with
        station := { (station .active).station with conflicts := 2 } }).control.alarm = true := by decide +kernel

/-- R144: the CLAIM of 7.4.1 with a wrong check octet is discarded; with the right one it is no ground for a discard. -/
theorem test_frameDiscard : discarded [70, 86, 12, 172] false = true ∧ discarded [70, 86, 12, 173] false = false
    ∧ (run (.frameDiscard [70, 86, 12, 172] false) (station .active)).bus.rx.state = .waiting := by decide +kernel

/-- A station whose assembly waits for idle, with a WITHDRAW due, a RELEASE owed and a claim PENDING. -/
def laden (t : StationState) : State :=
  { station t with
    bus := ⟨none, ⟨.waiting, 11, [], [], none, none, false⟩, true, true, false⟩
    ringUnit := ⟨[], some ⟨5, 6, 12, .pending⟩, [⟨1, 6, 12⟩]⟩ }

/-- Station 6 with an idle bus and nothing due. -/
def idleBus (t : StationState) : State :=
  { laden t with bus := ⟨none, RxAssembly.onIdleBus, false, false, false⟩ }

/-- R146: the WITHDRAW goes first; its octets are the header 6 and the check octet. -/
theorem test_busIdle : (run .busIdle (laden .active)).bus.tx
      = some ⟨.withdraw, [6, checkOctet [6]], 0, 0, .contest⟩
    ∧ (run .busIdle (laden .held)).bus.tx = none ∧ (run .busIdle (laden .held)).bus.rx.state = .idle := by decide +kernel

/-- Station 6 sending a frame of a kind, in a phase. -/
def sending (k : FrameKind) (p : TxPhase) : State :=
  { station .active with
    bus := ⟨some ⟨k, [70, 86, 12, 173], 0, 3, p⟩, RxAssembly.begun, true, true, false⟩
    ringUnit := ⟨[], some ⟨5, 6, 12, .sending⟩, [⟨1, 6, 12⟩]⟩ }

/-- 6.9.2: a CLAIM that loses the contest is PENDING again. -/
theorem test_contestLost : (run .contestLost (sending .claim .contest)).ringUnit.claim = some ⟨5, 6, 12, .pending⟩
    ∧ (run .contestLost (sending .claim .contest)).bus.tx = none := by decide +kernel

/-- 7.10.2: the frame is abandoned and a conflict counted, once. -/
theorem test_readBackMismatch : (run .readBackMismatch (sending .claim .body)).station.conflicts = 1
    ∧ (run .readBackMismatch (sending .claim .body)).bus.tx = none
    ∧ (run (.ownNumberFrame .report) (run .readBackMismatch (sending .claim .body))).station.conflicts = 1 := by
  decide +kernel

/-- 5.9.3: line 4 claims weight 5 on phases 6 and 7, where the totals stand at 22, under a base in force of 20 or 40. -/
def claiming (reduced priority : Bool) : State :=
  let s := (station .active).setLine 4
    { LineRecord.fresh (some 4) with state := .ringClaiming, ring := some ⟨0, priority, 5, 6, 4, 0, 0⟩ }
  { s with
    bus := ⟨some ⟨.claim, [], 4, 0, .ack⟩, RxAssembly.begun, false, false, false⟩
    ringUnit := ⟨[], some ⟨4, 5, 0xC0, .sending⟩, []⟩
    table := { s.table with
      ownRow := ⟨#[0, 0, 10, 10, 0, 0, 5, 5], rfl⟩
      peers := s.table.peers.set 6 ⟨⟨#[25, 25, 20, 20, 22, 22, 17, 17], rfl⟩, true, 0⟩
      reduced := ⟨reduced, 0⟩ } }

theorem test_ownClaimCompletes_fails : ((run .ownClaimCompletes (claiming true false)).line 4).state = .ringQueued
    ∧ (run .ownClaimCompletes (claiming true false)).table.ownRow = ⟨#[0, 0, 10, 10, 0, 0, 0, 0], rfl⟩
    ∧ (run .ownClaimCompletes (claiming true false)).ringUnit = ⟨[4], none, [⟨4, 5, 0xC0⟩]⟩ := by decide +kernel

theorem test_ownClaimCompletes_confirms : ((run .ownClaimCompletes (claiming true true)).line 4).state = .ringArmed
    ∧ ((run .ownClaimCompletes (claiming false false)).line 4).state = .ringArmed
    ∧ (run .ownClaimCompletes (claiming false false)).ringUnit = ⟨[], none, []⟩ := by decide +kernel

/-- R127: the head entry goes. -/
theorem test_ownReleaseCompletes : (run .ownReleaseCompletes (sending .release .ack)).ringUnit.releases = []
    ∧ (run .ownReleaseCompletes (sending .release .ack)).bus.rx.state = .waiting := by decide +kernel

/-- 8.5.2: the TRACE replaced on the wire stays behind the SEIZE with its mark cleared. -/
theorem test_ownReportCompletes :
    (run .ownReportCompletes { sending .report .ack with
      reports := [newReport .seize 100 [], ⟨.trace, 100, [1, 2], true, true⟩] }).reports
      = [newReport .seize 100 [], newReport .trace 100 [1, 2]]
    ∧ (run .ownReportCompletes { sending .report .ack with
      reports := [newReport .seize 100 [], ⟨.trace, 100, [1, 2], true, false⟩] }).reports = [newReport .seize 100 []] := by
  decide +kernel

/-- R77. -/
theorem test_ownSummaryCompletes : (run .ownSummaryCompletes (sending .summary .ack)).bus.summaryDue = false
    ∧ (run .ownSummaryCompletes (sending .summary .ack)).bus.withdrawDue = true := by decide +kernel

/-- R147. -/
theorem test_ownWithdrawCompletes : (run .ownWithdrawCompletes (sending .withdraw .ack)).bus.withdrawDue = false
    ∧ (run .ownWithdrawCompletes (sending .withdraw .ack)).bus.summaryDue = true := by decide +kernel

/-- 2.8.1 at tick 1002: DIAL TONE loses its tone and keeps its state timer; the make of 222 is held. -/
theorem test_onHookEdge :
    ((run (.onHookEdge 1) (withHook { record .dialTone ⟨.mk, 222, 0, 0, some 202⟩ with tone := .dial }
      ⟨.settled .offHook, 3⟩)).line 1)
    = record .dialTone ⟨.brk, 0, 222, 0, some 202⟩ := by decide +kernel

/-- 2.8.1 at tick 1014: a break of 12 is a PULSE, and DIAL TONE goes to DIALING. -/
theorem test_offHookEdge_pulse :
    ((run (.offHookEdge 1) (withHook (record .dialTone ⟨.brk, 12, 222, 0, some 214⟩) ⟨.settled .onHook, 3⟩)).line 1)
    = record .dialing ⟨.mk, 0, 222, 1, none⟩ := by decide +kernel

/-- 2.8.2, second case: a HIT of 5 resumes a make of 38 at 43 and hands DIGIT-END with digit 2. -/
theorem test_offHookEdge_hit :
    ((run (.offHookEdge 1) (withHook (record .dialing ⟨.brk, 5, 38, 2, none⟩) ⟨.settled .onHook, 3⟩)).line 1)
      = record .dialing ⟨.mk, 43, 38, 0, none⟩
    ∧ (run (.offHookEdge 1) (withHook (record .dialing ⟨.brk, 5, 38, 2, none⟩) ⟨.settled .onHook, 3⟩)).reports
      = [newReport .digit 97 [2]] := by decide +kernel

/-- 10.2.2: an IDLE line that settles OFF-HOOK is PARKED, with LINE STATE. -/
theorem test_settle :
    ((run (.settle 1) (withHook (LineRecord.fresh (some 1)) ⟨.unsettled .offHook, 3⟩)).line 1)
      = record .parked (makeOf 0)
    ∧ (run (.settle 1) (withHook (LineRecord.fresh (some 1)) ⟨.unsettled .offHook, 3⟩)).reports
      = [newReport .lineState 97 [7, 1, 0, 0]] := by decide +kernel

/-- A circuit 1 with this fault filter under a line 1 in CONNECTED. -/
def withFault (r : LineRecord) (f : InputFilter) : State :=
  (withLine r).setCircuit 1 { (withLine r).circuit 1 with fault := f }

/-- 1.6.3 at tick 502. -/
theorem test_faultAssertedEdge :
    ((run (.faultAssertedEdge 1) (withFault (record .connected (makeOf 9)) ⟨false, 3⟩)).line 1)
      = record .fault Timing.fresh
    ∧ ((run (.faultAssertedEdge 1) (withFault (record .connected (makeOf 9)) ⟨false, 3⟩)).circuit 1).faultMark = true
    ∧ ((run (.faultAssertedEdge 1) (withFault (record .connected (makeOf 9)) ⟨false, 3⟩)).circuit 1).cutOff = true
    ∧ (run (.faultAssertedEdge 1) (withFault (record .connected (makeOf 9)) ⟨false, 3⟩)).reports
      = [newReport .fault 97 [0]] := by decide +kernel

/-- R9: NORMAL leaves the line in FAULT. -/
theorem test_faultNormalEdge :
    ((run (.faultNormalEdge 1) (withFault (record .fault Timing.fresh) ⟨true, 3⟩)).circuit 1).fault = ⟨false, 0⟩
    ∧ ((run (.faultNormalEdge 1) (withFault (record .fault Timing.fresh) ⟨true, 3⟩)).line 1).state = .fault := by
  decide +kernel

/-- 2.8.3: 121 under profile A clears; 120 does not. -/
theorem test_clearReached : ((run (.clearReached 1) (lineIn .connected (breakOf 121))).line 1).state = .idle
    ∧ (run (.clearReached 1) (lineIn .connected (breakOf 121))).reports = [newReport .clear 97 []]
    ∧ ((run (.clearReached 1) (lineIn .connected (breakOf 120))).line 1).state = .connected := by decide +kernel

/-- 2.8.1 at tick 800. -/
theorem test_seizeConfirmed : ((run (.seizeConfirmed 1) (lineIn .seizing (makeOf 20))).line 1)
      = { record .dialTone ⟨.mk, 20, 0, 0, some 0⟩ with tone := .dial }
    ∧ (run (.seizeConfirmed 1) (lineIn .seizing (makeOf 20))).reports = [newReport .seize 97 []] := by decide +kernel

/-- R136, R139: the SEIZE of line 1 of station 6, shelf line number 97, begins at once on an idle bus. -/
theorem test_seizeConfirmed_begins : ((run (.seizeConfirmed 1)
      { lineIn .seizing (makeOf 20) with bus := ⟨none, RxAssembly.onIdleBus, false, false, false⟩ }).bus.tx.map
      TxFrame.kind) = some .report
    ∧ (run (.seizeConfirmed 1)
      { lineIn .seizing (makeOf 20) with bus := ⟨none, RxAssembly.onIdleBus, false, false, false⟩ }).reports
      = [{ newReport .seize 97 [] with sending := true }] := by decide +kernel

/-- 6.9.3: an answer while the CLAIM is SENDING orphans it and lowers the own row. -/
theorem test_seizeConfirmed_orphans :
    (run (.seizeConfirmed 1) { ringIn .ringClaiming (makeOf 20) with
      ringUnit := ⟨[], some ⟨1, 6, 12, .sending⟩, []⟩
      table := { (station .active).table with ownRow := ⟨#[0, 0, 6, 6, 0, 0, 0, 0], rfl⟩ } }).ringUnit
      = ⟨[], some ⟨1, 6, 12, .orphaned⟩, []⟩
    ∧ (run (.seizeConfirmed 1) { ringIn .ringClaiming (makeOf 20) with
      ringUnit := ⟨[], some ⟨1, 6, 12, .sending⟩, []⟩
      table := { (station .active).table with ownRow := ⟨#[0, 0, 6, 6, 0, 0, 0, 0], rfl⟩ } }).table.ownRow
      = Vector.replicate 8 0 := by decide +kernel

/-- 2.8.5: a make of 4 trips. -/
theorem test_tripConfirmed : ((run (.tripConfirmed 1) (ringIn .ringing (makeOf 4))).line 1).state = .connected
    ∧ (run (.tripConfirmed 1) (ringIn .ringing (makeOf 4))).reports = [newReport .answer 97 [1]]
    ∧ ((run (.tripConfirmed 1) (ringIn .ringing (makeOf 3))).line 1).state = .ringing := by decide +kernel

/-- 2.8.1 at tick 1094: digit 3; ten pulses are digit 0, eleven an error. -/
theorem test_digitEnd : (run (.digitEnd 1) (lineIn .dialing ⟨.mk, 40, 8, 3, none⟩)).reports
      = [newReport .digit 97 [3]]
    ∧ ((run (.digitEnd 1) (lineIn .dialing ⟨.mk, 40, 8, 3, none⟩)).line 1).timing = ⟨.mk, 40, 8, 0, none⟩
    ∧ (run (.digitEnd 1) (lineIn .dialing ⟨.mk, 40, 8, 10, none⟩)).reports = [newReport .digit 97 [0]]
    ∧ (run (.digitEnd 1) (lineIn .dialing ⟨.mk, 40, 8, 11, none⟩)).reports = [newReport .digitError 97 [11]] := by
  decide +kernel

/-- 2.8.4 at tick 24414, and R49. -/
theorem test_interdigitTimeout :
    ((run (.interdigitTimeout 1) (lineIn .recallDialing ⟨.mk, 4000, 330, 0, none⟩)).line 1).state = .connected
    ∧ ((run (.interdigitTimeout 1) (lineIn .dialing ⟨.mk, 4000, 330, 0, none⟩)).line 1).state = .parked
    ∧ (run (.interdigitTimeout 1) (lineIn .dialing ⟨.mk, 4000, 330, 0, none⟩)).reports
      = [newReport .dialTimeout 97 [3]] := by decide +kernel

/-- R34, R48. -/
theorem test_dialToneTimeout :
    ((run (.dialToneTimeout 1) (lineIn .dialTone ⟨.mk, 3020, 0, 0, some 3000⟩)).line 1).state = .parked
    ∧ (run (.dialToneTimeout 1) (lineIn .dialTone ⟨.mk, 3020, 0, 0, some 3000⟩)).reports
      = [newReport .dialTimeout 97 [2]]
    ∧ ((run (.dialToneTimeout 1) (lineIn .dialTone ⟨.mk, 3019, 0, 0, some 2999⟩)).line 1).state = .dialTone := by
  decide +kernel

/-- R34, R51. -/
theorem test_recallTimeout :
    ((run (.recallTimeout 1) (lineIn .recallTone ⟨.mk, 3000, 0, 0, some 3000⟩)).line 1).state = .connected
    ∧ (run (.recallTimeout 1) (lineIn .recallTone ⟨.mk, 3000, 0, 0, some 3000⟩)).reports
      = [newReport .dialTimeout 97 [5]] := by decide +kernel

/-- 4.7.2: line 1 on code 2 at offset 5, at the end of a phase. -/
def distinctive (t : LineState) (p : Phase) (tick : Nat) : State :=
  let s := withLine { record t (breakOf 121) with ring := some ⟨2, false, 6, 5, 0, 0, 0⟩ }
  let s2 : State := { s with cadence := { s.cadence with phase := p, tick := tick, listen := false } }
  s2.recomposeAll

theorem test_phaseBoundary : ((run .phaseBoundary (distinctive .ringArmed 4 150)).line 1).state = .ringing
    ∧ ((run .phaseBoundary (distinctive .ringArmed 4 150)).circuit 1).ringRelay = true
    ∧ ((run .phaseBoundary (distinctive .ringArmed 4 150)).circuit 1).blanking = 2
    ∧ ((run .phaseBoundary (distinctive .ringArmed 3 150)).line 1).state = .ringArmed
    ∧ (run .phaseBoundary (distinctive .ringArmed 4 149)).cadence.phase = 4 := by decide +kernel

/-- R77: station 6 has its SUMMARY due at the boundary into phase 6. -/
theorem test_phaseBoundary_summary : (run .phaseBoundary (distinctive .ringArmed 5 150)).bus.summaryDue = true
    ∧ (run .phaseBoundary (distinctive .ringArmed 4 150)).bus.summaryDue = false := by decide +kernel

/-- 3.9.2: line 1 in RINGING at the end of phase 7, limit 2, cycles 1. -/
def lastCycle (pending : Bool) : State :=
  let s := withLine { record .ringing (breakOf 121) with
    ring := some ⟨0, false, 5, 3, 2, 1, 0⟩, blockPending := pending }
  { s with cadence := { s.cadence with phase := 7, tick := 150, listen := false } }

theorem test_cycleStart : ((run .cycleStart (lastCycle true)).line 1).state = .blocked
    ∧ (run .cycleStart (lastCycle true)).reports = [newReport .noAnswer 97 [], newReport .blocked 97 []]
    ∧ ((run .cycleStart (lastCycle true)).circuit 1).cutOff = true
    ∧ ((run .cycleStart (lastCycle false)).line 1).state = .idle
    ∧ (run .cycleStart (lastCycle false)).cadence.markDrive = true := by decide +kernel

/-- 5.9.1: a row of age 2 is cleared at the next cycle start with PEER LOST. -/
theorem test_cycleStart_peerLost :
    (run .cycleStart { lastCycle false with table := { (lastCycle false).table with
      peers := (lastCycle false).table.peers.set 10 ⟨⟨#[0, 0, 8, 8, 4, 4, 0, 0], rfl⟩, true, 2⟩ } }).table.peers[10]
      = PeerRow.absent
    ∧ (run .cycleStart { lastCycle false with table := { (lastCycle false).table with
      peers := (lastCycle false).table.peers.set 10 ⟨⟨#[0, 0, 8, 8, 4, 4, 0, 0], rfl⟩, true, 2⟩ } }).reports
      = [newReport .noAnswer 97 [], newReport .peerLost 96 [11]] := by decide +kernel

/-- Station 6 with a mark seen and the ticks since cycle start at `n`. -/
def marked (t : StationState) (n : Nat) : State :=
  let s := station t
  { s with cadence := ⟨3, 130, n, t = .starting, false, true, true⟩ }

/-- 4.7.1: at 100 the mark is accepted, without driving, and ends the listen period; before it, it is ignored. -/
theorem test_mark : (run .mark (marked .starting 100)).station.state = .active
    ∧ (run .mark (marked .starting 100)).cadence = ⟨0, 0, 0, false, false, true, false⟩
    ∧ (run .mark (marked .active 1)).cadence = ⟨3, 130, 1, false, false, true, false⟩ := by decide +kernel

/-- 4.7.2 at phase 5, tick 45 and tick 75. -/
theorem test_onPortionBoundary :
    ((run .onPortionBoundary { distinctive .ringing 5 44 with
      cadence := (distinctive .ringing 5 45).cadence }).circuit 1).ringRelay = false
    ∧ ((run .onPortionBoundary { distinctive .ringing 5 44 with
      cadence := (distinctive .ringing 5 45).cadence }).circuit 1).blanking = 2
    ∧ ((run .onPortionBoundary { distinctive .ringing 5 74 with
      cadence := (distinctive .ringing 5 75).cadence }).circuit 1).ringRelay = true := by decide +kernel

/-- 5.9.3: REDUCED accepted. -/
theorem test_reducedRingPowerChange :
    (run .reducedRingPowerChange { station .active with
      table := { (station .active).table with reduced := ⟨false, 3⟩ } }).baseInForce = 20 := by decide +kernel

/-- Station 6 stopped in a state, with the changes of its reduced-ring-power filter and of the filters of circuit 1 due. -/
def stoppedDue (t : StationState) : State :=
  let s := (station t).setCircuit 1 { (station t).circuit 1 with hook := ⟨.unsettled .offHook, 3⟩, fault := ⟨false, 3⟩ }
  { s with table := { s.table with reduced := ⟨false, 3⟩ } }

/-- R6, R7, R9, R100: a change whose third sample was taken before the station stopped is accepted, with no notice. -/
theorem test_stopped_filters :
    (run (.faultAssertedEdge 1) (stoppedDue .down)).circuit 1
      = { (stoppedDue .down).circuit 1 with fault := ⟨true, 0⟩, faultMark := true }
    ∧ (run (.faultAssertedEdge 1) (stoppedDue .down)).lines = (stoppedDue .down).lines
    ∧ ((run (.settle 1) (stoppedDue .silent)).circuit 1).hook = ⟨.settled .offHook, 0⟩
    ∧ (run (.settle 1) (stoppedDue .silent)).lines = (stoppedDue .silent).lines
    ∧ (run .reducedRingPowerChange (stoppedDue .silent)).table.reduced = ⟨true, 0⟩
    ∧ (settleDue (stoppedDue .down)).table.reduced = ⟨true, 0⟩
    ∧ ((settleDue (stoppedDue .down)).circuit 1).faultMark = true := by decide +kernel

/-- 9.5.1: a first correction, and a repeated one. -/
theorem test_lineRecordCorrection :
    (run (.lineRecordCorrection 1 ⟨false, false, false, true, false, false⟩) (lineIn .connected (makeOf 9))).line 1
      = { record .connected (makeOf 9) with correctionMark := true }
    ∧ (run (.lineRecordCorrection 1 ⟨false, false, true, false, false, false⟩)
        (withLine { record .connected (makeOf 9) with correctionMark := true })).line 1
      = { record .fault Timing.fresh with correctionMark := true }
    ∧ (run (.lineRecordCorrection 1 ⟨false, false, true, false, false, false⟩)
        (withLine { record .connected (makeOf 9) with correctionMark := true })).reports
      = [newReport .fault 97 [1], newReport .corrected 97 [0]] := by decide +kernel

/-- 9.5.2: line 1 RINGING with weight 9 on phases 4 and 5; its status word cannot be read. -/
def unreadable : State :=
  let s := withLine { record .ringing (breakOf 121) with ring := some ⟨0, false, 9, 4, 0, 0, 0⟩, watch := true }
  let s2 : State := { s with
    cadence := { s.cadence with phase := 4, tick := 10, listen := false }
    table := { s.table with ownRow := ⟨#[0, 0, 0, 0, 9, 9, 0, 0], rfl⟩ } }
  s2.recomposeAll

theorem test_lineRecordDoubleBitError :
    ((run (.lineRecordDoubleBitError 1 ⟨true, false, false, false, false, false⟩
      ⟨false, false, false, false, false, false⟩) unreadable).line 1)
      = { record .fault Timing.fresh with circuit := none }
    ∧ (run (.lineRecordDoubleBitError 1 ⟨true, false, false, false, false, false⟩
      ⟨false, false, false, false, false, false⟩) unreadable).table.ownRow = Vector.replicate 8 0
    ∧ (run (.lineRecordDoubleBitError 1 ⟨true, false, false, false, false, false⟩
      ⟨false, false, false, false, false, false⟩) unreadable).ringUnit.releases = [⟨1, 9, 0x30⟩] := by decide +kernel

theorem test_lineRecordDoubleBitError_spare : (unreadable.circuit 1).ringRelay = true
    ∧ ((run (.lineRecordDoubleBitError 1 ⟨true, false, false, false, false, false⟩
      ⟨false, false, false, false, false, false⟩) unreadable).circuit 1).blanking = 2
    ∧ ((run (.lineRecordDoubleBitError 1 ⟨true, false, false, false, false, false⟩
      ⟨false, false, false, false, false, false⟩) unreadable).circuit 1).cutOff = true
    ∧ (run (.lineRecordDoubleBitError 1 ⟨true, false, false, false, false, false⟩
      ⟨false, false, false, false, false, false⟩) unreadable).reports = [newReport .fault 97 [1]] := by decide +kernel

/-- R172. -/
theorem test_stationRecordCorrection :
    (run (.stationRecordCorrection ⟨true, false, false⟩) (station .active)).reports = [newReport .corrected 96 [1]]
    ∧ (run (.stationRecordCorrection ⟨true, false, false⟩) { station .active with
      station := { (station .active).station with strap2 := some ⟨7, 3, .a, .auto⟩ } }).station.state = .silent := by
  decide +kernel

/-- R173: both copies lost; one lost in ACTIVE; one lost in DOWN. -/
theorem test_stationRecordDoubleBitError :
    (run (.stationRecordDoubleBitError ⟨true, true, false⟩ ⟨false, false, false⟩ ⟨0, 0⟩)
      (station .active)).station.state = .silent
    ∧ (run (.stationRecordDoubleBitError ⟨true, false, false⟩ ⟨false, false, false⟩ ⟨0, 0⟩)
      (station .active)).bus.withdrawDue = true
    ∧ (run (.stationRecordDoubleBitError ⟨false, true, false⟩ ⟨false, false, false⟩ ⟨0, 0⟩)
      (station .down)).station = (station .down).station := by decide +kernel

/-- A tick with every input quiet but the loop and trip inputs of circuit 1. -/
def sample (loop trip : Bool) : Instr :=
  .tick ⟨if loop then 2 else 0, if trip then 2 else 0, 0, false, false, false⟩

/-- 1.6.1: the third agreeing sample leaves the edge due; an open one clears the run. 1.6.2: blanked ticks take none. -/
theorem test_tick_hook :
    ((run (sample true false) (withHook (record .idle (breakOf 50)) ⟨.settled .onHook, 2⟩)).circuit 1).hook
      = ⟨.settled .onHook, 3⟩
    ∧ ((run (sample false true) (withHook (record .idle (breakOf 50)) ⟨.settled .onHook, 2⟩)).circuit 1).hook
      = ⟨.settled .onHook, 0⟩
    ∧ ((run (sample true false) ((withHook (record .idle (breakOf 50)) ⟨.settled .onHook, 2⟩).setCircuit 1
      { (withHook (record .idle (breakOf 50)) ⟨.settled .onHook, 2⟩).circuit 1 with blanking := 2 })).circuit 1).hook
      = ⟨.settled .onHook, 2⟩ := by decide +kernel

/-- R21 and R70: the counts of a tick. 10.2.1: one asserted sample sets the restart count back to 0. -/
theorem test_tick_counts : ((run (sample true false) (lineIn .connected (breakOf 60))).line 1).timing = breakOf 61
    ∧ (run (sample true false) (lineIn .connected (breakOf 60))).cadence.tick = 1
    ∧ (run (.tick ⟨0, 0, 0, false, false, true⟩)
        { station .down with control := ⟨⟨false, 0⟩, 7, false⟩ }).control = ⟨⟨false, 1⟩, 0, false⟩
    ∧ (run (.tick ⟨0, 0, 0, false, false, false⟩)
        { station .down with control := ⟨⟨false, 0⟩, 19, false⟩ }).control.restartCount = 20 := by decide +kernel

/-- R136: another station's start bit on an idle bus; the station's own frame joins the contest. -/
theorem test_startBit :
    (run .startBit { station .active with bus := ⟨none, RxAssembly.onIdleBus, true, false, false⟩ }).bus.tx.isSome
      = true
    ∧ (run .startBit { station .active with
        bus := ⟨none, RxAssembly.onIdleBus, false, false, false⟩ }).bus.rx.state = .assembling
    ∧ (run .startBit (laden .active)).bus.rx.recessive = 0 := by decide +kernel

/-! ## States that meet the hypotheses of the statements

One theorem for each statement that has hypotheses, each clause with a witness. -/

theorem hears_station (t : StationState) : (station t).Hears toLine := by
  unfold State.Hears; cases t <;> decide +kernel

/-- A command for line 1 is taken whatever the record of line 1. -/
theorem takes_withLine (r : LineRecord) : (withLine r).Takes toLine 255 1 :=
  ⟨(hears_station .active).1, (hears_station .active).2.1, nofun, rfl, (by decide +kernel : addressedLines 6 97 255 = [1])⟩

/-- An outcome of a command is its next state. -/
theorem exec_run (i : Instr) (s : State) (h : (exec i s matches .next _) = true) : exec i s = .next (run i s) := by
  unfold run after
  cases hx : exec i s <;> simp_all

/-- Station 6 with its assembly waiting for idle at a count. -/
def waitingAt (n : Nat) : State :=
  { station .active with bus := ⟨none, ⟨.waiting, n, [], [], none, none, false⟩, false, false, false⟩ }

/-- Station 6 at bit `bit` of the header of its CLAIM, 70 (01000110), with the next bit time of the wire given. -/
def wired (phase : TxPhase) (bit : Nat) (w : WireInput) : State :=
  let s := sending .claim phase
  { s with
    bus := { s.bus with
      tx := some ⟨.claim, [70, 86, 12, 173], 0, bit, phase⟩
      rx := { RxAssembly.begun with bits := (List.range bit).map (octetLevel 70) } }
    wire := [w] }

/-- The same in the acknowledge slot. -/
def wiredSlot (w : WireInput) : State :=
  { wired .ack 0 w with bus := { (wired .ack 0 w).bus with tx := some ⟨.claim, [70, 86, 12, 173], 4, 0, .ack⟩ } }

theorem test_meets_IdleStep_free : (waitingAt 10).pending = [] ∧ (waitingAt 10).bus.tx = none
    ∧ (waitingAt 10).bus.rx.state = .waiting ∧ (waitingAt 10).bus.rx.recessive < 11 ∧ (waitingAt 10).wireNow ≠ .dominant
    ∧ 11 ≤ (waitingAt 11).bus.rx.recessive ∧ ({ waitingAt 11 with wire := [.dominant] } : State).wireNow = .dominant
    ∧ (idleBus .active).bus.rx.state = .idle ∧ (idleBus .active).wireNow ≠ .dominant
    ∧ exec .startBit (idleBus .active) = .next (run .startBit (idleBus .active)) :=
  ⟨by decide +kernel, by decide +kernel, by decide +kernel, by decide +kernel, by decide +kernel, by decide +kernel,
    by decide +kernel, by decide +kernel, by decide +kernel, rfl⟩

theorem test_meets_IdleStep_sending :
    (∀ p ∈ [TxPhase.contest, .body], ∀ w ∈ [WireInput.released, .dominant], (wired p 2 w).pending = []
      ∧ (wired p 2 w).bus.tx = some ⟨.claim, [70, 86, 12, 173], 0, 2, p⟩ ∧ (wired p 2 w).bus.rx.state = .assembling)
    ∧ (wired .contest 2 .released).wireNow.read (wired .contest 2 .released).bus.drive
      = (wired .contest 2 .released).bus.drive
    ∧ (wired .body 2 .dominant).wireNow.read (wired .body 2 .dominant).bus.drive ≠ (wired .body 2 .dominant).bus.drive
    ∧ [(70 : Octet), 86, 12, 173][0]? = some 70 ∧ completionOf .claim = some .ownClaimCompletes
    ∧ (wiredSlot .released).bus.tx = some ⟨.claim, [70, 86, 12, 173], 4, 0, .ack⟩ := by decide +kernel

/-- The step that an empty queue leads to. -/
def tock (s : State) : State := after (step s)

/-- R134, R137 and 7.10.1: the header goes on where the bit reads as sent; a 1 read as 0 loses the contest. R152: so does a 0
read as 1 on an open connection. -/
theorem test_bit_contest :
    (tock (wired .contest 2 .released)).bus.tx = some ⟨.claim, [70, 86, 12, 173], 0, 3, .contest⟩
    ∧ (tock (wired .contest 3 .dominant)).bus.tx.isSome = true
    ∧ (tock (wired .contest 2 .dominant)).bus.tx = none
    ∧ (tock (wired .contest 2 .dominant)).ringUnit.claim = some ⟨5, 6, 12, .pending⟩
    ∧ (tock (wired .contest 2 .dominant)).bus.rx.bits = [false, false, false]
    ∧ (tock (wired .contest 3 .broken)).bus.tx = none := by decide +kernel

/-- 7.10.2: a mismatch after the header counts a conflict. R141: the slot completes the frame. -/
theorem test_bit_mismatch : (tock (wired .body 2 .dominant)).station.conflicts = 1
    ∧ (tock (wired .body 2 .dominant)).bus.tx = none
    ∧ (tock (wiredSlot .released)).bus.rx = RxAssembly.waitingForIdle ∧ (tock (wiredSlot .released)).bus.tx = none := by
  decide +kernel

/-- Station 6 with its assembly at a bit of another station's frame. -/
def hearing (octets : List Octet) (bits : List Bool) (w : WireInput) : State :=
  let s := station .active
  { s with
    bus := { s.bus with rx := { RxAssembly.begun with
      bits := bits
      octets := octets
      expected := expectedLength octets } }
    wire := [w] }

/-- The nine bits of an octet before its stop bit. -/
def nineBits (o : Octet) : List Bool := (List.range 9).map (octetLevel o)

/-- The same station in the slot of a frame, with Command Dispatch's decision. -/
def inSlotOf (octets : List Octet) (decided : Option Bool) (t : StationState) : State :=
  let s := hearing octets [] .released
  { s with
    station := { s.station with state := t }
    bus := { s.bus with rx := { s.bus.rx with decided := decided } } }

/-- 7.10.3: where the sender falls silent the next start bit reads recessive and the frame is discarded; so it is at a
wrong check octet, and at a dominant stop bit. The CLAIM of 7.4.1 is taken in its slot. -/
theorem test_bit_assembly : (tock (hearing [70] [] .released)).bus.rx = RxAssembly.waitingForIdle
    ∧ (tock (hearing [70, 86, 12] (nineBits 172) .released)).bus.rx = RxAssembly.waitingForIdle
    ∧ (tock (hearing [70] (nineBits 86) .dominant)).bus.rx = RxAssembly.waitingForIdle
    ∧ (tock (hearing [70, 86, 12] (nineBits 173) .released)).bus.rx.octets = [70, 86, 12, 173]
    ∧ (tock (inSlotOf [73, 86, 12, (checkOctet [73, 86, 12])] none .active)).table.peers[8].present = true := by
  decide +kernel

/-- R155: CONNECT for line 1 is decided at its check octet; R142: its slot is driven. R156: in DOWN at its completion it
reaches no line. -/
theorem test_bit_decision :
    (tock (hearing [96, 3, 97, 255] (nineBits (checkOctet [96, 3, 97, 255])) .released)).bus.rx.decided = some true
    ∧ (inSlotOf (commandFrame false toLine 3 []) (some true) .active).bus.drive = false
    ∧ (inSlotOf (commandFrame false toLine 3 []) (some false) .active).bus.drive = true
    ∧ (tock (inSlotOf (commandFrame false toLine 3 []) (some true) .active)).reports = [newReport .refused 97 [3, 2]]
    ∧ (tock (inSlotOf (commandFrame false toLine 3 []) (some true) .down)).reports = []
    ∧ (tock (inSlotOf (commandFrame false toLine 3 []) (some true) .down)).bus.ackSlot = true := by decide +kernel

/-- Station 6 in the slot of a STATION RESET it has taken, gone to SILENT with its straps lost. -/
def strapsLostInSlot : State :=
  let s := inSlotOf (commandFrame false toLine 14 []) (some true) .silent
  { s with station := ⟨none, none, .silent, 1⟩ }

/-- R156: the STATION RESET acts, whatever number the station then has; R173: it enters SILENT again. -/
theorem test_bit_reset_straps_lost : (tock strapsLostInSlot).station = ⟨none, none, .silent, 0⟩
    ∧ (tock strapsLostInSlot).bus.ackSlot = true ∧ (tock strapsLostInSlot).cadence.sinceStart = 100 := by decide +kernel

theorem test_meets_AssemblyReads :
    (∀ w ∈ [WireInput.released, .dominant], (hearing [70] [] w).pending = [] ∧ (hearing [70] [] w).bus.tx = none
      ∧ (hearing [70] [] w).bus.rx.state = .assembling ∧ (hearing [70] [] w).bus.rx.inSlot = false
      ∧ (hearing [70] [] w).bus.rx.bits = [] ∧ (hearing [70] [false] w).bus.rx.bits.length < 9
      ∧ (hearing [70] (nineBits 86) w).bus.rx.bits.length = 9)
    ∧ (∀ i < 8, (86 : Octet).getLsbD i = (nineBits 86).getD (8 - i) false)
    ∧ discarded ([70, 86, 12] ++ [172]) false = true ∧ discarded ([70, 86, 12] ++ [173]) false = false
    ∧ (inSlotOf [70, 86, 12, 173] none .active).bus.rx.expected = some 4
    ∧ readFrame [70, 86, 12, 173] = some (.peerClaim 6 5 6 12) := by decide +kernel

theorem test_meets_SupplyRestart : (restarting .auto).station.state = .down
    ∧ 20 ≤ (restarting .auto).control.restartCount ∧ (restarting .auto).control.warning.asserted = false := by
  decide +kernel

theorem test_meets_StationReset : (station .silent).Hears toLine ∧ (station .silent).station.state ≠ .down
    ∧ addressesStation (station .silent).own toLine.address = true ∧ (station .silent).strapsKnown = true
    ∧ (station .silent).control.warning.asserted = false ∧ resetWarned.Hears toLine
    ∧ resetWarned.station.state ≠ .down ∧ resetWarned.strapsKnown = true ∧ resetWarned.control.warning.asserted = true :=
  ⟨hears_station _, by decide +kernel, by decide +kernel, by decide +kernel, by decide +kernel,
    by unfold State.Hears; decide +kernel, by decide +kernel⟩

theorem test_meets_SupplyWarning : (warned .active).control.warning = ⟨false, 3⟩
    ∧ (warned .starting).control.warning = ⟨false, 3⟩ ∧ (warned .held).control.warning = ⟨false, 3⟩
    ∧ (warned .active).station.state = .active ∧ (warned .starting).station.state = .starting
    ∧ (warned .held).station.state = .held := by decide +kernel

theorem test_meets_FilterChanges : negated.control.warning = ⟨true, 3⟩ ∧ (stoppedDue .down).table.reduced.run = 3
    ∧ ({ station .active with table := { (station .active).table with reduced := ⟨true, 3⟩ } } : State).table.reduced.run
      = 3 := by decide +kernel

theorem test_meets_Start : (station .held).Hears toLine ∧ addressesStation (station .held).own toLine.address = true
    ∧ (station .held).station.state = .held ∧ (station .held).control.warning.asserted = false
    ∧ (station .starting).Hears toLine ∧ (station .starting).running = true :=
  ⟨hears_station _, by decide +kernel, by decide +kernel, by decide +kernel, hears_station _, by decide +kernel⟩

/-- An IDLE line of a station whose claim in flight bars a placement attempt, with two queued lines. -/
def busyIdle : State :=
  { lineIn .idle (makeOf 19) with ringUnit := ⟨[2, 3], some ⟨5, 6, 12, .pending⟩, []⟩ }

theorem test_meets_RingQueues : busyIdle.Takes toLine 255 1 ∧ (busyIdle.line 1).state = .idle
    ∧ busyIdle.mayAttempt = false ∧ busyIdle.seizeHeld 1 = false ∧ 1 ∉ busyIdle.ringUnit.queue
    ∧ lowHalf 0x00 = 0 ∧ lowHalf 0x31 ≠ 0 ∧ (lineIn .blocked Timing.fresh).Takes toLine 255 1
    ∧ ((lineIn .blocked Timing.fresh).line 1).state ≠ .idle :=
  ⟨by unfold State.Takes; decide +kernel, by decide +kernel, by decide +kernel,
    by decide +kernel, by decide +kernel, by decide +kernel, by decide +kernel, takes_withLine _, by decide +kernel⟩

theorem test_meets_RingPlaces : placing.Takes ⟨0, 101, 255⟩ 255 5 ∧ (placing.line 5).state = .idle
    ∧ placing.station.state = .active ∧ placing.ringUnit = ⟨[], none, []⟩ ∧ placing.seizeHeld 5 = false
    ∧ chooseOffset placing.attemptTotals placing.cadence.phase (ringContextOf 0x00 0x64).weight
      (placing.effectiveBudget (ringContextOf 0x00 0x64).priority) (ringContextOf 0x00 0x64).code = some 2 :=
  ⟨by unfold State.Takes; decide +kernel, by decide +kernel⟩

/-- A queue whose head finds no room, and whose second entry does. -/
def noRoom : State :=
  let s := (placing.setLine 5
    { LineRecord.fresh (some 5) with state := .ringQueued, ring := some ⟨3, false, 15, 0, 4, 0, 0⟩ }).setLine 6
    { LineRecord.fresh (some 6) with state := .ringQueued, ring := some ⟨0, false, 6, 0, 4, 0, 0⟩ }
  { s with ringUnit := ⟨[5, 6], none, []⟩ }

/-- Two routine entries that both find room. -/
def roomBehind : State := noRoom.setLine 5
  { LineRecord.fresh (some 5) with state := .ringQueued, ring := some ⟨0, false, 6, 0, 4, 0, 0⟩ }

/-- A priority RING that finds room is placed ahead of routine entries that find it too; where no entry finds room none is
placed. -/
theorem test_meets_RingPlaces_priority : roomBehind.Takes toLine 255 1 ∧ (roomBehind.line 1).state = .idle
    ∧ roomBehind.station.state = .active ∧ roomBehind.ringUnit = ⟨[5, 6], none, []⟩ ∧ roomBehind.seizeHeld 1 = false
    ∧ roomBehind.ringUnit.queue = [] ++ [5, 6] ∧ lowHalf 0x01 ≠ 0 ∧ (∀ m ∈ [5, 6].head?, roomBehind.isPriority m = false)
    ∧ (chooseOffset roomBehind.attemptTotals roomBehind.cadence.phase 6 (roomBehind.effectiveBudget false) 0).isSome = true
    ∧ chooseOffset roomBehind.attemptTotals roomBehind.cadence.phase (ringContextOf 0x01 0x64).weight
      (roomBehind.effectiveBudget (ringContextOf 0x01 0x64).priority) (ringContextOf 0x01 0x64).code = some 2
    ∧ (run (.ring toLine 0x01 0x64) roomBehind).ringUnit = ⟨[5, 6], some ⟨1, 6, 12, .pending⟩, []⟩ :=
  ⟨by unfold State.Takes; decide +kernel, by decide +kernel⟩

/-- A shelf loaded to 40 in every phase, with one queued entry. -/
def loadedShelf : State :=
  { noRoom with
    table := { noRoom.table with peers := noRoom.table.peers.set 0 ⟨Vector.replicate 8 40, true, 0⟩ }
    ringUnit := ⟨[5], none, []⟩ }

/-- A priority RING whose place is behind a priority entry that finds room. -/
theorem test_meets_RingPlaces_behind :
    let s := roomBehind.setLine 5 { roomBehind.line 5 with ring := some ⟨0, true, 6, 0, 4, 0, 0⟩ }
    s.Takes toLine 255 1 ∧ s.ringUnit.queue = [] ++ 5 :: [6] ∧ (s.line 5).state = .ringQueued
    ∧ (s.line 5).ring = some ⟨0, true, 6, 0, 4, 0, 0⟩ ∧ (s.line 5).timing.sense ≠ .mk
    ∧ chooseOffset s.attemptTotals s.cadence.phase 6 (s.effectiveBudget true) 0 = some 2
    ∧ (run (.ring toLine 0x01 0x64) s).ringUnit = ⟨[1, 6], some ⟨5, 6, 12, .pending⟩, []⟩ :=
  ⟨by unfold State.Takes; decide +kernel, by decide +kernel⟩

theorem test_meets_RingPlaces_none : loadedShelf.Takes toLine 255 1 ∧ (loadedShelf.line 1).state = .idle
    ∧ loadedShelf.station.state = .active ∧ (loadedShelf.line 5).ring = some ⟨3, false, 15, 0, 4, 0, 0⟩
    ∧ chooseOffset loadedShelf.attemptTotals loadedShelf.cadence.phase 15 (loadedShelf.effectiveBudget false) 3 = none
    ∧ chooseOffset loadedShelf.attemptTotals loadedShelf.cadence.phase (ringContextOf 0x01 0xF4).weight
      (loadedShelf.effectiveBudget (ringContextOf 0x01 0xF4).priority) (ringContextOf 0x01 0xF4).code = none
    ∧ (run (.ring toLine 0x01 0xF4) loadedShelf).ringUnit = ⟨[1, 5], none, []⟩ :=
  ⟨by unfold State.Takes; decide +kernel, by decide +kernel⟩

theorem test_meets_RingPlaces_queued : noRoom.Takes ⟨0, 97, 255⟩ 255 1 ∧ (noRoom.line 1).state = .idle
    ∧ noRoom.station.state = .active ∧ (1 : Line) ∉ noRoom.ringUnit.queue ∧ noRoom.seizeHeld 1 = false
    ∧ noRoom.ringUnit.queue = [5] ++ 6 :: [] ∧ (noRoom.line 5).ring = some ⟨3, false, 15, 0, 4, 0, 0⟩
    ∧ chooseOffset noRoom.attemptTotals noRoom.cadence.phase 15 (noRoom.effectiveBudget false) 3 = none
    ∧ (noRoom.line 6).state = .ringQueued ∧ (noRoom.line 6).ring = some ⟨0, false, 6, 0, 4, 0, 0⟩
    ∧ (noRoom.line 6).timing.sense ≠ .mk ∧ lowHalf 0x00 = 0
    ∧ chooseOffset noRoom.attemptTotals noRoom.cadence.phase 6 (noRoom.effectiveBudget false) 0 = some 2 :=
  ⟨by unfold State.Takes; decide +kernel, by decide +kernel⟩

/-- Line 1 in RINGING with block-pending set. -/
def ringBlocked : State := withLine { record .ringing (breakOf 9) with ring := some context, blockPending := true }

theorem test_meets_StopRing :
    (∀ t, (ringIn .ringing t).Takes toLine toLine.mask 1 ∧ (ringIn .ringing t).Takes toLine 255 1)
    ∧ ((ringIn .ringing (breakOf 9)).line 1).state.isRing = true
    ∧ ((ringIn .ringing (breakOf 9)).line 1).timing.sense ≠ .mk
    ∧ ((ringIn .ringing (breakOf 9)).line 1).blockPending = false
    ∧ ((ringIn .ringing (makeOf 19)).line 1).timing.sense = .mk
    ∧ ((ringIn .ringing (makeOf 19)).line 1).timing.edgeCount < seizeConfirmTicks (ringIn .ringing (makeOf 19)).profile
    ∧ ringBlocked.Takes toLine 255 1 ∧ (ringBlocked.line 1).blockPending = true
    ∧ ((lineIn .idle (breakOf 9)).line 1).state.isRing = false :=
  ⟨fun _ => ⟨takes_withLine _, takes_withLine _⟩, by decide +kernel, by decide +kernel, by decide +kernel,
    by decide +kernel, by decide +kernel, takes_withLine _, by decide +kernel, by decide +kernel⟩

theorem test_meets_Connect : (∀ t n, (lineIn t n).Takes toLine 255 1)
    ∧ ((lineIn .dialTone (breakOf 120)).line 1).state.isDialling = true ∧ (lineIn .dialTone (breakOf 120)).BreakShort 1
    ∧ ((lineIn .dialing (breakOf 121)).line 1).state.isDialling = true
    ∧ ((lineIn .dialing (breakOf 121)).line 1).blockPending = false
    ∧ ((lineIn .dialing (breakOf 121)).line 1).timing.sense = .brk
    ∧ clearTicks (lineIn .dialing (breakOf 121)).profile ≤ ((lineIn .dialing (breakOf 121)).line 1).timing.edgeCount
    ∧ ((lineIn .idle (breakOf 9)).line 1).state.isDialling = false :=
  ⟨fun _ _ => takes_withLine _, by decide +kernel, by unfold State.BreakShort; decide +kernel, by decide +kernel,
    by decide +kernel, by decide +kernel, by decide +kernel, by decide +kernel⟩

theorem test_meets_ReleaseLine : (∀ t n, (lineIn t n).Takes toLine 255 1)
    ∧ ((lineIn .seizing (makeOf 3)).line 1).state = .seizing ∧ (lineIn .seizing (makeOf 3)).BreakShort 1
    ∧ ((lineIn .recallDialing (breakOf 120)).line 1).state = .recallDialing
    ∧ (lineIn .recallDialing (breakOf 120)).BreakShort 1
    ∧ ((lineIn .parked (makeOf 3)).line 1).state = .parked :=
  ⟨fun _ _ => takes_withLine _, by decide +kernel, by unfold State.BreakShort; decide +kernel, by decide +kernel,
    by unfold State.BreakShort; decide +kernel, by decide +kernel⟩

theorem test_meets_Tone : (∀ t n, (lineIn t n).Takes toLine 255 1)
    ∧ ((lineIn .connected (makeOf 3)).line 1).state = .connected ∧ ((lineIn .parked (makeOf 3)).line 1).state = .parked
    ∧ ((lineIn .idle (makeOf 3)).line 1).state ≠ .connected ∧ ((lineIn .idle (makeOf 3)).line 1).state ≠ .parked :=
  ⟨fun _ _ => takes_withLine _, by decide +kernel⟩

theorem test_meets_Block : (∀ t n, (lineIn t n).Takes toLine toLine.mask 1)
    ∧ ((lineIn .idle (breakOf 3)).line 1).state = .idle ∧ ((lineIn .seizing (makeOf 3)).line 1).state ≠ .idle
    ∧ ((lineIn .seizing (makeOf 3)).line 1).state ≠ .blocked ∧ ((lineIn .seizing (makeOf 3)).line 1).state ≠ .fault
    ∧ (1 : Octet) ≠ 0 ∧ ((lineIn .blocked Timing.fresh).line 1).state = .blocked
    ∧ ((lineIn .fault Timing.fresh).line 1).state = .fault :=
  ⟨fun _ _ => takes_withLine _, by decide +kernel⟩

theorem test_meets_UnblockBlocked : (∀ t n, (lineIn t n).Takes toLine toLine.mask 1)
    ∧ ((lineIn .blocked Timing.fresh).line 1).state = .blocked
    ∧ (withHook (record .blocked Timing.fresh) ⟨.settled .offHook, 0⟩).presentedTo 1 = some .offHook
    ∧ (lineIn .blocked Timing.fresh).presentedTo 1 = none
    ∧ ((lineIn .connected (makeOf 3)).line 1).state ≠ .blocked ∧ ((lineIn .connected (makeOf 3)).line 1).state ≠ .fault :=
  ⟨fun _ _ => takes_withLine _, by decide +kernel⟩

/-- Line 1 in FAULT on no circuit. -/
def lostCircuit : State := withLine { record .fault Timing.fresh with circuit := none }

theorem test_meets_UnblockFaulted : lostCircuit.Takes toLine toLine.mask 1 ∧ (lostCircuit.line 1).state = .fault
    ∧ (lostCircuit.line 1).circuit = none
    ∧ (withFault (record .fault Timing.fresh) ⟨true, 0⟩).Takes toLine toLine.mask 1
    ∧ ((withFault (record .fault Timing.fresh) ⟨true, 0⟩).line 1).circuit = some 1
    ∧ ((withFault (record .fault Timing.fresh) ⟨true, 0⟩).circuit 1).fault.asserted = true
    ∧ ((lineIn .fault Timing.fresh).line 1).circuit = some 1
    ∧ ((lineIn .fault Timing.fresh).circuit 1).fault.asserted = false
    ∧ (lineIn .fault Timing.fresh).reports.length < 32 :=
  ⟨takes_withLine _, by decide +kernel, by decide +kernel, by unfold State.Takes; decide +kernel,
    by decide +kernel⟩

theorem test_meets_Remap : (∀ t n, (lineIn t n).Takes toLine 255 1)
    ∧ ((lineIn .idle Timing.fresh).line 1).state ≠ .blocked ∧ ((lineIn .idle Timing.fresh).line 1).state ≠ .fault
    ∧ ((lineIn .fault Timing.fresh).line 1).state = .fault ∧ 17 < (18 : Octet).toNat
    ∧ ((lineIn .fault Timing.fresh).line 9).circuit = some 9 ∧ (9 : CircuitNo).val = (9 : Octet).toNat
    ∧ (17 : CircuitNo).val = (17 : Octet).toNat ∧ (∀ m, ((lineIn .fault Timing.fresh).line m).circuit ≠ some 17)
    ∧ ((lineIn .fault Timing.fresh).circuit 17).faultMark = false
    ∧ (((lineIn .fault Timing.fresh).setCircuit 16
        { (lineIn .fault Timing.fresh).circuit 16 with faultMark := true }).circuit 16).faultMark = true :=
  ⟨fun _ _ => takes_withLine _, by decide +kernel⟩

/-- Sound ring bookkeeping with a line in a ring state: a RING taken at station 2. -/
theorem ringOk_witness : (ringLine 0x00 0x64 1 (powerOn ⟨2, 3, .a, .auto⟩ State.reset)).RingOk :=
  ringOk_ringLine (ringOk_powerOn ..) _ _ _

/-- The same at a station that hears a command for line 1. -/
def ringSound : State := (ringLine 0x00 0x64 1 (powerOn ⟨6, 3, .a, .auto⟩ State.reset)).setBus (station .active).bus

theorem ringOk_setBus {s : State} (h : s.RingOk) (b : BusInterface) : (s.setBus b).RingOk := ringOk_other h rfl rfl rfl

theorem ringOk_ringSound : ringSound.RingOk := ringOk_setBus (ringOk_ringLine (ringOk_powerOn ..) ..) _

theorem test_meets_WatchAndQuery : ringSound.Takes toLine 255 1 ∧ ringSound.reports.length < 32 ∧ ringSound.RingOk
    ∧ (ringSound.line 1).ring = some ⟨0, false, 6, 0, 4, 0, 0⟩ ∧ (ringSound.line 1).state = .ringQueued
    ∧ (powerOn ⟨6, 3, .a, .auto⟩ (station .active)).RingOk
    ∧ ((powerOn ⟨6, 3, .a, .auto⟩ (station .active)).line 1).ring = none :=
  ⟨by unfold State.Takes; decide +kernel, by decide +kernel, ringOk_ringSound,
    by decide +kernel, by decide +kernel, ringOk_powerOn .., by decide +kernel⟩

theorem test_meets_StationQueries : (station .starting).Hears toLine ∧ (station .starting).running = true
    ∧ addressesStation (station .starting).own toLine.address = true :=
  ⟨hears_station _, by decide +kernel⟩

theorem test_meets_Untaken : (station .held).Hears toLine ∧ (station .held).running = false
    ∧ addressedLines (station .active).own 81 255 = [] ∧ addressesStation (station .active).own 81 = false
    ∧ (station .silent).station.state = .silent ∧ (station .down).station.state = .down :=
  ⟨hears_station _, by decide +kernel⟩

theorem test_meets_Untaken_decided : commandHeader (.connect toLine) = some toLine
    ∧ (Instr.connect toLine).wellFormed = true
    ∧ (∀ b, (inSlotOf (commandFrame false toLine 3 []) (some b) .active).receiving = true
      ∧ toLine.station ≠ (inSlotOf (commandFrame false toLine 3 []) (some b) .active).own
      ∧ (inSlotOf (commandFrame false toLine 3 []) (some b) .active).bus.rx.decided = some b
      ∧ (inSlotOf (commandFrame false toLine 3 []) (some b) .active).decision (.connect toLine) = some true)
    ∧ (∀ t ∈ [StationState.down, .held, .silent], (inSlotOf (commandFrame false toLine 3 []) (some true) t).receiving = true
      ∧ (inSlotOf (commandFrame false toLine 3 []) (some true) t).bus.rx.decided = some true
      ∧ (inSlotOf (commandFrame false toLine 3 []) (some true) t).running = false
      ∧ (inSlotOf (commandFrame false toLine 3 []) (some true) t).station.state = t)
    ∧ strapsLostInSlot.receiving = true ∧ strapsLostInSlot.bus.rx.decided = some true
    ∧ strapsLostInSlot.station.state = .silent ∧ strapsLostInSlot.control.warning.asserted = false
    ∧ strapsLostInSlot.strapsKnown = false ∧ (inSlotOf (commandFrame false toLine 14 []) (some true) .silent).strapsKnown = true := by
  decide +kernel

theorem test_meets_MaskedAddressing : (station .active).Hears toLine ∧ (station .active).running = true
    ∧ (6 : StationNo) ≠ 0 ∧ (15 : Octet).toNat < 16 ∧ 1 ∈ addressedLines 6 97 255
    ∧ (98 : Octet).toNat / 16 = toLine.address.toNat / 16 ∧ (station .active).receiving = true
    ∧ (station .active).bus.rx.decided ≠ some false ∧ addressedLines 6 97 254 = [0, 1] :=
  ⟨hears_station _, by decide +kernel⟩

/-- R156: under a mask lines 0 and 1 both take the command. -/
theorem test_masked_block :
    ((run (.blockPolite ⟨0, 97, 254⟩) (station .active)).lines.toList.map LineRecord.state).count .blocked = 2
    ∧ (run (.blockPolite ⟨0, 97, 254⟩) (station .active)).reports = [newReport .blocked 96 [], newReport .blocked 97 []] := by
  decide +kernel

theorem test_meets_LineCommandFrame : (station .active).Hears toLine ∧ (station .active).running = true
    ∧ addressedLines (station .active).own toLine.address 255 = [1]
    ∧ addressedLines (station .active).own toLine.address 240 ≠ []
    ∧ exec (.ring toLine 0x00 0x64) (station .active) = .next (run (.ring toLine 0x00 0x64) (station .active)) :=
  ⟨hears_station _, by decide +kernel, by decide +kernel, by decide +kernel, rfl⟩

/-- The seven causes of a ring-leave. -/
theorem test_meets_RingLeave :
    (∀ t n, (ringIn t n).Takes toLine 255 1) ∧ (∀ t n, (ringIn t n).Takes toLine toLine.mask 1)
    ∧ ((ringIn .ringClaiming (makeOf 20)).line 1).state.isRing = true ∧ (1 : Octet) ≠ 0
    ∧ ((ringIn .ringClaiming (makeOf 20)).running = true ∧ ((ringIn .ringClaiming (makeOf 20)).line 1).state ≠ .ringing
      ∧ (ringIn .ringClaiming (makeOf 20)).seizeHeld 1 = true)
    ∧ (ringIn .ringing (makeOf 4)).tripDue 1 = true
    ∧ (withFault { record .ringArmed (makeOf 4) with ring := some context } ⟨false, 3⟩).owner 1 = some 1
    ∧ ((withFault { record .ringArmed (makeOf 4) with ring := some context } ⟨false, 3⟩).circuit 1).fault
      = ⟨false, 3⟩
    ∧ ((withLine { record .ringArmed (makeOf 4) with ring := some context, correctionMark := true }).line 1).correctionMark = true
    ∧ (((ringIn .ringArmed (makeOf 4)).line 1).reads ⟨true, false, false, false, false, false⟩).any = true :=
  ⟨fun _ _ => takes_withLine _, fun _ _ => takes_withLine _, by decide +kernel⟩

theorem test_meets_PeerFrames : (station .active).receiving = true ∧ (station .active).running = true
    ∧ (9 : StationNo) ≠ (station .active).own ∧ (9 : StationNo) ≠ 0
    ∧ (∀ r : PeerRow, (r.claimed 12 3).present = true ∧ (r.claimed 12 3).age = 0)
    ∧ (∀ (r : PeerRow) (p : Phase), (r.claimed 12 3).cells[p] = if inSet 3 p then min (r.cells[p] + 12) 255 else r.cells[p])
    ∧ (∀ r : PeerRow, r.withdrawn = ⟨Vector.replicate 8 0, false, 0⟩)
    ∧ ([] : List Octet).length ≤ 16 :=
  ⟨by decide +kernel, by decide +kernel, by decide +kernel, by decide +kernel, fun _ => ⟨rfl, rfl⟩,
    fun r p => by simp [PeerRow.claimed], fun _ => rfl, by decide⟩

theorem test_meets_FramesWithoutEffect : (station .active).receiving = true
    ∧ discarded [70, 86, 12, 172] false = true ∧ discarded [] true = true ∧ discarded [192] false = true
    ∧ (0 : StationNo) ≠ (station .active).own ∧ 15 ≤ (15 : Octet).toNat ∧ (station .held).receiving = true
    ∧ toLine.station ≠ (station .active).own ∧ (station .active).bus.rx.decided ≠ some true
    ∧ (9 : StationNo) ≠ (station .held).own ∧ (station .held).running = false := by decide +kernel

theorem test_meets_Conflicts : (station .active).running = true ∧ (station .active).receiving = true
    ∧ (station .active).bus.rx.mismatchCounted = false ∧ (station .active).station.conflicts < 2
    ∧ (sending .claim .body).running = true
    ∧ (sending .claim .body).bus.tx = some ⟨.claim, [70, 86, 12, 173], 0, 3, .body⟩
    ∧ 2 ≤ ({ station .active with station := { (station .active).station with conflicts := 2 } } : State).station.conflicts
    ∧ (station .held).receiving = true ∧ (station .held).running = false
    ∧ ({ sending .claim .body with station := (station .down).station } : State).running = false := by decide +kernel

/-- Station 6 receives the rest of a frame in which it has counted a mismatch. -/
def mismatchHeard : State :=
  (station .active).setBus { (station .active).bus with rx := { RxAssembly.begun with mismatchCounted := true } }

/-- Frames with the own number 6: a peer's frame, counted or not, and a COMMAND. -/
theorem test_meets_Conflicts_own : (station .active).CarriesOwnNumber (.peerWithdraw 6)
    ∧ mismatchHeard.CarriesOwnNumber (.peerWithdraw 6) ∧ mismatchHeard.receiving = true
    ∧ mismatchHeard.bus.rx.mismatchCounted = true ∧ (station .held).CarriesOwnNumber (.connect ⟨6, 97, 255⟩) :=
  ⟨.inr (.inr (.inr (.inr (.inl rfl)))), .inr (.inr (.inr (.inr (.inl rfl)))), by decide +kernel, rfl,
    .inr (.inr (.inr (.inr (.inr (.inr ⟨⟨6, 97, 255⟩, rfl, by decide +kernel, rfl, by decide +kernel⟩)))))⟩

/-- R145, R148: a peer's CLAIM with the own number is counted and not applied; a COMMAND so numbered does not act. -/
theorem test_own_number_rows : (run (.peerClaim 6 0 12 3) (station .active)).station.conflicts = 1
    ∧ (run (.connect ⟨6, 97, 255⟩) (station .active)).station.conflicts = 1
    ∧ (run (.connect ⟨6, 97, 255⟩) (station .active)).reports = []
    ∧ (run (.connect ⟨6, 97, 255⟩) (station .held)).station.conflicts = 0 := by decide +kernel

theorem test_meets_AbandonedAndLost :
    (sending .claim .body).bus.tx = some ⟨.claim, [70, 86, 12, 173], 0, 3, .body⟩
    ∧ (sending .claim .contest).bus.tx = some ⟨.claim, [70, 86, 12, 173], 0, 3, .contest⟩
    ∧ (sending .report .contest).bus.tx = some ⟨.report, [70, 86, 12, 173], 0, 3, .contest⟩ := by decide +kernel

theorem test_meets_IdleBus : (laden .active).bus.tx = none ∧ (laden .active).bus.rx.state = .waiting
    ∧ (laden .active).chooseFrame = some .withdraw ∧ (laden .held).chooseFrame = none
    ∧ (idleBus .active).bus.rx.state = .idle ∧ (idleBus .active).bus.tx = none
    ∧ ({ idleBus .active with ringUnit := ⟨[], some ⟨5, 6, 12, .pending⟩, []⟩ } : State).chooseFrame = some .claim
    ∧ ({ idleBus .starting with reports := [newReport .clear 97 []] } : State).chooseFrame = some .report := by
  decide +kernel

theorem test_meets_FrameSelection : (laden .active).station.state = .active
    ∧ (laden .starting).station.state = .starting ∧ (laden .down).station.state = .down
    ∧ (laden .silent).station.state = .silent := by decide +kernel

theorem test_meets_FramesComposed : (laden .active).own.val = 6
    ∧ (laden .active).ringUnit = ⟨[], some ⟨5, 6, 12, .pending⟩, ⟨1, 6, 12⟩ :: []⟩
    ∧ ({ station .active with reports := [newReport .clear 97 []] } : State).reports = newReport .clear 97 [] :: [] := by
  decide +kernel

theorem test_meets_ReadingAFrame : frameOctets true (.connect toLine) = some (commandFrame true toLine 3 [])
    ∧ (∀ v, Instr.connect toLine ≠ .blockForced toLine v)
    ∧ frameOctets false (.blockForced toLine 1) = some (commandFrame false toLine 6 [1]) ∧ (1 : Octet) ≠ 0
    ∧ frameOctets true (.unknownCommand toLine 15) = some (commandFrame true toLine 15 [])
    ∧ 15 ≤ (15 : Octet).toNat ∧ frameOctets false (.peerReport 12 3 193 []) = some (reportFrame 12 (newReport .flash 193 []))
    ∧ ([] : List Octet).length ≤ 16 :=
  ⟨rfl, fun _ => by simp, rfl, by decide, rfl, by decide, by decide +kernel, by decide⟩

/-- A full queue with no class 3 entry, and one of class 1 alone. -/
def fullOf (n m : Nat) : State :=
  { station .active with reports := List.replicate n (newReport .flash 96 []) ++ List.replicate m (newReport .seize 104 []) }

theorem test_meets_FullQueue : fullQueue.ReportsOk ∧ (fullOf 2 30).ReportsOk ∧ (fullOf 32 0).ReportsOk
    ∧ (newReport .trace 100 [5, 6]).coalescesWith (newReport .trace 100 [0, 1]) = true
    ∧ fullQueue.reports = (fullQueue.reports.take 30) ++ newReport .trace 100 [0, 1] :: [newReport .ringDelayed 105 []]
    ∧ (∀ x ∈ fullQueue.reports, (newReport .clear 98 []).coalescesWith x = false) ∧ fullQueue.reports.length = 32
    ∧ fullQueue.reports = fullQueue.reports.take 31 ++ newReport .ringDelayed 105 [] :: []
    ∧ (newReport .ringDelayed 105 []).cls = 3 ∧ (newReport .clear 98 []).cls = 1 ∧ (newReport .digit 98 [1]).cls = 2
    ∧ (∀ n ∈ [2, 32], (∀ x ∈ (fullOf n (32 - n)).reports, x.cls = 3 → x.sending = true)
      ∧ (fullOf n (32 - n)).reports.length = 32)
    ∧ (fullOf 2 30).reports = (fullOf 2 30).reports.take 31 ++ newReport .seize 104 [] :: []
    ∧ (∀ x ∈ (fullOf 32 0).reports, x.cls = 2 → x.sending = true) ∧ (station .active).reports.length < 32 := by
  unfold State.ReportsOk; decide +kernel

/-- An ORPHANED claim whose frame completes. -/
def orphaned : State := { claiming false false with ringUnit := ⟨[], some ⟨2, 6, 12, .orphaned⟩, []⟩ }

theorem test_meets_OwnClaim : (claiming false false).bus.tx = some ⟨.claim, [], 4, 0, .ack⟩
    ∧ (claiming false false).ringUnit.claim = some ⟨4, 5, 0xC0, .sending⟩
    ∧ ((claiming false false).line 4).state = .ringClaiming
    ∧ ((claiming false false).line 4).ring = some ⟨0, false, 5, 6, 4, 0, 0⟩
    ∧ (claiming false false).seizeHeld 4 = false
    ∧ (∀ p : Phase, inSet 0xC0 p = true → (claiming false false).phaseTotal p ≤ (claiming false false).effectiveBudget false)
    ∧ inSet 0xC0 6 = true ∧ (claiming true false).effectiveBudget false < (claiming true false).phaseTotal 6
    ∧ (4 : Line) ∉ (claiming true false).ringUnit.queue
    ∧ orphaned.bus.tx = some ⟨.claim, [], 4, 0, .ack⟩ ∧ orphaned.ringUnit.claim = some ⟨2, 6, 12, .orphaned⟩ := by
  decide +kernel

theorem test_meets_OwnFrames : (sending .release .ack).bus.tx = some ⟨.release, [70, 86, 12, 173], 0, 3, .ack⟩
    ∧ (sending .summary .ack).bus.tx = some ⟨.summary, [70, 86, 12, 173], 0, 3, .ack⟩
    ∧ (sending .withdraw .ack).bus.tx = some ⟨.withdraw, [70, 86, 12, 173], 0, 3, .ack⟩ := by decide +kernel

/-- Station 6 whose REPORT frame carries the second entry of its queue; line 3 has resync-due set or not. -/
def reporting (replaced resync : Bool) : State :=
  let s := { sending .report .ack with
    reports := [newReport .seize 100 [], ⟨.trace, 100, [1, 2], true, replaced⟩, newReport .trace 101 [1, 2]] }
  s.setLine 3 { s.line 3 with resyncDue := resync }

theorem test_meets_OwnReport :
    (∀ replaced resync, (reporting replaced resync).bus.tx = some ⟨.report, [70, 86, 12, 173], 0, 3, .ack⟩
      ∧ (reporting replaced resync).reports = [newReport .seize 100 []] ++ ⟨.trace, 100, [1, 2], true, replaced⟩
        :: [newReport .trace 101 [1, 2]]
      ∧ (∀ x ∈ [newReport .seize 100 []], x.sending = false) ∧ (reporting replaced resync).reports.length ≤ 32)
    ∧ (∀ l, ((reporting false false).line l).resyncDue = false)
    ∧ ((reporting false true).line 3).resyncDue = true
    ∧ (∀ m < (3 : Line), ((reporting false true).line m).resyncDue = false) := by decide +kernel

/-- A hook edge of circuit 1 for a record with nothing due. -/
def edgeOn (r : LineRecord) (old : Hook) : State := withHook r ⟨.settled old, 3⟩

theorem test_meets_Edges :
    ((edgeOn (record .dialTone (makeOf 222)) .offHook).HookEdge 1 1 .offHook
      ∧ ((edgeOn (record .dialTone (makeOf 222)) .offHook).line 1).state.outOfService = false)
    ∧ ((edgeOn (record .seizing (makeOf 19)) .offHook).HookEdge 1 1 .offHook
      ∧ ((edgeOn (record .seizing (makeOf 19)) .offHook).line 1).blockPending = false)
    ∧ ((edgeOn { record .seizing (makeOf 19) with blockPending := true } .offHook).HookEdge 1 1 .offHook
      ∧ ((edgeOn { record .seizing (makeOf 19) with blockPending := true } .offHook).line 1).blockPending = true)
    ∧ ((edgeOn (record .idle (breakOf 121)) .onHook).HookEdge 1 1 .onHook
      ∧ ((edgeOn (record .idle (breakOf 121)) .onHook).line 1).state.isCall = false) := by
  unfold State.HookEdge State.QuietLine; decide +kernel

/-- A spare circuit 16 with an edge due. -/
def spareEdge (old : Hook) : State :=
  (station .active).setCircuit 16 { (station .active).circuit 16 with hook := ⟨.settled old, 3⟩ }

theorem test_meets_Edges_spare : (∀ h, (spareEdge h).running = true ∧ (spareEdge h).owner 16 = none)
    ∧ ((spareEdge .offHook).circuit 16).hook = ⟨.settled .offHook, 3⟩
    ∧ ((spareEdge .onHook).circuit 16).hook = ⟨.settled .onHook, 3⟩
    ∧ (stoppedDue .down).running = false :=
  ⟨fun h => by cases h <;> decide +kernel, by decide +kernel⟩

/-- A line in BLOCKED under an edge; a break at the clear threshold under the off-hook edge that ends it, and a hold at the
confirm threshold under a settle. -/
theorem test_meets_Edges_thresholds : (edgeOn (record .blocked Timing.fresh) .onHook).owner 1 = some 1
    ∧ ((edgeOn (record .blocked Timing.fresh) .onHook).line 1).state = .blocked
    ∧ ((edgeOn (record .blocked Timing.fresh) .onHook).circuit 1).hook = ⟨.settled .onHook, 3⟩
    ∧ (edgeOn (record .connected (breakOf 121)) .onHook).LoneThreshold 1 1 (.clearReached 1)
    ∧ (run (.clearReached 1) (edgeOn (record .connected (breakOf 121)) .onHook)).QuietLine 1
    ∧ (withHook (record .seizing (makeOf 20)) ⟨.unsettled .offHook, 3⟩).LoneThreshold 1 1 (.seizeConfirmed 1)
    ∧ (run (.seizeConfirmed 1) (withHook (record .seizing (makeOf 20)) ⟨.unsettled .offHook, 3⟩)).QuietLine 1 := by
  unfold State.LoneThreshold State.QuietLine; decide +kernel

/-- R21: the line clears, and the off-hook edge of that tick finds it in IDLE. -/
theorem test_offHookEdge_at_clear :
    ((run (.offHookEdge 1) (edgeOn (record .connected (breakOf 121)) .onHook)).line 1) = record .seizing (makeOf 0)
    ∧ (run (.offHookEdge 1) (edgeOn (record .connected (breakOf 121)) .onHook)).reports = [newReport .clear 97 []] := by
  decide +kernel

/-- The break ends of a hit, of a break below the interdigit time, and of the pulses of a dial. -/
theorem test_meets_BreakEnds_short :
    ((edgeOn (record .connected (breakOf 7)) .onHook).HookEdge 1 1 .onHook
      ∧ classifyBreak .a 7 = .hit)
    ∧ ((edgeOn (record .dialing ⟨.brk, 4, 30, 2, none⟩) .onHook).HookEdge 1 1 .onHook ∧ 30 + 4 < interdigitMakeTicks .a)
    ∧ ((edgeOn (record .dialTone ⟨.brk, 20, 222, 0, some 230⟩) .onHook).HookEdge 1 1 .onHook
      ∧ classifyBreak .a 20 = .pulse ∧ classifyBreak .a 23 = .longPulse) := by
  unfold State.HookEdge State.QuietLine; decide +kernel

/-- A HIT that resumes a make past the interdigit make, and past the interdigit timeout; the last break of a FLASH. -/
theorem test_meets_BreakEnds_late :
    ((edgeOn (record .dialing ⟨.brk, 5, 38, 2, none⟩) .onHook).HookEdge 1 1 .onHook
      ∧ classifyBreak .a 5 = .hit ∧ interdigitMakeTicks .a ≤ 38 + 5 ∧ 38 + 5 < interdigitTimeoutTicks .a)
    ∧ ((edgeOn (record .recallDialing ⟨.brk, 5, 3996, 0, none⟩) .onHook).HookEdge 1 1 .onHook
      ∧ interdigitTimeoutTicks .a ≤ 3996 + 5)
    ∧ classifyBreak .a 120 = .flash ∧ classifyBreak .b 160 = .flash := by
  unfold State.HookEdge State.QuietLine; decide +kernel

/-- The break end of a flash, for each state of a call. -/
theorem test_meets_BreakEnds_flash :
    (∀ t ∈ [LineState.parked, .dialTone, .dialing, .connected, .recallTone, .recallDialing],
      (edgeOn (record t (breakOf 120)) .onHook).HookEdge 1 1 .onHook
        ∧ ((edgeOn (record t (breakOf 120)) .onHook).line 1).state.isCall = true)
    ∧ classifyBreak .a 120 = .flash := by
  unfold State.HookEdge State.QuietLine; decide +kernel

/-- An UNSETTLED circuit 1 whose settle is due. -/
def settling (t : LineState) (k : Hook) : State := withHook (record t Timing.fresh) ⟨.unsettled k, 3⟩

theorem test_meets_Settle : ∀ k ∈ [Hook.onHook, .offHook], ∀ t ∈ [LineState.idle, .parked],
    (settling t k).running = true ∧ ((settling t k).circuit 1).hook = ⟨.unsettled k, 3⟩
      ∧ (settling t k).owner 1 = some 1 ∧ (settling t k).QuietLine 1
      ∧ ((settling t k).line 1).state.outOfService = false ∧ ((settling t k).line 1).timing.sense = .none := by
  unfold State.QuietLine; decide +kernel

theorem test_meets_FaultEdges : ∀ t ∈ [LineState.connected, .fault],
    (withFault (record t Timing.fresh) ⟨false, 3⟩).running = true
      ∧ ((withFault (record t Timing.fresh) ⟨false, 3⟩).circuit 1).fault = ⟨false, 3⟩
      ∧ (withFault (record t Timing.fresh) ⟨false, 3⟩).owner 1 = some 1
      ∧ ((withFault (record t Timing.fresh) ⟨true, 3⟩).circuit 1).fault = ⟨true, 3⟩ := by decide +kernel

/-- A spare circuit 16 with its fault edge due. -/
def spareFault : State := (station .active).setCircuit 16 { (station .active).circuit 16 with fault := ⟨false, 3⟩ }

theorem test_meets_FaultEdges_spare : spareFault.running = true ∧ (spareFault.circuit 16).fault = ⟨false, 3⟩
    ∧ spareFault.owner 16 = none ∧ (stoppedDue .down).running = false
    ∧ ((stoppedDue .down).circuit 1).fault = ⟨false, 3⟩ ∧ ((stoppedDue .down).circuit 1).hook = ⟨.unsettled .offHook, 3⟩
    ∧ (run (.faultAssertedEdge 16) spareFault).reports = [] := by decide +kernel

theorem test_meets_Confirmed :
    (((lineIn .parked (breakOf 121)).line 1).state.isCall = true
      ∧ ((lineIn .parked (breakOf 121)).line 1).timing.sense = .brk
      ∧ clearTicks (lineIn .parked (breakOf 121)).profile ≤ ((lineIn .parked (breakOf 121)).line 1).timing.edgeCount
      ∧ ((lineIn .parked (breakOf 121)).line 1).blockPending = false)
    ∧ ((withLine { record .parked (breakOf 121) with blockPending := true }).line 1).blockPending = true
    ∧ (∀ t ∈ [LineState.seizing, .ringQueued, .ringClaiming, .ringArmed], ((lineIn t (makeOf 20)).line 1).state = t
      ∧ ((lineIn t (makeOf 20)).line 1).timing.sense = .mk
      ∧ seizeConfirmTicks (lineIn t (makeOf 20)).profile ≤ ((lineIn t (makeOf 20)).line 1).timing.edgeCount)
    ∧ ((ringIn .ringing (makeOf 4)).line 1).state = .ringing
    ∧ tripConfirmTicks (ringIn .ringing (makeOf 4)).profile ≤ ((ringIn .ringing (makeOf 4)).line 1).timing.edgeCount := by
  decide +kernel

theorem test_meets_Digits :
    (∀ t ∈ [LineState.dialing, .recallDialing], ((lineIn t ⟨.mk, 40, 8, 3, none⟩).line 1).state = t
      ∧ 0 < ((lineIn t ⟨.mk, 40, 8, 3, none⟩).line 1).timing.pulseCount
      ∧ interdigitMakeTicks (lineIn t ⟨.mk, 40, 8, 3, none⟩).profile
        ≤ ((lineIn t ⟨.mk, 40, 8, 3, none⟩).line 1).timing.edgeCount
      ∧ interdigitTimeoutTicks (lineIn t (makeOf 4000)).profile ≤ ((lineIn t (makeOf 4000)).line 1).timing.edgeCount
      ∧ ((lineIn t (makeOf 4000)).line 1).timing.pulseCount = 0)
    ∧ ((lineIn .dialTone ⟨.mk, 9, 0, 0, some 3000⟩).line 1).timing.stateTimer = some 3000
    ∧ (lineIn .dialTone ⟨.mk, 9, 0, 0, some 3000⟩).BreakShort 1
    ∧ dialToneTimeoutTicks (lineIn .dialTone ⟨.mk, 9, 0, 0, some 3000⟩).profile ≤ 3000
    ∧ (lineIn .recallTone ⟨.brk, 9, 0, 0, some 3000⟩).BreakShort 1
    ∧ recallTimeoutTicks (lineIn .recallTone ⟨.brk, 9, 0, 0, some 3000⟩).profile ≤ 3000 := by
  unfold State.BreakShort; decide +kernel

theorem test_meets_OneLineFrame : (edgeOn (record .connected (makeOf 9)) .offHook).owner 1 = some 1
    ∧ exec (.onHookEdge 1) (edgeOn (record .connected (makeOf 9)) .offHook)
      = .next (run (.onHookEdge 1) (edgeOn (record .connected (makeOf 9)) .offHook))
    ∧ ringSound.RingOk :=
  ⟨by decide +kernel, rfl, ringOk_ringSound⟩

theorem test_meets_PhaseBoundary : (distinctive .ringArmed 6 150).running = true
    ∧ 150 ≤ (distinctive .ringArmed 6 150).cadence.tick ∧ (distinctive .ringArmed 6 150).cadence.phase ≠ 7
    ∧ ((distinctive .ringArmed 6 150).line 1).state = .ringArmed ∧ (1 : Line) ∉ (distinctive .ringArmed 6 150).ringUnit.queue
    ∧ ((distinctive .ringArmed 6 150).line 1).ring = some ⟨2, false, 6, 5, 0, 0, 0⟩
    ∧ ((distinctive .ringArmed 6 150).line 1).timing.sense ≠ .mk
    ∧ (marked .starting 100).station.state = .starting
    ∧ ((distinctive .ringArmed 6 150).line 0).state.isRing = false := by decide +kernel

/-- The queue whose second entry finds room, at the end of phase 1; and the same behind a claim in flight. -/
def roomAhead (claim : Option Claim) : State :=
  { noRoom with
    cadence := { noRoom.cadence with phase := 1, tick := 150 }
    ringUnit := ⟨[5, 6], claim, []⟩ }

theorem test_meets_PhaseBoundary_placement : (roomAhead none).station.state = .active
    ∧ (roomAhead none).running = true ∧ 150 ≤ (roomAhead none).cadence.tick ∧ (roomAhead none).cadence.phase ≠ 7
    ∧ (∀ m, ((roomAhead none).line m).timing.sense ≠ .mk) ∧ (roomAhead (some ⟨4, 6, 12, .pending⟩)).ringUnit.claim ≠ none
    ∧ (roomAhead none).ringUnit.queue = [5] ++ 6 :: []
    ∧ chooseOffset (roomAhead none).attemptTotals ((roomAhead none).cadence.phase + 1) 15
      ((roomAhead none).effectiveBudget false) 3 = none
    ∧ chooseOffset (roomAhead none).attemptTotals ((roomAhead none).cadence.phase + 1) 6
      ((roomAhead none).effectiveBudget false) 0 = some 2
    ∧ ((roomAhead none).line 6).state = .ringQueued := by decide +kernel

theorem test_meets_CycleStarts : (lastCycle false).running = true ∧ (lastCycle false).control.warning.asserted = false
    ∧ 150 ≤ (lastCycle false).cadence.tick ∧ (lastCycle false).cadence.phase = 7
    ∧ (marked .starting 100).running = true ∧ (marked .starting 100).cadence.markSeen = true
    ∧ (marked .starting 100).cadence.sinceStart = 100 ∧ (marked .active 99).cadence.sinceStart ≠ 100
    ∧ (marked .active 99).cadence.markSeen = true := by decide +kernel

/-- A row to be lost at the next cycle start of a station with no line in a ring state. -/
def losing : State :=
  { marked .active 100 with table := { (marked .active 100).table with
      peers := (marked .active 100).table.peers.set 10 ⟨⟨#[0, 0, 8, 8, 4, 4, 0, 0], rfl⟩, true, 2⟩ } }

theorem test_meets_CycleStarts_lost : losing.running = true ∧ losing.cadence.markSeen = true
    ∧ losing.cadence.sinceStart = 100 ∧ (∀ l, (losing.line l).state.isRing = false) ∧ losing.ringUnit.queue = []
    ∧ losing.peerLostEntries = [newReport .peerLost 96 [11]] := by decide +kernel

/-- The last tick of a cycle with line 2 in RING QUEUED behind a claim in flight. -/
def lastCycleQueued : State :=
  let s := (lastCycle false).setLine 2
    { LineRecord.fresh (some 2) with state := .ringQueued, ring := some ⟨0, false, 5, 0, 2, 0, 3⟩ }
  { s with ringUnit := ⟨[2], some ⟨5, 6, 12, .pending⟩, []⟩ }

theorem test_meets_CycleCounts : lastCycleQueued.running = true ∧ lastCycleQueued.station.state = .active
    ∧ lastCycleQueued.cadence.listen = false ∧ lastCycleQueued.control.warning.asserted = false
    ∧ 150 ≤ lastCycleQueued.cadence.tick ∧ lastCycleQueued.cadence.phase = 7
    ∧ exec .cycleStart lastCycleQueued = .next (run .cycleStart lastCycleQueued)
    ∧ (lastCycleQueued.line 1).state = .ringing ∧ (lastCycleQueued.line 1).ring = some ⟨0, false, 5, 3, 2, 1, 0⟩
    ∧ (lastCycleQueued.line 1).timing.sense ≠ .mk ∧ (1 : Line) ∉ lastCycleQueued.ringUnit.queue
    ∧ min (1 + 1) 15 = 2 ∧ (lastCycleQueued.line 2).ring = some ⟨0, false, 5, 0, 2, 0, 3⟩
    ∧ (lastCycleQueued.line 2).state = .ringQueued ∧ (2 : Line) ∈ lastCycleQueued.ringUnit.queue
    ∧ lastCycleQueued.ringUnit.claim ≠ none :=
  ⟨by decide +kernel, by decide +kernel, by decide +kernel, by decide +kernel, by decide +kernel, by decide +kernel, rfl,
    by decide +kernel⟩

/-- A mark to be accepted by a station whose one ring line rings, and by one whose one ring line waits behind a RELEASE. -/
def markedRing : State :=
  (marked .active 100).setLine 1 { record .ringing (breakOf 121) with ring := some ⟨0, false, 5, 3, 2, 1, 0⟩ }

def markedQueue : State :=
  let s := (marked .active 100).setLine 2
    { LineRecord.fresh (some 2) with state := .ringQueued, ring := some ⟨0, false, 5, 0, 2, 0, 3⟩ }
  { s with ringUnit := ⟨[2], none, [⟨4, 6, 12⟩]⟩ }

theorem test_meets_CycleCounts_mark :
    (∀ s ∈ [markedRing, markedQueue], s.running = true ∧ s.station.state = .active ∧ s.control.warning.asserted = false
      ∧ s.cadence.markSeen = true ∧ s.cadence.sinceStart = 100 ∧ s.bus.rx.state ≠ .idle)
    ∧ (∀ m, m ≠ 1 → (markedRing.line m).state.isRing = false) ∧ markedRing.ringUnit.queue = []
    ∧ (∀ m, m ≠ 2 → (markedQueue.line m).state.isRing = false) ∧ markedQueue.ringUnit.queue = [2]
    ∧ markedQueue.ringUnit.releases ≠ [] ∧ (markedQueue.line 2).timing.sense ≠ .mk := by decide +kernel

/-- R130 and R131 at an accepted mark. -/
theorem test_mark_counts : (run .mark markedRing).reports = [newReport .noAnswer 97 []]
    ∧ (run .mark markedQueue).reports = [newReport .ringDelayed 98 []]
    ∧ ((run .mark markedQueue).line 2).ring = some ⟨0, false, 5, 0, 2, 0, 4⟩ := by decide +kernel

/-- A ringing line that has no no-answer limit. -/
theorem test_meets_CycleCounts_unlimited : ((distinctive .ringing 7 150).line 1).ring = some ⟨2, false, 6, 5, 0, 0, 0⟩
    ∧ ((distinctive .ringing 7 150).line 1).state = .ringing ∧ (distinctive .ringing 7 150).station.state = .active
    ∧ (distinctive .ringing 7 150).cadence.listen = false := by decide +kernel

theorem test_meets_OnPortion : ∀ n ∈ [45, 75, 120], (distinctive .ringing 5 n).station.state = .active
    ∧ (distinctive .ringing 5 n).cadence.tick = n ∧ (distinctive .ringing 5 n).owner 1 = some 1
    ∧ ((distinctive .ringing 5 n).line 1).state = .ringing
    ∧ ((distinctive .ringing 5 n).line 1).ring = some ⟨2, false, 6, 5, 0, 0, 0⟩ := by decide +kernel

theorem test_meets_Placement :
    chooseOffset ⟨#[34, 30, 12, 8, 20, 25, 38, 40], rfl⟩ 2 6 40 0 = some 2
    ∧ chooseOffset ⟨#[34, 34, 34, 34, 36, 36, 36, 36], rfl⟩ 5 8 40 0 = none ∧ (2 : Fin 4) ≠ 3
    ∧ inSet (rotatedSet 2 3) (2 + 1) = true ∧ chooseOffset ⟨#[0, 0, 0, 0, 0, 0, 0, 0], rfl⟩ 2 6 40 3 = some 2
    ∧ noRoom.ringUnit.queue = 5 :: [6] ∧ ({ noRoom with ringUnit := ⟨[6], none, []⟩ } : State).ringUnit.queue = 6 :: []
    ∧ chooseOffset noRoom.attemptTotals noRoom.cadence.phase 6 (noRoom.effectiveBudget false) 0 = some 2 ∧ (noRoom.line 5).ring = some ⟨3, false, 15, 0, 4, 0, 0⟩
    ∧ chooseOffset noRoom.attemptTotals noRoom.cadence.phase 15 (noRoom.effectiveBudget false) 3 = none := by
  decide +kernel

theorem test_meets_LineCorrections : (lineIn .connected (makeOf 9)).running = true
    ∧ (((lineIn .connected (makeOf 9)).line 1).reads ⟨false, false, false, true, false, false⟩).any = true
    ∧ ((lineIn .connected (makeOf 9)).line 1).correctionMark = false
    ∧ ((withLine { record .connected (makeOf 9) with correctionMark := true }).line 1).correctionMark = true
    ∧ ((withLine { record .connected (makeOf 9) with correctionMark := true }).line 1).state ≠ .fault
    ∧ ((withLine { record .fault Timing.fresh with correctionMark := true }).line 1).correctionMark = true
    ∧ ((withLine { record .fault Timing.fresh with correctionMark := true }).line 1).state = .fault := by
  decide +kernel

theorem test_meets_LineDoubleBit : unreadable.running = true ∧ unreadable.MapOk
    ∧ ((unreadable.line 1).reads ⟨true, false, false, false, false, false⟩).any = true
    ∧ (unreadable.line 1).state ≠ .fault ∧ (unreadable.line 1).circuit = some 1 := by
  unfold State.MapOk; decide +kernel

theorem test_meets_LineDoubleBit_ring : ringSound.running = true ∧ ringSound.MapOk ∧ ringSound.RingOk
    ∧ ((ringSound.line 1).reads ⟨true, false, false, false, false, false⟩).any = true
    ∧ (ringSound.line 1).state.isRing = true ∧ (ringSound.line 1).circuit = some 1
    ∧ (ringSound.line 2).state.isRing = false ∧ (ringSound.line 2).circuit = some 2 ∧ (ringSound.line 2).state ≠ .fault
    ∧ ((ringSound.line 2).reads ⟨false, true, false, false, false, false⟩).any = true :=
  ⟨by decide +kernel, by unfold State.MapOk; decide +kernel, ringOk_ringSound, by decide +kernel⟩

theorem test_meets_LineDoubleBit_fault : (lineIn .fault Timing.fresh).running = true ∧ (lineIn .fault Timing.fresh).MapOk
    ∧ (((lineIn .fault Timing.fresh).line 1).reads ⟨true, false, false, false, false, false⟩).any = true
    ∧ (((lineIn .fault Timing.fresh).line 1).reads ⟨false, false, false, false, false, false⟩).any = false
    ∧ ((lineIn .fault Timing.fresh).line 1).state = .fault := by
  unfold State.MapOk; decide +kernel

/-- Station 6, or a station with number 0, with the warning filter ASSERTED or not and a restart count. -/
def wordLost (t : StationState) (number : StationNo) (alarm asserted : Bool) (n : Nat) : State :=
  { station t with
    station := ⟨some ⟨number, 3, .a, .auto⟩, some ⟨number, 3, .a, .auto⟩, t, 0⟩
    control := ⟨⟨asserted, 0⟩, n, alarm⟩ }

theorem test_meets_StationRecord_more : Config.resetStraps ≠ ⟨7, 3, .a, .auto⟩
    ∧ (∀ n ∈ [(0 : StationNo), 6], (wordLost .active n false true 0).station.strap2 = some ⟨n, 3, .a, .auto⟩)
    ∧ (wordLost .down 6 false true 0).control.warning.asserted = true ∧ 0 < (wordLost .down 6 false false 1).control.restartCount
    ∧ (wordLost .silent 6 true false 0).control.alarm = true
    ∧ (wordLost .active 6 false false 0).control = ⟨⟨false, 0⟩, 0, false⟩ := by decide +kernel

/-- R173: the state word is tested; the second copy is rewritten like the first; number 0 goes to SILENT. -/
theorem test_stationRecord_word :
    (run (.stationRecordDoubleBitError ⟨false, false, true⟩ ⟨false, false, false⟩ ⟨0, 0⟩)
      (wordLost .down 6 false false 1)).station.state = .down
    ∧ (run (.stationRecordDoubleBitError ⟨false, false, true⟩ ⟨false, false, false⟩ ⟨0, 0⟩)
      (wordLost .active 6 false false 0)).station.state = .starting
    ∧ (run (.stationRecordDoubleBitError ⟨false, true, false⟩ ⟨false, false, false⟩ ⟨0, 0⟩)
      (wordLost .active 6 false true 0)).station.state = .down
    ∧ (run (.stationRecordDoubleBitError ⟨false, true, false⟩ ⟨false, false, false⟩ ⟨0, 0⟩)
      (wordLost .active 0 false false 0)).station.state = .silent := by decide +kernel

/-- R173: a corrected state word beside two unreadable copies is reported first, under a number left free (log 7); the station
is SILENT with the state word's count as corrected. -/
theorem test_stationRecord_corrected :
    let t := run (.stationRecordDoubleBitError ⟨true, true, false⟩ ⟨false, false, true⟩ ⟨0, 0⟩) (wordLost .active 6 false false 0)
    t.station = ⟨none, none, .silent, 0⟩
    ∧ t.reports = [newReport .corrected (stationNumber (Config.unreadableStraps 1).station) [1]] :=
  ⟨by decide +kernel, rfl⟩

theorem test_meets_StationRecord : StationWords.any ⟨true, false, false⟩ = true
    ∧ (station .active).station.strap1 = some Config.resetStraps ∧ (station .active).station.strap2 = some Config.resetStraps
    ∧ (station .down).station.state = .down ∧ Config.resetStraps.station ≠ 0
    ∧ (station .active).station.state ≠ .down ∧ (station .active).control.warning.asserted = false := by decide +kernel

/-- The outputs of R2, computed. -/
def outputsHold (s : State) (c : CircuitNo) : Bool :=
  let o := s.circuit c
  if s.station.state = .down ∨ s.station.state = .held ∨ s.station.state = .silent then
    !o.ringRelay && !o.dialSwitch && !o.specialSwitch && !o.cutOff
  else
    match s.owner c with
    | none => !o.ringRelay && !o.dialSwitch && !o.specialSwitch && o.cutOff
    | some l =>
      if (s.line l).state = .blocked ∨ (s.line l).state = .fault then
        !o.ringRelay && !o.dialSwitch && !o.specialSwitch && o.cutOff
      else
        o.ringRelay == s.ringDrive l && o.dialSwitch == ((s.line l).tone = .dial && !o.ringRelay)
          && o.specialSwitch == ((s.line l).tone = .special && !o.ringRelay) && !o.cutOff

theorem outputsOk_of_hold {s : State} (h : ∀ c, outputsHold s c = true) : s.OutputsOk := by
  intro c
  have hc := h c
  unfold outputsHold at hc
  unfold State.OutputsOf
  split
  · simpa [and_assoc, *] using hc
  · split <;> simp_all [and_assoc]

/-- Nothing is due, computed. -/
theorem quiet_of {s : State} (hl : ∀ l, s.QuietLine l)
    (hq : (∀ c, (s.circuit c).hook.run < 3 ∧ (s.circuit c).fault.run < 3) ∧ s.cadence.tick < 150
      ∧ s.cadence.markSeen = false ∧ s.table.reduced.run < 3 ∧ s.control.warning.run < 3
      ∧ (s.control.warning.asserted = true → s.station.state.heedsWarning = false) ∧ s.restartDue = false)
    (ho : onPortionTick s.cadence.tick = false ∨ ∀ c, outputsHold s c = true) : s.Quiet :=
  ⟨hl, hq.1, hq.2.1, hq.2.2.1, fun h _ => ho.elim (fun h' => by simp [h'] at h) outputsOk_of_hold,
    hq.2.2.2.1, hq.2.2.2.2.1, hq.2.2.2.2.2.1, hq.2.2.2.2.2.2⟩

theorem quiet_lineIn : (lineIn .connected (breakOf 120)).Quiet :=
  quiet_of (by unfold State.QuietLine; decide +kernel) (by decide +kernel) (by decide +kernel)

/-- Station 6 in DOWN one sample before the restart. -/
def almostRestarting : State := { station .down with control := ⟨⟨false, 0⟩, 19, false⟩ }

theorem test_meets_Tick : (lineIn .connected (breakOf 120)).running = true ∧ (lineIn .connected (breakOf 120)).Quiet
    ∧ ((lineIn .connected (breakOf 120)).line 1).timing.edgeCount ≤ clearTicks (lineIn .connected (breakOf 120)).profile
    ∧ almostRestarting.running = false ∧ almostRestarting.Quiet
    ∧ (station .held).running = false ∧ (station .held).Quiet ∧ (station .silent).running = false
    ∧ (station .silent).Quiet :=
  have q (s : State) (hl : ∀ l, s.QuietLine l) := quiet_of (s := s) hl
  ⟨by decide +kernel, quiet_lineIn, by decide +kernel, by decide +kernel,
    q almostRestarting (by unfold State.QuietLine; decide +kernel) (by decide +kernel) (by decide +kernel), by decide +kernel,
    q (station .held) (by unfold State.QuietLine; decide +kernel) (by decide +kernel) (by decide +kernel), by decide +kernel,
    q (station .silent) (by unfold State.QuietLine; decide +kernel) (by decide +kernel) (by decide +kernel)⟩

/-- Tick 45 of a phase in which line 1 rings: the boundary is due, and the next TICK takes it first. -/
theorem test_meets_Tick_boundary : (distinctive .ringing 5 45).OnlyDue .onPortionBoundary
    ∧ exec .onPortionBoundary (distinctive .ringing 5 45) = .next (run .onPortionBoundary (distinctive .ringing 5 45))
    ∧ (run .onPortionBoundary (distinctive .ringing 5 45)).Quiet
    ∧ (distinctive .ringing 5 45).bus.rx.state ≠ .idle :=
  ⟨⟨by decide +kernel, by decide +kernel,
      quiet_of (by unfold State.QuietLine; decide +kernel) (by decide +kernel) (by decide +kernel)⟩,
    rfl, quiet_of (by unfold State.QuietLine; decide +kernel) (by decide +kernel) (by decide +kernel), by decide +kernel⟩

/-- A threshold of line 1 is due, and the next TICK takes it first. -/
theorem test_meets_Tick_threshold : (lineIn .connected (breakOf 121)).OnlyDue (.clearReached 1)
    ∧ exec (.clearReached 1) (lineIn .connected (breakOf 121))
      = .next (run (.clearReached 1) (lineIn .connected (breakOf 121)))
    ∧ (run (.clearReached 1) (lineIn .connected (breakOf 121))).Quiet :=
  ⟨⟨by decide +kernel, by decide +kernel,
      quiet_of (by unfold State.QuietLine; decide +kernel) (by decide +kernel) (by decide +kernel)⟩,
    rfl, quiet_of (by unfold State.QuietLine; decide +kernel) (by decide +kernel) (by decide +kernel)⟩

/-- A marked circuit 1 whose line is in FAULT. -/
def markedFault (asserted : Bool) : State :=
  (lineIn .fault Timing.fresh).setCircuit 1
    { (lineIn .fault Timing.fresh).circuit 1 with faultMark := true, fault := ⟨asserted, 0⟩ }

theorem test_meets_FaultMarks :
    (∀ b, (markedFault b).Takes toLine toLine.mask 1 ∧ ((markedFault b).line 1).state = .fault
      ∧ ((markedFault b).line 1).circuit = some 1 ∧ ((markedFault b).circuit 1).fault.asserted = b
      ∧ ((markedFault b).circuit 1).faultMark = true)
    ∧ exec (.unblock toLine) (markedFault false) = .next (run (.unblock toLine) (markedFault false))
    ∧ ((run (.unblock toLine) (markedFault false)).circuit 1).faultMark = false
    ∧ exec (.stationReset toLine ⟨0, 0⟩) (markedFault false)
      = .next (run (.stationReset toLine ⟨0, 0⟩) (markedFault false)) :=
  ⟨fun b => by cases b <;>
      exact ⟨by unfold State.Takes; decide +kernel, by decide +kernel⟩,
    rfl, by decide +kernel, rfl⟩

theorem test_meets_StrapsBudget : exec .busIdle (station .silent) = .next (run .busIdle (station .silent))
    ∧ (∀ pins, Instr.busIdle ≠ .powerOnReset pins) ∧ (∀ u c e, Instr.busIdle ≠ .stationRecordDoubleBitError u c e)
    ∧ (station .silent).station.state = .silent ∧ ∀ h e, Instr.busIdle ≠ .stationReset h e :=
  ⟨rfl, fun _ => by simp, fun _ _ _ => by simp, by decide +kernel, fun _ _ => by simp⟩

theorem test_meets_RelayChange :
    exec .phaseBoundary (distinctive .ringArmed 4 150) = .next (run .phaseBoundary (distinctive .ringArmed 4 150))
    ∧ (∀ x, Instr.phaseBoundary ≠ .tick x) ∧ (∀ pins, Instr.phaseBoundary ≠ .powerOnReset pins)
    ∧ (∀ e, Instr.phaseBoundary ≠ .supplyRestart e) ∧ (∀ h e, Instr.phaseBoundary ≠ .stationReset h e)
    ∧ ∀ u w e, Instr.phaseBoundary ≠ .stationRecordDoubleBitError u w e :=
  ⟨rfl, fun _ => by simp, fun _ => by simp, fun _ => by simp, fun _ _ => by simp, fun _ _ _ => by simp⟩

/-- The bookkeeping's state with a command waiting. -/
def waiting (i : Instr) : State := { ringSound with pending := [i] }

theorem test_meets_invariants : (waiting (.stopRing toLine)).RingOk ∧ (waiting (.stopRing toLine)).MapOk
    ∧ (waiting (.stopRing toLine)).ReportsOk ∧ (waiting (.stopRing toLine)).ControlOk
    ∧ (waiting (.stopRing toLine)).TableOk ∧ (waiting (.stopRing toLine)).OutputsOk
    ∧ step (waiting (.stopRing toLine)) = .next (run (.stopRing toLine) ringSound)
    ∧ exec (.stopRing toLine) ringSound = .next (run (.stopRing toLine) ringSound)
    ∧ ∀ x, Instr.stopRing toLine ≠ .tick x :=
  ⟨ringOk_other ringOk_ringSound rfl rfl rfl, by unfold State.MapOk; decide +kernel,
    by unfold State.ReportsOk; decide +kernel, by unfold State.ControlOk; decide +kernel,
    by unfold State.TableOk; decide +kernel, outputsOk_of_hold (by decide +kernel), rfl, rfl,
    fun _ => by simp⟩

end Sys2Proof.Tests
end

section
/-! PROOFS. What each operation of the model does to the fault marks of the 18 circuits (R10). Every operation leaves
them but three: the ASSERTED fault edge, which sets one (a TICK takes those still due), the values of a start, which take
them as given, and the rewriting of a line in FAULT by UNBLOCK, which clears one. -/

namespace Sys2Proof.Machine

/-- The fault marks of the circuits. In the order of `Bool` by circuit, `s.marks ≤ t.marks` says that every mark set in
`s` is set in `t`. -/
def State.marks (s : State) : CircuitNo → Bool := fun c => (s.circuit c).faultMark

theorem marks_le_iff {s t : State} : s.marks ≤ t.marks ↔ ∀ c, s.marks c = true → t.marks c = true :=
  forall_congr' fun _ => Bool.le_iff_imp

theorem marks_congr {s t : State} (h : t.circuits = s.circuits) : t.marks = s.marks :=
  funext fun c => by rw [State.marks, State.circuit_congr h]; rfl

/-! ### Updates of the state -/

section Updates
variable (s : State)

@[simp] theorem setLine_marks (l : Line) (r : LineRecord) : (s.setLine l r).marks = s.marks := rfl

@[simp] theorem sendIfIdle_marks : s.sendIfIdle.marks = s.marks := marks_congr (by simp)

@[simp] theorem beginIfReady_marks : s.beginIfReady.marks = s.marks := marks_congr (beginIfReady_frame s).circuits

/-- A written circuit brings its own mark. -/
theorem setCircuit_marks (c : CircuitNo) (x : Circuit) :
    (s.setCircuit c x).marks = Function.update s.marks c x.faultMark := by
  funext d
  by_cases h : d = c
  · subst h; simp [State.marks]
  · simp [State.marks, h]

/-- A circuit written with its mark as it was. -/
theorem setCircuit_marks_same {c : CircuitNo} {x : Circuit} (h : x.faultMark = (s.circuit c).faultMark) :
    (s.setCircuit c x).marks = s.marks := by
  rw [setCircuit_marks, h]
  exact Function.update_eq_self c s.marks

@[simp] theorem setHook_marks (c : CircuitNo) (f : HookFilter) : (s.setHook c f).marks = s.marks :=
  setCircuit_marks_same s rfl

@[simp] theorem recompose_marks (c : CircuitNo) : (s.recompose c).marks = s.marks :=
  setCircuit_marks_same s (composed_keeps s c).2.2

@[simp] theorem recomposeLine_marks (l : Line) : (s.recomposeLine l).marks = s.marks := by
  unfold State.recomposeLine
  split
  · exact recompose_marks ..
  · rfl

@[simp] theorem recomposeAll_marks : s.recomposeAll.marks = s.marks :=
  funext fun c => by simp [State.marks, (composed_keeps s c).2.2]

@[simp] theorem recomposeLost_marks (c : Option CircuitNo) : (s.recomposeLost c).marks = s.marks := by
  cases c with
  | none => rfl
  | some c => exact recompose_marks ..

@[simp] theorem recomposeLeft_marks (c : Option CircuitNo) : (s.recomposeLeft c).marks = s.marks := by
  cases c with
  | none => rfl
  | some c => exact recompose_marks ..

end Updates

/-! ### Reports, and the moves of one line -/

theorem OnlyReports.marks {s t : State} (h : OnlyReports s t) : t.marks = s.marks := marks_congr (by rw [h.eq])

theorem LineMove.marks {l : Line} {s t : State} (h : LineMove l s t) : t.marks = s.marks :=
  funext fun c => (h.filters c).2.2

theorem LinePath.marks {l : Line} {s t : State} (h : LinePath l s t) : t.marks = s.marks := h.lineMove.marks

/-- A fold of steps that leave the marks leaves them. -/
theorem foldl_marks {α : Type} (f : State → α → State) (hf : ∀ t a, (f t a).marks = t.marks) (q : List α)
    (s : State) : (q.foldl f s).marks = s.marks :=
  foldl_keeps (fun t => t.marks = s.marks) f (fun t a ht => (hf t a).trans ht) q rfl

section Lines
variable (l : Line) (s : State)

@[simp] theorem enterState_marks (new : LineState) : (enterState l new s).marks = s.marks := by
  simp only [enterState, recomposeLine_marks]
  split
  · rw [ringLeave_eq]; rfl
  · rfl

/-- A change of state leaves the marks, into the ring states too. -/
theorem transition_marks (new : LineState) (report : State → State) (hr : ∀ t, (report t).marks = t.marks) :
    (transition l new report s).marks = s.marks := by
  rw [transition, (onlyReports_traceChange ..).marks, hr, enterState_marks]

@[simp] theorem handSeizeConfirmed_marks : (handSeizeConfirmed l s).marks = s.marks :=
  (linePath_handSeizeConfirmed l s).marks

theorem place_marks (o : Phase) : (place l o s).marks = s.marks := by
  unfold place
  split
  · exact (handSeizeConfirmed_marks ..).trans (transition_marks _ _ _ _ fun _ => rfl)
  · rfl

@[simp] theorem attemptPlacement_marks : (attemptPlacement s).marks = s.marks := by
  unfold attemptPlacement
  split
  · split
    · exact place_marks ..
    · rfl
  · rfl

theorem ringLine_marks (p1 p2 : Octet) : (ringLine p1 p2 l s).marks = s.marks := by
  unfold ringLine
  split
  · rw [takeRing, handSeizeConfirmed_marks, attemptPlacement_marks]
    exact transition_marks _ _ _ _ fun _ => rfl
  all_goals exact (linePath_refuse ..).marks

theorem remapLine_marks (target : Octet) : (remapLine target l s).marks = s.marks := by
  unfold remapLine
  split
  · exact (linePath_refuse ..).marks
  split
  · exact (linePath_refuse ..).marks
  split
  · exact (linePath_refuse ..).marks
  split
  · exact (linePath_refuse ..).marks
  · refine (recomposeLeft_marks ..).trans (transition_marks _ _ _ _ fun t => ?_)
    split
    · exact (linePath_queueLine l t ..).marks
    · exact (linePath_queueLineState l t).marks

end Lines

/-! ### Station Control -/

section Station
variable (s : State)

@[simp] theorem stopBlocks_marks : s.stopBlocks.marks = s.marks := recomposeAll_marks _

@[simp] theorem goDown_marks : (goDown s).marks = s.marks := stopBlocks_marks _

@[simp] theorem goSilent_marks : (goSilent s).marks = s.marks := stopBlocks_marks _

@[simp] theorem heedWarning_marks : (heedWarning s).marks = s.marks := by
  unfold heedWarning
  split
  · exact goDown_marks s
  · rfl

@[simp] theorem countConflict_marks : (countConflict s).marks = s.marks := by
  unfold countConflict
  split
  · dsimp only
    split
    · exact goSilent_marks _
    · rfl
  · rfl

/-- The values of a start take the marks they are given. -/
@[simp] theorem startBlocks_marks (n : StationState) (w : Bool) (b : Nat) (f : Line → Option CircuitNo)
    (g : CircuitNo → Bool) : (startBlocks n w b f g s).marks = g := by
  funext c
  simp [State.marks, startBlocks, State.circuit, Circuit.started]

theorem startCorrection_marks (e : CircuitWordErrors) (l : Line) : (startCorrection e l s).marks = s.marks := by
  unfold startCorrection
  split
  · exact (onlyReports_queueLine ..).marks
  · rfl

theorem startFault_marks (l : Line) : (startFault l s).marks = s.marks := by
  unfold startFault
  split
  · exact (linePath_enterFault ..).marks
  · split
    · exact (linePath_enterFault ..).marks
    · rfl

theorem startOutputs_marks : s.startOutputs.marks = s.marks :=
  funext fun c => by simp [State.marks, State.startOutputs, State.circuit, (composed_keeps s c).2.2]

/-- The lines' entries at a start leave the marks: a marked circuit sends its line to FAULT and stays marked (R44). -/
@[simp] theorem startLines_marks (e : CircuitWordErrors) : (startLines e s).marks = s.marks := by
  rw [startLines, startOutputs_marks]
  exact foldl_marks _ (fun t l => (startFault_marks ..).trans (startCorrection_marks ..)) _ s

/-- A power-on reset clears all 18 marks (R10). -/
theorem powerOn_marks (pins : Straps) : (powerOn pins s).marks = fun _ => false := by simp [powerOn]

theorem supplyRestart_marks (e : CircuitWordErrors) : (supplyRestart e s).marks = s.marks := by
  simp only [supplyRestart, heedWarning_marks, startLines_marks, startBlocks_marks]
  rfl

theorem stationReset_marks (e : CircuitWordErrors) : (stationReset e s).marks = s.marks := by
  simp only [stationReset, heedWarning_marks, startLines_marks, startBlocks_marks]
  rfl

theorem takeRestart_marks (e : CircuitWordErrors) : (takeRestart e s).marks = s.marks := by
  unfold takeRestart
  split
  · exact supplyRestart_marks ..
  · rfl

theorem takeWarning_marks : (takeWarning s).marks = s.marks := by
  rw [takeWarning, heedWarning_marks]
  split <;> rfl

theorem takeWarningNegated_marks : (takeWarningNegated s).marks = s.marks := by
  unfold takeWarningNegated
  split <;> rfl

theorem takeReducedChange_marks : (takeReducedChange s).marks = s.marks := by
  unfold takeReducedChange
  split <;> rfl

theorem startStation_marks : (startStation s).marks = s.marks := by
  unfold startStation
  split
  · exact (heedWarning_marks _).trans (recomposeAll_marks _)
  · rfl

end Station

/-! ### The Shelf Bus Interface and Command Dispatch -/

section Bus
variable (s : State)

theorem becomeIdle_marks : (becomeIdle s).marks = s.marks := by
  unfold becomeIdle
  split
  · rfl
  · exact beginIfReady_marks _

theorem takeStartBit_marks : (takeStartBit s).marks = s.marks := by
  unfold takeStartBit
  split
  · exact beginIfReady_marks _
  · rfl
  · rfl

theorem dropFrame_marks (k : FrameKind) : (s.dropFrame k).marks = s.marks := by cases k <;> rfl

theorem loseContest_marks : (loseContest s).marks = s.marks := by
  unfold loseContest
  split
  · split
    · exact dropFrame_marks ..
    · rfl
  · rfl

theorem abandonOnMismatch_marks : (abandonOnMismatch s).marks = s.marks := by
  unfold abandonOnMismatch
  split
  · split
    · rfl
    · exact (countConflict_marks _).trans (dropFrame_marks ..)
  · rfl

theorem completeOwn_marks (k : FrameKind) (act : State → State) (ha : ∀ t, (act t).marks = t.marks) :
    (completeOwn k act s).marks = s.marks := by
  unfold completeOwn
  split
  · split
    · exact ha _
    · rfl
  · rfl

theorem validateClaim_marks (c : Claim) : (validateClaim c s).marks = s.marks := by
  unfold validateClaim
  split
  · split
    · exact (handSeizeConfirmed_marks ..).trans (transition_marks _ _ _ _ fun _ => rfl)
    · rw [withdrawClaim, handSeizeConfirmed_marks]
      exact transition_marks _ _ _ _ fun _ => rfl
  · rfl

theorem claimCompleted_marks : (claimCompleted s).marks = s.marks := by
  unfold claimCompleted
  split
  · split
    · exact validateClaim_marks ..
    · rfl
    · rfl
  · rfl

theorem takeOwnNumberFrame_marks : (takeOwnNumberFrame s).marks = s.marks := by
  unfold takeOwnNumberFrame
  split
  · rfl
  · exact countConflict_marks _

theorem receiveFrame_marks (st : StationNo) (d : State → State) (hd : ∀ t, (d t).marks = t.marks) :
    (receiveFrame st d s).marks = s.marks := by
  unfold receiveFrame
  split
  · split
    · exact takeOwnNumberFrame_marks s
    · exact hd _
  · rfl

theorem receiveCommand_marks (h : CommandHeader) (takes allowed : Bool) (act : State → State)
    (ha : ∀ t, (act t).marks = t.marks) : (receiveCommand h takes allowed act s).marks = s.marks := by
  unfold receiveCommand
  repeat' split
  · exact ha _
  · rfl
  · exact takeOwnNumberFrame_marks s
  · exact ha _
  · rfl
  · rfl

theorem lineCommand_marks (h : CommandHeader) (mask : Octet) (act : Line → State → State)
    (ha : ∀ l t, (act l t).marks = t.marks) : (lineCommand h mask act s).marks = s.marks :=
  receiveCommand_marks s h _ _ _ fun t => foldl_marks _ (fun t l => ha l t) _ t

theorem stationCommand_marks (h : CommandHeader) (allowed : StationState → Bool) (act : State → State)
    (ha : ∀ t, (act t).marks = t.marks) : (stationCommand h allowed act s).marks = s.marks :=
  receiveCommand_marks s h _ _ act ha

theorem updateRow_marks (st : StationNo) (f : PeerRow → PeerRow) : (updateRow st f s).marks = s.marks := by
  unfold updateRow
  split <;> rfl

theorem discardFrame_marks : (discardFrame s).marks = s.marks := by
  unfold discardFrame
  split <;> rfl

end Bus

/-! ### Edges, settles and thresholds -/

section Edges
variable (c : CircuitNo) (s : State)

/-- Work handed to the line of a circuit is a move of that line. -/
theorem forOwner_marks (act : Line → State → State) (ha : ∀ l t, LinePath l t (act l t)) :
    (forOwner c act s).marks = s.marks := by
  unfold forOwner
  repeat' split
  · exact (ha _ s).marks
  · rfl
  · rfl

theorem takeOnHookEdge_marks : (takeOnHookEdge c s).marks = s.marks := by
  unfold takeOnHookEdge
  split
  · exact (forOwner_marks _ _ _ fun l t => (linePath_handDue l t).trans (linePath_takeOnHook ..)).trans
      (setHook_marks ..)
  · rfl

theorem takeOffHookEdge_marks : (takeOffHookEdge c s).marks = s.marks := by
  unfold takeOffHookEdge
  split
  · exact (forOwner_marks _ _ _ fun l t => (linePath_handDue l t).trans (linePath_takeOffHook ..)).trans
      (setHook_marks ..)
  · rfl

theorem takeSettleNotice_marks : (takeSettleNotice c s).marks = s.marks := by
  unfold takeSettleNotice
  split
  · split
    · exact (forOwner_marks _ _ _ fun l t => (linePath_handDue l t).trans (linePath_takeSettle ..)).trans
        (setHook_marks ..)
    · rfl
  · rfl

/-- The ASSERTED fault edge sets the mark of its circuit and clears none (R9). -/
theorem takeFaultAsserted_marks_le : s.marks ≤ (takeFaultAsserted c s).marks := by
  unfold takeFaultAsserted
  split
  · rw [forOwner_marks _ _ _ fun l t => linePath_enterFault l t 0, State.setFault, setCircuit_marks]
    exact le_update_self_iff.2 le_top
  · exact le_rfl

theorem takeFaultNormal_marks : (takeFaultNormal c s).marks = s.marks := by
  unfold takeFaultNormal
  split
  · exact setCircuit_marks_same s rfl
  · rfl

/-- The thresholds of a line are moves of that line. -/
theorem whenRunning_marks {l : Line} {act : State → State} (ha : ∀ t, LinePath l t (act t)) :
    (whenRunning act s).marks = s.marks := by
  unfold whenRunning
  split
  · exact (ha s).marks
  · rfl

end Edges

/-! ### The cadence -/

section Cadence
variable (s : State)

theorem countRingCycle_marks (l : Line) : (countRingCycle l s).marks = s.marks := by
  unfold countRingCycle
  split
  · dsimp only
    split
    · exact (linePath_enterIdle _ _ _ fun _ => linePath_queueLine ..).marks
    · rfl
  · rfl

theorem countWait_marks (l : Line) : (countWait l s).marks = s.marks := by
  unfold countWait
  split
  · split
    · dsimp only
      split
      · exact (onlyReports_queueLine ..).marks
      · rfl
    · rfl
  · rfl

theorem startRinging_marks (l : Line) : (startRinging l s).marks = s.marks := by
  unfold startRinging
  split
  · split
    · exact transition_marks _ _ _ _ fun _ => rfl
    · rfl
  · rfl

theorem countCycles_marks : (countCycles s).marks = s.marks :=
  foldl_marks _ (fun t l => (countWait_marks _ l).trans (countRingCycle_marks t l)) _ s

theorem startRingingAll_marks : (startRingingAll s).marks = s.marks := foldl_marks _ startRinging_marks _ s

theorem handTripsAll_marks : (handTripsAll s).marks = s.marks :=
  foldl_marks _ (fun t l => (linePath_handTripConfirmed l t).marks) _ s

theorem ringUnitWork_marks (cycle : Bool) : (ringUnitWork cycle s).marks = s.marks := by
  unfold ringUnitWork
  split
  · rw [handTripsAll_marks, attemptPlacement_marks, startRingingAll_marks]
    split
    · exact countCycles_marks s
    · rfl
  · rfl

theorem announceBoundary_marks (cycle : Bool) : (announceBoundary cycle s).marks = s.marks := by
  rw [announceBoundary, recomposeAll_marks, ringUnitWork_marks]
  unfold markSummaryDue
  split <;> rfl

theorem ageRow_marks (i : Fin 15) : (ageRow i s).marks = s.marks := by
  unfold ageRow
  dsimp only
  split
  · exact (onlyReports_queueStationReport ..).marks
  · rfl

theorem ageRows_marks : (ageRows s).marks = s.marks := foldl_marks _ (fun t i => ageRow_marks t i) _ s

theorem clearCorrectionMarks_marks : (clearCorrectionMarks s).marks = s.marks := rfl

theorem endListen_marks : (endListen s).marks = s.marks := by
  unfold endListen
  split <;> rfl

theorem beginCycle_marks (drive : Bool) : (beginCycle drive s).marks = s.marks := by
  rw [beginCycle, heedWarning_marks, announceBoundary_marks, clearCorrectionMarks_marks, ageRows_marks,
    endListen_marks]
  rfl

theorem takePhaseBoundary_marks : (takePhaseBoundary s).marks = s.marks := by
  unfold takePhaseBoundary
  split
  · exact announceBoundary_marks ..
  · rfl

theorem takeCycleEnd_marks : (takeCycleEnd s).marks = s.marks := by
  unfold takeCycleEnd
  split
  · exact beginCycle_marks ..
  · rfl

theorem takeMark_marks : (takeMark s).marks = s.marks := by
  unfold takeMark
  split
  · dsimp only
    split
    · exact beginCycle_marks ..
    · rfl
  · rfl

theorem takeOnPortion_marks : (takeOnPortion s).marks = s.marks := by
  unfold takeOnPortion
  split
  · exact recomposeAll_marks s
  · rfl

end Cadence

/-! ### The record store -/

section Records
variable (s : State)

theorem memoryRingLeave_marks (l : Line) (u : LineWords) : (memoryRingLeave l u s).marks = s.marks := by
  unfold memoryRingLeave
  dsimp only
  split
  · unfold State.ringLeaveBlind State.leaveExcess State.leaveClaim
    repeat' split
    all_goals rfl
  · split
    · rw [ringLeave_eq]; rfl
    · rfl

theorem lineMemoryFault_marks (l : Line) (u : LineWords) : (lineMemoryFault l u s).marks = s.marks := by
  unfold lineMemoryFault
  dsimp only
  split
  · rw [recomposeLost_marks, setLine_marks]
  · rw [recomposeLost_marks, (onlyReports_traceChange ..).marks, (onlyReports_queueLine ..).marks, setLine_marks,
      memoryRingLeave_marks]

theorem takeLineDoubleBit_marks (l : Line) (u c : LineWords) : (takeLineDoubleBit l u c s).marks = s.marks := by
  unfold takeLineDoubleBit
  dsimp only
  split
  · rw [lineMemoryFault_marks]
    split
    · exact (onlyReports_queueLine ..).marks
    · rfl
  · rfl

theorem correctStationRecord_marks : (correctStationRecord s).marks = s.marks := by
  rw [correctStationRecord, ← (onlyReports_queueStationReport .corrected [1] s).marks]
  unfold compareStraps
  split
  · split
    · rfl
    · exact goSilent_marks _
  · rfl

theorem rebuildStation_marks (stateBad : Bool) (e : CircuitWordErrors) :
    (rebuildStation stateBad e s).marks = s.marks := by
  unfold rebuildStation
  repeat' split
  · exact recomposeAll_marks _
  · exact stationReset_marks ..
  · rfl
  · exact stationReset_marks ..

theorem stationMemoryFault_marks (stateBad : Bool) (e : CircuitWordErrors) :
    (stationMemoryFault stateBad e s).marks = s.marks := by
  unfold stationMemoryFault
  split
  · exact goSilent_marks s
  · exact rebuildStation_marks ..

theorem takeStationDoubleBit_marks (u c : StationWords) (e : CircuitWordErrors) :
    (takeStationDoubleBit u c e s).marks = s.marks := by
  unfold takeStationDoubleBit
  dsimp only
  split
  · rw [stationMemoryFault_marks]
    split
    · exact correctStationRecord_marks _
    · rfl
  · rfl

end Records

/-! ### TICK -/

/-- A fold of steps that clear no mark clears none. -/
theorem foldl_marks_le {α : Type} (f : State → α → State) (hf : ∀ t a, t.marks ≤ (f t a).marks) (q : List α)
    (s : State) : s.marks ≤ (q.foldl f s).marks :=
  foldl_keeps (fun t => s.marks ≤ t.marks) f (fun t a ht => ht.trans (hf t a)) q le_rfl

theorem settleCircuit_marks_le (c : CircuitNo) (s : State) : s.marks ≤ (settleCircuit c s).marks := by
  rw [settleCircuit, takeFaultNormal_marks]
  calc s.marks = (takeSettleNotice c (takeOffHookEdge c (takeOnHookEdge c s))).marks := by
        rw [takeSettleNotice_marks, takeOffHookEdge_marks, takeOnHookEdge_marks]
    _ ≤ _ := takeFaultAsserted_marks_le c _

/-- Of the events still due at a TICK the fault edges alone touch the marks. -/
theorem settleDue_marks_le (s : State) : s.marks ≤ (settleDue s).marks := by
  simp only [settleDue, takeRestart_marks, takeWarning_marks, takeWarningNegated_marks, takeMark_marks,
    takeCycleEnd_marks, takePhaseBoundary_marks, takeOnPortion_marks, takeReducedChange_marks]
  exact (foldl_marks _ (fun t l => whenRunning_marks t (linePath_handDue l)) (List.finRange 16) s).ge.trans
    (foldl_marks_le _ (fun t c => settleCircuit_marks_le c t) _ _)

theorem advanceTick_marks (i : Samples) (s : State) : (advanceTick i s).marks = s.marks := by
  unfold advanceTick
  split
  · exact funext fun c => by simp [State.marks, State.circuit, advanceBlocks, Circuit.scanned]
  · rfl

/-! ### UNBLOCK -/

section Unblock

/-- UNBLOCK clears the mark of the circuit through the line: the line is in FAULT and maps the circuit, whose filtered
fault state is NORMAL (R66). -/
def State.Clears (s : State) (l : Line) (c : CircuitNo) : Prop :=
  (s.line l).state = .fault ∧ (s.line l).circuit = some c ∧ (s.circuit c).fault.asserted = false

theorem unblockLine_of_clears {s : State} {l : Line} {c : CircuitNo} (h : s.Clears l c) :
    unblockLine l s = returnToService l (rewriteFaulted l c s) := by
  obtain ⟨hf, hc, ha⟩ := h
  simp [unblockLine, hf, hc, ha]

/-- UNBLOCK of a line in FAULT on a circuit whose fault state is ASSERTED is refused as FAULT (R66). -/
theorem unblockLine_of_asserted {s : State} {l : Line} {c : CircuitNo} (hf : (s.line l).state = .fault)
    (hc : (s.line l).circuit = some c) (ha : (s.circuit c).fault.asserted = true) :
    unblockLine l s = refuse l 7 4 s := by
  simp [unblockLine, hf, hc, ha]

/-- Through a line that clears no circuit, UNBLOCK is a move of the line like the others. -/
theorem linePath_unblockLine {s : State} {l : Line} (h : ∀ c, ¬ s.Clears l c) : LinePath l s (unblockLine l s) := by
  unfold unblockLine
  split
  · exact (linePath_setBlockPending ..).trans (linePath_returnToService ..)
  · rename_i hf
    split
    · exact linePath_refuse ..
    · rename_i c hc
      split
      · exact linePath_refuse ..
      · rename_i ha
        exact absurd ⟨hf, hc, by simpa using ha⟩ (h c)
  · exact linePath_setBlockPending ..

/-- A line that returns to service leaves FAULT (R65, R66). -/
theorem returnToService_not_fault (l : Line) (s : State) : ((returnToService l s).line l).state ≠ .fault := by
  unfold returnToService
  split
  all_goals
    rw [(transition_same l _ _ _ (onlyReports_queueLineState l)).fields.1]
    simp [LineRecord.entering]

theorem rewriteFaulted_marks (l : Line) (c : CircuitNo) (s : State) :
    (rewriteFaulted l c s).marks = Function.update s.marks c false :=
  setCircuit_marks s c _

/-- Where the tests of R66 are passed, UNBLOCK clears the mark of the line's circuit alone, and the line leaves FAULT. -/
theorem unblockLine_clears {s : State} {l : Line} {c : CircuitNo} (h : s.Clears l c) :
    (unblockLine l s).marks = Function.update s.marks c false ∧ ((unblockLine l s).line l).state ≠ .fault := by
  rw [unblockLine_of_clears h]
  exact ⟨(linePath_returnToService ..).marks.trans (rewriteFaulted_marks ..), returnToService_not_fault _ _⟩

/-- UNBLOCK on a line clears no mark but of a circuit that the line clears. -/
theorem clears_of_unblockLine {s : State} {l : Line} {c : CircuitNo} (hs : s.marks c = true)
    (ht : (unblockLine l s).marks c = false) : s.Clears l c := by
  by_cases h : ∃ d, s.Clears l d
  · obtain ⟨d, hd⟩ := h
    rw [(unblockLine_clears hd).1] at ht
    obtain rfl : c = d := by
      by_contra hne
      rw [Function.update_of_ne hne, hs] at ht
      cases ht
    exact hd
  · rw [(linePath_unblockLine (not_exists.1 h)).marks, hs] at ht
    cases ht

/-- A move of a line brings no other line into FAULT, to another circuit, or a fault filter to another state. -/
theorem LineMove.clears_of_ne {l m : Line} {s t : State} (h : LineMove l s t) (hm : m ≠ l) {c : CircuitNo}
    (ht : t.Clears m c) : s.Clears m c := by
  obtain ⟨hf, hc, ha⟩ := ht
  obtain ⟨hstate, -, -, -, hcircuit, -⟩ := (h.lines m hm).fields
  exact ⟨hstate ▸ hf, hcircuit ▸ hc, (h.filters c).2.1 ▸ ha⟩

theorem clears_of_rewriteFaulted {s : State} {l m : Line} {c d : CircuitNo} (hm : m ≠ l)
    (h : (rewriteFaulted l c s).Clears m d) : s.Clears m d := by
  obtain ⟨hf, hc, ha⟩ := h
  refine ⟨by simpa [rewriteFaulted, hm] using hf, by simpa [rewriteFaulted, hm] using hc, ?_⟩
  by_cases hd : d = c
  · subst hd; simpa [rewriteFaulted] using ha
  · simpa [rewriteFaulted, hd] using ha

/-- UNBLOCK on a line makes no other line one that clears a circuit. -/
theorem clears_before_unblockLine {s : State} {l m : Line} {c : CircuitNo} (hm : m ≠ l)
    (h : (unblockLine l s).Clears m c) : s.Clears m c := by
  by_cases hc : ∃ d, s.Clears l d
  · obtain ⟨d, hd⟩ := hc
    rw [unblockLine_of_clears hd] at h
    exact clears_of_rewriteFaulted hm ((linePath_returnToService ..).lineMove.clears_of_ne hm h)
  · exact (linePath_unblockLine (not_exists.1 hc)).lineMove.clears_of_ne hm h

/-- UNBLOCK on several lines one after another clears no mark but of a circuit that one of them clears at the
beginning. -/
theorem clears_of_unblockLines {ls : List Line} (hn : ls.Nodup) {s : State} {c : CircuitNo} (hs : s.marks c = true)
    (ht : (ls.foldl (fun t l => unblockLine l t) s).marks c = false) : ∃ l ∈ ls, s.Clears l c := by
  induction ls generalizing s with
  | nil =>
    rw [List.foldl_nil, hs] at ht
    cases ht
  | cons l ls ih =>
    obtain ⟨hl, hls⟩ := List.nodup_cons.1 hn
    cases hu : (unblockLine l s).marks c with
    | false => exact ⟨l, List.mem_cons_self, clears_of_unblockLine hs hu⟩
    | true =>
      obtain ⟨m, hm, hclears⟩ := ih hls hu ht
      exact ⟨m, List.mem_cons_of_mem l hm, clears_before_unblockLine (ne_of_mem_of_not_mem hm hl) hclears⟩

theorem addressedLines_nodup (st : StationNo) (address mask : Octet) : (addressedLines st address mask).Nodup :=
  (List.nodup_finRange 16).filter _

end Unblock

/-! ### A COMMAND that completes -/

/-- The completion of a COMMAND is the taken command's action on the state after the frame, or leaves the marks. -/
theorem receiveCommand_acts_or_marks (h : CommandHeader) (takes allowed : Bool) (act : State → State) (s : State) :
    receiveCommand h takes allowed act s = act (s.endFrame true)
      ∨ (receiveCommand h takes allowed act s).marks = s.marks := by
  unfold receiveCommand
  repeat' split
  · exact .inl rfl
  · exact .inr rfl
  · exact .inr (takeOwnNumberFrame_marks s)
  · exact .inl rfl
  · exact .inr rfl
  · exact .inr rfl

/-- A line command that is taken for the line `l` alone acts on it, with the slot driven (R142, R156). -/
theorem lineCommand_of_takes {s : State} {h : CommandHeader} {mask : Octet} {l : Line} (ht : s.Takes h mask l)
    (act : Line → State → State) : lineCommand h mask act s = act l (s.endFrame true) := by
  obtain ⟨hreceiving, hstation, hdecided, hrunning, haddressed⟩ := ht
  have htakes : s.takesLine h mask = true := by simp [State.takesLine, hstation, hrunning, haddressed]
  cases hd : s.bus.rx.decided with
  | none => simp [lineCommand, receiveCommand, hreceiving, hd, hstation, htakes, haddressed]
  | some b =>
    obtain rfl : b = true := by
      cases b
      · exact absurd hd hdecided
      · rfl
    simp [lineCommand, receiveCommand, hreceiving, hd, hrunning, haddressed]

/-! ### The rows of the table -/

/-- A row that answers a state with the marks as they were. -/
theorem marks_le_of_next {s t u : State} (h : (.next u : Host.Outcome State Fault Refusal) = .next t)
    (hm : u.marks = s.marks) : s.marks ≤ t.marks := by
  cases h
  exact hm.ge

/-- A row that ends with the frame it makes ready on an idle bus. -/
theorem marks_le_of_sent {s t u : State} (h : (.next u.sendIfIdle : Host.Outcome State Fault Refusal) = .next t)
    (hm : u.marks = s.marks) : s.marks ≤ t.marks :=
  marks_le_of_next h ((sendIfIdle_marks u).trans hm)

/-- Every row but a power-on reset and UNBLOCK leaves every mark that is set (R10). -/
theorem exec_marks_le {i : Instr} {s t : State} (h : exec i s = .next t) (hp : ∀ pins, i ≠ .powerOnReset pins)
    (hu : ∀ hd, i ≠ .unblock hd) : s.marks ≤ t.marks := by
  cases i with
  | powerOnReset pins => exact absurd rfl (hp pins)
  | unblock hd => exact absurd rfl (hu hd)
  | supplyRestart e => exact marks_le_of_next h (takeRestart_marks ..)
  | supplyWarning => exact marks_le_of_sent h (takeWarning_marks s)
  | warningNegated => exact marks_le_of_next h (takeWarningNegated_marks s)
  | ring hd p1 p2 => exact marks_le_of_next h (lineCommand_marks _ _ _ _ fun l t => ringLine_marks l t p1 p2)
  | stopRing hd => exact marks_le_of_next h (lineCommand_marks _ _ _ _ fun l t => (linePath_stopRingLine l t).marks)
  | connect hd => exact marks_le_of_next h (lineCommand_marks _ _ _ _ fun l t => (linePath_connectLine l t).marks)
  | releaseLine hd => exact marks_le_of_next h (lineCommand_marks _ _ _ _ fun l t => (linePath_releaseLine l t).marks)
  | tone hd v => exact marks_le_of_next h (lineCommand_marks _ _ _ _ fun l t => (linePath_toneLine l t _).marks)
  | blockPolite hd => exact marks_le_of_next h (lineCommand_marks _ _ _ _ fun l t => (linePath_blockPoliteLine l t).marks)
  | blockForced hd form =>
    refine marks_le_of_next h (lineCommand_marks _ _ _ _ fun l t => ?_)
    split
    · exact (linePath_blockPoliteLine l t).marks
    · exact (linePath_blockForcedLine l t).marks
  | remap hd target => exact marks_le_of_next h (lineCommand_marks _ _ _ _ fun l t => remapLine_marks l t target)
  | watch hd v => exact marks_le_of_next h (lineCommand_marks _ _ _ _ fun l t => (linePath_watchLine l t v).marks)
  | queryLine hd => exact marks_le_of_next h (lineCommand_marks _ _ _ _ fun l t => (linePath_queueLineState l t).marks)
  | queryStation hd =>
    exact marks_le_of_next h (stationCommand_marks _ _ _ _ fun t => (onlyReports_queueStationReport ..).marks)
  | queryTable hd =>
    exact marks_le_of_next h (stationCommand_marks _ _ _ _ fun t => (onlyReports_queueStationReport ..).marks)
  | start hd => exact marks_le_of_next h (stationCommand_marks _ _ _ _ startStation_marks)
  | stationReset hd e => exact marks_le_of_next h (stationCommand_marks _ _ _ _ fun t => stationReset_marks t e)
  | unknownCommand hd code =>
    refine marks_le_of_next h ?_
    split
    · rfl
    · exact receiveCommand_marks _ _ _ _ _ fun _ => rfl
  | peerClaim st l w set => exact marks_le_of_next h (receiveFrame_marks _ _ _ fun t => updateRow_marks t ..)
  | peerRelease st l w set => exact marks_le_of_next h (receiveFrame_marks _ _ _ fun t => updateRow_marks t ..)
  | peerSummary st cells => exact marks_le_of_next h (receiveFrame_marks _ _ _ fun t => updateRow_marks t ..)
  | peerWithdraw st => exact marks_le_of_next h (receiveFrame_marks _ _ _ fun t => updateRow_marks t ..)
  | peerReport st code number values =>
    refine marks_le_of_next h ?_
    split
    · exact receiveFrame_marks _ _ _ fun t => updateRow_marks t ..
    · exact discardFrame_marks s
  | ownNumberFrame kind => exact marks_le_of_next h (receiveFrame_marks _ _ _ fun _ => rfl)
  | frameDiscard octets framing =>
    refine marks_le_of_next h ?_
    split
    · exact discardFrame_marks s
    · rfl
  | busIdle => exact marks_le_of_next h (becomeIdle_marks s)
  | contestLost => exact marks_le_of_next h (loseContest_marks s)
  | readBackMismatch => exact marks_le_of_next h (abandonOnMismatch_marks s)
  | ownClaimCompletes => exact marks_le_of_next h (completeOwn_marks _ _ _ claimCompleted_marks)
  | ownReleaseCompletes => exact marks_le_of_next h (completeOwn_marks s _ releaseCompleted fun _ => rfl)
  | ownReportCompletes => exact marks_le_of_next h (completeOwn_marks _ _ _ fun t => (onlyReports_reportSent t).marks)
  | ownSummaryCompletes => exact marks_le_of_next h (completeOwn_marks s _ summaryCompleted fun _ => rfl)
  | ownWithdrawCompletes => exact marks_le_of_next h (completeOwn_marks s _ withdrawCompleted fun _ => rfl)
  | onHookEdge c => exact marks_le_of_sent h (takeOnHookEdge_marks c s)
  | offHookEdge c => exact marks_le_of_sent h (takeOffHookEdge_marks c s)
  | settle c => exact marks_le_of_sent h (takeSettleNotice_marks c s)
  | faultAssertedEdge c =>
    cases h
    exact (takeFaultAsserted_marks_le c s).trans (sendIfIdle_marks _).ge
  | faultNormalEdge c => exact marks_le_of_next h (takeFaultNormal_marks c s)
  | clearReached l => exact marks_le_of_sent h (whenRunning_marks s (linePath_handClearReached l))
  | seizeConfirmed l => exact marks_le_of_sent h (whenRunning_marks s (linePath_handSeizeConfirmed l))
  | tripConfirmed l => exact marks_le_of_sent h (whenRunning_marks s (linePath_handTripConfirmed l))
  | digitEnd l => exact marks_le_of_sent h (whenRunning_marks s (linePath_handDigitEnd l))
  | interdigitTimeout l => exact marks_le_of_sent h (whenRunning_marks s (linePath_handInterdigitTimeout l))
  | dialToneTimeout l => exact marks_le_of_sent h (whenRunning_marks s (linePath_handDialToneTimeout l))
  | recallTimeout l => exact marks_le_of_sent h (whenRunning_marks s (linePath_handRecallTimeout l))
  | phaseBoundary => exact marks_le_of_sent h (takePhaseBoundary_marks s)
  | cycleStart => exact marks_le_of_sent h (takeCycleEnd_marks s)
  | mark => exact marks_le_of_sent h (takeMark_marks s)
  | onPortionBoundary => exact marks_le_of_next h (takeOnPortion_marks s)
  | reducedRingPowerChange => exact marks_le_of_next h (takeReducedChange_marks s)
  | lineRecordCorrection l words =>
    refine marks_le_of_sent h ?_
    split
    · exact (linePath_correctLineRecord l s).marks
    · rfl
  | lineRecordDoubleBitError l u c => exact marks_le_of_sent h (takeLineDoubleBit_marks s l u c)
  | stationRecordCorrection words =>
    refine marks_le_of_sent h ?_
    split
    · exact correctStationRecord_marks s
    · rfl
  | stationRecordDoubleBitError u c e => exact marks_le_of_sent h (takeStationDoubleBit_marks s u c e)
  | tick inputs =>
    obtain rfl : (advanceTick inputs (settleDue s)).sendIfIdle = t := Host.Outcome.next.inj h
    rw [sendIfIdle_marks, advanceTick_marks]
    exact settleDue_marks_le s
  | startBit => exact marks_le_of_next h (takeStartBit_marks s)

end Sys2Proof.Machine
end

section
/-! PROOFS. The statement about the fault marks (R10), clause by clause. -/

namespace Sys2Proof.Machine

/-- UNBLOCK with an ASSERTED fault state leaves the circuits and the line, and queues REFUSED alone (R66). -/
theorem unblock_asserted_spec {s : State} {h : CommandHeader} {l : Line} {c : CircuitNo} (ht : s.Takes h h.mask l)
    (hf : (s.line l).state = .fault) (hc : (s.line l).circuit = some c) (ha : (s.circuit c).fault.asserted = true) :
    ∃ t, exec (.unblock h) s = .next t ∧ t.circuits = s.circuits ∧ (t.line l).state = .fault
      ∧ t.reports = s.reportsAfter [s.lineEntry l .refused [7, 4]] := by
  have hrefused : lineCommand h h.mask unblockLine s = refuse l 7 4 (s.endFrame true) := by
    rw [lineCommand_of_takes ht]
    exact unblockLine_of_asserted (s := s.endFrame true) hf hc ha
  have honly := onlyReports_refuse l 7 4 (s.endFrame true)
  refine ⟨_, congrArg Host.Outcome.next hrefused, by rw [honly.eq]; rfl, ?_, ?_⟩
  · rw [(honly.lines l).fields.1]; exact hf
  · exact queueReport_reports_congr (s := s) (t := s.endFrame true) rfl _

/-- UNBLOCK with a NORMAL fault state clears the mark, and the line leaves FAULT (R66). -/
theorem unblock_normal_spec {s : State} {h : CommandHeader} {l : Line} {c : CircuitNo} (ht : s.Takes h h.mask l)
    (hc : s.Clears l c) :
    ∃ t, exec (.unblock h) s = .next t ∧ (t.circuit c).faultMark = false ∧ (t.line l).state ≠ .fault := by
  have hacts : lineCommand h h.mask unblockLine s = unblockLine l (s.endFrame true) := lineCommand_of_takes ht _
  obtain ⟨hmarks, hleft⟩ := unblockLine_clears (s := s.endFrame true) hc
  refine ⟨_, congrArg Host.Outcome.next hacts, ?_, hleft⟩
  simpa [State.marks] using congrFun hmarks c

/-- A mark that UNBLOCK clears is that of a circuit which an addressed line clears. -/
theorem clears_of_unblock {s t : State} {h : CommandHeader} {c : CircuitNo} (he : exec (.unblock h) s = .next t)
    (hs : s.marks c = true) (ht : t.marks c = false) :
    ∃ l ∈ addressedLines s.own h.address h.mask, s.Clears l c := by
  cases he
  rcases receiveCommand_acts_or_marks h (s.takesLine h h.mask) s.running
    (fun t => (addressedLines s.own h.address h.mask).foldl (fun t l => unblockLine l t) t) s with hacts | hmarks
  · rw [lineCommand, hacts] at ht
    exact clears_of_unblockLines (s := s.endFrame true) (addressedLines_nodup ..) hs ht
  · rw [lineCommand, hmarks, hs] at ht
    cases ht

/-- A set mark that a row clears is cleared by a power-on reset, or by UNBLOCK through an addressed line. -/
theorem cleared_mark_cases {i : Instr} {s t : State} {c : CircuitNo} (he : exec i s = .next t) (hs : s.marks c = true)
    (ht : t.marks c = false) : (∃ pins, i = .powerOnReset pins)
      ∨ ∃ h l, i = .unblock h ∧ l ∈ addressedLines s.own h.address h.mask ∧ s.Clears l c := by
  by_cases hp : ∃ pins, i = .powerOnReset pins
  · exact .inl hp
  by_cases hu : ∃ h, i = .unblock h
  · obtain ⟨h, rfl⟩ := hu
    obtain ⟨l, hl, hclears⟩ := clears_of_unblock he hs ht
    exact .inr ⟨h, l, rfl, hl, hclears⟩
  · have hstands := marks_le_iff.1 (exec_marks_le he (not_exists.1 hp) (not_exists.1 hu)) c hs
    rw [ht] at hstands
    cases hstands

/-- A supply restart and a STATION RESET leave every mark (R176, R177). -/
theorem restart_marks {h : CommandHeader} {e : CircuitWordErrors} {s t : State}
    (he : exec (.supplyRestart e) s = .next t ∨ exec (.stationReset h e) s = .next t) : t.marks = s.marks := by
  rcases he with he | he
  · cases he; exact takeRestart_marks s e
  · cases he; exact stationCommand_marks _ _ _ _ fun t => stationReset_marks t e

/-- Settles O54: power-on reset and UNBLOCK by their own effects, every other row because it leaves the marks that are
set. -/
theorem faultMarksAreClearedInTwoCases : Obligations.FaultMarksAreClearedInTwoCases := by
  unfold Obligations.FaultMarksAreClearedInTwoCases
  refine ⟨fun pins s => ⟨_, rfl, congrFun (powerOn_marks s pins)⟩, fun h l c s ht hf hc => ⟨fun ha => ?_, fun ha => ?_⟩,
    fun i s t c he hs ht => cleared_mark_cases he hs ht, fun h e s t c he => congrFun (restart_marks he) c⟩
  · exact unblock_normal_spec ht ⟨hf, hc, ha⟩
  · exact unblock_asserted_spec ht hf hc ha

end Sys2Proof.Machine
end

section
/-! PROOFS. Every step keeps the Ring Placement Unit's bookkeeping (R54, R87, R108, R116, R126): the laws of the shared
operations carried to each row of the table, and from the rows to a step. -/

namespace Sys2Proof.Machine

/-! ### The shared shapes of the rows -/

/-- A row that answers a state in which the bookkeeping holds. -/
theorem ringOk_of_next {t u : State} (he : (.next u : Host.Outcome State Fault Refusal) = .next t) (hu : u.RingOk) :
    t.RingOk := by
  cases he
  exact hu

/-- A row that ends with the frame it makes ready on an idle bus. -/
theorem ringOk_of_sent {t u : State} (he : (.next u.sendIfIdle : Host.Outcome State Fault Refusal) = .next t)
    (hu : u.RingOk) : t.RingOk :=
  ringOk_of_next he (ringOk_sendIfIdle hu)

/-- A line command whose action is a path of each line it addresses. -/
theorem ringOk_lineCommand_of_path {s : State} (h : s.RingOk) (hd : CommandHeader) (mask : Octet)
    {act : Line → State → State} (ha : ∀ l t, LinePath l t (act l t)) : (lineCommand hd mask act s).RingOk :=
  ringOk_lineCommand h hd mask act fun l t ht => (ha l t).ringOk ht

theorem ringOk_stationCommand {s : State} (h : s.RingOk) (hd : CommandHeader) (allowed : StationState → Bool)
    {act : State → State} (ha : ∀ t, t.RingOk → (act t).RingOk) : (stationCommand hd allowed act s).RingOk :=
  ringOk_receiveCommand h hd _ _ act ha

/-- A frame of a peer writes that peer's row alone (R90 to R94). -/
theorem ringOk_receivePeer {s : State} (h : s.RingOk) (st : StationNo) (f : PeerRow → PeerRow) :
    (receiveFrame st (updateRow st f) s).RingOk :=
  ringOk_receiveFrame h st _ fun _ ht => ringOk_updateRow ht st f

/-- A threshold handed to a line of a running station moves that line along a path. -/
theorem ringOk_handed {s : State} (h : s.RingOk) (l : Line) {act : State → State} (ha : ∀ t, LinePath l t (act t)) :
    (whenRunning act s).RingOk :=
  ringOk_whenRunning h act fun t ht => (ha t).ringOk ht

/-! ### The rows of the table, and the step -/

/-- Every row of the table keeps the bookkeeping. -/
theorem ringOk_exec {i : Instr} {s t : State} (h : s.RingOk) (he : exec i s = .next t) : t.RingOk := by
  cases i with
  | powerOnReset pins => exact ringOk_of_next he (ringOk_powerOn pins s)
  | supplyRestart e => exact ringOk_of_next he (ringOk_takeRestart h e)
  | supplyWarning => exact ringOk_of_sent he (ringOk_takeWarning h)
  | warningNegated => exact ringOk_of_next he (ringOk_takeWarningNegated h)
  | ring hd p1 p2 => exact ringOk_of_next he (ringOk_lineCommand h _ _ _ fun l _ ht => ringOk_ringLine ht p1 p2 l)
  | stopRing hd => exact ringOk_of_next he (ringOk_lineCommand_of_path h _ _ linePath_stopRingLine)
  | connect hd => exact ringOk_of_next he (ringOk_lineCommand_of_path h _ _ linePath_connectLine)
  | releaseLine hd => exact ringOk_of_next he (ringOk_lineCommand_of_path h _ _ linePath_releaseLine)
  | tone hd v => exact ringOk_of_next he (ringOk_lineCommand_of_path h _ _ fun l t => linePath_toneLine l t _)
  | blockPolite hd => exact ringOk_of_next he (ringOk_lineCommand_of_path h _ _ linePath_blockPoliteLine)
  | blockForced hd form =>
    refine ringOk_of_next he (ringOk_lineCommand_of_path h _ _ fun l t => ?_)
    split
    · exact linePath_blockPoliteLine l t
    · exact linePath_blockForcedLine l t
  | unblock hd => exact ringOk_of_next he (ringOk_lineCommand h _ _ _ fun l _ ht => ringOk_unblockLine ht l)
  | remap hd target => exact ringOk_of_next he (ringOk_lineCommand h _ _ _ fun l _ ht => ringOk_remapLine ht target l)
  | watch hd v => exact ringOk_of_next he (ringOk_lineCommand_of_path h _ _ fun l t => linePath_watchLine l t v)
  | queryLine hd => exact ringOk_of_next he (ringOk_lineCommand_of_path h _ _ linePath_queueLineState)
  | queryStation hd =>
    exact ringOk_of_next he (ringOk_stationCommand h _ _ fun _ ht => (onlyReports_queueStationReport ..).ringOk ht)
  | queryTable hd =>
    exact ringOk_of_next he (ringOk_stationCommand h _ _ fun _ ht => (onlyReports_queueStationReport ..).ringOk ht)
  | start hd => exact ringOk_of_next he (ringOk_stationCommand h _ _ fun _ => ringOk_startStation)
  | stationReset hd e => exact ringOk_of_next he (ringOk_stationCommand h _ _ fun t _ => ringOk_stationReset e t)
  | unknownCommand hd code =>
    refine ringOk_of_next he ?_
    split
    · exact h
    · exact ringOk_receiveCommand h _ _ _ _ fun _ ht => ht
  | peerClaim st l w set => exact ringOk_of_next he (ringOk_receivePeer h st _)
  | peerRelease st l w set => exact ringOk_of_next he (ringOk_receivePeer h st _)
  | peerSummary st cells => exact ringOk_of_next he (ringOk_receivePeer h st _)
  | peerWithdraw st => exact ringOk_of_next he (ringOk_receivePeer h st _)
  | peerReport st code number values =>
    refine ringOk_of_next he ?_
    split
    · exact ringOk_receivePeer h st _
    · exact ringOk_discardFrame h
  | ownNumberFrame kind => exact ringOk_of_next he (ringOk_receiveFrame h _ _ fun _ ht => ht)
  | frameDiscard octets framing =>
    refine ringOk_of_next he ?_
    split
    · exact ringOk_discardFrame h
    · exact h
  | busIdle => exact ringOk_of_next he (ringOk_becomeIdle h)
  | contestLost => exact ringOk_of_next he (ringOk_loseContest h)
  | readBackMismatch => exact ringOk_of_next he (ringOk_abandonOnMismatch h)
  | ownClaimCompletes => exact ringOk_of_next he (ringOk_completeOwn h _ _ fun _ => ringOk_claimCompleted)
  | ownReleaseCompletes => exact ringOk_of_next he (ringOk_completeOwn h _ _ fun _ => ringOk_releaseCompleted)
  | ownReportCompletes =>
    exact ringOk_of_next he (ringOk_completeOwn h _ _ fun t ht => (onlyReports_reportSent t).ringOk ht)
  | ownSummaryCompletes =>
    exact ringOk_of_next he (ringOk_completeOwn h _ summaryCompleted fun _ ht => ringOk_other ht rfl rfl rfl)
  | ownWithdrawCompletes =>
    exact ringOk_of_next he (ringOk_completeOwn h _ withdrawCompleted fun _ ht => ringOk_other ht rfl rfl rfl)
  | onHookEdge c => exact ringOk_of_sent he (ringOk_takeOnHookEdge h c)
  | offHookEdge c => exact ringOk_of_sent he (ringOk_takeOffHookEdge h c)
  | settle c => exact ringOk_of_sent he (ringOk_takeSettleNotice h c)
  | faultAssertedEdge c => exact ringOk_of_sent he (ringOk_takeFaultAsserted h c)
  | faultNormalEdge c => exact ringOk_of_next he (ringOk_takeFaultNormal h c)
  | clearReached l => exact ringOk_of_sent he (ringOk_handed h l (linePath_handClearReached l))
  | seizeConfirmed l => exact ringOk_of_sent he (ringOk_handed h l (linePath_handSeizeConfirmed l))
  | tripConfirmed l => exact ringOk_of_sent he (ringOk_handed h l (linePath_handTripConfirmed l))
  | digitEnd l => exact ringOk_of_sent he (ringOk_handed h l (linePath_handDigitEnd l))
  | interdigitTimeout l => exact ringOk_of_sent he (ringOk_handed h l (linePath_handInterdigitTimeout l))
  | dialToneTimeout l => exact ringOk_of_sent he (ringOk_handed h l (linePath_handDialToneTimeout l))
  | recallTimeout l => exact ringOk_of_sent he (ringOk_handed h l (linePath_handRecallTimeout l))
  | phaseBoundary => exact ringOk_of_sent he (ringOk_takePhaseBoundary h)
  | cycleStart => exact ringOk_of_sent he (ringOk_takeCycleEnd h)
  | mark => exact ringOk_of_sent he (ringOk_takeMark h)
  | onPortionBoundary => exact ringOk_of_next he (ringOk_takeOnPortion h)
  | reducedRingPowerChange => exact ringOk_of_next he (ringOk_takeReducedChange h)
  | lineRecordCorrection l words =>
    refine ringOk_of_sent he ?_
    split
    · exact (linePath_correctLineRecord l s).ringOk h
    · exact h
  | lineRecordDoubleBitError l u c => exact ringOk_of_sent he (ringOk_takeLineDoubleBit h l u c)
  | stationRecordCorrection words =>
    refine ringOk_of_sent he ?_
    split
    · exact ringOk_correctStationRecord h
    · exact h
  | stationRecordDoubleBitError u c e => exact ringOk_of_sent he (ringOk_takeStationDoubleBit h u c e)
  | tick inputs => exact ringOk_of_sent he (ringOk_advanceTick (ringOk_settleDue h) inputs)
  | startBit => exact ringOk_of_next he (ringOk_takeStartBit h)

/-- A step keeps the bookkeeping: the command at the front of the queue is a row of the table, and a bit time ends in one
or moves frame and assembly alone. -/
theorem ringOk_step {s t : State} (h : s.RingOk) (hst : step s = .next t) : t.RingOk := by
  unfold step at hst
  split at hst
  next =>
    have hwire : ({ s with wire := s.wire.tail } : State).RingOk := ringOk_other h rfl rfl rfl
    exact ringOk_bitTime hwire _ (fun _ _ _ hu => ringOk_exec hu) hst
  next c rest _ =>
    have hpending : ({ s with pending := rest } : State).RingOk := ringOk_other h rfl rfl rfl
    exact ringOk_exec hpending hst

/-- Settles O58: each row keeps the bookkeeping, and the bound is that of the loads of 16 lines of weight at most 15. -/
theorem stepKeepsRingBookkeeping : Obligations.StepKeepsRingBookkeeping := by
  unfold Obligations.StepKeepsRingBookkeeping
  intro s t h hst
  have ht : t.RingOk := ringOk_step h hst
  exact ⟨ht, ht.ownRow_le⟩

end Sys2Proof.Machine
end

section
/-! PROOFS. The placement computation (R112 to R114): the cost and the delay as the extremes R113 defines, the choice
among the offsets that fit as the least of their ranks in R114's order, and the entry that an attempt takes. -/

namespace Sys2Proof.Machine

/-! ### Fit, cost and delay over the phases of a set -/

theorem mem_setPhases {set : PhaseSet} {q : Phase} : q ∈ setPhases set ↔ inSet set q = true := by
  simp [setPhases]

theorem fits_iff {T : Vector Nat 8} {w E : Nat} {set : PhaseSet} :
    fits T w E set = true ↔ ∀ q : Phase, inSet set q = true → T[q] + w ≤ E := by
  simp [fits, mem_setPhases]

theorem fits_eq_false_iff {T : Vector Nat 8} {w E : Nat} {set : PhaseSet} :
    fits T w E set = false ↔ ∃ q : Phase, inSet set q = true ∧ E < T[q] + w := by
  simp [fits, mem_setPhases]

theorem setPhases_rotatedSet_ne_nil (code : Fin 4) (o : Phase) : setPhases (rotatedSet code o) ≠ [] := by
  revert code o
  decide

/-- On a set that holds a phase, the fold's start value 0 never shows: the cost is a maximum. -/
theorem max?_eq_cost (T : Vector Nat 8) (w : Nat) {set : PhaseSet} (h : setPhases set ≠ []) :
    ((setPhases set).map fun q => T[q] + w).max? = some (cost T w set) := by
  obtain ⟨q, qs, hq⟩ := List.exists_cons_of_ne_nil h
  simp only [cost, hq, List.map_cons, List.max?_cons', List.foldl_map, List.foldl_cons, Nat.zero_max]

/-- On a set that holds a phase, the fold's start value 7 never shows: the delay is a minimum. -/
theorem min?_eq_delay (c : Phase) {set : PhaseSet} (h : setPhases set ≠ []) :
    ((setPhases set).map fun q => (q - c - 1).val).min? = some (delay c set) := by
  obtain ⟨q, qs, hq⟩ := List.exists_cons_of_ne_nil h
  have hstart : min 7 (q - c - 1).val = (q - c - 1).val := by omega
  simp only [delay, hq, List.map_cons, List.min?_cons', List.foldl_map, List.foldl_cons, hstart]

theorem cost_spec (T : Vector Nat 8) (w : Nat) {set : PhaseSet} (h : setPhases set ≠ []) :
    (∀ q : Phase, inSet set q = true → T[q] + w ≤ cost T w set)
    ∧ ∃ q : Phase, inSet set q = true ∧ cost T w set = T[q] + w := by
  obtain ⟨hattained, hbound⟩ := List.max?_eq_some_iff.1 (max?_eq_cost T w h)
  obtain ⟨q, hq, hcost⟩ := List.mem_map.1 hattained
  exact ⟨fun p hp => hbound _ (List.mem_map_of_mem (mem_setPhases.2 hp)), q, mem_setPhases.1 hq, hcost.symm⟩

theorem delay_spec (c : Phase) {set : PhaseSet} (h : setPhases set ≠ []) :
    (∀ q : Phase, inSet set q = true → delay c set ≤ (q - c - 1).val)
    ∧ ∃ q : Phase, inSet set q = true ∧ delay c set = (q - c - 1).val := by
  obtain ⟨hattained, hbound⟩ := List.min?_eq_some_iff.1 (min?_eq_delay c h)
  obtain ⟨q, hq, hdelay⟩ := List.mem_map.1 hattained
  exact ⟨fun p hp => hbound _ (List.mem_map_of_mem (mem_setPhases.2 hp)), q, mem_setPhases.1 hq, hdelay.symm⟩

/-- The phases from the one after `c` to `q`, in the arithmetic of R113. -/
theorem val_sub_sub_one (q c : Phase) : (q - c - 1).val = (q.val + 8 - c.val - 1) % 8 := by omega

theorem delay_eq_zero {c : Phase} {set : PhaseSet} (h : inSet set (c + 1) = true) : delay c set = 0 := by
  have hne : setPhases set ≠ [] := List.ne_nil_of_mem (mem_setPhases.2 h)
  have hle : delay c set ≤ (c + 1 - c - 1).val := (delay_spec c hne).1 _ h
  have hzero : (c + 1 - c - 1).val = 0 := by omega
  omega

/-! ### Rotated sets -/

theorem rotatedSet_three_add_four (o : Phase) : rotatedSet 3 (o + 4) = rotatedSet 3 o := by
  revert o
  decide

theorem rotatedSet_injective {code : Fin 4} (hcode : code ≠ 3) : Function.Injective (rotatedSet code) := by
  revert code
  unfold Function.Injective
  decide

/-! ### The choice of an offset -/

section Choice
variable (T : Vector Nat 8) (c : Phase) (w E : Nat) (code : Fin 4)

/-- What R114 compares, in its order: cost, then delay, then the offset itself. -/
def offsetRank (o : Phase) : ℕ ×ₗ ℕ ×ₗ Phase :=
  toLex (cost T w (rotatedSet code o), toLex (delay c (rotatedSet code o), o))

/-- What one offset does to the best of those before it. -/
def betterOffset (best : Option Phase) (o : Phase) : Option Phase :=
  if fits T w E (rotatedSet code o) then
    match best with
    | none => some o
    | some b => if cheaper T c w (rotatedSet code o) (rotatedSet code b) then some o else some b
  else best

/-- The offset is the one R114 chooses among those of the list, or none of them fits. -/
def BestAmong (offsets : List Phase) : Option Phase → Prop
  | none => ∀ o ∈ offsets, fits T w E (rotatedSet code o) = false
  | some b => b ∈ offsets ∧ fits T w E (rotatedSet code b) = true
      ∧ ∀ o ∈ offsets, fits T w E (rotatedSet code o) = true →
          offsetRank T c w code b ≤ offsetRank T c w code o

variable {T c w E code}

theorem chooseOffset_eq_foldl :
    chooseOffset T c w E code = (List.finRange 8).foldl (betterOffset T c w E code) none := rfl

theorem betterOffset_of_not_fits {best : Option Phase} {o : Phase} (h : fits T w E (rotatedSet code o) = false) :
    betterOffset T c w E code best o = best := by
  simp [betterOffset, h]

theorem betterOffset_none {o : Phase} (h : fits T w E (rotatedSet code o) = true) :
    betterOffset T c w E code none o = some o := by
  simp [betterOffset, h]

theorem offsetRank_le_iff {o o' : Phase} : offsetRank T c w code o ≤ offsetRank T c w code o' ↔
    cost T w (rotatedSet code o) < cost T w (rotatedSet code o')
    ∨ cost T w (rotatedSet code o) = cost T w (rotatedSet code o')
      ∧ (delay c (rotatedSet code o) < delay c (rotatedSet code o')
        ∨ delay c (rotatedSet code o) = delay c (rotatedSet code o') ∧ o ≤ o') := by
  simp [offsetRank, Prod.Lex.toLex_le_toLex]

/-- Of two offsets the later is the better one exactly when it is cheaper: the lower offset wins a tie. -/
theorem cheaper_iff_offsetRank_lt {b o : Phase} (h : b < o) :
    cheaper T c w (rotatedSet code o) (rotatedSet code b) = true
      ↔ offsetRank T c w code o < offsetRank T c w code b := by
  simp [cheaper, offsetRank, Prod.Lex.toLex_lt_toLex, h.le.not_gt]

theorem betterOffset_some {b o : Phase} (hfit : fits T w E (rotatedSet code o) = true) (h : b < o) :
    betterOffset T c w E code (some b) o
      = if offsetRank T c w code o < offsetRank T c w code b then some o else some b := by
  simp [betterOffset, hfit, cheaper_iff_offsetRank_lt h]

/-- One more offset, above all before it, keeps the best of those seen. -/
theorem bestAmong_betterOffset {offsets : List Phase} {best : Option Phase} {o : Phase}
    (h : BestAmong T c w E code offsets best) (habove : ∀ p ∈ offsets, p < o) :
    BestAmong T c w E code (offsets ++ [o]) (betterOffset T c w E code best o) := by
  cases hfit : fits T w E (rotatedSet code o) with
  | false =>
    rw [betterOffset_of_not_fits hfit]
    cases best with
    | none => exact List.forall_mem_append.2 ⟨h, by simpa using hfit⟩
    | some b =>
      obtain ⟨hmem, hbfit, hleast⟩ := h
      exact ⟨List.mem_append_left _ hmem, hbfit, List.forall_mem_append.2 ⟨hleast, by simp [hfit]⟩⟩
  | true =>
    have hlast : o ∈ offsets ++ [o] := List.mem_append_right _ (List.mem_singleton_self o)
    cases best with
    | none =>
      rw [betterOffset_none hfit]
      exact ⟨hlast, hfit, List.forall_mem_append.2 ⟨fun p hp hpfit => by simp [h p hp] at hpfit, by simp⟩⟩
    | some b =>
      obtain ⟨hmem, hbfit, hleast⟩ := h
      rw [betterOffset_some hfit (habove b hmem)]
      split
      next hlt =>
        exact ⟨hlast, hfit,
          List.forall_mem_append.2 ⟨fun p hp hpfit => hlt.le.trans (hleast p hp hpfit), by simp⟩⟩
      next hge =>
        exact ⟨List.mem_append_left _ hmem, hbfit, List.forall_mem_append.2 ⟨hleast, by simpa [hfit] using hge⟩⟩

/-- The fold over increasing offsets ends with the best of them. -/
theorem bestAmong_foldl (offsets : List Phase) (h : offsets.Pairwise (· < ·)) :
    BestAmong T c w E code offsets (offsets.foldl (betterOffset T c w E code) none) := by
  induction offsets using List.reverseRecOn with
  | nil => simp [BestAmong]
  | append_singleton offsets o ih =>
    obtain ⟨hoffsets, -, habove⟩ := List.pairwise_append.1 h
    rw [List.foldl_append]
    exact bestAmong_betterOffset (ih hoffsets) fun p hp => habove p hp o (List.mem_singleton_self o)

theorem bestAmong_chooseOffset {best : Option Phase} (h : chooseOffset T c w E code = best) :
    BestAmong T c w E code (List.finRange 8) best := by
  rw [← h, chooseOffset_eq_foldl]
  exact bestAmong_foldl _ (List.pairwise_lt_finRange 8)

theorem chooseOffset_fits {o : Phase} (h : chooseOffset T c w E code = some o) :
    fits T w E (rotatedSet code o) = true := by
  obtain ⟨-, hfit, -⟩ := bestAmong_chooseOffset h
  exact hfit

theorem offsetRank_chooseOffset_le {o o' : Phase} (h : chooseOffset T c w E code = some o)
    (hfit : fits T w E (rotatedSet code o') = true) : offsetRank T c w code o ≤ offsetRank T c w code o' := by
  obtain ⟨-, -, hleast⟩ := bestAmong_chooseOffset h
  exact hleast o' (List.mem_finRange o') hfit

theorem not_fits_of_chooseOffset_none (h : chooseOffset T c w E code = none) (o : Phase) :
    fits T w E (rotatedSet code o) = false :=
  bestAmong_chooseOffset h o (List.mem_finRange o)

/-- Offset o + 4 has the rotated set of o on code 3, so it ties with it and the lower of the two is chosen (R114). -/
theorem chooseOffset_code_three_lt {o : Phase} (h : chooseOffset T c w E 3 = some o) : o.val < 4 := by
  have hset : rotatedSet 3 (o + 4) = rotatedSet 3 o := rotatedSet_three_add_four o
  have hrank : offsetRank T c w 3 o ≤ offsetRank T c w 3 (o + 4) :=
    offsetRank_chooseOffset_le h (hset ▸ chooseOffset_fits h)
  have hle : o ≤ o + 4 := by simpa [offsetRank_le_iff, hset] using hrank
  have hval : o.val ≤ (o.val + 4) % 8 := hle
  omega

end Choice

/-! ### The entry an attempt takes -/

/-- The placement an attempt finds for one entry of the queue. -/
def State.placementOf (s : State) (l : Line) : Option (Line × Phase) :=
  match (s.line l).ring with
  | some r =>
    (chooseOffset s.attemptTotals s.cadence.phase r.weight (s.effectiveBudget r.priority) r.code).map fun o => (l, o)
  | none => none

theorem findPlacement_eq_findSome? (s : State) : s.findPlacement = s.ringUnit.queue.findSome? s.placementOf := rfl

/-- The attempt record depends on nothing of the Ring Placement Unit (R112). -/
theorem placementOf_setRingUnit (s : State) (u : RingUnit) : (s.setRingUnit u).placementOf = s.placementOf := rfl

theorem placementOf_of_ring {s : State} {l : Line} {r : RingContext} (h : (s.line l).ring = some r) :
    s.placementOf l
      = (chooseOffset s.attemptTotals s.cadence.phase r.weight (s.effectiveBudget r.priority) r.code).map
          fun o => (l, o) := by
  simp [State.placementOf, h]

theorem findPlacement_of_head_none {s : State} {l : Line} {rest : List Line} (hq : s.ringUnit.queue = l :: rest)
    (h : s.placementOf l = none) :
    s.findPlacement = (s.setRingUnit { s.ringUnit with queue := rest }).findPlacement := by
  rw [findPlacement_eq_findSome?, findPlacement_eq_findSome?, placementOf_setRingUnit, hq]
  exact List.findSome?_cons_of_isNone (by simp [h])

theorem findPlacement_of_head_some {s : State} {l : Line} {rest : List Line} {x : Line × Phase}
    (hq : s.ringUnit.queue = l :: rest) (h : s.placementOf l = some x) : s.findPlacement = some x := by
  simp [findPlacement_eq_findSome?, hq, h]

/-! ### The statement -/

/-- Settles O49: the fold over the increasing offsets keeps the least rank among those that fit. -/
theorem placementChoosesTheBestOffset : Obligations.PlacementChoosesTheBestOffset := by
  unfold Obligations.PlacementChoosesTheBestOffset
  refine ⟨fun T c w E code => ⟨fun o ho => ⟨?_, fits_iff.1 (chooseOffset_fits ho), ?_⟩, ?_⟩,
    rotatedSet_three_add_four, fun code o o' hcode heq => rotatedSet_injective hcode heq,
    fun c set => delay_eq_zero, fun T w code o => cost_spec T w (setPhases_rotatedSet_ne_nil code o),
    fun c code o => ?_, fun s l rest r hq hr => ⟨fun hnone => ?_, fun o ho => ?_⟩⟩
  · rintro rfl
    exact chooseOffset_code_three_lt ho
  · exact fun o' hfit => offsetRank_le_iff.1 (offsetRank_chooseOffset_le ho (fits_iff.2 hfit))
  · exact fun hnone o => fits_eq_false_iff.1 (not_fits_of_chooseOffset_none hnone o)
  · simpa only [val_sub_sub_one] using delay_spec c (setPhases_rotatedSet_ne_nil code o)
  · exact findPlacement_of_head_none hq (by simp [placementOf_of_ring hr, hnone])
  · exact findPlacement_of_head_some hq (by simp [placementOf_of_ring hr, ho])

end Sys2Proof.Machine
end

section
/-! PROOFS. QUERY STATION and QUERY TABLE (R104, R105, R158): a station command that is taken, and a class 3 report that
coalesces with none. -/

namespace Sys2Proof.Machine

/-! ### A class 3 report at the end of the queue -/

theorem ReportEntry.cls_le_three (e : ReportEntry) : e.cls ≤ 3 := by
  unfold ReportEntry.cls
  cases e.code <;> decide

/-- A report whose class number no entry exceeds goes behind every entry (R162). -/
theorem insertReport_eq_append {e : ReportEntry} {q : List ReportEntry} (h : ∀ x ∈ q, x.cls ≤ e.cls) :
    insertReport e q = q ++ [e] := by
  induction q with
  | nil => rfl
  | cons x q ih =>
    obtain ⟨hx, hq⟩ := List.forall_mem_cons.1 h
    rw [insertReport, if_pos hx, ih hq, List.cons_append]

/-- The reports that coalesce are LINE STATE, TRACE and CORRECTED (R163). -/
theorem not_coalescesWith {e : ReportEntry} (h : e.code ≠ .lineState ∧ e.code ≠ .trace ∧ e.code ≠ .corrected)
    (old : ReportEntry) : e.coalescesWith old = false := by
  simp [ReportEntry.coalescesWith, h]

/-- A class 3 report that coalesces with none: behind every entry, or dropped by a full queue (R162, R164). -/
theorem queueReport_of_class3 {e : ReportEntry} (hc : e.cls = 3)
    (hn : e.code ≠ .lineState ∧ e.code ≠ .trace ∧ e.code ≠ .corrected) (s : State) :
    s.queueReport e = { s with reports := if s.reports.length < 32 then s.reports ++ [e] else s.reports } := by
  have hany : s.reports.any e.coalescesWith = false := List.any_eq_false.2 fun old _ => by simp [not_coalescesWith hn]
  have hins : insertReport e s.reports = s.reports ++ [e] :=
    insertReport_eq_append fun x _ => hc ▸ x.cls_le_three
  by_cases hlen : s.reports.length < 32
  · simp [State.queueReport, hany, reportCapacity, hlen, hins, State.setReports]
  · simp [State.queueReport, hany, reportCapacity, hlen, displacedBy, hc]

/-- A station report of class 3 that coalesces with none (R97, R104, R105, R162, R164). -/
theorem queueStationReport_of_class3 {code : ReportCode} (hc : reportClass code = 3)
    (hn : code ≠ .lineState ∧ code ≠ .trace ∧ code ≠ .corrected) (values : List Octet) (s : State) :
    queueStationReport code values s = { s with
      reports := if s.reports.length < 32 then s.reports ++ [newReport code (stationNumber s.own) values]
        else s.reports } :=
  queueReport_of_class3 (e := newReport code (stationNumber s.own) values) hc hn s

/-! ### A station command that is taken -/

/-- A station command that is heard, that the station state allows, and that addresses the station acts, with the slot
driven (R142, R155, R156). -/
theorem stationCommand_of_hears {s : State} {h : CommandHeader} {allowed : StationState → Bool} (hh : s.Hears h)
    (ha : allowed s.station.state = true) (hs : addressesStation s.own h.address = true) (act : State → State) :
    stationCommand h allowed act s = act (s.endFrame true) := by
  obtain ⟨hreceiving, hstation, hdecided⟩ := hh
  have htakes : s.takesStation h allowed = true := by simp [State.takesStation, hstation, ha, hs]
  simp [stationCommand, receiveCommand, hreceiving, hstation, hdecided, htakes]

/-! ### The statement -/

/-- Settles O21: the station takes the query, and the answer is a class 3 report that coalesces with none. -/
theorem stationQueriesAreAnswered : Obligations.StationQueriesAreAnswered := by
  unfold Obligations.StationQueriesAreAnswered
  rintro h s hh hrunning haddressed i e (⟨rfl, rfl⟩ | ⟨rfl, rfl⟩)
  · have hacts := stationCommand_of_hears hh hrunning haddressed
      fun t => queueStationReport .stationState t.stationStateValues t
    exact congrArg Host.Outcome.next (hacts.trans (queueStationReport_of_class3 rfl (by decide) _ _))
  · have hacts := stationCommand_of_hears hh hrunning haddressed
      fun t => queueStationReport .tableView t.tableViewValues t
    exact congrArg Host.Outcome.next (hacts.trans (queueStationReport_of_class3 rfl (by decide) _ _))

end Sys2Proof.Machine
end

section
/-! PROOFS. The addressing of COMMAND frames (R154) and the lines' taking of a masked command one by one (R156). -/

namespace Sys2Proof.Machine

/-! ### Which lines and which station an address names -/

section Addressing
variable {own : StationNo} {address mask : Octet} {l : Line}

theorem mem_addressedLines : l ∈ addressedLines own address mask ↔ (shelfNumber own l ^^^ address) &&& mask = 0 := by
  simp [addressedLines]

/-- Octets agree under a mask where they agree in every bit position of a 1 of the mask. -/
theorem xor_and_eq_zero_iff {a b m : Octet} :
    (a ^^^ b) &&& m = 0 ↔ ∀ i < 8, m.getLsbD i = true → a.getLsbD i = b.getLsbD i := by
  have hbit : ∀ i, ((a ^^^ b) &&& m).getLsbD i = (0 : Octet).getLsbD i
      ↔ (m.getLsbD i = true → a.getLsbD i = b.getLsbD i) := fun i => by
    cases hm : m.getLsbD i <;> simp [hm]
  constructor
  · exact fun h i _ => (hbit i).1 (by rw [h])
  · exact fun h => BitVec.eq_of_getLsbD_eq fun i hi => (hbit i).2 (h i hi)

theorem shelfNumber_toNat : (shelfNumber own l).toNat = 16 * own.val + l.val := by
  simp only [shelfNumber, BitVec.toNat_ofNat]
  omega

/-- Under all ones a line is addressed by its shelf line number alone (R154). -/
theorem mem_addressedLines_fullMask : l ∈ addressedLines own address 255 ↔ 16 * own.val + l.val = address.toNat := by
  have hand : (shelfNumber own l ^^^ address) &&& 255 = shelfNumber own l ^^^ address := BitVec.and_allOnes
  rw [mem_addressedLines, hand, ← shelfNumber_toNat, BitVec.toNat_inj]
  exact BitVec.xor_eq_zero_iff

/-- The shelf line number of a line addresses that line alone. -/
theorem addressedLines_shelfNumber : addressedLines own (shelfNumber own l) 255 = [l] := by
  have hmem : ∀ m, m ∈ addressedLines own (shelfNumber own l) 255 ↔ m ∈ [l] := fun m => by
    rw [mem_addressedLines_fullMask, shelfNumber_toNat, List.mem_singleton, Fin.ext_iff]
    omega
  exact List.perm_singleton.1
    ((List.perm_ext_iff_of_nodup (addressedLines_nodup ..) (List.nodup_singleton l)).2 hmem)

theorem addressedLines_pairwise : (addressedLines own address mask).Pairwise (· < ·) :=
  (List.pairwise_lt_finRange 16).filter _

theorem addressesStation_iff : addressesStation own address = true ↔ own ≠ 0 ∧ address.toNat / 16 = own.val := by
  simp only [addressesStation, Bool.and_eq_true, decide_eq_true_eq]
  rfl

/-- A high half of 0 names no line and no station where the mask is all ones (R154). -/
theorem addressed_none (hown : own ≠ 0) (h : address.toNat < 16) :
    addressedLines own address 255 = [] ∧ addressesStation own address = false := by
  have hpos : own.val ≠ 0 := fun h0 => hown (Fin.ext h0)
  refine ⟨List.eq_nil_iff_forall_not_mem.2 fun l hl => ?_, Bool.eq_false_iff.2 fun hs => ?_⟩
  · have := mem_addressedLines_fullMask.1 hl
    omega
  · have := (addressesStation_iff.1 hs).2
    omega

end Addressing

/-! ### What the work of a line command leaves to Command Dispatch -/

/-- What the taking of a line command reads besides its header: the bus interface, the station record, and the counter of
free values (log 7), from which the own number is read. -/
def State.dispatch (s : State) : BusInterface × StationRecord × Nat := (s.bus, s.station, s.freeDraws)

theorem bus_of_dispatch {s t : State} (h : t.dispatch = s.dispatch) : t.bus = s.bus := congrArg Prod.fst h

theorem LinePath.dispatch {l : Line} {s t : State} (h : LinePath l s t) : t.dispatch = s.dispatch := by
  rw [h.lineMove.eq]
  rfl

theorem OnlyReports.dispatch {s t : State} (h : OnlyReports s t) : t.dispatch = s.dispatch := by
  rw [h.eq]
  rfl

theorem transition_dispatch (l : Line) (new : LineState) (report : State → State) (s : State)
    (hr : ∀ t, OnlyReports t (report t)) : (transition l new report s).dispatch = s.dispatch := by
  rw [transition, (onlyReports_traceChange ..).dispatch, (hr _).dispatch, enterState_eq]
  rfl

section Lines
variable (l : Line) (s : State)

theorem place_dispatch (o : Phase) : (place l o s).dispatch = s.dispatch := by
  unfold place
  split
  · exact (linePath_handSeizeConfirmed ..).dispatch.trans (transition_dispatch _ _ _ _ onlyReports_id)
  · rfl

theorem attemptPlacement_dispatch : (attemptPlacement s).dispatch = s.dispatch := by
  unfold attemptPlacement
  split
  · split
    · exact place_dispatch ..
    · rfl
  · rfl

theorem ringLine_dispatch (p1 p2 : Octet) : (ringLine p1 p2 l s).dispatch = s.dispatch := by
  unfold ringLine
  split
  · rw [takeRing, (linePath_handSeizeConfirmed ..).dispatch, attemptPlacement_dispatch]
    exact transition_dispatch _ _ _ _ onlyReports_id
  all_goals exact (linePath_refuse ..).dispatch

theorem recomposeLeft_dispatch (c : Option CircuitNo) : (s.recomposeLeft c).dispatch = s.dispatch := by
  cases c <;> rfl

theorem remapLine_dispatch (target : Octet) : (remapLine target l s).dispatch = s.dispatch := by
  unfold remapLine
  split
  · exact (linePath_refuse ..).dispatch
  split
  · exact (linePath_refuse ..).dispatch
  split
  · exact (linePath_refuse ..).dispatch
  split
  · exact (linePath_refuse ..).dispatch
  · refine (recomposeLeft_dispatch ..).trans (transition_dispatch _ _ _ _ fun t => ?_)
    split
    · exact onlyReports_queueLine ..
    · exact onlyReports_queueLineState ..

theorem unblockLine_dispatch : (unblockLine l s).dispatch = s.dispatch := by
  by_cases h : ∃ c, s.Clears l c
  · obtain ⟨c, hc⟩ := h
    rw [unblockLine_of_clears hc, (linePath_returnToService ..).dispatch]
    rfl
  · exact (linePath_unblockLine (not_exists.1 h)).dispatch

end Lines

/-! ### A line command that completes -/

/-- A line command of the station completes that is taken if it addresses a line (R154, R155, R156). -/
def State.Admits (s : State) (station : StationNo) : Prop :=
  s.receiving = true ∧ station ≠ s.own ∧ s.bus.rx.decided ≠ some false ∧ s.running = true

theorem admits_of_hears {s : State} {h : CommandHeader} (hh : s.Hears h) (hr : s.running = true) :
    s.Admits h.station := by
  obtain ⟨hreceiving, hstation, hdecided⟩ := hh
  exact ⟨hreceiving, hstation, by simp [hdecided], hr⟩

theorem takes_of_admits {s : State} {h : CommandHeader} {mask : Octet} {l : Line} (ha : s.Admits h.station)
    (hl : addressedLines s.own h.address mask = [l]) : s.Takes h mask l := by
  obtain ⟨hreceiving, hstation, hdecided, hrunning⟩ := ha
  exact ⟨hreceiving, hstation, hdecided, hrunning, hl⟩

/-- A taken line command acts on each addressed line in increasing order, with the slot driven (R142, R156). -/
theorem lineCommand_of_admits {s : State} {h : CommandHeader} {mask : Octet} (ha : s.Admits h.station)
    (hl : addressedLines s.own h.address mask ≠ []) (act : Line → State → State) :
    lineCommand h mask act s
      = (addressedLines s.own h.address mask).foldl (fun t l => act l t) (s.endFrame true) := by
  obtain ⟨hreceiving, hstation, hdecided, hrunning⟩ := ha
  have htakes : s.takesLine h mask = true := by simp [State.takesLine, hstation, hrunning, hl]
  cases hd : s.bus.rx.decided with
  | none => simp [lineCommand, receiveCommand, hreceiving, hd, hstation, htakes]
  | some b =>
    obtain rfl : b = true := by
      cases b
      · exact absurd hd hdecided
      · rfl
    simp [lineCommand, receiveCommand, hreceiving, hd, hrunning]

/-- A line command that addresses no line is not taken: the slot is left recessive (R142, R155). -/
theorem lineCommand_of_addressed_none {s : State} {h : CommandHeader} {mask : Octet} (hh : s.Hears h)
    (hl : addressedLines s.own h.address mask = []) (act : Line → State → State) :
    lineCommand h mask act s = s.endFrame false := by
  obtain ⟨hreceiving, hstation, hdecided⟩ := hh
  simp [lineCommand, receiveCommand, State.takesLine, hreceiving, hstation, hdecided, hl]

/-- The slot of a line command is driven where it addresses a line. -/
theorem lineCommand_ackSlot {s : State} {h : CommandHeader} {mask : Octet} (hh : s.Hears h) (hr : s.running = true)
    {act : Line → State → State} (ha : ∀ l t, (act l t).dispatch = t.dispatch) :
    (lineCommand h mask act s).bus.ackSlot = decide (addressedLines s.own h.address mask ≠ []) := by
  by_cases hl : addressedLines s.own h.address mask = []
  · rw [lineCommand_of_addressed_none hh hl, decide_eq_false (not_not_intro hl)]
    rfl
  · have hfold := foldl_keeps (fun t : State => t.dispatch = (s.endFrame true).dispatch) (fun t l => act l t)
      (fun t l ht => (ha l t).trans ht) (addressedLines s.own h.address mask) rfl
    rw [lineCommand_of_admits (admits_of_hears hh hr) hl, bus_of_dispatch hfold, decide_eq_true hl]
    rfl

/-! ### The rows of the line commands -/

/-- Each command that allows a mask acts on its lines under the mask of its header (R154). -/
theorem exec_masked {h : CommandHeader} {i : Instr}
    (hi : i = .stopRing h ∨ i = .blockPolite h ∨ (∃ v, i = .blockForced h v) ∨ i = .unblock h) :
    aimedAt h i = i ∧ ∃ act : Line → State → State, (∀ l t, (act l t).dispatch = t.dispatch)
      ∧ ∀ k u, exec (aimedAt k i) u = .next (lineCommand k k.mask act u) := by
  rcases hi with rfl | rfl | ⟨v, rfl⟩ | rfl
  · exact ⟨rfl, stopRingLine, fun l t => (linePath_stopRingLine l t).dispatch, fun _ _ => rfl⟩
  · exact ⟨rfl, blockPoliteLine, fun l t => (linePath_blockPoliteLine l t).dispatch, fun _ _ => rfl⟩
  · refine ⟨rfl, if v = 0 then blockPoliteLine else blockForcedLine, fun l t => ?_, fun _ _ => rfl⟩
    split
    · exact (linePath_blockPoliteLine l t).dispatch
    · exact (linePath_blockForcedLine l t).dispatch
  · exact ⟨rfl, unblockLine, unblockLine_dispatch, fun _ _ => rfl⟩

/-- Each other line command acts under all ones, whatever the mask of its header (R154). -/
theorem exec_fullMask {h : CommandHeader} {i : Instr}
    (hi : (∃ p1 p2, i = .ring h p1 p2) ∨ i = .connect h ∨ i = .releaseLine h ∨ (∃ v, i = .tone h v)
      ∨ (∃ v, i = .remap h v) ∨ (∃ v, i = .watch h v) ∨ i = .queryLine h) :
    ∃ act : Line → State → State, (∀ l t, (act l t).dispatch = t.dispatch)
      ∧ ∀ u, exec i u = .next (lineCommand h 255 act u) := by
  rcases hi with ⟨p1, p2, rfl⟩ | rfl | rfl | ⟨v, rfl⟩ | ⟨v, rfl⟩ | ⟨v, rfl⟩ | rfl
  · exact ⟨ringLine p1 p2, fun l t => ringLine_dispatch l t p1 p2, fun _ => rfl⟩
  · exact ⟨connectLine, fun l t => (linePath_connectLine l t).dispatch, fun _ => rfl⟩
  · exact ⟨releaseLine, fun l t => (linePath_releaseLine l t).dispatch, fun _ => rfl⟩
  · exact ⟨toneLine (toneOf v), fun l t => (linePath_toneLine l t _).dispatch, fun _ => rfl⟩
  · exact ⟨remapLine v, fun l t => remapLine_dispatch l t v, fun _ => rfl⟩
  · exact ⟨watchLine v, fun l t => (linePath_watchLine l t v).dispatch, fun _ => rfl⟩
  · exact ⟨queueLineState, fun l t => (linePath_queueLineState l t).dispatch, fun _ => rfl⟩

/-! ### One line after another -/

/-- One of the commands that `State.oneByOne` sends: the row aimed at the line `l` alone, taken in `u` with the bus as it
stands in `s`. -/
def State.aimAt (s : State) (i : Instr) (station : StationNo) (u : State) (l : Line) : State :=
  match exec (aimedAt ⟨station, shelfNumber s.own l, 255⟩ i) { u with bus := s.bus } with
  | .next v => v
  | .fault _ => u
  | .refused _ => u

theorem oneByOne_eq (s : State) (i : Instr) (station : StationNo) (ls : List Line) :
    s.oneByOne i station ls = ls.foldl (s.aimAt i station) s := rfl

section OneByOne
variable {s u : State} {i : Instr} {station : StationNo} {act : Line → State → State}

/-- The command aimed at one line is taken by that line, where the work so far has left the station record. -/
theorem aimAt_eq (hrow : ∀ k u, exec (aimedAt k i) u = .next (lineCommand k k.mask act u)) (ha : s.Admits station)
    (hu : (u.station, u.freeDraws) = (s.station, s.freeDraws)) (l : Line) :
    s.aimAt i station u l = act l { u with bus := (s.endFrame true).bus } := by
  obtain ⟨hstation, hdraws⟩ := Prod.mk.inj hu
  have hown : ({ u with bus := s.bus } : State).own = s.own := by
    simp only [State.own, State.straps, hstation, hdraws]
  have hadmits : ({ u with bus := s.bus } : State).Admits station := by
    obtain ⟨hreceiving, hne, hdecided, hrunning⟩ := ha
    exact ⟨hreceiving, hown ▸ hne, hdecided, (congrArg (·.state.running) hstation).trans hrunning⟩
  have htakes : ({ u with bus := s.bus } : State).Takes ⟨station, shelfNumber s.own l, 255⟩ 255 l :=
    takes_of_admits hadmits (by rw [hown]; exact addressedLines_shelfNumber)
  rw [State.aimAt, hrow, lineCommand_of_takes htakes]
  rfl

/-- Once the bus stands as the command leaves it, the commands aimed at single lines are the command's own work. -/
theorem foldl_aimAt (hrow : ∀ k u, exec (aimedAt k i) u = .next (lineCommand k k.mask act u))
    (hact : ∀ l t, (act l t).dispatch = t.dispatch) (ha : s.Admits station) (ls : List Line)
    (hu : u.dispatch = (s.endFrame true).dispatch) :
    ls.foldl (s.aimAt i station) u = ls.foldl (fun t l => act l t) u := by
  induction ls generalizing u with
  | nil => rfl
  | cons l ls ih =>
    have hstep : s.aimAt i station u l = act l u := by
      rw [aimAt_eq hrow ha (congrArg Prod.snd hu), ← bus_of_dispatch hu]
    rw [List.foldl_cons, List.foldl_cons, hstep, ih ((hact l u).trans hu)]

/-- A command under a mask is the command aimed at each of its lines, one after another (R156). -/
theorem oneByOne_eq_foldl (hrow : ∀ k u, exec (aimedAt k i) u = .next (lineCommand k k.mask act u))
    (hact : ∀ l t, (act l t).dispatch = t.dispatch) (ha : s.Admits station) {ls : List Line} (hl : ls ≠ []) :
    s.oneByOne i station ls = ls.foldl (fun t l => act l t) (s.endFrame true) := by
  obtain ⟨l, ls, rfl⟩ := List.exists_cons_of_ne_nil hl
  have hfirst : s.aimAt i station s l = act l (s.endFrame true) := aimAt_eq hrow ha rfl l
  rw [oneByOne_eq, List.foldl_cons, List.foldl_cons, hfirst, foldl_aimAt hrow hact ha ls (hact l _)]

end OneByOne

/-! ### Station commands -/

/-- A station command is the same under another mask and another low half of the address (R154). -/
theorem stationCommand_congr {h k : CommandHeader} (hst : k.station = h.station)
    (hhigh : k.address.toNat / 16 = h.address.toNat / 16) (allowed : StationState → Bool) (act : State → State)
    (s : State) : stationCommand k allowed act s = stationCommand h allowed act s := by
  have haddressed : addressesStation s.own k.address = addressesStation s.own h.address :=
    Bool.eq_iff_iff.2 (by rw [addressesStation_iff, addressesStation_iff, hhigh])
  have htakes : s.takesStation k allowed = s.takesStation h allowed := by
    rw [State.takesStation, State.takesStation, haddressed, hst]
  rw [stationCommand, stationCommand, htakes, receiveCommand, receiveCommand, hst]

/-! ### The statement -/

/-- Settles O23: the addressing bit by bit, and a masked command as a fold of its lines' work, each step of which is the
command aimed at that line alone. -/
theorem maskedAddressing : Obligations.MaskedAddressing := by
  unfold Obligations.MaskedAddressing
  refine ⟨fun own address mask l => mem_addressedLines.trans xor_and_eq_zero_iff, fun own address l m hl hm => ?_,
    fun own address => addressesStation_iff, fun own address => addressed_none,
    fun h s hh hr => ⟨fun i hi => ?_, fun i hi => ?_⟩,
    fun h s hreceiving hstation hdecided hr hl => ⟨addressedLines_pairwise, fun i hi => ?_⟩,
    fun h k e s hst hhigh => ?_⟩
  · have hlm := (mem_addressedLines_fullMask.1 hl).trans (mem_addressedLines_fullMask.1 hm).symm
    exact Fin.ext (Nat.add_left_cancel hlm)
  · obtain ⟨haim, act, hact, hrow⟩ := exec_masked hi
    exact ⟨_, haim ▸ hrow h s, lineCommand_ackSlot hh hr hact⟩
  · obtain ⟨act, hact, hrow⟩ := exec_fullMask hi
    exact ⟨_, hrow s, lineCommand_ackSlot hh hr hact⟩
  · obtain ⟨haim, act, hact, hrow⟩ := exec_masked hi
    have ha : s.Admits h.station := ⟨hreceiving, hstation, hdecided, hr⟩
    calc exec i s = .next (lineCommand h h.mask act s) := haim ▸ hrow h s
      _ = _ := by rw [lineCommand_of_admits ha hl, oneByOne_eq_foldl hrow hact ha hl]
  · have hsame := fun allowed act => congrArg (Host.Outcome.next (φ := Fault) (ρ := Refusal))
      (stationCommand_congr hst hhigh allowed act s)
    exact ⟨hsame .., hsame .., hsame .., hsame ..⟩

end Sys2Proof.Machine
end

section
/-! PROOFS. The outputs of the circuits as R2 composes them (`State.OutputsOf`): the composition gives them, and they depend
on what R2 names alone. -/

namespace Sys2Proof.Machine

/-- The station is stopped as R18 says: in DOWN, HELD or SILENT every relay and switch is released. -/
theorem composed_of_stopped {s : State} (h : s.station.state = .down ∨ s.station.state = .held ∨ s.station.state = .silent)
    (c : CircuitNo) : s.composed c = (s.circuit c).withOutputs false false false false := by
  unfold State.composed
  rw [if_pos (by simpa [or_assoc] using h)]

theorem outOfService_eq_true_iff {t : LineState} : t.outOfService = true ↔ t = .blocked ∨ t = .fault := by
  cases t <;> simp [LineState.outOfService]

theorem outOfService_eq_false_iff {t : LineState} : t.outOfService = false ↔ t ≠ .blocked ∧ t ≠ .fault := by
  cases t <;> simp [LineState.outOfService]

/-- The composition gives the outputs of R2. -/
theorem outputsOf_composed (s : State) (c : CircuitNo) : s.OutputsOf c (s.composed c).ringRelay
    (s.composed c).dialSwitch (s.composed c).specialSwitch (s.composed c).cutOff := by
  unfold State.OutputsOf
  split
  · rename_i h
    rw [composed_of_stopped h]
    exact ⟨rfl, rfl, rfl, rfl⟩
  · rename_i h
    have hcomposed : ∀ x, (if s.station.state = .down || s.station.state = .held || s.station.state = .silent
        then (s.circuit c).withOutputs false false false false else x) = x := fun x =>
      if_neg (by simpa [or_assoc] using h)
    simp only [State.composed, hcomposed]
    cases s.owner c with
    | none => exact ⟨rfl, rfl, rfl, rfl⟩
    | some l =>
      by_cases hl : (s.line l).state = .blocked ∨ (s.line l).state = .fault
      · have hout : (s.line l).state.outOfService = true := outOfService_eq_true_iff.2 hl
        simp only [hl, hout, if_true]
        exact ⟨rfl, rfl, rfl, rfl⟩
      · have hout : (s.line l).state.outOfService = false := outOfService_eq_false_iff.2 (not_or.1 hl)
        simp only [hl, hout, if_false, Bool.false_eq_true]
        exact ⟨rfl, rfl, rfl, rfl⟩

/-- Two states agree in all that R2 composes the outputs from. -/
structure SameDrive (s t : State) : Prop where
  station : t.station.state = s.station.state
  circuit : ∀ l, (t.line l).circuit = (s.line l).circuit
  state : ∀ l, (t.line l).state = (s.line l).state
  tone : ∀ l, (t.line l).tone = (s.line l).tone
  drive : ∀ l, t.ringDrive l = s.ringDrive l

/-- The line that maps a circuit depends on the circuit fields of the lines alone. -/
theorem owner_congr {s t : State} (h : ∀ l, (t.line l).circuit = (s.line l).circuit) (c : CircuitNo) :
    t.owner c = s.owner c := by
  simp only [State.owner, h]

theorem outputsOf_congr {s t : State} (h : SameDrive s t) (c : CircuitNo) (relay dial special cutOff : Bool) :
    t.OutputsOf c relay dial special cutOff ↔ s.OutputsOf c relay dial special cutOff := by
  simp only [State.OutputsOf, h.station, owner_congr h.circuit, h.state, h.tone, h.drive]

/-- The four outputs of a circuit, in the order of R2. -/
def Circuit.outputs (x : Circuit) : Bool × Bool × Bool × Bool := (x.ringRelay, x.dialSwitch, x.specialSwitch, x.cutOff)

/-- The invariant of R1 and R2 at one circuit. -/
def State.OutputsAt (s : State) (c : CircuitNo) : Prop :=
  s.OutputsOf c (s.circuit c).ringRelay (s.circuit c).dialSwitch (s.circuit c).specialSwitch (s.circuit c).cutOff

theorem outputsAt_congr {s t : State} (h : SameDrive s t) {c : CircuitNo}
    (hc : (t.circuit c).outputs = (s.circuit c).outputs) : t.OutputsAt c ↔ s.OutputsAt c := by
  simp only [Circuit.outputs, Prod.mk.injEq] at hc
  obtain ⟨h1, h2, h3, h4⟩ := hc
  unfold State.OutputsAt
  rw [outputsOf_congr h, h1, h2, h3, h4]

/-- Outputs that are composed, or stand where what they are composed from stands, stay as R2 gives them. -/
theorem OutputsOk_congr {s t : State} (h : SameDrive s t) (hc : ∀ c, (t.circuit c).outputs = (s.circuit c).outputs)
    (hs : s.OutputsOk) : t.OutputsOk := fun c => (outputsAt_congr h (hc c)).2 (hs c)

/-- A circuit composed from a state that agrees in all that R2 names. -/
theorem outputsAt_of_composed {s t : State} (h : SameDrive s t) {c : CircuitNo}
    (hc : (t.circuit c).outputs = (s.composed c).outputs) : t.OutputsAt c := by
  simp only [Circuit.outputs, Prod.mk.injEq] at hc
  obtain ⟨h1, h2, h3, h4⟩ := hc
  unfold State.OutputsAt
  rw [outputsOf_congr h, h1, h2, h3, h4]
  exact outputsOf_composed s c

theorem SameDrive.refl (s : State) : SameDrive s s := ⟨rfl, fun _ => rfl, fun _ => rfl, fun _ => rfl, fun _ => rfl⟩

/-- The ring drive of a line depends on its state and ring context, the station state and the place in the cadence
(R80). -/
theorem ringDrive_congr {s t : State} {l : Line} (hs : (t.line l).state = (s.line l).state)
    (hr : (t.line l).ring = (s.line l).ring) (hst : t.station.state = s.station.state)
    (hp : t.cadence.phase = s.cadence.phase) (ht : min t.cadence.tick 149 = min s.cadence.tick 149) :
    t.ringDrive l = s.ringDrive l := by
  simp only [State.ringDrive, hs, hr, hst, hp, ht]

/-- All 18 circuits composed anew stand as R2 gives them. -/
theorem outputsOk_recomposeAll (s : State) : s.recomposeAll.OutputsOk := fun c =>
  outputsAt_of_composed (s := s) (t := s.recomposeAll) ⟨rfl, fun _ => rfl, fun _ => rfl, fun _ => rfl, fun _ => rfl⟩
    (by rw [State.circuit_recomposeAll])

@[simp] theorem circuit_startOutputs (s : State) (c : CircuitNo) :
    s.startOutputs.circuit c = { s.composed c with blanking := 0 } := by
  simp [State.startOutputs, State.circuit]

/-- The outputs of a start stand as R2 gives them. -/
theorem outputsOk_startOutputs (s : State) : s.startOutputs.OutputsOk := fun c =>
  outputsAt_of_composed (s := s) (t := s.startOutputs) ⟨rfl, fun _ => rfl, fun _ => rfl, fun _ => rfl, fun _ => rfl⟩
    (by rw [circuit_startOutputs]; rfl)

/-! ### Entry into DOWN (R175) -/

@[simp] theorem goDown_lines (s : State) : (goDown s).lines = s.lines := rfl
@[simp] theorem goDown_line (s : State) (l : Line) : (goDown s).line l = s.line l := rfl
@[simp] theorem goDown_station (s : State) : (goDown s).station = { s.station with state := .down } := rfl
@[simp] theorem goDown_control (s : State) : (goDown s).control = { s.control with restartCount := 0 } := rfl
@[simp] theorem goDown_cadence (s : State) : (goDown s).cadence
    = { s.cadence with tick := min s.cadence.tick 149, markDrive := false, markSeen := false } := rfl
@[simp] theorem goDown_table (s : State) : (goDown s).table = s.table := rfl
@[simp] theorem goDown_ringUnit (s : State) : (goDown s).ringUnit = s.ringUnit := rfl
@[simp] theorem goDown_bus (s : State) : (goDown s).bus = { s.bus with tx := none, withdrawDue := true } := rfl
@[simp] theorem goDown_reports (s : State) : (goDown s).reports = s.reports.map ReportEntry.offWire := rfl
@[simp] theorem goDown_freeDraws (s : State) : (goDown s).freeDraws = s.freeDraws := rfl
@[simp] theorem goDown_wire (s : State) : (goDown s).wire = s.wire := rfl
@[simp] theorem goDown_pending (s : State) : (goDown s).pending = s.pending := rfl

/-- A stopped station has every relay and switch released or opened, its filters and marks standing (R18). -/
theorem goDown_circuit (s : State) (c : CircuitNo) :
    (goDown s).circuit c = (s.circuit c).withOutputs false false false false := by
  have hstop : (goDown s).circuit c = State.composed _ c := State.circuit_recomposeAll _ c
  rw [hstop, composed_of_stopped (.inl rfl)]
  rfl

theorem outputsOk_goDown (s : State) : (goDown s).OutputsOk := fun c => by
  rw [goDown_circuit]
  exact (if_pos (.inl rfl)).mpr ⟨rfl, rfl, rfl, rfl⟩

/-! ### Entry into SILENT (R178) -/

@[simp] theorem goSilent_lines (s : State) : (goSilent s).lines = s.lines := rfl
@[simp] theorem goSilent_line (s : State) (l : Line) : (goSilent s).line l = s.line l := rfl
@[simp] theorem goSilent_station (s : State) : (goSilent s).station = { s.station with state := .silent } := rfl
@[simp] theorem goSilent_control (s : State) : (goSilent s).control = { s.control with alarm := true, restartCount := 0 } := rfl
@[simp] theorem goSilent_cadence (s : State) : (goSilent s).cadence
    = { s.cadence with tick := min s.cadence.tick 149, markDrive := false, markSeen := false } := rfl
@[simp] theorem goSilent_table (s : State) : (goSilent s).table = s.table := rfl
@[simp] theorem goSilent_ringUnit (s : State) : (goSilent s).ringUnit = s.ringUnit := rfl
@[simp] theorem goSilent_bus (s : State) : (goSilent s).bus = { s.bus with tx := none } := rfl
@[simp] theorem goSilent_reports (s : State) : (goSilent s).reports = s.reports.map ReportEntry.offWire := rfl
@[simp] theorem goSilent_freeDraws (s : State) : (goSilent s).freeDraws = s.freeDraws := rfl
@[simp] theorem goSilent_wire (s : State) : (goSilent s).wire = s.wire := rfl
@[simp] theorem goSilent_pending (s : State) : (goSilent s).pending = s.pending := rfl

/-- A stopped station has every relay and switch released or opened, its filters and marks standing (R18). -/
theorem goSilent_circuit (s : State) (c : CircuitNo) :
    (goSilent s).circuit c = (s.circuit c).withOutputs false false false false := by
  have hstop : (goSilent s).circuit c = State.composed _ c := State.circuit_recomposeAll _ c
  rw [hstop, composed_of_stopped (.inr (.inr rfl))]
  rfl

theorem outputsOk_goSilent (s : State) : (goSilent s).OutputsOk := fun c => by
  rw [goSilent_circuit]
  exact (if_pos (.inr (.inr rfl))).mpr ⟨rfl, rfl, rfl, rfl⟩

end Sys2Proof.Machine
end

section
/-! PROOFS. The three starts (R44, R171, R174, R176, R177): what the entries of the lines leave in the line records and in
the report queue, line by line. -/

namespace Sys2Proof.Machine

/-! ### A report that finds room -/

/-- A report that finds room in the queue leaves every line record (R164). -/
theorem queueReport_lines_of_room {s : State} (h : s.reports.length < 32) (e : ReportEntry) :
    (s.queueReport e).lines = s.lines := by
  unfold State.queueReport
  split
  · rfl
  · rw [if_pos (show s.reports.length < reportCapacity from h)]; rfl

/-- A report that finds room and coalesces with none enters behind its class (R162). -/
theorem queueReport_of_room {s : State} {e : ReportEntry} (h : s.reports.length < 32)
    (hn : ∀ x ∈ s.reports, e.coalescesWith x = false) : s.queueReport e = s.setReports (insertReport e s.reports) := by
  have hany : s.reports.any e.coalescesWith = false := by simpa using hn
  rw [State.queueReport, hany, if_neg Bool.false_ne_true, if_pos (show s.reports.length < reportCapacity from h)]

/-- A class 1 report enters behind the class 1 reports and ahead of the class 3 reports (R162). -/
theorem insertReport_class1 {e : ReportEntry} (he : e.cls = 1) {front back : List ReportEntry}
    (hf : ∀ x ∈ front, x.cls = 1) (hb : ∀ x ∈ back, x.cls = 3) :
    insertReport e (front ++ back) = front ++ e :: back := by
  induction front with
  | nil =>
    cases back with
    | nil => rfl
    | cons x q => rw [List.nil_append, insertReport, if_neg (by rw [hb x (by simp), he]; decide)]; rfl
  | cons x q ih =>
    rw [List.cons_append, insertReport, if_pos (by rw [hf x (by simp), he]), ih fun y hy => hf y (by simp [hy])]
    rfl

/-! ### Numbers of lines -/

theorem shelfNumber_injective (own : StationNo) : Function.Injective (shelfNumber own) := fun l m h => by
  have := congrArg BitVec.toNat h
  rw [shelfNumber_toNat, shelfNumber_toNat] at this
  exact Fin.ext (by omega)

/-! ### The entry of one line at a start -/

/-- The circuit word of the line is corrected at the start (R171). -/
def startCorrects (e : CircuitWordErrors) (l : Line) : Bool :=
  e.single.getLsbD l.val && !e.double.getLsbD l.val

/-- The state of a line after a start (R44). -/
def startedState (circuit : Option CircuitNo) (marked : CircuitNo → Bool) : LineState :=
  match circuit with
  | none => .fault
  | some c => if marked c then .fault else .idle

/-- The record in which a start leaves a line (R44, R168, R171). -/
def startedRecord (e : CircuitWordErrors) (marked : CircuitNo → Bool) (l : Line) (circuit : Option CircuitNo) :
    LineRecord :=
  { LineRecord.fresh circuit with state := startedState circuit marked, correctionMark := startCorrects e l }

/-- The FAULT report of a line at a start, if it enters FAULT (R44). -/
def State.startFaults (s : State) (circuit : Option CircuitNo) (marked : CircuitNo → Bool) (l : Line) :
    List ReportEntry :=
  match circuit with
  | none => [s.lineEntry l .fault [1]]
  | some c => if marked c then [s.lineEntry l .fault [0]] else []

/-- A line is IDLE after a start and has reported nothing, or is in FAULT and has reported it (R44). -/
theorem startedState_cases (s : State) (circuit : Option CircuitNo) (marked : CircuitNo → Bool) (l : Line) :
    startedState circuit marked = .idle ∧ s.startFaults circuit marked l = []
      ∨ startedState circuit marked = .fault
        ∧ s.startFaults circuit marked l = [s.lineEntry l .fault [if circuit = none then 1 else 0]] := by
  unfold startedState State.startFaults
  cases circuit with
  | none => simp
  | some c => cases marked c <;> simp

theorem startedLine_startedRecord (e : CircuitWordErrors) (marked : CircuitNo → Bool) (l : Line)
    (circuit : Option CircuitNo) : StartedLine circuit marked (startedRecord e marked l circuit) := by
  refine ⟨?_, rfl⟩
  cases circuit <;> rfl

/-- The reports of a start, in the terms of its lines' entries. -/
theorem startReports_eq (s : State) (e : CircuitWordErrors) (circuit : Line → Option CircuitNo)
    (marked : CircuitNo → Bool) : s.startReports e circuit marked
      = ((List.finRange 16).flatMap fun l => s.startFaults (circuit l) marked l)
        ++ ((List.finRange 16).filter (startCorrects e)).map fun l => s.lineEntry l .corrected [0] := by
  unfold State.startReports
  congr 1

theorem startFaults_cls {s : State} {circuit : Option CircuitNo} {marked : CircuitNo → Bool} {l : Line}
    {x : ReportEntry} (h : x ∈ s.startFaults circuit marked l) : x.cls = 1 := by
  unfold State.startFaults at h
  split at h
  · rw [List.mem_singleton.1 h]; rfl
  · split at h
    · rw [List.mem_singleton.1 h]; rfl
    · cases h

theorem startFaults_length (s : State) (circuit : Option CircuitNo) (marked : CircuitNo → Bool) (l : Line) :
    (s.startFaults circuit marked l).length ≤ 1 := by
  unfold State.startFaults
  split
  · rfl
  · split <;> simp

/-- The line's own entries coalesce with none of the entries of other lines at a start. -/
theorem corrected_not_coalesces {s : State} {l : Line} {x : ReportEntry}
    (h : x.cls = 1 ∨ ∃ m, m ≠ l ∧ x = s.lineEntry m .corrected [0]) :
    (s.lineEntry l .corrected [0]).coalescesWith x = false := by
  rcases h with h | ⟨m, hm, rfl⟩
  · have hne : ReportCode.corrected ≠ x.code := by
      rintro hc
      rw [ReportEntry.cls, ← hc] at h
      exact absurd h (by decide)
    simp [ReportEntry.coalescesWith, State.lineEntry, newReport, hne]
  · have hne : shelfNumber s.own l ≠ shelfNumber s.own m := fun h => hm (shelfNumber_injective _ h).symm
    simp [ReportEntry.coalescesWith, State.lineEntry, newReport, hne]

/-- What a start's pass over some lines leaves of the state `s` that the values of the start give. -/
structure StartPass (e : CircuitWordErrors) (ls : List Line) (s t : State) : Prop where
  eq : t = { s with lines := t.lines, circuits := t.circuits, reports := t.reports }
  filters : ∀ c, (t.circuit c).hook = (s.circuit c).hook ∧ (t.circuit c).fault = (s.circuit c).fault
    ∧ (t.circuit c).faultMark = (s.circuit c).faultMark
  line : ∀ l, t.line l = if l ∈ ls then startedRecord e s.marks l (s.line l).circuit else s.line l
  reports : t.reports = (ls.flatMap fun l => s.startFaults (s.line l).circuit s.marks l)
    ++ (ls.filter (startCorrects e)).map fun l => s.lineEntry l .corrected [0]

theorem StartPass.own {e : CircuitWordErrors} {ls : List Line} {s t : State} (h : StartPass e ls s t) : t.own = s.own := by
  rw [h.eq]; rfl

/-- Two reports for each line: a start's pass never fills the queue. -/
theorem StartPass.length {e : CircuitWordErrors} {ls : List Line} {s t : State} (h : StartPass e ls s t) :
    t.reports.length ≤ 2 * ls.length := by
  have hfaults : (ls.flatMap fun l => s.startFaults (s.line l).circuit s.marks l).length ≤ ls.length := by
    rw [List.length_flatMap]
    exact (List.sum_le_card_nsmul _ 1 (by simpa using fun l _ => startFaults_length ..)).trans (by simp)
  have hcorrected := List.length_filter_le (p := startCorrects e) (l := ls)
  rw [h.reports, List.length_append, List.length_map]
  omega

/-- The entry of one more line into FAULT, from a record that is fresh but for its correction mark. -/
theorem enterFault_fresh {t : State} {l : Line} {circuit : Option CircuitNo} {b : Bool} (cause : Octet)
    (hl : t.line l = { LineRecord.fresh circuit with correctionMark := b }) (hroom : t.reports.length < 32) :
    (∀ m, (enterFault l cause t).line m = if m = l then { t.line l with state := .fault } else t.line m)
      ∧ (enterFault l cause t).reports = insertReport (t.lineEntry l .fault [cause]) t.reports := by
  have hstate : (t.line l).state ≠ .fault := by rw [hl]; simp [LineRecord.fresh]
  have hpending : t.setBlockPending l false = t := by
    rw [State.setBlockPending_eq]
    exact (congrArg (t.setLine l) (by rw [hl]; rfl)).trans (State.setLine_line_self t l)
  have hqueue : queueLine .fault l [cause] (enterState l .fault t)
      = (enterState l .fault t).setReports (insertReport (t.lineEntry l .fault [cause]) t.reports) := by
    rw [queueLine, enterState_own, queueReport_of_room (by rwa [enterState_reports]), enterState_reports]
    · rfl
    · exact fun x _ => not_coalescesWith (by simp [newReport]) x
  have hwatch : ((queueLine .fault l [cause] (enterState l .fault t)).line l).watch = false := by
    rw [hqueue, State.line_setReports, enterState_line_self, hl]; rfl
  have henter : enterFault l cause t = queueLine .fault l [cause] (enterState l .fault t) := by
    rw [enterFault, if_neg hstate, hpending, transition, traceChange, hwatch]; rfl
  rw [henter, hqueue]
  refine ⟨fun m => ?_, rfl⟩
  rw [State.line_setReports, enterState_line]
  split
  · rw [hl]; rfl
  · rfl

/-- The start's read of a circuit word with a single-bit error (R171). -/
theorem startCorrection_of_corrects {e : CircuitWordErrors} {l : Line} (h : startCorrects e l = true) (t : State) :
    startCorrection e l t = (queueLine .corrected l [0] t).setLine l
      { (queueLine .corrected l [0] t).line l with correctionMark := true } := if_pos h

/-- The start's read of a circuit word on a line that the pass has not reached. -/
theorem StartPass.correction {e : CircuitWordErrors} {ls : List Line} {s t : State} (h : StartPass e ls s t) {l : Line}
    (hfresh : s.line l = LineRecord.fresh (s.line l).circuit) (hl : l ∉ ls) (hlen : ls.length < 16) :
    (∀ m, (startCorrection e l t).line m = if m = l
        then { LineRecord.fresh (s.line l).circuit with correctionMark := startCorrects e l } else t.line m)
      ∧ (startCorrection e l t).reports = t.reports ++ (if startCorrects e l then [s.lineEntry l .corrected [0]] else []) := by
  have hline : t.line l = LineRecord.fresh (s.line l).circuit := by rw [h.line, if_neg hl]; exact hfresh
  by_cases hc : startCorrects e l = true
  · have hnone : ∀ x ∈ t.reports, (s.lineEntry l .corrected [0]).coalescesWith x = false := fun x hx => by
      rw [h.reports, List.mem_append] at hx
      rcases hx with hx | hx
      · obtain ⟨m, -, hm⟩ := List.mem_flatMap.1 hx
        exact corrected_not_coalesces (.inl (startFaults_cls hm))
      · obtain ⟨m, hm, rfl⟩ := List.mem_map.1 hx
        exact corrected_not_coalesces (.inr ⟨m, ne_of_mem_of_not_mem (List.mem_filter.1 hm).1 hl, rfl⟩)
    have hqueue : queueLine .corrected l [0] t = t.setReports (t.reports ++ [s.lineEntry l .corrected [0]]) := by
      have hentry : newReport .corrected (shelfNumber t.own l) [0] = s.lineEntry l .corrected [0] := by
        rw [h.own]; rfl
      rw [queueLine, hentry, queueReport_of_room (by have := h.length; omega) hnone,
        insertReport_eq_append (e := s.lineEntry l .corrected [0]) fun x _ => x.cls_le_three]
    rw [startCorrection_of_corrects hc, hqueue, if_pos hc, hc]
    refine ⟨fun m => ?_, rfl⟩
    rw [State.line_setLine]
    simp only [State.line_setReports, hline]
  · have hc' : startCorrects e l = false := by simpa using hc
    have hstands : startCorrection e l t = t := if_neg hc
    rw [hstands, hc', if_neg Bool.false_ne_true, List.append_nil]
    refine ⟨fun m => ?_, rfl⟩
    by_cases hm : m = l
    · rw [if_pos hm, hm, hline]; rfl
    · rw [if_neg hm]

/-- A line's entry leaves the filters, the marks and every block but the report queue, for no line is in a ring state. -/
theorem StartPass.frame {e : CircuitWordErrors} {ls : List Line} {s t u : State} (h : StartPass e ls s t) {l : Line}
    (hring : (t.line l).state.isRing = false) (k : LinePath l t u) :
    u = { s with lines := u.lines, circuits := u.circuits, reports := u.reports }
      ∧ ∀ c, (u.circuit c).hook = (s.circuit c).hook ∧ (u.circuit c).fault = (s.circuit c).fault
        ∧ (u.circuit c).faultMark = (s.circuit c).faultMark := by
  obtain ⟨-, hunit, hrow⟩ := k.lineMove.ring hring
  have hu := k.lineMove.eq
  rw [hunit, hrow] at hu
  constructor
  · rw [hu, h.eq]
  · intro c
    obtain ⟨h1, h2, h3⟩ := k.lineMove.filters c
    obtain ⟨h1', h2', h3'⟩ := h.filters c
    exact ⟨h1.trans h1', h2.trans h2', h3.trans h3'⟩

theorem linePath_startCorrection (e : CircuitWordErrors) (l : Line) (s : State) :
    LinePath l s (startCorrection e l s) := by
  unfold startCorrection
  split
  · exact (linePath_queueLine ..).trans (.edit _ _ rfl rfl rfl rfl)
  · exact .refl s

theorem linePath_startFault (l : Line) (s : State) : LinePath l s (startFault l s) := by
  unfold startFault
  repeat' split
  · exact linePath_enterFault ..
  · exact linePath_enterFault ..
  · exact .refl s

/-- A line on an unmarked circuit makes no entry at a start (R44). -/
theorem startFault_of_idle {l : Line} {t : State} (h : startedState (t.line l).circuit t.marks = .idle) :
    startFault l t = t := by
  unfold startFault
  unfold startedState at h
  cases hc : (t.line l).circuit with
  | none => simp [hc] at h
  | some c => cases hm : (t.circuit c).faultMark <;> simp_all [State.marks]

/-- A line on a marked circuit, or on none, enters FAULT at a start (R44). -/
theorem startFault_of_fault {l : Line} {t : State} (h : startedState (t.line l).circuit t.marks = .fault) :
    startFault l t = enterFault l (if (t.line l).circuit = none then 1 else 0) t := by
  unfold startFault
  unfold startedState at h
  cases hc : (t.line l).circuit with
  | none => rfl
  | some c => cases hm : (t.circuit c).faultMark <;> simp_all [State.marks]

/-- One more line of a start's pass (R44, R171). -/
theorem StartPass.step {e : CircuitWordErrors} {ls : List Line} {s t : State} (h : StartPass e ls s t) {l : Line}
    (hfresh : s.line l = LineRecord.fresh (s.line l).circuit) (hl : l ∉ ls) (hlen : ls.length < 16) :
    StartPass e (ls ++ [l]) s (startFault l (startCorrection e l t)) := by
  obtain ⟨hline, hreports⟩ := h.correction hfresh hl hlen
  have hpath := (linePath_startCorrection e l t).trans (linePath_startFault ..)
  have hring : (t.line l).state.isRing = false := by rw [h.line, if_neg hl, hfresh]; rfl
  obtain ⟨heq, hfilters⟩ := h.frame hring hpath
  have hself := (hline l).trans (if_pos rfl)
  have hmarks : (startCorrection e l t).marks = s.marks := by
    rw [startCorrection_marks]; exact funext fun c => (h.filters c).2.2
  have hown : (startCorrection e l t).own = s.own := (linePath_startCorrection e l t).lineMove.own.trans h.own
  have hroom : (startCorrection e l t).reports.length < 32 := by
    have := h.length
    rw [hreports, List.length_append]
    split <;> simp <;> omega
  have hrecord : ∀ m, m ∈ ls ++ [l] ↔ m = l ∨ m ∈ ls := by simp [or_comm]
  -- the two ends of the queue of the pass so far
  have hclasses : (∀ x ∈ ls.flatMap fun l => s.startFaults (s.line l).circuit s.marks l, x.cls = 1)
      ∧ ∀ x ∈ ((ls.filter (startCorrects e)).map fun l => s.lineEntry l .corrected [0])
        ++ (if startCorrects e l then [s.lineEntry l .corrected [0]] else []), x.cls = 3 := by
    refine ⟨fun x hx => ?_, fun x hx => ?_⟩
    · obtain ⟨m, -, hm⟩ := List.mem_flatMap.1 hx
      exact startFaults_cls hm
    · rcases List.mem_append.1 hx with hx | hx
      · obtain ⟨m, -, rfl⟩ := List.mem_map.1 hx; rfl
      · split at hx
        · rw [List.mem_singleton.1 hx]; rfl
        · cases hx
  have hcircuit : ((startCorrection e l t).line l).circuit = (s.line l).circuit := by rw [hself]; rfl
  rcases startedState_cases s (s.line l).circuit s.marks l with ⟨hst, hno⟩ | ⟨hst, hno⟩
  · have hstands := startFault_of_idle (t := startCorrection e l t) (by rw [hcircuit, hmarks]; exact hst)
    refine ⟨heq, hfilters, fun m => ?_, ?_⟩
    · rw [hstands, hline, h.line]
      simp only [hrecord]
      by_cases hm : m = l
      · subst hm; simp [startedRecord, hst, LineRecord.fresh]
      · simp [hm]
    · rw [hstands, hreports, h.reports, List.flatMap_append, List.filter_append, List.map_append, List.flatMap_singleton,
        hno, List.append_nil, List.append_assoc]
      congr 2
      cases hc : startCorrects e l <;> simp [hc]
  · have henters := startFault_of_fault (t := startCorrection e l t) (by rw [hcircuit, hmarks]; exact hst)
    obtain ⟨hlines, hqueue⟩ := enterFault_fresh (if (s.line l).circuit = none then 1 else 0) hself hroom
    rw [hcircuit] at henters
    refine ⟨heq, hfilters, fun m => ?_, ?_⟩
    · rw [henters, hlines, hself, hline, h.line]
      simp only [hrecord]
      by_cases hm : m = l
      · subst hm; simp [startedRecord, hst, LineRecord.fresh]
      · simp [hm]
    · have hentry : (startCorrection e l t).lineEntry l .fault [if (s.line l).circuit = none then 1 else 0]
          = s.lineEntry l .fault [if (s.line l).circuit = none then 1 else 0] := by
        rw [State.lineEntry, hown]; rfl
      rw [henters, hqueue, hentry, hreports, h.reports, List.append_assoc,
        insertReport_class1 rfl hclasses.1 hclasses.2, List.flatMap_append, List.filter_append, List.map_append,
        List.flatMap_singleton, hno, List.append_assoc]
      congr 2
      cases hc : startCorrects e l <;> simp [hc]

/-! ### The whole pass, and the start -/

/-- A start's pass over all the lines, from the values of the start (log 25). -/
theorem startPass {e : CircuitWordErrors} {s : State} (hfresh : ∀ l, s.line l = LineRecord.fresh (s.line l).circuit)
    (hnone : s.reports = []) : StartPass e (List.finRange 16) s
      ((List.finRange 16).foldl (fun s l => startFault l (startCorrection e l s)) s) := by
  have hprefix : ∀ n ≤ 16, StartPass e ((List.finRange 16).take n) s
      (((List.finRange 16).take n).foldl (fun s l => startFault l (startCorrection e l s)) s) := by
    intro n
    induction n with
    | zero => exact fun _ => ⟨rfl, fun _ => ⟨rfl, rfl, rfl⟩, fun _ => rfl, hnone⟩
    | succ n ih =>
      intro hn
      have hlen : n < (List.finRange 16).length := by simp; omega
      have hnot : (List.finRange 16)[n] ∉ (List.finRange 16).take n := by
        have := (List.nodup_finRange 16).sublist (List.take_sublist (n + 1) _)
        rw [← List.take_append_getElem hlen, List.nodup_append] at this
        exact fun hmem => this.2.2 _ hmem _ (List.mem_singleton_self _) rfl
      rw [← List.take_append_getElem hlen, List.foldl_append]
      exact (ih (by omega)).step (hfresh _) hnot (by simp; omega)
  exact (List.take_of_length_le (Nat.le_of_eq List.length_finRange)) ▸ hprefix 16 le_rfl

/-- What a start leaves of its values, its outputs apart (R44). -/
theorem startLines_pass {e : CircuitWordErrors} {s : State}
    (hfresh : ∀ l, s.line l = LineRecord.fresh (s.line l).circuit) (hnone : s.reports = []) :
    StartPass e (List.finRange 16) s (startLines e s) ∧ (startLines e s).OutputsOk
      ∧ ∀ c, ((startLines e s).circuit c).blanking = 0 := by
  obtain ⟨heq, hfilters, hline, hreports⟩ := startPass (e := e) hfresh hnone
  refine ⟨⟨?_, fun c => ?_, hline, hreports⟩, outputsOk_startOutputs _, fun c => by rw [startLines, circuit_startOutputs]⟩
  · rw [startLines, State.startOutputs, heq]
  · obtain ⟨h1, h2, h3⟩ := composed_keeps
      ((List.finRange 16).foldl (fun s l => startFault l (startCorrection e l s)) s) c
    obtain ⟨h1', h2', h3'⟩ := hfilters c
    rw [startLines, circuit_startOutputs]
    exact ⟨h1.trans h1', h2.trans h2', h3.trans h3'⟩

section Start
variable (e : CircuitWordErrors) (next : StationState) (withdraw : Bool) (base : Nat)
  (circuitOf : Line → Option CircuitNo) (markOf : CircuitNo → Bool) (s : State)

@[simp] theorem startBlocks_line (l : Line) :
    (startBlocks next withdraw base circuitOf markOf s).line l = LineRecord.fresh (circuitOf l) := by
  simp [startBlocks, State.line]

@[simp] theorem startBlocks_circuit (c : CircuitNo) :
    (startBlocks next withdraw base circuitOf markOf s).circuit c = (s.circuit c).started (markOf c) := by
  simp [startBlocks, State.circuit]

/-- A start: the values of every block, the records and reports of the lines, and the outputs (R17, R44). -/
theorem start_pass : StartPass e (List.finRange 16) (startBlocks next withdraw base circuitOf markOf s)
      (startLines e (startBlocks next withdraw base circuitOf markOf s))
    ∧ (startLines e (startBlocks next withdraw base circuitOf markOf s)).OutputsOk
    ∧ ∀ c, ((startLines e (startBlocks next withdraw base circuitOf markOf s)).circuit c).blanking = 0 :=
  startLines_pass (fun l => by rw [startBlocks_line]; rfl) rfl

/-- What a start changes besides the lines, the circuits and the report queue is what its values give. -/
theorem start_eq : startLines e (startBlocks next withdraw base circuitOf markOf s)
    = { startBlocks next withdraw base circuitOf markOf s with
        lines := (startLines e (startBlocks next withdraw base circuitOf markOf s)).lines
        circuits := (startLines e (startBlocks next withdraw base circuitOf markOf s)).circuits
        reports := (startLines e (startBlocks next withdraw base circuitOf markOf s)).reports } :=
  (start_pass ..).1.eq

theorem start_line (l : Line) : (startLines e (startBlocks next withdraw base circuitOf markOf s)).line l
    = startedRecord e markOf l (circuitOf l) := by
  rw [(start_pass ..).1.line, if_pos (List.mem_finRange l), startBlocks_line, startBlocks_marks]
  rfl

theorem start_circuit (c : CircuitNo) :
    StartedCircuit ((startLines e (startBlocks next withdraw base circuitOf markOf s)).circuit c) (markOf c) := by
  obtain ⟨hpass, -, hblanking⟩ := start_pass e next withdraw base circuitOf markOf s
  obtain ⟨hhook, hfault, hmark⟩ := hpass.filters c
  rw [startBlocks_circuit] at hhook hfault hmark
  exact ⟨⟨_, hhook⟩, hfault, hblanking c, hmark⟩

/-- The reports of a start (R162, R171; log 25). -/
theorem start_reports : (startLines e (startBlocks next withdraw base circuitOf markOf s)).reports
    = s.startReports e circuitOf markOf := by
  rw [(start_pass ..).1.reports, startReports_eq]
  simp only [startBlocks_line, startBlocks_marks]
  rfl

theorem start_blocks : StartedBlocks base withdraw (startLines e (startBlocks next withdraw base circuitOf markOf s)) := by
  rw [start_eq]
  exact ⟨rfl, rfl, rfl, rfl, rfl, rfl, rfl, rfl, rfl, rfl, rfl, rfl⟩

end Start

end Sys2Proof.Machine
end

section
/-! PROOFS. POWER_ON_RESET, SUPPLY_RESTART and STATION_RESET (R174, R176, R177), each as the start it makes. -/

namespace Sys2Proof.Machine

/-! ### POWER_ON_RESET -/

/-- A start whose lines all stand on unmarked circuits, with no circuit word corrected, reports nothing. -/
theorem startReports_nil {s : State} {circuitOf : Line → Option CircuitNo} (h : ∀ l, circuitOf l ≠ none) :
    s.startReports CircuitWordErrors.none circuitOf (fun _ => false) = [] := by
  rw [startReports_eq]
  have hfaults : ∀ l, s.startFaults (circuitOf l) (fun _ => false) l = [] := fun l => by
    obtain ⟨c, hc⟩ := Option.ne_none_iff_exists'.1 (h l)
    rw [hc]; rfl
  have hcorrects : ∀ l, startCorrects CircuitWordErrors.none l = false := fun l => by
    simp [startCorrects, CircuitWordErrors.none]
  simp [hfaults, hcorrects]

/-- A power-on reset of a part strapped in any way (R174). -/
theorem powerOnReset_spec (pins : Straps) (s : State) : ∃ t, exec (.powerOnReset pins) s = .next t
    ∧ t.station = ⟨some pins, some pins, if pins.station = 0 then .silent else .starting, 0⟩
    ∧ t.control = ⟨⟨false, 0⟩, 0, decide (pins.station = 0)⟩
    ∧ (∀ l : Line, t.line l = LineRecord.fresh (some ⟨l.val, by omega⟩))
    ∧ (∀ c, StartedCircuit (t.circuit c) false)
    ∧ t.OutputsOk
    ∧ StartedBlocks (16 + 8 * min pins.budgetCode.val 13) false t
    ∧ t.reports = [] ∧ t.pending = s.pending := by
  refine ⟨powerOn pins s, rfl, ?_⟩
  unfold powerOn
  refine ⟨by rw [start_eq]; rfl, ?_, fun l => ?_, fun c => start_circuit .., (start_pass ..).2.1, start_blocks .., ?_,
    by rw [start_eq]; rfl⟩
  · rw [start_eq]
    by_cases h : pins.station = 0 <;> simp [startBlocks, h, InputFilter.normal]
  · rw [start_line]
    simp [startedRecord, startedState, startCorrects, CircuitWordErrors.none, LineRecord.fresh]
  · rw [start_reports]
    exact startReports_nil fun l => Option.some_ne_none _

/-- A power-on reset with the straps of log 1 leaves `State.reset` as it is. -/
theorem powerOn_reset : powerOn Config.resetStraps State.reset = State.reset := by decide +kernel

/-- Settles O4: a power-on reset is a start from the values R174 gives. -/
theorem powerOnResetSetsEveryBlock : Obligations.PowerOnResetSetsEveryBlock :=
  ⟨powerOnReset_spec, congrArg Host.Outcome.next powerOn_reset⟩

/-! ### SUPPLY_RESTART -/

theorem heedWarning_of_normal {s : State} (h : s.control.warning.asserted = false) : heedWarning s = s := by
  simp [heedWarning, h]

/-- Settles O5: a restart that is due is a start that keeps straps, map, marks and base budget. -/
theorem supplyRestartMakesAStart : Obligations.SupplyRestartMakesAStart := by
  unfold Obligations.SupplyRestartMakesAStart
  intro e s hdown hcount hwarning
  have hdue : s.restartDue = true := by simp [State.restartDue, hdown, hcount]
  refine ⟨supplyRestart e s, congrArg Host.Outcome.next (if_pos hdue), ?_⟩
  unfold supplyRestart
  rw [heedWarning_of_normal (by rw [start_eq]; exact hwarning)]
  refine ⟨by rw [start_eq]; rfl, ?_, fun l => ?_, fun l => ?_, fun c => start_circuit .., (start_pass ..).2.1, start_blocks ..,
    start_reports .., by rw [start_eq]; rfl⟩
  · rw [start_eq]
    cases h : s.straps.mode <;> simp [startBlocks]
  · rw [start_line]
    exact startedLine_startedRecord ..
  · rw [start_line]; rfl

/-! ### STATION_RESET -/

/-- The strap copies supply a station number 1..15, so that a STATION RESET makes a start into STARTING (R173, R177). -/
def State.resetStarts (s : State) : Bool := s.strapsKnown && decide (s.own ≠ 0)

/-- The start that a STATION RESET makes, before an ASSERTED warning filter is heeded (R177). -/
def resetStart (e : CircuitWordErrors) (s : State) : State :=
  startLines e (startBlocks (if s.resetStarts then .starting else .silent) s.resetStarts s.table.baseBudget
    (s.keptCircuit e) (fun c => (s.circuit c).faultMark) s)

theorem stationReset_eq (e : CircuitWordErrors) (s : State) : stationReset e s = heedWarning (resetStart e s) := rfl

/-- No line rings at a start, so no ring relay is operated (R80). -/
theorem start_ringRelay (e : CircuitWordErrors) (next : StationState) (withdraw : Bool) (base : Nat)
    (circuitOf : Line → Option CircuitNo) (markOf : CircuitNo → Bool) (s : State) (c : CircuitNo) :
    ((startLines e (startBlocks next withdraw base circuitOf markOf s)).circuit c).ringRelay = false := by
  have hdrive : ∀ l, (startLines e (startBlocks next withdraw base circuitOf markOf s)).ringDrive l = false := fun l => by
    rw [State.ringDrive, start_line]; rfl
  have hout := (start_pass e next withdraw base circuitOf markOf s).2.1 c
  unfold State.OutputsOf at hout
  split at hout
  · exact hout.1
  · split at hout
    · exact hout.1
    · split at hout
      · exact hout.1
      · exact hout.1.trans (hdrive _)

/-- The entries that a start queues carry no mark, so that clearing the marks leaves them (R162). -/
theorem startReports_offWire (s : State) (e : CircuitWordErrors) (circuit : Line → Option CircuitNo)
    (marked : CircuitNo → Bool) :
    (s.startReports e circuit marked).map ReportEntry.offWire = s.startReports e circuit marked := by
  rw [startReports_eq]
  refine List.map_congr_left (g := id) (fun x hx => ?_) |>.trans (List.map_id _)
  have hclear : x.sending = false ∧ x.replaced = false := by
    rcases List.mem_append.1 hx with hx | hx
    · obtain ⟨l, -, hl⟩ := List.mem_flatMap.1 hx
      rcases startedState_cases s (circuit l) marked l with ⟨-, hno⟩ | ⟨-, hno⟩
      · rw [hno] at hl; cases hl
      · rw [hno] at hl; rw [List.mem_singleton.1 hl]; exact ⟨rfl, rfl⟩
    · obtain ⟨l, -, rfl⟩ := List.mem_map.1 hx; exact ⟨rfl, rfl⟩
  simp only [ReportEntry.offWire, id]
  rw [← hclear.1]
  cases x
  simp_all

/-- A STATION RESET in any station (R173, R175, R177; log 17). -/
structure ResetSpec (e : CircuitWordErrors) (s t : State) : Prop where
  station : t.station = { s.station with
    state := if s.resetStarts then (if s.control.warning.asserted then .down else .starting) else .silent
    conflicts := 0 }
  control : t.control = { s.control with restartCount := 0, alarm := !s.resetStarts }
  line : ∀ l, t.line l = startedRecord e (fun c => (s.circuit c).faultMark) l (s.keptCircuit e l)
  circuit : ∀ c, StartedCircuit (t.circuit c) (s.circuit c).faultMark
  outputs : t.OutputsOk
  blocks : StartedBlocks s.table.baseBudget s.resetStarts t
  reports : t.reports = s.startReports e (s.keptCircuit e) fun c => (s.circuit c).faultMark
  ackSlot : t.bus.ackSlot = s.bus.ackSlot
  freeDraws : t.freeDraws = s.freeDraws
  pending : t.pending = s.pending

/-- The start of a STATION RESET where no warning is heeded after it. -/
theorem resetStart_spec (e : CircuitWordErrors) (s : State)
    (h : s.resetStarts = true → s.control.warning.asserted = false) : ResetSpec e s (resetStart e s) where
  station := by
    rw [resetStart, start_eq]
    cases hs : s.resetStarts
    · rfl
    · simp [startBlocks, h hs]
  control := by
    rw [resetStart, start_eq]
    cases hs : s.resetStarts <;> simp [startBlocks]
  line l := start_line ..
  circuit c := start_circuit ..
  outputs := (start_pass ..).2.1
  blocks := start_blocks ..
  reports := start_reports ..
  ackSlot := by rw [resetStart, start_eq]; rfl
  freeDraws := by rw [resetStart, start_eq]; rfl
  pending := by rw [resetStart, start_eq]; rfl

/-- The start of a STATION RESET into STARTING under an ASSERTED warning filter goes on to DOWN (R175). -/
theorem goDown_resetStart_spec (e : CircuitWordErrors) (s : State) (hs : s.resetStarts = true)
    (hw : s.control.warning.asserted = true) : ResetSpec e s (goDown (resetStart e s)) where
  station := by
    rw [resetStart, start_eq]
    simp [startBlocks, hs, hw]
  control := by
    rw [resetStart, start_eq]
    simp [startBlocks, hs]
  line l := start_line ..
  circuit c := by
    obtain ⟨hhook, hfault, hblanking, hmark⟩ : StartedCircuit ((resetStart e s).circuit c) (s.circuit c).faultMark :=
      start_circuit ..
    have hrelay : ((resetStart e s).circuit c).ringRelay = false := start_ringRelay ..
    rw [goDown_circuit]
    refine ⟨hhook, hfault, ?_, hmark⟩
    simp only [Circuit.withOutputs, hrelay, if_true]
    exact hblanking
  outputs := outputsOk_goDown _
  blocks := by
    obtain ⟨hphase, htick, hsince, hlisten, -, htable, hunit, -, hrx, hrecessive, hsummary, -⟩ :
      StartedBlocks s.table.baseBudget s.resetStarts (resetStart e s) := start_blocks ..
    rw [hs]
    exact ⟨hphase, congrArg (min · 149) htick, hsince, hlisten, rfl, htable, hunit, rfl, hrx, hrecessive, hsummary, rfl⟩
  reports :=
    have hreports : (resetStart e s).reports = s.startReports e (s.keptCircuit e) fun c => (s.circuit c).faultMark :=
      start_reports ..
    (congrArg (List.map ReportEntry.offWire) hreports).trans (startReports_offWire ..)
  ackSlot := by rw [resetStart, start_eq]; rfl
  freeDraws := by rw [resetStart, start_eq]; rfl
  pending := by rw [resetStart, start_eq]; rfl

theorem stationReset_spec (e : CircuitWordErrors) (s : State) : ResetSpec e s (stationReset e s) := by
  have hstate : (resetStart e s).station.state = if s.resetStarts then .starting else .silent := by
    rw [resetStart, start_eq]; rfl
  have hwarning : (resetStart e s).control.warning = s.control.warning := by rw [resetStart, start_eq]; rfl
  rw [stationReset_eq, heedWarning, hstate, hwarning]
  cases hs : s.resetStarts
  · rw [if_neg (by simp [StationState.heedsWarning])]
    exact resetStart_spec e s (by simp [hs])
  · cases hw : s.control.warning.asserted
    · rw [if_neg (by simp)]
      exact resetStart_spec e s fun _ => hw
    · rw [if_pos rfl]
      exact goDown_resetStart_spec e s hs hw

/-- Settles O6: a STATION RESET that is taken acts on the state after its frame, and makes the start of R177. -/
theorem stationResetMakesAStart : Obligations.StationResetMakesAStart := by
  unfold Obligations.StationResetMakesAStart
  intro h e s hh hdown had hknown
  have hallowed : s.station.state.takesReset = true := by
    revert hdown; cases s.station.state <;> simp [StationState.takesReset]
  have hstarts : s.resetStarts = true := by
    simp [State.resetStarts, hknown, (addressesStation_iff.1 had).1]
  have hacts := stationCommand_of_hears hh hallowed had (stationReset e)
  have hspec := stationReset_spec e (s.endFrame true)
  have hstarts' : (s.endFrame true).resetStarts = true := hstarts
  obtain ⟨hstation, hcontrol, hline, hcircuit, houtputs, hblocks, hreports, hack, -, hpending⟩ := hspec
  rw [hstarts'] at hstation hcontrol hblocks
  refine ⟨_, congrArg Host.Outcome.next hacts, hstation, hcontrol, fun l => ?_, hcircuit, houtputs, fun l => ?_, hblocks,
    hreports, hack, hpending⟩
  · rw [hline]; exact startedLine_startedRecord ..
  · rw [hline]; rfl

end Sys2Proof.Machine
end

section
/-! PROOFS. What a row of the table can do, said once (`Run`): each row is a path of a few moves, and what such a move keeps,
every row and every step keeps. -/

namespace Sys2Proof.Machine

/-! ### The moves -/

/-- What a row is licensed to do beyond the moves that every row may make. -/
inductive Licence where
  /-- The outputs may be left as the station state or the place in the cadence had them. -/
  | stale
  /-- A line may be placed that the ring queue holds, whatever its state. -/
  | placing
  /-- The circuits may take their start values. -/
  | start
  /-- SILENT may be left by a start. -/
  | reset
  /-- The strap copies and the station state word may be written. -/
  | memory
  /-- The base budget may be derived anew. -/
  | power
  /-- The counts of a tick may advance. -/
  | scan
deriving DecidableEq

/-- A peer row within its bounds (R86, R90, R96). -/
def PeerRow.Ok (r : PeerRow) : Prop :=
  (∀ p : Phase, r.cells[p] ≤ 255) ∧ r.age < 3 ∧ (r.present = false → r = PeerRow.absent)

/-- The moves of which every row is made, under some licences. -/
inductive Run : List Licence → State → State → Prop
  | refl (K : List Licence) (s : State) : Run K s s
  | trans {K : List Licence} {s t u : State} (h : Run K s t) (k : Run K t u) : Run K s u
  /-- A path of one line, which leaves a line in FAULT where it is without a circuit. -/
  | line {K : List Licence} {l : Line} {s t : State} (h : LinePath l s t)
      (hf : (s.line l).state = .fault → (s.line l).circuit = none → (t.line l).state = .fault) : Run K s t
  /-- A change between ring states, with a new ring context or the old one. -/
  | enter {K : List Licence} (s : State) (l : Line) (new : LineState) (ring : Option RingContext)
      (hf : (s.line l).state = .fault → (s.line l).circuit = none → .placing ∈ K) :
      Run K s (enterState l new (s.setLine l { s.line l with ring := ring }))
  | queue {K : List Licence} (s : State) (q : List ReportEntry) (h : s.ReportsOk → (s.setReports q).ReportsOk) :
      Run K s (s.setReports q)
  | report {K : List Licence} (s : State) (e : ReportEntry) : Run K s (s.queueReport e)
  /-- Edits of the line records that R2 does not read, or reads in no working line. -/
  | records {K : List Licence} {s t : State} (h : t = { s with lines := t.lines })
      (hl : ∀ l, (t.line l).circuit = (s.line l).circuit ∧ (t.line l).state = (s.line l).state
        ∧ ((s.line l).state = .fault ∨ (t.line l).tone = (s.line l).tone ∧ t.ringDrive l = s.ringDrive l)) : Run K s t
  /-- The bus interface, the Ring Placement Unit, the own row, the filters, the marks of the cadence and the conflict
  count. -/
  | blocks {K : List Licence} {s t : State} (h : t = { s with
      bus := t.bus, ringUnit := t.ringUnit
      table := { s.table with ownRow := t.table.ownRow, reduced := t.table.reduced }
      control := { s.control with warning := t.control.warning }
      cadence := { t.cadence with phase := s.cadence.phase, tick := s.cadence.tick }
      station := { s.station with conflicts := t.station.conflicts } })
      (hc : t.station.conflicts ≤ s.station.conflicts ∨ t.station.conflicts < 3) : Run K s t
  /-- The filters and the mark of a circuit. -/
  | filters {K : List Licence} (s : State) (c : CircuitNo) (x : Circuit)
      (hx : x.outputs = (s.circuit c).outputs ∧ x.blanking = (s.circuit c).blanking) : Run K s (s.setCircuit c x)
  | peer {K : List Licence} (s : State) (i : Fin 15) (r : PeerRow) (h : s.table.peers[i].Ok → r.Ok) :
      Run K s { s with table := { s.table with peers := s.table.peers.set i r } }
  | down {K : List Licence} (s : State) (h : s.station.state ≠ .silent) : Run K s (goDown s)
  | silent {K : List Licence} (s : State) (n : Nat) (h : s.ControlOk → n ≤ 3) :
      Run K s (goSilent { s with station := { s.station with conflicts := n } })
  | cadence {K : List Licence} (s : State) (t : CadenceTimer) (hK : .stale ∈ K) : Run K s { s with cadence := t }
  /-- A station in HELD or at work goes on to a working state. -/
  | state {K : List Licence} (s : State) (new : StationState) (h : s.station.state = .held ∨ s.running = true)
      (hn : new = .starting ∨ new = .active) (hK : .stale ∈ K) : Run K s (s.setStationState new)
  | recompose {K : List Licence} {s t : State} (h : Run (.stale :: K) s t) : Run K s t.recomposeAll
  /-- A REMAP to a circuit that no line maps. -/
  | remap {K : List Licence} (s : State) (l : Line) (c : CircuitNo) (h : s.owner c = none) :
      Run K s (moveToCircuit c l s)
  | lost {K : List Licence} (s : State) (l : Line) (u : LineWords) : Run K s (lineMemoryFault l u s)
  | straps {K : List Licence} (s : State) (a b : Option Straps) (n : Nat) (hK : .memory ∈ K) :
      Run K s { s with station := { s.station with strap1 := a, strap2 := b }, freeDraws := n }
  | found {K : List Licence} (s : State) (h : s.foundDown = true) (hK : .memory ∈ K) :
      Run K s { s with station := { s.station with state := .down, conflicts := 0 } }.recomposeAll
  | start {K : List Licence} (s : State) (e : CircuitWordErrors) (next : StationState) (withdraw : Bool) (base : Nat)
      (circuitOf : Line → Option CircuitNo) (markOf : CircuitNo → Bool) (hK : .start ∈ K)
      (hs : s.station.state ≠ .silent ∨ .reset ∈ K) (hn : next ≠ .down)
      (hb : base = s.table.baseBudget ∨ .power ∈ K ∧ 16 ≤ base ∧ base ≤ 120)
      (hm : s.MapOk → ∀ l m c, circuitOf l = some c → circuitOf m = some c → l = m) :
      Run K s (startLines e (startBlocks next withdraw base circuitOf markOf s))
  | scan {K : List Licence} (s : State) (i : Samples) (hK : .scan ∈ K) : Run K s (advanceTick i s)

/-! ### The moves of the lines -/

variable {K : List Licence}

theorem run_onlyFlags (s : State) (l : Line) (r : LineRecord) (hs : r.state = (s.line l).state)
    (ht : r.tone = (s.line l).tone) (hc : r.circuit = (s.line l).circuit) (hr : r.ring = (s.line l).ring) :
    Run K s (s.setLine l r) :=
  .line (.edit s r hs ht hc hr) fun h _ => by rw [State.line_setLine_self, hs, h]

/-- A path of a line in no other state than FAULT. -/
theorem run_of_not_fault {l : Line} {s t : State} (h : LinePath l s t) (hf : (s.line l).state ≠ .fault) : Run K s t :=
  .line h fun h' => absurd h' hf

/-- A path that leaves a line in FAULT untouched. -/
theorem run_of_fault_eq {l : Line} {s t : State} (h : LinePath l s t) (hf : (s.line l).state = .fault → t = s) :
    Run K s t :=
  .line h fun h' _ => by rw [hf h', h']

theorem run_of_onlyReports {l : Line} {s t : State} (h : LinePath l s t) (k : OnlyReports s t) : Run K s t :=
  .line h fun h' _ => by rw [(k.lines l).fields.1, h']

theorem handDigitEnd_of_fault {s : State} {l : Line} (h : (s.line l).state = .fault) : handDigitEnd l s = s := by
  simp [handDigitEnd, State.digitEndDue, State.digitTimed, h]

theorem handInterdigitTimeout_of_fault {s : State} {l : Line} (h : (s.line l).state = .fault) :
    handInterdigitTimeout l s = s := by
  simp [handInterdigitTimeout, State.interdigitDue, State.digitTimed, h]

theorem handClearReached_of_fault {s : State} {l : Line} (h : (s.line l).state = .fault) : handClearReached l s = s := by
  simp [handClearReached, State.clearDue, LineState.isCall, h]

theorem handSeizeConfirmed_of_fault {s : State} {l : Line} (h : (s.line l).state = .fault) :
    handSeizeConfirmed l s = s := by
  simp [handSeizeConfirmed, h]

theorem handTripConfirmed_of_fault {s : State} {l : Line} (h : (s.line l).state = .fault) :
    handTripConfirmed l s = s := by
  simp [handTripConfirmed, State.tripDue, h]

theorem handDialToneTimeout_of_fault {s : State} {l : Line} (h : (s.line l).state = .fault) :
    handDialToneTimeout l s = s := by
  simp [handDialToneTimeout, State.dialToneDue, h]

theorem handRecallTimeout_of_fault {s : State} {l : Line} (h : (s.line l).state = .fault) :
    handRecallTimeout l s = s := by
  simp [handRecallTimeout, State.recallDue, h]

/-- No threshold is due of a line in FAULT (R35). -/
theorem handDue_of_fault {s : State} {l : Line} (h : (s.line l).state = .fault) : handDue l s = s := by
  rw [handDue, handDigitEnd_of_fault h, handInterdigitTimeout_of_fault h, handClearReached_of_fault h,
    handSeizeConfirmed_of_fault h, handTripConfirmed_of_fault h, handDialToneTimeout_of_fault h,
    handRecallTimeout_of_fault h]

section Lines
variable (l : Line) (s : State)

theorem run_handDue : Run K s (handDue l s) := run_of_fault_eq (linePath_handDue l s) handDue_of_fault

theorem run_handSeizeConfirmed : Run K s (handSeizeConfirmed l s) :=
  run_of_fault_eq (linePath_handSeizeConfirmed l s) handSeizeConfirmed_of_fault

theorem run_handTripConfirmed : Run K s (handTripConfirmed l s) :=
  run_of_fault_eq (linePath_handTripConfirmed l s) handTripConfirmed_of_fault

theorem run_takeOnHook : Run K s (takeOnHook l s) :=
  run_of_fault_eq (linePath_takeOnHook l s) fun h => by simp [takeOnHook, LineState.outOfService, h]

theorem run_takeOffHook : Run K s (takeOffHook l s) :=
  run_of_fault_eq (linePath_takeOffHook l s) fun h => by simp [takeOffHook, LineState.outOfService, h]

theorem run_takeSettle (k : Hook) : Run K s (takeSettle l k s) :=
  run_of_fault_eq (linePath_takeSettle l s k) fun h => by simp [takeSettle, LineState.outOfService, h]

theorem run_enterFault (cause : Octet) : Run K s (enterFault l cause s) :=
  run_of_fault_eq (linePath_enterFault l s cause) fun h => by simp [enterFault, h]

theorem run_stopRingLine : Run K s (stopRingLine l s) :=
  run_of_fault_eq (linePath_stopRingLine l s) fun h => by simp [stopRingLine, LineState.isRing, h]

theorem run_refuse (c r : Octet) : Run K s (refuse l c r s) := .report s _

theorem run_queueLineState : Run K s (queueLineState l s) :=
  run_of_onlyReports (linePath_queueLineState l s) (onlyReports_queueLineState l s)

theorem run_connectLine : Run K s (connectLine l s) := by
  by_cases h : (s.line l).state.isDialling = true
  · exact run_of_not_fault (linePath_connectLine l s) fun hf => by simp [hf, LineState.isDialling] at h
  · rw [connectLine, if_neg h]
    exact run_refuse ..

theorem run_releaseLine : Run K s (releaseLine l s) :=
  run_of_fault_eq (linePath_releaseLine l s) fun h => by simp [releaseLine, stopRingLine, LineState.isRing, h]

theorem run_toneLine (t : Tone) : Run K s (toneLine t l s) := by
  by_cases h : ((s.line l).state = .connected || (s.line l).state = .parked) = true
  · exact run_of_not_fault (linePath_toneLine l s t) fun hf => by simp [hf] at h
  · rw [toneLine, if_neg h]
    exact run_refuse ..

theorem run_blockPoliteLine : Run K s (blockPoliteLine l s) :=
  run_of_fault_eq (linePath_blockPoliteLine l s) fun h => by simp [blockPoliteLine, h]

theorem run_blockForcedLine : Run K s (blockForcedLine l s) :=
  run_of_fault_eq (linePath_blockForcedLine l s) fun h => by simp [blockForcedLine, LineState.outOfService, h]

theorem run_watchLine (v : Octet) : Run K s (watchLine v l s) := run_onlyFlags s l _ rfl rfl rfl rfl

theorem run_reportCorrection : Run K s (reportCorrection l s) :=
  (Run.report s _).trans (run_onlyFlags _ l _ rfl rfl rfl rfl)

theorem run_correctLineRecord : Run K s (correctLineRecord l s) := by
  unfold correctLineRecord
  split
  · exact (run_reportCorrection l s).trans (run_enterFault ..)
  · exact run_reportCorrection l s

theorem run_traceChange (left : LineState) : Run K s (traceChange l left s) := by
  unfold traceChange
  split
  · exact .report s _
  · exact .refl K s

theorem run_unblockLine : Run K s (unblockLine l s) := by
  by_cases h : ∃ c, s.Clears l c
  · obtain ⟨c, hc⟩ := h
    obtain ⟨hf, hcircuit, -⟩ := id hc
    rw [unblockLine_of_clears hc]
    have hmark : Run K s (s.setCircuit c { s.circuit c with faultMark := false }) := .filters s c _ ⟨rfl, rfl⟩
    have hrewrite : Run K (s.setCircuit c { s.circuit c with faultMark := false }) (rewriteFaulted l c s) := by
      refine .records rfl fun m => ?_
      rw [rewriteFaulted, State.line_setLine]
      by_cases hm : m = l
      · subst hm
        rw [if_pos rfl]
        exact ⟨hcircuit.symm, hf.symm, .inl hf⟩
      · refine ⟨by rw [if_neg hm], by rw [if_neg hm], .inr ⟨by rw [if_neg hm], ringDrive_congr ?_ ?_ rfl rfl rfl⟩⟩ <;>
          rw [State.line_setLine_ne _ hm]
    refine (hmark.trans hrewrite).trans (.line (linePath_returnToService ..) fun _ hnone => ?_)
    simp [rewriteFaulted, LineRecord.fresh] at hnone
  · have hpath := linePath_unblockLine (not_exists.1 h)
    refine .line hpath fun hf hnone => ?_
    simp only [unblockLine, hf, hnone]
    rw [((onlyReports_refuse l 7 5 s).lines l).fields.1, hf]

theorem run_remapLine (target : Octet) : Run K s (remapLine target l s) := by
  unfold remapLine
  split
  · exact run_refuse ..
  split
  · exact run_refuse ..
  split
  · exact run_refuse ..
  split
  · exact run_refuse ..
  · rename_i hfree _
    exact .remap s l _ (by simpa using hfree)

end Lines

/-! ### The ring requests -/

theorem run_ringTransition (s : State) (l : Line) (new : LineState) (ring : Option RingContext)
    (hf : (s.line l).state = .fault → (s.line l).circuit = none → .placing ∈ K) :
    Run K s (transition l new id (s.setLine l { s.line l with ring := ring })) :=
  (Run.enter s l new ring hf).trans (run_traceChange ..)

/-- A change between ring states that keeps the ring context. -/
theorem run_transition (s : State) (l : Line) (new : LineState) (hf : (s.line l).state ≠ .fault) :
    Run K s (transition l new id s) := by
  have h := run_ringTransition (K := K) s l new (s.line l).ring fun h => absurd h hf
  rwa [show s.setLine l { s.line l with ring := (s.line l).ring } = s from State.setLine_line_self s l] at h

theorem run_ringUnit (s : State) (u : RingUnit) (row : Vector Nat 8) : Run K s ((s.setOwnRow row).setRingUnit u) :=
  .blocks rfl (.inl le_rfl)

/-- A change between ring states with the Ring Placement Unit and the own row written first. -/
theorem run_unitTransition (s : State) (l : Line) (new : LineState) (ring : Option RingContext) (u : RingUnit)
    (row : Vector Nat 8) (hf : (s.line l).state = .fault → (s.line l).circuit = none → .placing ∈ K) :
    Run K s (transition l new id (((s.setOwnRow row).setRingUnit u).setLine l { s.line l with ring := ring })) :=
  (run_ringUnit s u row).trans (run_ringTransition ((s.setOwnRow row).setRingUnit u) l new ring hf)

theorem run_setRingUnit (s : State) (u : RingUnit) : Run K s (s.setRingUnit u) := .blocks rfl (.inl le_rfl)

theorem run_place (s : State) (l : Line) (o : Phase)
    (hf : (s.line l).state = .fault → (s.line l).circuit = none → .placing ∈ K) : Run K s (place l o s) := by
  unfold place
  split
  · rename_i c _
    exact (run_unitTransition s l .ringClaiming (some { c with offset := o })
      { s.ringUnit with
        queue := s.ringUnit.queue.filter (· ≠ l), claim := some ⟨l, c.weight, rotatedSet c.code o, .pending⟩ }
      (addLoad c.weight (rotatedSet c.code o) s.table.ownRow) hf).trans (run_handSeizeConfirmed ..)
  · exact .refl K s

/-- A placement attempt, where the ring queue holds lines in RING QUEUED alone. -/
theorem run_attemptPlacement {s : State} (hp : s.RingOk ∨ .placing ∈ K) : Run K s (attemptPlacement s) := by
  unfold attemptPlacement
  split
  · split
    · rename_i l o hfind
      refine run_place s l o fun hf _ => ?_
      rcases hp with hring | hp
      · rw [(hring.queued l).1 (findPlacement_mem hfind)] at hf
        cases hf
      · exact hp
    · exact .refl K s
  · exact .refl K s

theorem run_queueNew (s : State) (l : Line) : Run K s (s.queueNew l) := by
  rw [(queueNew_spec s l).1]
  exact run_setRingUnit ..

theorem run_queueAtHead (s : State) (l : Line) : Run K s (s.queueAtHead l) := by
  rw [(queueAtHead_spec s l).1]
  exact run_setRingUnit ..

theorem run_ringLine {s : State} (p1 p2 : Octet) (l : Line) (hp : s.RingOk ∨ .placing ∈ K) :
    Run K s (ringLine p1 p2 l s) := by
  unfold ringLine
  split
  · rename_i hidle
    refine (((run_ringTransition s l .ringQueued (some (ringContextOf p1 p2)) fun h => ?_).trans
      (run_queueNew _ l)).trans (run_attemptPlacement ?_)).trans (run_handSeizeConfirmed ..)
    · rw [hidle] at h; cases h
    · exact hp.imp_left fun hring => ringOk_ringRequest hring l _ (ringContextOf_weight p1 p2) hidle
  all_goals exact run_refuse ..

/-! ### Station Control -/

theorem run_heedWarning (s : State) : Run K s (heedWarning s) := by
  unfold heedWarning
  split
  · rename_i h
    exact .down s fun hs => by simp [hs, StationState.heedsWarning] at h
  · exact .refl K s

theorem running_iff {s : State} : s.running = true ↔ s.station.state = .starting ∨ s.station.state = .active := by
  unfold State.running
  cases s.station.state <;> simp [StationState.running]

theorem run_countConflict (s : State) : Run K s (countConflict s) := by
  unfold countConflict
  split
  · rename_i hrun
    dsimp only
    split
    · refine .silent s (s.station.conflicts + 1) fun hok => ?_
      have := hok.2.2.2.2 (by rcases running_iff.1 hrun with h | h <;> rw [h] <;> decide)
      omega
    · rename_i h
      exact .blocks rfl (.inr (Nat.not_le.1 h))
  · exact .refl K s

theorem run_supplyRestart (e : CircuitWordErrors) (s : State) (hK : .start ∈ K) (hs : s.station.state ≠ .silent) :
    Run K s (supplyRestart e s) := by
  refine (Run.start s e _ _ _ _ _ hK (.inl hs) ?_ (.inl rfl) fun hmap l m c hl hm => ?_).trans (run_heedWarning _)
  · cases s.straps.mode <;> decide
  · unfold State.keptCircuit at hl hm
    split at hl
    · cases hl
    split at hm
    · cases hm
    · exact hmap.1 l m c hl hm

theorem run_takeRestart (e : CircuitWordErrors) (s : State) (hK : .start ∈ K) : Run K s (takeRestart e s) := by
  unfold takeRestart
  split
  · rename_i h
    refine run_supplyRestart e s hK fun hs => ?_
    simp [State.restartDue, hs] at h
  · exact .refl K s

theorem run_stationReset (e : CircuitWordErrors) (s : State) (hK : .start ∈ K) (hr : .reset ∈ K) :
    Run K s (stationReset e s) := by
  refine (Run.start s e _ _ _ _ _ hK (.inr hr) ?_ (.inl rfl) fun hmap l m c hl hm => ?_).trans (run_heedWarning _)
  · split <;> decide
  · unfold State.keptCircuit at hl hm
    split at hl
    · cases hl
    split at hm
    · cases hm
    · exact hmap.1 l m c hl hm

theorem baseBudgetOf_bounds (code : Fin 16) : 16 ≤ baseBudgetOf code ∧ baseBudgetOf code ≤ 120 := by
  unfold baseBudgetOf
  omega

theorem run_powerOn (pins : Straps) (s : State) (hK : .start ∈ K) (hr : .reset ∈ K) (hm : .memory ∈ K)
    (hp : .power ∈ K) : Run K s (powerOn pins s) := by
  have hstraps := Run.straps s (some pins) (some pins) s.freeDraws hm
  refine (hstraps.trans (.blocks (t := { s with
    station := { s.station with strap1 := some pins, strap2 := some pins }
    control := { s.control with warning := InputFilter.normal }
    bus := { s.bus with ackSlot := false } }) rfl (.inl le_rfl))).trans
    (Run.start _ _ _ _ _ _ _ hK (.inr hr) ?_ (.inr ⟨hp, baseBudgetOf_bounds _⟩) fun _ l m c hl hm => ?_)
  · split <;> decide
  · have hval := congrArg Fin.val (Option.some_inj.1 (hl.trans hm.symm))
    exact Fin.ext hval

theorem run_takeWarning (s : State) : Run K s (takeWarning s) := by
  unfold takeWarning
  refine Run.trans ?_ (run_heedWarning _)
  split
  · exact .blocks rfl (.inl le_rfl)
  · exact .refl K s

theorem run_takeWarningNegated (s : State) : Run K s (takeWarningNegated s) := by
  unfold takeWarningNegated
  split
  · exact .blocks rfl (.inl le_rfl)
  · exact .refl K s

theorem run_takeReducedChange (s : State) : Run K s (takeReducedChange s) := by
  unfold takeReducedChange
  split
  · exact .blocks rfl (.inl le_rfl)
  · exact .refl K s

theorem run_startStation (s : State) : Run K s (startStation s) := by
  unfold startStation
  split
  · rename_i h
    exact (Run.recompose (.state s .starting (.inl h) (.inl rfl) List.mem_cons_self)).trans (run_heedWarning _)
  · exact .refl K s

/-! ### The Shelf Bus Interface and Command Dispatch -/

theorem run_setBus (s : State) (b : BusInterface) : Run K s (s.setBus b) := .blocks rfl (.inl le_rfl)

theorem run_endFrame (s : State) (ack : Bool) : Run K s (s.endFrame ack) := run_setBus s _

/-- Marks written in the queue keep what R162 and R163 ask of it. -/
theorem reportsOk_mapMarks {s : State} (h : s.ReportsOk) {f : ReportEntry → ReportEntry}
    (hf : ∀ e, (f e).code = e.code ∧ (f e).number = e.number ∧ (f e).values = e.values) :
    (s.setReports (s.reports.map f)).ReportsOk := by
  obtain ⟨hlen, hq⟩ := h
  have hq : QueueOk s.reports := hq
  exact ⟨by simpa using hlen, hq.map f fun e _ => ⟨(hf e).1, (hf e).2.1, fun _ => (hf e).2.2⟩⟩

theorem run_unsendReports (s : State) : Run K s s.unsendReports :=
  .queue s _ fun h => reportsOk_mapMarks h fun _ => ⟨rfl, rfl, rfl⟩

theorem run_sendHead (s : State) : Run K s s.sendHead := by
  unfold State.sendHead
  split
  · exact .refl K s
  · rename_i e q hq
    refine .queue s _ fun h => ?_
    obtain ⟨hlen, hcls, hco⟩ := h
    rw [hq] at hlen hcls hco
    obtain ⟨hcls, hclsq⟩ := List.pairwise_cons.1 hcls
    obtain ⟨hco, hcoq⟩ := List.pairwise_cons.1 hco
    exact ⟨hlen, List.pairwise_cons.2 ⟨hcls, hclsq⟩, List.pairwise_cons.2 ⟨hco, hcoq⟩⟩

theorem run_tellBegun (s : State) (k : FrameKind) : Run K s (s.tellBegun k) := by
  cases k
  case claim => exact run_setRingUnit ..
  case report => exact run_sendHead s
  all_goals exact .refl K s

theorem run_beginFrame (s : State) (k : FrameKind) : Run K s (s.beginFrame k) := by
  unfold State.beginFrame
  exact (run_setBus s _).trans (run_tellBegun _ k)

theorem run_beginIfReady (s : State) : Run K s s.beginIfReady := by
  unfold State.beginIfReady
  split
  · exact run_beginFrame s _
  · exact .refl K s

theorem run_sendIfIdle (s : State) : Run K s s.sendIfIdle := by
  unfold State.sendIfIdle
  split
  · exact run_beginIfReady s
  · exact .refl K s

theorem run_becomeIdle (s : State) : Run K s (becomeIdle s) := by
  unfold becomeIdle
  split
  · exact .refl K s
  · exact (run_setBus s _).trans (run_beginIfReady _)

theorem run_takeStartBit (s : State) : Run K s (takeStartBit s) := by
  unfold takeStartBit
  split
  · exact (run_setBus s _).trans (run_beginIfReady _)
  · exact run_setBus s _
  · exact .refl K s

theorem run_tellUnsent (s : State) (k : FrameKind) : Run K s (s.tellUnsent k) := by
  cases k
  case claim => exact run_setRingUnit ..
  case report => exact run_unsendReports s
  all_goals exact .refl K s

theorem run_dropFrame (s : State) (k : FrameKind) : Run K s (s.dropFrame k) := by
  unfold State.dropFrame
  exact (run_setBus s _).trans (run_tellUnsent _ k)

theorem run_loseContest (s : State) : Run K s (loseContest s) := by
  unfold loseContest
  split
  · split
    · exact run_dropFrame ..
    · exact .refl K s
  · exact .refl K s

theorem run_abandonOnMismatch (s : State) : Run K s (abandonOnMismatch s) := by
  unfold abandonOnMismatch
  split
  · split
    · exact .refl K s
    · exact ((run_dropFrame s _).trans (run_setBus _ _)).trans (run_countConflict _)
  · exact .refl K s

theorem run_completeOwn (s : State) (k : FrameKind) (act : State → State)
    (ha : ∀ t, Run K t (act t)) : Run K s (completeOwn k act s) := by
  unfold completeOwn
  split
  · split
    · refine Run.trans ?_ (ha _)
      exact .blocks rfl (.inl (Nat.zero_le _))
    · exact .refl K s
  · exact .refl K s

theorem run_validateClaim (s : State) (c : Claim) : Run K s (validateClaim c s) := by
  unfold validateClaim
  split
  · rename_i ctx hst hring
    have hf : (s.line c.line).state ≠ .fault := by rw [hst]; decide
    split
    · have hclaim : Run K s (s.setClaim none) := run_setRingUnit s _
      exact (hclaim.trans (run_transition (s.setClaim none) c.line .ringArmed hf)).trans (run_handSeizeConfirmed ..)
    · exact ((run_unitTransition s c.line .ringQueued (some { ctx with offset := 0 })
        { s.ringUnit with claim := none, releases := s.ringUnit.releases ++ [⟨c.line, c.weight, c.set⟩] }
        (removeLoad c.weight c.set s.table.ownRow) fun h => absurd h hf).trans (run_queueAtHead ..)).trans
        (run_handSeizeConfirmed ..)
  · exact run_setRingUnit ..

theorem run_claimCompleted (s : State) : Run K s (claimCompleted s) := by
  unfold claimCompleted
  split
  · split
    · exact run_validateClaim ..
    · exact run_setRingUnit ..
    · exact .refl K s
  · exact .refl K s

theorem run_reportSent (s : State) : Run K s s.reportSent := by
  unfold State.reportSent
  split
  · exact .refl K s
  · split
    · exact run_unsendReports s
    · refine Run.trans (.queue s (s.reports.eraseP fun e => e.sending) fun h => ?_) ?_
      · obtain ⟨hlen, hq⟩ := h
        exact ⟨(List.eraseP_sublist.length_le).trans hlen, QueueOk.sublist hq List.eraseP_sublist⟩
      · unfold State.settleResync
        split
        · exact run_queueLineState ..
        · exact .refl K _

theorem run_takeOwnNumberFrame (s : State) : Run K s (takeOwnNumberFrame s) := by
  unfold takeOwnNumberFrame
  split
  · exact run_endFrame s false
  · exact (run_endFrame s false).trans (run_countConflict _)

theorem run_receiveFrame (s : State) (st : StationNo) (d : State → State) (hd : ∀ t, Run K t (d t)) :
    Run K s (receiveFrame st d s) := by
  unfold receiveFrame
  split
  · split
    · exact run_takeOwnNumberFrame s
    · exact (run_endFrame s false).trans (hd _)
  · exact .refl K s

theorem run_receiveCommand (s : State) (h : CommandHeader) (takes allowed : Bool) (act : State → State)
    (ha : Run K (s.endFrame true) (act (s.endFrame true))) : Run K s (receiveCommand h takes allowed act s) := by
  unfold receiveCommand
  repeat' split
  · exact (run_endFrame s true).trans ha
  · exact run_endFrame s true
  · exact run_takeOwnNumberFrame s
  · exact (run_endFrame s true).trans ha
  · exact run_endFrame s false
  · exact .refl K s

/-- A fold of runs is a run. -/
theorem run_foldl {α : Type} (f : State → α → State) (hf : ∀ t a, Run K t (f t a)) (q : List α) (s : State) :
    Run K s (q.foldl f s) :=
  foldl_keeps (fun t => Run K s t) f (fun t a ht => ht.trans (hf t a)) q (.refl K s)

theorem run_lineCommand (s : State) (h : CommandHeader) (mask : Octet) (act : Line → State → State)
    (ha : ∀ l t, Run K t (act l t)) : Run K s (lineCommand h mask act s) :=
  run_receiveCommand s h _ _ _ (run_foldl _ (fun t l => ha l t) _ _)

theorem run_stationCommand (s : State) (h : CommandHeader) (allowed : StationState → Bool) (act : State → State)
    (ha : ∀ t, Run K t (act t)) : Run K s (stationCommand h allowed act s) :=
  run_receiveCommand s h _ _ act (ha _)

/-- A fold whose steps keep the bookkeeping, where a step is a run if the bookkeeping holds. -/
theorem run_foldl_of_ringOk {α : Type} (f : State → α → State) (hr : ∀ t a, t.RingOk → (f t a).RingOk)
    (hf : ∀ t a, t.RingOk ∨ .placing ∈ K → Run K t (f t a)) (q : List α) {s : State} (hp : s.RingOk ∨ .placing ∈ K) :
    Run K s (q.foldl f s) :=
  (foldl_keeps (fun t => Run K s t ∧ (t.RingOk ∨ .placing ∈ K)) f
    (fun t a ht => ⟨ht.1.trans (hf t a ht.2), ht.2.imp_left (hr t a)⟩) q ⟨.refl K s, hp⟩).1

theorem run_ringCommand {s : State} (h : CommandHeader) (mask p1 p2 : Octet) (hp : s.RingOk ∨ .placing ∈ K) :
    Run K s (lineCommand h mask (ringLine p1 p2) s) :=
  run_receiveCommand s h _ _ _ (run_foldl_of_ringOk _ (fun _ l ht => ringOk_ringLine ht p1 p2 l)
    (fun _ l ht => run_ringLine p1 p2 l ht) _ (hp.imp_left fun hring => ringOk_endFrame hring true))

theorem run_updateRow (s : State) (st : StationNo) (f : PeerRow → PeerRow) (hf : ∀ r, r.Ok → (f r).Ok) :
    Run K s (updateRow st f s) := by
  unfold updateRow
  split
  · exact .peer s (rowIndex st) _ (hf _)
  · exact .refl K s

theorem run_discardFrame (s : State) : Run K s (discardFrame s) := by
  unfold discardFrame
  split
  · exact run_endFrame s false
  · exact .refl K s

/-! ### The peer rows -/

theorem ok_absent : PeerRow.absent.Ok := ⟨fun p => by simp [PeerRow.absent], by decide, fun _ => rfl⟩

theorem ok_claimed (w : Nat) (set : PhaseSet) {r : PeerRow} (h : r.Ok) : (r.claimed w set).Ok := by
  refine ⟨fun p => ?_, Nat.zero_lt_succ 2, fun h => by simp [PeerRow.claimed] at h⟩
  have := h.1 p
  simp only [PeerRow.claimed, Fin.getElem_fin, getElem_tabulate] at this ⊢
  split <;> omega

theorem ok_released (w : Nat) (set : PhaseSet) {r : PeerRow} (h : r.Ok) : (r.released w set).Ok := by
  refine ⟨fun p => ?_, Nat.zero_lt_succ 2, fun h => by simp [PeerRow.released] at h⟩
  have := h.1 p
  simp only [PeerRow.released, Fin.getElem_fin, getElem_tabulate] at this ⊢
  split <;> omega

theorem ok_summarised (cells : Vector Octet 8) (r : PeerRow) : (r.summarised cells).Ok := by
  refine ⟨fun p => ?_, Nat.zero_lt_succ 2, fun h => by simp [PeerRow.summarised] at h⟩
  have := cells[p].isLt
  simp only [PeerRow.summarised, Fin.getElem_fin, getElem_tabulate] at this ⊢
  omega

theorem ok_reported {r : PeerRow} (h : r.Ok) : r.reported.Ok := by
  refine ⟨fun p => ?_, Nat.zero_lt_succ 2, fun h => by simp [PeerRow.reported] at h⟩
  have := h.1 p
  simp only [PeerRow.reported]
  split
  · exact this
  · simp

theorem ok_aged {r : PeerRow} (h : r.Ok) : r.aged.Ok := by
  unfold PeerRow.aged
  split
  · split
    · exact ok_absent
    · rename_i hp _
      exact ⟨h.1, by simp; omega, fun hn => by simp [hp] at hn⟩
  · exact h

/-! ### Edges, settles and thresholds -/

theorem run_setHook (s : State) (c : CircuitNo) (f : HookFilter) : Run K s (s.setHook c f) := .filters s c _ ⟨rfl, rfl⟩

theorem run_setFault (s : State) (c : CircuitNo) (f : InputFilter) (m : Bool) : Run K s (s.setFault c f m) :=
  .filters s c _ ⟨rfl, rfl⟩

theorem run_forOwner (s : State) (c : CircuitNo) (act : Line → State → State) (ha : ∀ l t, Run K t (act l t)) :
    Run K s (forOwner c act s) := by
  unfold forOwner
  repeat' split
  · exact ha _ s
  · exact .refl K s
  · exact .refl K s

section Edges
variable (c : CircuitNo) (s : State)

theorem run_takeOnHookEdge : Run K s (takeOnHookEdge c s) := by
  unfold takeOnHookEdge
  split
  · exact (run_setHook s c _).trans (run_forOwner _ c _ fun l t => (run_handDue l t).trans (run_takeOnHook ..))
  · exact .refl K s

theorem run_takeOffHookEdge : Run K s (takeOffHookEdge c s) := by
  unfold takeOffHookEdge
  split
  · exact (run_setHook s c _).trans (run_forOwner _ c _ fun l t => (run_handDue l t).trans (run_takeOffHook ..))
  · exact .refl K s

theorem run_takeSettleNotice : Run K s (takeSettleNotice c s) := by
  unfold takeSettleNotice
  split
  · split
    · exact (run_setHook s c _).trans (run_forOwner _ c _ fun l t => (run_handDue l t).trans (run_takeSettle ..))
    · exact .refl K s
  · exact .refl K s

theorem run_takeFaultAsserted : Run K s (takeFaultAsserted c s) := by
  unfold takeFaultAsserted
  split
  · exact (run_setFault s c _ _).trans (run_forOwner _ c _ fun l t => run_enterFault l t 0)
  · exact .refl K s

theorem run_takeFaultNormal : Run K s (takeFaultNormal c s) := by
  unfold takeFaultNormal
  split
  · exact run_setFault s c _ _
  · exact .refl K s

theorem run_settleCircuit : Run K s (settleCircuit c s) :=
  ((((run_takeOnHookEdge c s).trans (run_takeOffHookEdge c _)).trans (run_takeSettleNotice c _)).trans
    (run_takeFaultAsserted c _)).trans (run_takeFaultNormal c _)

end Edges

theorem run_whenRunning (s : State) {act : State → State} (ha : ∀ t, Run K t (act t)) : Run K s (whenRunning act s) := by
  unfold whenRunning
  split
  · exact ha s
  · exact .refl K s

/-- A threshold of a line that moves it along a path and finds no line in FAULT. -/
theorem run_handed (s : State) {l : Line} {act : State → State} (ha : ∀ t, LinePath l t (act t))
    (hf : ∀ t, (t.line l).state = .fault → act t = t) : Run K s (whenRunning act s) :=
  run_whenRunning s fun t => run_of_fault_eq (ha t) (hf t)

/-! ### The cadence -/

/-- New counts in a ring context leave what the outputs are composed from. -/
theorem run_recount (s : State) (l : Line) (c c' : RingContext) (hc : (s.line l).ring = some c) (h1 : c'.code = c.code)
    (h2 : c'.offset = c.offset) : Run K s (s.setRing l c') := by
  refine .records rfl fun m => ?_
  by_cases hm : m = l
  · subst hm
    simp only [State.ringDrive, State.setRing_eq, State.line_setLine_self, hc, h1, h2]
    exact ⟨trivial, trivial, .inr ⟨trivial, rfl⟩⟩
  · have hline : (s.setRing l c').line m = s.line m := State.line_setLine_ne s hm _
    exact ⟨by rw [hline], by rw [hline], .inr ⟨by rw [hline], ringDrive_congr (by rw [hline]) (by rw [hline]) rfl rfl rfl⟩⟩

theorem run_countRingCycle (l : Line) (s : State) : Run K s (countRingCycle l s) := by
  unfold countRingCycle
  split
  · rename_i c hst hc
    have hcount := run_recount (K := K) s l c { c with cycles := min (c.cycles + 1) 15 } hc rfl rfl
    dsimp only
    split
    · refine hcount.trans (run_of_not_fault (linePath_enterIdle _ _ _ fun _ => linePath_queueLine ..) ?_)
      simp [hst]
    · exact hcount
  · exact .refl K s

theorem run_countWait (l : Line) (s : State) : Run K s (countWait l s) := by
  unfold countWait
  split
  · rename_i c hc
    have hcount := run_recount (K := K) s l c { c with waits := min (c.waits + 1) 4 } hc rfl rfl
    split
    · dsimp only
      split
      · exact hcount.trans (.report _ _)
      · exact hcount
    · exact .refl K s
  · exact .refl K s

theorem run_startRinging (l : Line) (s : State) : Run K s (startRinging l s) := by
  unfold startRinging
  split
  · rename_i c hst hc
    split
    · exact run_transition s l .ringing (by rw [hst]; decide)
    · exact .refl K s
  · exact .refl K s

theorem ringOk_countCycles {s : State} (h : s.RingOk) : (countCycles s).RingOk :=
  foldl_keeps State.RingOk _ (fun _ l ht => ringOk_countWait (ringOk_countRingCycle ht l) l) _ h

theorem ringOk_startRingingAll {s : State} (h : s.RingOk) : (startRingingAll s).RingOk :=
  foldl_keeps State.RingOk _ (fun _ l ht => ringOk_startRinging ht l) _ h

theorem run_countCycles (s : State) : Run K s (countCycles s) :=
  run_foldl _ (fun t l => (run_countRingCycle l t).trans (run_countWait l _)) _ s

theorem run_startRingingAll (s : State) : Run K s (startRingingAll s) := run_foldl _ (fun t l => run_startRinging l t) _ s

theorem run_handTripsAll (s : State) : Run K s (handTripsAll s) := run_foldl _ (fun t l => run_handTripConfirmed l t) _ s

theorem run_ringUnitWork {s : State} (cycle : Bool) (hp : s.RingOk ∨ .placing ∈ K) : Run K s (ringUnitWork cycle s) := by
  have hcount : Run K s (if cycle then countCycles s else s) := by
    split
    · exact run_countCycles s
    · exact .refl K s
  have hring : s.RingOk → (startRingingAll (if cycle then countCycles s else s)).RingOk := fun h => by
    refine ringOk_startRingingAll ?_
    split
    · exact ringOk_countCycles h
    · exact h
  unfold ringUnitWork
  split
  · exact ((hcount.trans (run_startRingingAll _)).trans (run_attemptPlacement (hp.imp_left hring))).trans
      (run_handTripsAll _)
  · exact .refl K s

theorem run_markSummaryDue (s : State) : Run K s (markSummaryDue s) := by
  unfold markSummaryDue
  split
  · exact run_setBus s _
  · exact .refl K s

theorem ringOk_markSummaryDue {s : State} (h : s.RingOk) : (markSummaryDue s).RingOk := by
  unfold markSummaryDue
  split
  · exact ringOk_other h rfl rfl rfl
  · exact h

/-- An announced boundary composes all the circuits, so that what came before it may have left them stale. -/
theorem run_announceBoundary {s t : State} (cycle : Bool) (h : Run (.stale :: K) s t) (hp : t.RingOk ∨ .placing ∈ K) :
    Run K s (announceBoundary cycle t) :=
  .recompose ((h.trans (run_markSummaryDue t)).trans
    (run_ringUnitWork cycle (hp.imp ringOk_markSummaryDue (List.mem_cons_of_mem _))))

theorem run_ageRow (i : Fin 15) (s : State) : Run K s (ageRow i s) := by
  unfold ageRow
  dsimp only
  split
  · exact (Run.peer s i _ ok_aged).trans (.report _ _)
  · exact .peer s i _ ok_aged

theorem run_clearCorrectionMarks (s : State) : Run K s (clearCorrectionMarks s) := by
  refine .records rfl fun l => ?_
  have hline : (clearCorrectionMarks s).line l = { s.line l with correctionMark := false } := by
    simp [clearCorrectionMarks, State.line]
  exact ⟨by rw [hline], by rw [hline], .inr ⟨by rw [hline], ringDrive_congr (by rw [hline]) (by rw [hline]) rfl rfl rfl⟩⟩

theorem run_ageRows (s : State) : Run K s (ageRows s) := run_foldl _ (fun t i => run_ageRow i t) _ s

theorem run_endListen (s : State) (hr : s.running = true) (hK : .stale ∈ K) : Run K s (endListen s) := by
  unfold endListen
  split
  · exact (Run.cadence s _ hK).trans (.state _ .active (.inr hr) (.inr rfl) hK)
  · exact .refl K s

theorem ringOk_endListen {s : State} (h : s.RingOk) : (endListen s).RingOk := by
  unfold endListen
  split
  · exact ringOk_other h rfl rfl rfl
  · exact h

/-- The work of a cycle start, from the counts that it sets. -/
theorem run_cycleWork {s t : State} (h : Run (.stale :: K) s t) (hr : t.running = true)
    (hp : t.RingOk ∨ .placing ∈ K) :
    Run K s (heedWarning (announceBoundary true (clearCorrectionMarks (ageRows (endListen t))))) := by
  have hlisten := h.trans (run_endListen t hr List.mem_cons_self)
  have hages := (hlisten.trans (run_ageRows _)).trans (run_clearCorrectionMarks _)
  refine (run_announceBoundary true hages (hp.imp_left fun hring => ?_)).trans (run_heedWarning _)
  exact ringOk_clearCorrectionMarks (foldl_keeps State.RingOk _ (fun _ i ht => ringOk_ageRow ht i) _
    (ringOk_endListen hring))

theorem run_beginCycle {s : State} (drive : Bool) (hr : s.running = true) (hp : s.RingOk ∨ .placing ∈ K) :
    Run K s (beginCycle drive s) :=
  run_cycleWork (.cadence s _ List.mem_cons_self) hr (hp.imp_left fun (h : s.RingOk) => ringOk_other h rfl rfl rfl)

section Cadence
variable {s : State}

theorem run_takePhaseBoundary (hp : s.RingOk ∨ .placing ∈ K) : Run K s (takePhaseBoundary s) := by
  unfold takePhaseBoundary
  split
  · exact run_announceBoundary false (.cadence s _ List.mem_cons_self) (hp.imp_left fun (h : s.RingOk) => ringOk_other h rfl rfl rfl)
  · exact .refl K s

theorem run_takeCycleEnd (hp : s.RingOk ∨ .placing ∈ K) : Run K s (takeCycleEnd s) := by
  unfold takeCycleEnd
  split
  · rename_i h
    simp only [State.phaseEnded, Bool.and_eq_true] at h
    exact run_beginCycle true h.1.1 hp
  · exact .refl K s

theorem run_takeMark (hp : s.RingOk ∨ .placing ∈ K) : Run K s (takeMark s) := by
  have hseen : Run K s { s with cadence := { s.cadence with markSeen := false } } := .blocks rfl (.inl le_rfl)
  unfold takeMark
  split
  · rename_i h
    simp only [Bool.and_eq_true] at h
    dsimp only
    split
    · exact hseen.trans (run_beginCycle false h.1 (hp.imp_left fun (h : s.RingOk) => ringOk_other h rfl rfl rfl))
    · exact hseen
  · exact .refl K s

theorem run_takeOnPortion : Run K s (takeOnPortion s) := by
  unfold takeOnPortion
  split
  · exact .recompose (.refl _ s)
  · exact .refl K s

end Cadence

/-! ### The record store -/

theorem run_takeLineDoubleBit (l : Line) (u c : LineWords) (s : State) : Run K s (takeLineDoubleBit l u c s) := by
  unfold takeLineDoubleBit
  dsimp only
  split
  · refine Run.trans ?_ (.lost _ l _)
    split
    · exact run_reportCorrection l s
    · exact .refl K s
  · exact .refl K s

theorem run_goSilent (s : State) : Run K s (goSilent s) := .silent s s.station.conflicts fun h => h.2.2.2.1

theorem run_compareStraps (s : State) : Run K s (compareStraps s) := by
  unfold compareStraps
  split
  · split
    · exact .refl K s
    · exact run_goSilent s
  · exact .refl K s

theorem run_correctStationRecord (s : State) : Run K s (correctStationRecord s) := by
  unfold correctStationRecord
  exact (Run.report s _).trans (run_compareStraps _)

theorem run_rebuildStation (bad : Bool) (e : CircuitWordErrors) (s : State) (hK : .start ∈ K) (hr : .reset ∈ K)
    (hm : .memory ∈ K) : Run K s (rebuildStation bad e s) := by
  unfold rebuildStation
  split
  · split
    · exact .found s ‹_› hm
    · exact run_stationReset e s hK hr
  · split
    · exact .refl K s
    · exact run_stationReset e s hK hr

theorem run_stationMemoryFault (bad : Bool) (e : CircuitWordErrors) (s : State) (hK : .start ∈ K) (hr : .reset ∈ K)
    (hm : .memory ∈ K) : Run K s (stationMemoryFault bad e s) := by
  have hrepair : Run K s (repairStraps s) := .straps s _ _ s.freeDraws hm
  unfold stationMemoryFault
  split
  · exact run_goSilent s
  · exact hrepair.trans (run_rebuildStation bad e _ hK hr hm)

theorem run_takeStationDoubleBit (u c : StationWords) (e : CircuitWordErrors) (s : State) (hK : .start ∈ K)
    (hr : .reset ∈ K) (hm : .memory ∈ K) : Run K s (takeStationDoubleBit u c e s) := by
  unfold takeStationDoubleBit
  split
  · have hread : Run K s (s.readStraps u) := .straps s _ _ _ hm
    refine hread.trans (Run.trans ?_ (run_stationMemoryFault _ e _ hK hr hm))
    split
    · exact run_correctStationRecord _
    · exact .refl K _
  · exact .refl K s

end Sys2Proof.Machine
end

section
/-! PROOFS. Every row of the table and every bit time of the bus is a run, with the licences of the row. -/

namespace Sys2Proof.Machine

variable {K : List Licence}

/-! ### One bit time -/

theorem run_decideCommand (s : State) : Run K s s.decideCommand := by
  unfold State.decideCommand
  split
  · exact run_setBus s _
  · exact .refl K s

theorem run_assembleBit (v : Bool) (s : State) : Run K s (assembleBit v s) := by
  unfold assembleBit
  split
  · split
    · split
      · exact run_setBus s _
      · exact run_becomeIdle s
    · exact run_setBus s _
  · exact run_beginIfReady s
  · split
    · exact (run_setBus s _).trans (run_decideCommand _)
    · exact run_endFrame s false

theorem run_readBack (v : Bool) (s : State) : Run K s (readBack v s) := by
  unfold readBack
  split
  · split
    · exact run_setBus s _
    · split
      · exact run_loseContest s
      · exact run_abandonOnMismatch s
  · exact .refl K s

theorem run_beginOnDominant (w : WireInput) (s : State) : Run K s (beginOnDominant w s) := by
  unfold beginOnDominant
  split
  · exact run_takeStartBit s
  · exact .refl K s

/-! ### The tick -/

/-- What is due at a tick is taken as its rows take it, a restart among it. -/
theorem run_settleDue {s : State} (hp : s.RingOk ∨ .placing ∈ K) (hK : .start ∈ K) : Run K s (settleDue s) := by
  have hlines := run_foldl (K := K) (fun t (l : Line) => whenRunning (handDue l) t)
    (fun t l => run_whenRunning t fun t => run_handDue l t) (List.finRange 16) s
  have hplines := hp.imp_left fun h : s.RingOk => foldl_keeps State.RingOk
    (fun t (l : Line) => whenRunning (handDue l) t)
    (fun t l ht => ringOk_whenRunning ht _ fun t h => (linePath_handDue l t).ringOk h) (List.finRange 16) h
  unfold settleDue
  dsimp only
  generalize (List.finRange 16).foldl (fun t (l : Line) => whenRunning (handDue l) t) s = s1 at hlines hplines ⊢
  have hcircuits := run_foldl (K := K) (fun t (c : CircuitNo) => settleCircuit c t) (fun t c => run_settleCircuit c t)
    (List.finRange 18) s1
  have hpcircuits := hplines.imp_left fun h : s1.RingOk => foldl_keeps State.RingOk
    (fun t (c : CircuitNo) => settleCircuit c t) (fun t c ht => ringOk_settleCircuit ht c) (List.finRange 18) h
  generalize (List.finRange 18).foldl (fun t (c : CircuitNo) => settleCircuit c t) s1 = s2 at hcircuits hpcircuits ⊢
  have hp3 := hpcircuits.imp_left fun h : s2.RingOk => ringOk_takeOnPortion (ringOk_takeReducedChange h)
  have hp4 := hp3.imp_left ringOk_takePhaseBoundary
  have hp5 := hp4.imp_left ringOk_takeCycleEnd
  have hcadence := (((((run_takeReducedChange s2).trans (run_takeOnPortion (K := K))).trans
    (run_takePhaseBoundary hp3)).trans (run_takeCycleEnd hp4)).trans (run_takeMark hp5))
  exact (hlines.trans hcircuits).trans (hcadence.trans
    (((run_takeWarningNegated _).trans (run_takeWarning _)).trans (run_takeRestart _ _ hK)))

theorem run_advanceTick {s : State} (i : Samples) (hp : s.RingOk ∨ .placing ∈ K) (hK : .start ∈ K) (hs : .scan ∈ K) :
    Run K s (advanceTick i (settleDue s)).sendIfIdle :=
  ((run_settleDue hp hK).trans (.scan _ i hs)).trans (run_sendIfIdle _)

/-! ### The rows -/

/-- What a row is licensed to do beyond the moves that every row may make. -/
@[simp] def licences : Instr → List Licence
  | .powerOnReset _ => [.start, .reset, .memory, .power]
  | .supplyRestart _ => [.start]
  | .stationReset _ _ => [.start, .reset]
  | .stationRecordDoubleBitError _ _ _ => [.start, .reset, .memory]
  | .tick _ => [.start, .scan]
  | _ => []

/-- A run that ends with the frame that it leaves ready on an idle bus. -/
theorem Run.send {s t : State} (h : Run K s t) : Run K s t.sendIfIdle := h.trans (run_sendIfIdle t)

/-- Every row goes on to a state, by a run. -/
theorem exec_run (i : Instr) {s : State} (hi : ∀ x ∈ licences i, x ∈ K) (hp : s.RingOk ∨ .placing ∈ K) :
    ∃ t, exec i s = .next t ∧ Run K s t := by
  have hpeer : ∀ (st : StationNo) (f : PeerRow → PeerRow), (∀ r, r.Ok → (f r).Ok) →
      Run K s (receiveFrame st (updateRow st f) s) := fun st f hf =>
    run_receiveFrame s st _ fun t => run_updateRow t st f hf
  cases i with
  | powerOnReset pins =>
    exact ⟨_, rfl, run_powerOn pins s (hi _ (by simp)) (hi _ (by simp)) (hi _ (by simp)) (hi _ (by simp))⟩
  | supplyRestart e => exact ⟨_, rfl, run_takeRestart e s (hi _ (by simp))⟩
  | supplyWarning => exact ⟨_, rfl, (run_takeWarning s).send⟩
  | warningNegated => exact ⟨_, rfl, run_takeWarningNegated s⟩
  | ring h p1 p2 => exact ⟨_, rfl, run_ringCommand h _ p1 p2 hp⟩
  | stopRing h => exact ⟨_, rfl, run_lineCommand s h _ _ run_stopRingLine⟩
  | connect h => exact ⟨_, rfl, run_lineCommand s h _ _ run_connectLine⟩
  | releaseLine h => exact ⟨_, rfl, run_lineCommand s h _ _ run_releaseLine⟩
  | tone h v => exact ⟨_, rfl, run_lineCommand s h _ _ fun l t => run_toneLine l t _⟩
  | blockPolite h => exact ⟨_, rfl, run_lineCommand s h _ _ run_blockPoliteLine⟩
  | blockForced h form =>
    refine ⟨_, rfl, run_lineCommand s h _ _ fun l t => ?_⟩
    split
    · exact run_blockPoliteLine l t
    · exact run_blockForcedLine l t
  | unblock h => exact ⟨_, rfl, run_lineCommand s h _ _ run_unblockLine⟩
  | remap h target => exact ⟨_, rfl, run_lineCommand s h _ _ fun l t => run_remapLine l t target⟩
  | watch h v => exact ⟨_, rfl, run_lineCommand s h _ _ fun l t => run_watchLine l t v⟩
  | queryLine h => exact ⟨_, rfl, run_lineCommand s h _ _ run_queueLineState⟩
  | queryStation h => exact ⟨_, rfl, run_stationCommand s h _ _ fun t => .report t _⟩
  | queryTable h => exact ⟨_, rfl, run_stationCommand s h _ _ fun t => .report t _⟩
  | start h => exact ⟨_, rfl, run_stationCommand s h _ _ run_startStation⟩
  | stationReset h e =>
    exact ⟨_, rfl, run_stationCommand s h _ _ fun t => run_stationReset e t (hi _ (by simp)) (hi _ (by simp))⟩
  | unknownCommand h code =>
    refine ⟨_, rfl, ?_⟩
    split
    · exact .refl K s
    · exact run_receiveCommand s h _ _ id (.refl K _)
  | peerClaim st l w set => exact ⟨_, rfl, hpeer st _ fun r hr => ok_claimed w.val set hr⟩
  | peerRelease st l w set => exact ⟨_, rfl, hpeer st _ fun r hr => ok_released w.val set hr⟩
  | peerSummary st cells => exact ⟨_, rfl, hpeer st _ fun r _ => ok_summarised cells r⟩
  | peerWithdraw st => exact ⟨_, rfl, hpeer st _ fun _ _ => ok_absent⟩
  | peerReport st code number values =>
    refine ⟨_, rfl, ?_⟩
    split
    · exact hpeer st _ fun r hr => ok_reported hr
    · exact run_discardFrame s
  | ownNumberFrame kind => exact ⟨_, rfl, run_receiveFrame s s.own id fun t => .refl K t⟩
  | frameDiscard octets framing =>
    refine ⟨_, rfl, ?_⟩
    split
    · exact run_discardFrame s
    · exact .refl K s
  | busIdle => exact ⟨_, rfl, run_becomeIdle s⟩
  | contestLost => exact ⟨_, rfl, run_loseContest s⟩
  | readBackMismatch => exact ⟨_, rfl, run_abandonOnMismatch s⟩
  | ownClaimCompletes => exact ⟨_, rfl, run_completeOwn s _ _ run_claimCompleted⟩
  | ownReleaseCompletes => exact ⟨_, rfl, run_completeOwn s _ _ fun t => run_setRingUnit t _⟩
  | ownReportCompletes => exact ⟨_, rfl, run_completeOwn s _ _ run_reportSent⟩
  | ownSummaryCompletes => exact ⟨_, rfl, run_completeOwn s _ _ fun t => run_setBus t _⟩
  | ownWithdrawCompletes => exact ⟨_, rfl, run_completeOwn s _ _ fun t => run_setBus t _⟩
  | onHookEdge c => exact ⟨_, rfl, (run_takeOnHookEdge c s).send⟩
  | offHookEdge c => exact ⟨_, rfl, (run_takeOffHookEdge c s).send⟩
  | settle c => exact ⟨_, rfl, (run_takeSettleNotice c s).send⟩
  | faultAssertedEdge c => exact ⟨_, rfl, (run_takeFaultAsserted c s).send⟩
  | faultNormalEdge c => exact ⟨_, rfl, run_takeFaultNormal c s⟩
  | clearReached l =>
    exact ⟨_, rfl, (run_handed s (linePath_handClearReached l) fun _ => handClearReached_of_fault).send⟩
  | seizeConfirmed l => exact ⟨_, rfl, (run_whenRunning s (run_handSeizeConfirmed l)).send⟩
  | tripConfirmed l => exact ⟨_, rfl, (run_whenRunning s (run_handTripConfirmed l)).send⟩
  | digitEnd l => exact ⟨_, rfl, (run_handed s (linePath_handDigitEnd l) fun _ => handDigitEnd_of_fault).send⟩
  | interdigitTimeout l =>
    exact ⟨_, rfl, (run_handed s (linePath_handInterdigitTimeout l) fun _ => handInterdigitTimeout_of_fault).send⟩
  | dialToneTimeout l =>
    exact ⟨_, rfl, (run_handed s (linePath_handDialToneTimeout l) fun _ => handDialToneTimeout_of_fault).send⟩
  | recallTimeout l =>
    exact ⟨_, rfl, (run_handed s (linePath_handRecallTimeout l) fun _ => handRecallTimeout_of_fault).send⟩
  | phaseBoundary => exact ⟨_, rfl, (run_takePhaseBoundary hp).send⟩
  | cycleStart => exact ⟨_, rfl, (run_takeCycleEnd hp).send⟩
  | mark => exact ⟨_, rfl, (run_takeMark hp).send⟩
  | onPortionBoundary => exact ⟨_, rfl, run_takeOnPortion⟩
  | reducedRingPowerChange => exact ⟨_, rfl, run_takeReducedChange s⟩
  | lineRecordCorrection l w =>
    refine ⟨_, rfl, Run.send ?_⟩
    split
    · exact run_correctLineRecord l s
    · exact .refl K s
  | lineRecordDoubleBitError l u w => exact ⟨_, rfl, (run_takeLineDoubleBit l u w s).send⟩
  | stationRecordCorrection w =>
    refine ⟨_, rfl, Run.send ?_⟩
    split
    · exact run_correctStationRecord s
    · exact .refl K s
  | stationRecordDoubleBitError u w e =>
    exact ⟨_, rfl, (run_takeStationDoubleBit u w e s (hi _ (by simp)) (hi _ (by simp)) (hi _ (by simp))).send⟩
  | tick x => exact ⟨_, rfl, run_advanceTick x hp (hi _ (by simp)) (hi _ (by simp))⟩
  | startBit => exact ⟨_, rfl, run_takeStartBit s⟩

/-- The state that a row leaves is reached by a run. -/
theorem run_of_exec {i : Instr} {s t : State} (h : exec i s = .next t) (hi : ∀ x ∈ licences i, x ∈ K)
    (hp : s.RingOk ∨ .placing ∈ K) : Run K s t := by
  obtain ⟨u, hu, hrun⟩ := exec_run i hi hp
  rw [h] at hu
  cases hu
  exact hrun

/-- The licences of the rows, placing apart. -/
def rowLicences : List Licence := [.start, .reset, .memory, .power, .scan]

theorem licences_subset (i : Instr) : ∀ x ∈ licences i, x ∈ rowLicences := by
  unfold licences
  split <;> decide

/-- Every step is a run from the state with the command or the bit time taken. -/
theorem run_step {s t : State} (h : step s = .next t) (hi : ∀ x ∈ rowLicences, x ∈ K) (hp : s.RingOk ∨ .placing ∈ K) :
    ∃ w p, Run K { s with wire := w, pending := p } t := by
  unfold step at h
  split at h
  · refine ⟨s.wire.tail, s.pending, ?_⟩
    have hbegin := run_beginOnDominant (K := K) (s.wire.headD .released) { s with wire := s.wire.tail }
    have htaken : ({ s with wire := s.wire.tail } : State).RingOk ∨ .placing ∈ K :=
      hp.imp_left fun h : s.RingOk => ringOk_other h rfl rfl rfl
    have hring := htaken.imp_left fun h => ringOk_beginOnDominant h (s.wire.headD .released)
    unfold bitTime at h
    split at h
    · exact hbegin.trans (run_of_exec h (fun x hx => hi x (licences_subset _ x hx)) hring)
    · cases h
      exact hbegin.trans ((run_readBack _ _).trans (run_assembleBit _ _))
  · rename_i c rest _
    exact ⟨s.wire, rest, run_of_exec h (fun x hx => hi x (licences_subset c x hx))
      (hp.imp_left fun h : s.RingOk => ringOk_other h rfl rfl rfl)⟩

end Sys2Proof.Machine
end

section
/-! PROOFS. What every run keeps: the Circuit Map (R11), the report queue (R162, R163), alarm and counts (R148, R173), the
table's bounds (R86, R96, R99). -/

namespace Sys2Proof.Machine

variable {K : List Licence}

/-! ### What the moves of the lines leave -/

/-- What work on lines leaves: all but the lines, the circuits, the Ring Placement Unit, the own row and the report queue. -/
def LineWork (s t : State) : Prop :=
  t = { s with
    lines := t.lines, circuits := t.circuits, ringUnit := t.ringUnit, reports := t.reports
    table := { s.table with ownRow := t.table.ownRow } }

theorem LineWork.trans {s t u : State} (h : LineWork s t) (k : LineWork t u) : LineWork s u := by
  unfold LineWork at *
  rw [k, h]

theorem OnlyReports.lineWork {s t : State} (h : OnlyReports s t) : LineWork s t := by
  unfold LineWork
  rw [h.eq]

theorem LinePath.lineWork {l : Line} {s t : State} (h : LinePath l s t) : LineWork s t := h.lineMove.eq

theorem lineWork_setLine (s : State) (l : Line) (r : LineRecord) : LineWork s (s.setLine l r) := rfl

theorem lineWork_enterState (l : Line) (new : LineState) (s : State) : LineWork s (enterState l new s) := by
  unfold LineWork
  rw [enterState_eq]

theorem lineWork_recomposeLeft (s : State) (c : Option CircuitNo) : LineWork s (s.recomposeLeft c) := by
  cases c <;> rfl

@[simp] theorem recomposeLeft_line (s : State) (c : Option CircuitNo) (m : Line) :
    (s.recomposeLeft c).line m = s.line m := by
  cases c <;> rfl

@[simp] theorem recomposeLeft_reports (s : State) (c : Option CircuitNo) : (s.recomposeLeft c).reports = s.reports := by
  cases c <;> rfl

/-- A REMAP writes the record, takes the line to BLOCKED, and composes the circuit left (R16). -/
theorem remap_path (c : CircuitNo) (l : Line) (s : State) : ∃ t,
    LinePath l (s.setLine l { s.line l with circuit := some c, timing := Timing.fresh, ring := none }) t
      ∧ moveToCircuit c l s = t.recomposeLeft (s.line l).circuit := by
  refine ⟨_, linePath_transition _ _ _ _ (fun t => ?_) rfl, rfl⟩
  split
  · exact linePath_queueLine ..
  · exact linePath_queueLineState ..

/-- The notice of a memory fault changes the Ring Placement Unit and the own row alone (R124, R169). -/
theorem memoryRingLeave_eq (l : Line) (u : LineWords) (s : State) : memoryRingLeave l u s = { s with
    ringUnit := (memoryRingLeave l u s).ringUnit
    table := { s.table with ownRow := (memoryRingLeave l u s).table.ownRow } } := by
  unfold memoryRingLeave
  dsimp only
  split
  · unfold State.ringLeaveBlind State.leaveExcess State.leaveClaim
    repeat' split
    all_goals rfl
  split
  · rw [ringLeave_eq]
  · rfl

/-- A memory fault hands its notice, rewrites the record, reports, and composes the circuit lost (R14, R169, R170). -/
theorem lost_path (l : Line) (u : LineWords) (s : State) : ∃ v t : State,
    v = { s with ringUnit := v.ringUnit, table := { s.table with ownRow := v.table.ownRow } }
      ∧ LinePath l (v.setLine l ((s.line l).rewritten u)) t ∧ OnlyReports (v.setLine l ((s.line l).rewritten u)) t
      ∧ lineMemoryFault l u s = t.recomposeLeft (s.line l).circuit := by
  have hlost : ∀ (t : State) (c : Option CircuitNo), t.recomposeLost c = t.recomposeLeft c := fun t c => by
    cases c <;> rfl
  unfold lineMemoryFault
  dsimp only
  split
  · exact ⟨s, _, rfl, .refl _, .refl _, hlost _ _⟩
  · exact ⟨memoryRingLeave l u s, _, memoryRingLeave_eq l u s,
      (linePath_queueLine ..).trans (linePath_traceChange ..),
      (onlyReports_queueLine ..).trans (onlyReports_traceChange ..), hlost _ _⟩

/-! ### The Circuit Map (R11) -/

/-- Where every circuit field stands, and a line without a circuit stays in FAULT, the map stands. -/
theorem State.MapOk.congr {s t : State} (h : s.MapOk) (hc : ∀ l, (t.line l).circuit = (s.line l).circuit)
    (hf : ∀ l, (s.line l).state = .fault → (s.line l).circuit = none → (t.line l).state = .fault) : t.MapOk := by
  obtain ⟨hone, hnone⟩ := h
  refine ⟨fun l m c hl hm => hone l m c ?_ ?_, fun l hl => ?_⟩
  · rwa [← hc]
  · rwa [← hc]
  · rw [hc] at hl
    exact hf l (hnone l hl) hl

theorem owner_eq_none_iff {s : State} {c : CircuitNo} : s.owner c = none ↔ ∀ l, (s.line l).circuit ≠ some c := by
  simp [State.owner, List.find?_eq_none]

/-- A path of one line keeps the circuit fields, and the states of the other lines. -/
theorem LineMove.fields {l : Line} {s t : State} (h : LineMove l s t) (m : Line) :
    (t.line m).circuit = (s.line m).circuit ∧ (m ≠ l → (t.line m).state = (s.line m).state) := by
  by_cases hm : m = l
  · subst hm
    exact ⟨h.circuit, fun hne => absurd rfl hne⟩
  · have := (h.lines m hm).fields
    exact ⟨by rw [h.lines m hm], fun _ => by rw [h.lines m hm]⟩

theorem mapOk_remap {s : State} (h : s.MapOk) {c : CircuitNo} (hfree : s.owner c = none) (l : Line) :
    (moveToCircuit c l s).MapOk := by
  obtain ⟨t, hpath, heq⟩ := remap_path c l s
  have hcircuit : ∀ m, ((moveToCircuit c l s).line m).circuit = if m = l then some c else (s.line m).circuit := fun m => by
    rw [heq, recomposeLeft_line, (hpath.lineMove.fields m).1, State.line_setLine]
    split <;> rfl
  have hstate : ∀ m, m ≠ l → ((moveToCircuit c l s).line m).state = (s.line m).state := fun m hm => by
    rw [heq, recomposeLeft_line, (hpath.lineMove.fields m).2 hm, State.line_setLine_ne _ hm]
  obtain ⟨hone, hnone⟩ := h
  have hfree := owner_eq_none_iff.1 hfree
  refine ⟨fun m n d hm hn => ?_, fun m hm => ?_⟩
  · rw [hcircuit] at hm hn
    by_cases h1 : m = l <;> by_cases h2 : n = l
    · rw [h1, h2]
    · rw [if_pos h1] at hm; rw [if_neg h2, ← hm] at hn; exact absurd hn (hfree n)
    · rw [if_neg h1] at hm; rw [if_pos h2] at hn; rw [← hn] at hm; exact absurd hm (hfree m)
    · rw [if_neg h1] at hm; rw [if_neg h2] at hn; exact hone m n d hm hn
  · rw [hcircuit] at hm
    split at hm
    · cases hm
    · rename_i hml
      rw [hstate m hml, hnone m hm]

theorem mapOk_lost {s : State} (h : s.MapOk) (l : Line) (u : LineWords) : (lineMemoryFault l u s).MapOk := by
  obtain ⟨v, t, hv, -, honly, heq⟩ := lost_path l u s
  have hline : ∀ m, SameButResync (if m = l then (s.line l).rewritten u else s.line m) ((lineMemoryFault l u s).line m) :=
    fun m => by
      have hm := honly.lines m
      rwa [State.line_setLine, State.line_congr (t := v) (s := s) (by rw [hv]), ← recomposeLeft_line t, ← heq] at hm
  have hself : ((lineMemoryFault l u s).line l).circuit = none ∧ ((lineMemoryFault l u s).line l).state = .fault := by
    have := hline l
    rw [if_pos rfl] at this
    rw [this]
    exact ⟨rfl, rfl⟩
  have hother : ∀ m, m ≠ l → ((lineMemoryFault l u s).line m).circuit = (s.line m).circuit
      ∧ ((lineMemoryFault l u s).line m).state = (s.line m).state := fun m hm => by
    have := hline m
    rw [if_neg hm] at this
    rw [this]
    exact ⟨rfl, rfl⟩
  obtain ⟨hone, hnone⟩ := h
  refine ⟨fun m n d hm hn => ?_, fun m hm => ?_⟩
  · have hml : m ≠ l := by rintro rfl; rw [hself.1] at hm; cases hm
    have hnl : n ≠ l := by rintro rfl; rw [hself.1] at hn; cases hn
    rw [(hother m hml).1] at hm
    rw [(hother n hnl).1] at hn
    exact hone m n d hm hn
  · by_cases hml : m = l
    · rw [hml, hself.2]
    · rw [(hother m hml).1] at hm
      rw [(hother m hml).2, hnone m hm]

theorem advanceTick_line (i : Samples) (s : State) (l : Line) :
    (advanceTick i s).line l = { s.line l with
      timing := if s.running then (s.line l).timing.advanced s.profile (s.line l).state else (s.line l).timing } := by
  unfold advanceTick
  dsimp only
  split
  · simp [State.line, advanceBlocks]
  · rfl

/-- Every run that places queued lines alone keeps the Circuit Map. -/
theorem Run.mapOk {s t : State} (h : Run K s t) (hK : .placing ∉ K) (hs : s.MapOk) : t.MapOk := by
  induction h with
  | refl | queue | filters | peer | down | silent | cadence | state | straps => exact hs
  | blocks h =>
    have hline := fun m => State.line_congr (congrArg State.lines h) m
    exact hs.congr (fun m => by rw [hline]; rfl) fun m hm _ => by rw [hline]; exact hm
  | trans _ _ ih1 ih2 => exact ih2 hK (ih1 hK hs)
  | line h hf =>
    refine hs.congr (fun m => (h.lineMove.fields m).1) fun m hm hn => ?_
    rename_i l _ _
    by_cases hml : m = l
    · subst hml; exact hf hm hn
    · rw [(h.lineMove.fields m).2 hml, hm]
  | enter s l new ring hf =>
    refine hs.congr (fun m => ?_) fun m hm hn => ?_
    · by_cases hml : m = l
      · subst hml; simp [LineRecord.entering]
      · rw [enterState_line, if_neg hml, State.line_setLine_ne _ hml]
    · have hml : m ≠ l := by rintro rfl; exact hK (hf hm hn)
      rw [enterState_line, if_neg hml, State.line_setLine_ne _ hml, hm]
  | report s e =>
    exact hs.congr (fun m => by rw [(onlyReports_queueReport s e).lines m])
      fun m hm _ => by rw [(onlyReports_queueReport s e).lines m]; exact hm
  | records _ hl => exact hs.congr (fun m => (hl m).1) fun m hm _ => by rw [(hl m).2.1, hm]
  | recompose _ ih => exact ih (by simpa using hK) hs
  | remap s l c hfree => exact mapOk_remap hs hfree l
  | lost s l u => exact mapOk_lost hs l u
  | found => exact hs
  | start s e next withdraw base circuitOf markOf _ _ _ _ hm =>
    refine ⟨fun l m c hl hm' => hm hs l m c ?_ ?_, fun l hl => ?_⟩
    · rwa [start_line] at hl
    · rwa [start_line] at hm'
    · rw [start_line] at hl ⊢
      have hnone : circuitOf l = none := hl
      rw [hnone]; rfl
  | scan s i =>
    exact hs.congr (fun m => by rw [advanceTick_line]) fun m hm _ => by rw [advanceTick_line]; exact hm

/-! ### The report queue (R162, R163) -/

theorem LinePath.reportsOk {l : Line} {s t : State} (h : LinePath l s t) (hs : s.ReportsOk) : t.ReportsOk := by
  induction h with
  | refl => exact hs
  | report s e => exact queueReport_reportsOk hs e
  | edit => exact hs
  | tone s t => exact hs.congr (by simp only [setTone]; rw [recomposeLine_eq]; rfl)
  | enter s new => exact hs.congr (by simp)
  | trans _ _ ih1 ih2 => exact ih2 (ih1 hs)

theorem reportsOk_startLines {s : State} (hs : s.ReportsOk) (e : CircuitWordErrors) : (startLines e s).ReportsOk := by
  have hfold := foldl_keeps State.ReportsOk (fun t l => startFault l (startCorrection e l t))
    (fun t l ht => ((linePath_startCorrection e l t).trans (linePath_startFault l _)).reportsOk ht) (List.finRange 16) hs
  exact hfold.congr rfl

/-- Every run keeps the report queue in order. -/
theorem Run.reportsOk {s t : State} (h : Run K s t) (hs : s.ReportsOk) : t.ReportsOk := by
  induction h with
  | refl | filters | peer | cadence | state | straps | found => exact hs
  | trans _ _ ih1 ih2 => exact ih2 (ih1 hs)
  | line h => exact h.reportsOk hs
  | enter => exact hs.congr (by simp)
  | queue s q h => exact h hs
  | report s e => exact queueReport_reportsOk hs e
  | records h | blocks h => exact hs.congr (by rw [h])
  | down | silent => exact reportsOk_mapMarks hs fun _ => ⟨rfl, rfl, rfl⟩
  | recompose _ ih => exact ih hs
  | remap s l c =>
    obtain ⟨t, hpath, heq⟩ := remap_path c l s
    exact (hpath.reportsOk (s := s.setLine l _) hs).congr (by rw [heq, recomposeLeft_reports])
  | lost s l u =>
    obtain ⟨v, t, hv, hpath, -, heq⟩ := lost_path l u s
    refine (hpath.reportsOk (hs.congr ?_)).congr (by rw [heq, recomposeLeft_reports])
    rw [hv]; rfl
  | start => exact reportsOk_startLines ⟨by simp [startBlocks], by simp [startBlocks], by simp [startBlocks]⟩ _
  | scan s i => exact hs.congr (by unfold advanceTick; dsimp only; split <;> rfl)

/-! ### Alarm, restart count and conflict count (R148, R173) -/

theorem advanceTick_station (i : Samples) (s : State) : (advanceTick i s).station = s.station := by
  unfold advanceTick
  dsimp only
  split <;> rfl

theorem advanceTick_control (i : Samples) (s : State) :
    (advanceTick i s).control = s.control.advanced i.warning (s.station.state = .down) := by
  unfold advanceTick
  dsimp only
  split <;> rfl

theorem State.ControlOk.congr {s t : State} (h : s.ControlOk) (hs : t.station = s.station) (hc : t.control = s.control) :
    t.ControlOk := by
  unfold State.ControlOk
  rw [hs, hc]
  exact h

theorem LineWork.controlOk {s t : State} (h : LineWork s t) (hs : s.ControlOk) : t.ControlOk :=
  hs.congr (by rw [h]) (by rw [h])

theorem lineWork_remap (c : CircuitNo) (l : Line) (s : State) : LineWork s (moveToCircuit c l s) := by
  obtain ⟨t, hpath, heq⟩ := remap_path c l s
  rw [heq]
  exact ((lineWork_setLine s l _).trans hpath.lineWork).trans (lineWork_recomposeLeft ..)

theorem lineWork_lost (l : Line) (u : LineWords) (s : State) : LineWork s (lineMemoryFault l u s) := by
  obtain ⟨v, t, hv, hpath, -, heq⟩ := lost_path l u s
  have hunit : LineWork s v := by unfold LineWork; rw [hv]
  rw [heq]
  exact ((hunit.trans (lineWork_setLine v l _)).trans hpath.lineWork).trans (lineWork_recomposeLeft ..)

/-- Every run keeps the alarm, the restart count and the conflict count as the station state has them. -/
theorem Run.controlOk {s t : State} (h : Run K s t) (hs : s.ControlOk) : t.ControlOk := by
  induction h with
  | refl | queue | filters | peer | cadence | straps => exact hs
  | trans _ _ ih1 ih2 => exact ih2 (ih1 hs)
  | line h => exact h.lineWork.controlOk hs
  | enter s l new ring => exact ((lineWork_setLine s l _).trans (lineWork_enterState ..)).controlOk hs
  | report s e => exact (onlyReports_queueReport s e).lineWork.controlOk hs
  | records h => exact hs.congr (by rw [h]) (by rw [h])
  | remap s l c => exact (lineWork_remap c l s).controlOk hs
  | lost s l u => exact (lineWork_lost l u s).controlOk hs
  | recompose _ ih => exact ih hs
  | blocks h hc =>
    rename_i s t
    obtain ⟨halarm, hcount, hmax, hconflicts, hfew⟩ := hs
    rw [h]
    refine ⟨halarm, hcount, hmax, ?_, fun hst => ?_⟩
    · show t.station.conflicts ≤ 3
      omega
    · have := hfew hst
      show t.station.conflicts < 3
      omega
  | down s hst =>
    obtain ⟨halarm, hcount, hmax, hconflicts, hfew⟩ := hs
    refine ⟨?_, fun _ => rfl, Nat.zero_le _, hconflicts, fun _ => hfew hst⟩
    simpa [hst] using halarm
  | silent s n hn =>
    exact ⟨by simp, fun _ => rfl, Nat.zero_le _, hn hs, fun h => absurd rfl h⟩
  | state s new hst hnew =>
    obtain ⟨halarm, hcount, hmax, hconflicts, hfew⟩ := hs
    have hbefore : s.station.state ≠ .silent ∧ s.station.state ≠ .down := by
      rcases hst with hst | hst
      · rw [hst]; decide
      · rcases running_iff.1 hst with hst | hst <;> rw [hst] <;> decide
    have hafter : new ≠ .silent := by rcases hnew with rfl | rfl <;> decide
    refine ⟨?_, fun _ => hcount hbefore.2, hmax, hconflicts, fun _ => hfew hbefore.1⟩
    simpa [State.setStationState, hafter, hbefore.1] using halarm
  | found s hdown =>
    obtain ⟨halarm, hcount, hmax, hconflicts, hfew⟩ := hs
    have hoff : s.control.alarm = false := by
      simp only [State.foundDown, Bool.and_eq_true, Bool.not_eq_true'] at hdown
      exact hdown.1
    exact ⟨by simp [hoff], fun h => absurd rfl h, hmax, Nat.zero_le _, fun _ => Nat.zero_lt_succ 2⟩
  | start s e next withdraw base circuitOf markOf =>
    unfold State.ControlOk
    rw [start_eq]
    exact ⟨by simp [startBlocks], fun _ => rfl, Nat.zero_le _, Nat.zero_le _, fun _ => Nat.zero_lt_succ 2⟩
  | scan s i =>
    obtain ⟨halarm, hcount, hmax, hconflicts, hfew⟩ := hs
    unfold State.ControlOk
    rw [advanceTick_station, advanceTick_control]
    refine ⟨halarm, fun hst => ?_, ?_, hconflicts, hfew⟩
    · simpa [StationControl.advanced, hst] using hcount hst
    · have hstep : advanceTo 20 s.control.restartCount ≤ 20 := by
        unfold advanceTo
        split <;> omega
      simp only [StationControl.advanced]
      split
      · split
        · exact Nat.zero_le _
        · exact hstep
      · exact hmax

/-! ### The Shelf Load Table (R86, R90, R96, R99) -/

theorem advanceTick_table (i : Samples) (s : State) :
    (advanceTick i s).table.peers = s.table.peers ∧ (advanceTick i s).table.baseBudget = s.table.baseBudget := by
  unfold advanceTick
  dsimp only
  split <;> exact ⟨rfl, rfl⟩

theorem State.TableOk.congr {s t : State} (h : s.TableOk) (hp : t.table.peers = s.table.peers)
    (hb : t.table.baseBudget = s.table.baseBudget) : t.TableOk := by
  unfold State.TableOk
  rw [hp, hb]
  exact h

theorem LineWork.tableOk {s t : State} (h : LineWork s t) (hs : s.TableOk) : t.TableOk :=
  hs.congr (by rw [h]) (by rw [h])

/-- Every run keeps the peer rows and the base budget within their bounds. -/
theorem Run.tableOk {s t : State} (h : Run K s t) (hs : s.TableOk) : t.TableOk := by
  induction h with
  | refl | queue | filters | cadence | straps | down | silent | state | found => exact hs
  | trans _ _ ih1 ih2 => exact ih2 (ih1 hs)
  | line h => exact h.lineWork.tableOk hs
  | enter s l new ring => exact ((lineWork_setLine s l _).trans (lineWork_enterState ..)).tableOk hs
  | report s e => exact (onlyReports_queueReport s e).lineWork.tableOk hs
  | records h | blocks h => exact hs.congr (by rw [h]) (by rw [h])
  | remap s l c => exact (lineWork_remap c l s).tableOk hs
  | lost s l u => exact (lineWork_lost l u s).tableOk hs
  | recompose _ ih => exact ih hs
  | peer s i r h =>
    obtain ⟨hrows, hbudget⟩ := hs
    refine ⟨fun j => ?_, hbudget⟩
    show PeerRow.Ok (s.table.peers.set i r)[j]
    by_cases hj : i = j
    · subst hj
      simpa using h (hrows i)
    · have hset : (s.table.peers.set i r)[j] = s.table.peers[j] := Vector.getElem_set_ne _ _ (by omega)
      rw [hset]
      exact hrows j
  | start s e next withdraw base circuitOf markOf _ _ _ hb =>
    unfold State.TableOk
    rw [start_eq]
    refine ⟨fun i => ?_, ?_⟩
    · show PeerRow.Ok (Vector.replicate 15 PeerRow.absent)[i]
      simpa using ok_absent
    · rcases hb with hb | hb
      · show 16 ≤ base ∧ base ≤ 120
        rw [hb]
        exact hs.2
      · exact hb.2
  | scan s i => exact hs.congr (advanceTick_table i s).1 (advanceTick_table i s).2

/-- Settles O59: a step is a run, and every run keeps the four invariants. -/
theorem stepKeepsMapQueueControlAndTable : Obligations.StepKeepsMapQueueControlAndTable := by
  unfold Obligations.StepKeepsMapQueueControlAndTable
  intro s t h
  refine ⟨fun hring hmap => ?_, fun hs => ?_, fun hs => ?_, fun hs => ?_⟩
  · obtain ⟨w, p, hrun⟩ := run_step (K := rowLicences) h (fun _ hx => hx) (.inl hring)
    exact hrun.mapOk (by decide) hmap
  all_goals
    obtain ⟨w, p, hrun⟩ := run_step (K := .placing :: rowLicences) h (fun _ hx => List.mem_cons_of_mem _ hx)
      (.inr List.mem_cons_self)
  · exact hrun.reportsOk hs
  · exact hrun.controlOk hs
  · exact hrun.tableOk hs

end Sys2Proof.Machine
end

section
/-! PROOFS. What every row keeps: the commands and the wire that wait, straps, base budget and SILENT (R99, R173, R178), the
blanking counts (R3), and the outputs (R1, R2). -/

namespace Sys2Proof.Machine

variable {K : List Licence}

/-! ### The commands and the wire that wait -/

theorem start_waiting (e : CircuitWordErrors) (next : StationState) (withdraw : Bool) (base : Nat)
    (circuitOf : Line → Option CircuitNo) (markOf : CircuitNo → Bool) (s : State) :
    (startLines e (startBlocks next withdraw base circuitOf markOf s)).pending = s.pending
      ∧ (startLines e (startBlocks next withdraw base circuitOf markOf s)).wire = s.wire := by
  rw [start_eq]
  exact ⟨rfl, rfl⟩

theorem LineWork.waiting {s t : State} (h : LineWork s t) : t.pending = s.pending ∧ t.wire = s.wire := by
  rw [h]
  exact ⟨rfl, rfl⟩

/-- A run touches neither the commands that wait nor the wire of the bit times to come. -/
theorem Run.waiting {s t : State} (h : Run K s t) : t.pending = s.pending ∧ t.wire = s.wire := by
  induction h with
  | refl | queue | filters | peer | cadence | straps | down | silent | state | found => exact ⟨rfl, rfl⟩
  | trans _ _ ih1 ih2 => exact ⟨ih2.1.trans ih1.1, ih2.2.trans ih1.2⟩
  | line h => exact h.lineWork.waiting
  | enter s l new ring => exact ((lineWork_setLine s l _).trans (lineWork_enterState ..)).waiting
  | report s e => exact (onlyReports_queueReport s e).lineWork.waiting
  | records h | blocks h => rw [h]; exact ⟨rfl, rfl⟩
  | remap s l c => exact (lineWork_remap c l s).waiting
  | lost s l u => exact (lineWork_lost l u s).waiting
  | recompose _ ih => exact ih
  | start => exact start_waiting ..
  | scan s i => unfold advanceTick; dsimp only; split <;> exact ⟨rfl, rfl⟩

/-- Settles O1: every row goes on by a run, and a run leaves what waits. -/
theorem stepRunsFrontCommand : Obligations.StepRunsFrontCommand := by
  unfold Obligations.StepRunsFrontCommand
  intro c s
  obtain ⟨t, ht, hrun⟩ := exec_run (K := .placing :: rowLicences) (s := s) c
    (fun x hx => List.mem_cons_of_mem _ (licences_subset c x hx)) (.inr List.mem_cons_self)
  exact ⟨rfl, t, ht, hrun.waiting⟩

/-! ### Straps, base budget and SILENT -/

/-- A run without the licence of a power-on reset keeps the base budget (R99). -/
theorem Run.baseBudget {s t : State} (h : Run K s t) (hK : .power ∉ K) : t.table.baseBudget = s.table.baseBudget := by
  induction h with
  | refl | queue | filters | peer | cadence | straps | down | silent | state | found => rfl
  | trans _ _ ih1 ih2 => exact (ih2 hK).trans (ih1 hK)
  | line h => rw [h.lineWork]
  | enter s l new ring => rw [(lineWork_setLine s l _).trans (lineWork_enterState ..)]
  | report s e => rw [(onlyReports_queueReport s e).lineWork]
  | records h | blocks h => rw [h]
  | remap s l c => rw [lineWork_remap c l s]
  | lost s l u => rw [lineWork_lost l u s]
  | recompose _ ih => exact ih (by simpa using hK)
  | start _ _ _ _ _ _ _ _ _ _ hb =>
    rw [start_eq]
    exact hb.elim id fun h => absurd h.1 hK
  | scan s i => exact (advanceTick_table i s).2

/-- The strap copies are the same in both states, and SILENT is not left (R173, R178). -/
def KeepsStraps (keepsSilent : Prop) (s t : State) : Prop :=
  t.station.strap1 = s.station.strap1 ∧ t.station.strap2 = s.station.strap2
    ∧ (keepsSilent → s.station.state = .silent → t.station.state = .silent)

theorem KeepsStraps.of_station {p : Prop} {s t : State} (h : t.station = s.station) : KeepsStraps p s t := by
  unfold KeepsStraps
  rw [h]
  exact ⟨rfl, rfl, fun _ => id⟩

/-- A run without the licence to write the straps keeps them, and without that of a STATION RESET keeps SILENT. -/
theorem Run.keepsStraps {s t : State} (h : Run K s t) (hK : .memory ∉ K) : KeepsStraps (.reset ∉ K) s t := by
  induction h with
  | refl | queue | filters | peer | cadence => exact .of_station rfl
  | trans _ _ ih1 ih2 =>
    obtain ⟨h1, h2, h3⟩ := ih1 hK
    obtain ⟨k1, k2, k3⟩ := ih2 hK
    exact ⟨k1.trans h1, k2.trans h2, fun hr hs => k3 hr (h3 hr hs)⟩
  | line h => exact .of_station (by rw [h.lineWork])
  | enter s l new ring => exact .of_station (by rw [(lineWork_setLine s l _).trans (lineWork_enterState ..)])
  | report s e => exact .of_station (by rw [(onlyReports_queueReport s e).lineWork])
  | records h => exact .of_station (by rw [h])
  | blocks h => rw [h]; exact ⟨rfl, rfl, fun _ => id⟩
  | remap s l c => exact .of_station (by rw [lineWork_remap c l s])
  | lost s l u => exact .of_station (by rw [lineWork_lost l u s])
  | recompose _ ih =>
    obtain ⟨h1, h2, h3⟩ := ih (by simpa using hK)
    exact ⟨h1, h2, fun hr => h3 (by simpa using hr)⟩
  | down s h => exact ⟨rfl, rfl, fun _ hs => absurd hs h⟩
  | silent s n => exact ⟨rfl, rfl, fun _ _ => rfl⟩
  | state s new h =>
    refine ⟨rfl, rfl, fun _ hs => ?_⟩
    rcases h with h | h
    · rw [h] at hs; cases hs
    · rcases running_iff.1 h with h | h <;> rw [h] at hs <;> cases hs
  | straps _ _ _ _ hm | found _ _ hm => exact absurd hm hK
  | start s e next withdraw base circuitOf markOf _ hs =>
    rw [start_eq]
    exact ⟨rfl, rfl, fun hr hst => (hs.elim (absurd hst) fun h => absurd h hr)⟩
  | scan s i => exact .of_station (advanceTick_station i s)

/-- The licences that no row of a list lacks may be given to every row. -/
theorem run_of_row {i : Instr} {s t : State} (h : exec i s = .next t) :
    Run (.placing :: licences i) s t :=
  run_of_exec h (fun _ hx => List.mem_cons_of_mem _ hx) (.inr List.mem_cons_self)

/-- Settles O55: a row other than a power-on reset has no licence to derive the base budget, and the other two rows named
alone have those to write the straps and to leave SILENT. -/
theorem strapsBudgetAndSilentAreKept : Obligations.StrapsBudgetAndSilentAreKept := by
  unfold Obligations.StrapsBudgetAndSilentAreKept
  intro i s t h hpower
  have hrun := run_of_row h
  have hbudget : Licence.power ∉ Licence.placing :: licences i := by
    cases i
    case powerOnReset pins => exact absurd rfl (hpower pins)
    all_goals simp
  refine ⟨hrun.baseBudget hbudget, fun hmemory => ?_⟩
  have hstraps : Licence.memory ∉ Licence.placing :: licences i := by
    cases i
    case powerOnReset pins => exact absurd rfl (hpower pins)
    case stationRecordDoubleBitError u c e => exact absurd rfl (hmemory u c e)
    all_goals simp
  obtain ⟨h1, h2, h3⟩ := hrun.keepsStraps hstraps
  refine ⟨h1, h2, fun hs hreset => h3 ?_ hs⟩
  cases i
  case powerOnReset pins => exact absurd rfl (hpower pins)
  case stationRecordDoubleBitError u c e => exact absurd rfl (hmemory u c e)
  case stationReset hd e => exact absurd rfl (hreset hd e)
  all_goals simp

/-! ### The blanking counts (R3) -/

/-- The blanking count stands at 2, or count and ring relay stand where they stood. -/
def Circuit.Blanks (x y : Circuit) : Prop := y.blanking = 2 ∨ y.blanking = x.blanking ∧ y.ringRelay = x.ringRelay

theorem Circuit.Blanks.refl (x : Circuit) : x.Blanks x := .inr ⟨rfl, rfl⟩

theorem Circuit.Blanks.of_eq {x y : Circuit} (h : y = x) : x.Blanks y := h ▸ .refl x

theorem Circuit.Blanks.trans {x y z : Circuit} (h : x.Blanks y) (k : y.Blanks z) : x.Blanks z := by
  rcases k with k | ⟨k1, k2⟩
  · exact .inl k
  · rcases h with h | ⟨h1, h2⟩
    · exact .inl (k1.trans h)
    · exact .inr ⟨k1.trans h1, k2.trans h2⟩

theorem withOutputs_blanks (x : Circuit) (relay dial special cutOff : Bool) :
    x.Blanks (x.withOutputs relay dial special cutOff) := by
  by_cases h : relay = x.ringRelay
  · exact .inr ⟨by simp [Circuit.withOutputs, h], h⟩
  · exact .inl (by simp [Circuit.withOutputs, h])

theorem composed_blanks (s : State) (c : CircuitNo) : (s.circuit c).Blanks (s.composed c) := by
  unfold State.composed
  dsimp only
  split
  · exact withOutputs_blanks ..
  split
  · exact withOutputs_blanks ..
  split <;> exact withOutputs_blanks ..

theorem recomposeLine_blanks (s : State) (l : Line) (c : CircuitNo) :
    (s.circuit c).Blanks ((s.recomposeLine l).circuit c) := by
  rw [recomposeLine_circuit]
  split
  · exact composed_blanks s c
  · exact .refl _

theorem recomposeLeft_circuit (s : State) (left : Option CircuitNo) (c : CircuitNo) :
    (s.recomposeLeft left).circuit c = if left = some c then s.composed c else s.circuit c := by
  cases left with
  | none => simp [State.recomposeLeft]
  | some d =>
    simp only [State.recomposeLeft, State.recompose_eq, State.circuit_setCircuit, Option.some.injEq, eq_comm (a := c)]
    split
    · rename_i h; rw [h]
    · rfl

theorem recomposeLeft_blanks (s : State) (left : Option CircuitNo) (c : CircuitNo) :
    (s.circuit c).Blanks ((s.recomposeLeft left).circuit c) := by
  rw [recomposeLeft_circuit]
  split
  · exact composed_blanks s c
  · exact .refl _

/-- The circuits as a change of state leaves them: the line's own is composed anew, the others stand. -/
theorem enterState_circuit (l : Line) (new : LineState) (s : State) : ∃ t : State,
    enterState l new s = t.recomposeLine l ∧ t.lines = (s.setLine l ((s.line l).entering new)).lines
      ∧ t.circuits = s.circuits ∧ t.station = s.station ∧ t.cadence = s.cadence := by
  unfold enterState
  dsimp only
  split
  · exact ⟨_, rfl, by rw [ringLeave_eq], by rw [ringLeave_eq]; rfl, by rw [ringLeave_eq]; rfl, by rw [ringLeave_eq]; rfl⟩
  · exact ⟨_, rfl, rfl, rfl, rfl, rfl⟩

theorem enterState_blanks (l : Line) (new : LineState) (s : State) (c : CircuitNo) :
    (s.circuit c).Blanks ((enterState l new s).circuit c) := by
  obtain ⟨t, heq, -, hcircuits, -⟩ := enterState_circuit l new s
  rw [heq, ← State.circuit_congr hcircuits c]
  exact recomposeLine_blanks t l c

theorem LinePath.blanks {l : Line} {s t : State} (h : LinePath l s t) (c : CircuitNo) :
    (s.circuit c).Blanks (t.circuit c) := by
  induction h with
  | refl => exact .refl _
  | report s e => exact .of_eq (State.circuit_congr (by rw [(onlyReports_queueReport s e).eq]) c)
  | edit => exact .refl _
  | tone s t => exact recomposeLine_blanks (s.setLine l { s.line l with tone := t }) l c
  | enter s new => exact enterState_blanks l new s c
  | trans _ _ ih1 ih2 => exact ih1.trans ih2

/-- A run without a start or a scan that leaves a ring relay in another position leaves the blanking count at 2 (R3). -/
theorem Run.blanks {s t : State} (h : Run K s t) (hstart : .start ∉ K) (hscan : .scan ∉ K) (c : CircuitNo) :
    (s.circuit c).Blanks (t.circuit c) := by
  induction h with
  | refl | queue | peer | cadence | straps | state => exact .refl _
  | trans _ _ ih1 ih2 => exact (ih1 hstart hscan).trans (ih2 hstart hscan)
  | line h => exact h.blanks c
  | enter s l new ring => exact enterState_blanks l new (s.setLine l _) c
  | report s e => exact .of_eq (State.circuit_congr (by rw [(onlyReports_queueReport s e).eq]) c)
  | records h | blocks h => exact .of_eq (State.circuit_congr (by rw [h]) c)
  | filters s d x hx =>
    rw [State.circuit_setCircuit]
    split
    · subst d
      simp only [Circuit.outputs, Prod.mk.injEq] at hx
      exact .inr ⟨hx.2, hx.1.1⟩
    · exact .refl _
  | down s => rw [goDown_circuit]; exact withOutputs_blanks ..
  | silent s n => rw [goSilent_circuit]; exact withOutputs_blanks ..
  | remap s l d =>
    obtain ⟨t, hpath, heq⟩ := remap_path d l s
    rw [heq]
    exact (hpath.blanks c).trans (recomposeLeft_blanks ..)
  | lost s l u =>
    obtain ⟨v, t, hv, hpath, -, heq⟩ := lost_path l u s
    have hcircuit : (v.setLine l ((s.line l).rewritten u)).circuit c = s.circuit c := State.circuit_congr (by rw [hv]; rfl) c
    rw [heq, ← hcircuit]
    exact (hpath.blanks c).trans (recomposeLeft_blanks ..)
  | recompose _ ih =>
    rw [State.circuit_recomposeAll]
    exact (ih (by simpa using hstart) (by simpa using hscan)).trans (composed_blanks ..)
  | found s =>
    rw [State.circuit_recomposeAll]
    exact composed_blanks { s with station := { s.station with state := .down, conflicts := 0 } } c
  | start _ _ _ _ _ _ _ hK => exact absurd hK hstart
  | scan _ _ hK => exact absurd hK hscan

/-- Settles O56: the rows named alone have the licences of a start and of a scan. -/
theorem relayChangeStartsBlanking : Obligations.RelayChangeStartsBlanking := by
  unfold Obligations.RelayChangeStartsBlanking
  intro i s t c h htick hpower hrestart hreset hmemory
  have hlicences : licences i = [] := by
    cases i
    case powerOnReset pins => exact absurd rfl (hpower pins)
    case supplyRestart e => exact absurd rfl (hrestart e)
    case stationReset hd e => exact absurd rfl (hreset hd e)
    case stationRecordDoubleBitError u w e => exact absurd rfl (hmemory u w e)
    case tick x => exact absurd rfl (htick x)
    all_goals rfl
  have hrun := run_of_row h
  rw [hlicences] at hrun
  exact hrun.blanks (by decide) (by decide) c

/-! ### The outputs (R1, R2) -/

/-- Two states agree in all that R2 composes the outputs from, one line apart. -/
structure SameDriveBut (l : Line) (s t : State) : Prop where
  station : t.station.state = s.station.state
  line : ∀ m, m ≠ l → (t.line m).circuit = (s.line m).circuit ∧ (t.line m).state = (s.line m).state
    ∧ (t.line m).tone = (s.line m).tone ∧ t.ringDrive m = s.ringDrive m

/-- A circuit that a line maps neither before nor after is composed without it. -/
theorem outputsAt_of_other {l : Line} {s t : State} (h : SameDriveBut l s t) {c : CircuitNo}
    (hs : (s.line l).circuit ≠ some c) (ht : (t.line l).circuit ≠ some c)
    (hc : (t.circuit c).outputs = (s.circuit c).outputs) (hok : s.OutputsAt c) : t.OutputsAt c := by
  have hmaps : ∀ m, decide ((t.line m).circuit = some c) = decide ((s.line m).circuit = some c) := fun m => by
    by_cases hm : m = l
    · rw [hm, decide_eq_false hs, decide_eq_false ht]
    · rw [(h.line m hm).1]
  have howner : t.owner c = s.owner c := by simp only [State.owner, hmaps]
  simp only [Circuit.outputs, Prod.mk.injEq] at hc
  obtain ⟨h1, h2, h3, h4⟩ := hc
  unfold State.OutputsAt State.OutputsOf at hok ⊢
  rw [h1, h2, h3, h4, h.station, howner]
  split
  · rename_i hstop
    rwa [if_pos hstop] at hok
  · rename_i hstop
    rw [if_neg hstop] at hok
    cases hm : s.owner c with
    | none => simpa only [hm] using hok
    | some m =>
      have hne : m ≠ l := by
        rintro rfl
        exact hs (by simpa [State.owner] using List.find?_some hm)
      obtain ⟨-, hstate, htone, hdrive⟩ := h.line m hne
      simp only [hm] at hok ⊢
      rw [hstate, htone, hdrive]
      exact hok

/-- Composing a line's circuit anew puts it right and leaves the others. -/
theorem outputsAt_recomposeLine {s : State} (l : Line) {c : CircuitNo}
    (h : (s.line l).circuit ≠ some c → s.OutputsAt c) : (s.recomposeLine l).OutputsAt c := by
  have hsame : SameDrive s (s.recomposeLine l) := by
    rw [recomposeLine_eq]
    exact ⟨rfl, fun _ => rfl, fun _ => rfl, fun _ => rfl, fun _ => rfl⟩
  by_cases hc : (s.line l).circuit = some c
  · exact outputsAt_of_composed hsame (by rw [recomposeLine_circuit, if_pos hc])
  · exact (outputsAt_congr hsame (by rw [recomposeLine_circuit, if_neg hc])).2 (h hc)

theorem outputsAt_recomposeLeft {s : State} (left : Option CircuitNo) {c : CircuitNo}
    (h : left ≠ some c → s.OutputsAt c) : (s.recomposeLeft left).OutputsAt c := by
  have hsame : SameDrive s (s.recomposeLeft left) := by
    cases left <;> exact ⟨rfl, fun _ => rfl, fun _ => rfl, fun _ => rfl, fun _ => rfl⟩
  by_cases hc : left = some c
  · exact outputsAt_of_composed hsame (by rw [recomposeLeft_circuit, if_pos hc])
  · exact (outputsAt_congr hsame (by rw [recomposeLeft_circuit, if_neg hc])).2 (h hc)

/-- New records of one line, with the station and the cadence as they stood. -/
theorem sameDriveBut_of_line {l : Line} {s t : State} (hl : ∀ m, m ≠ l → t.line m = s.line m)
    (hs : t.station = s.station) (hc : t.cadence = s.cadence) : SameDriveBut l s t where
  station := by rw [hs]
  line m hm := ⟨by rw [hl m hm], by rw [hl m hm], by rw [hl m hm],
    ringDrive_congr (by rw [hl m hm]) (by rw [hl m hm]) (by rw [hs]) (by rw [hc]) (by rw [hc])⟩

theorem sameDrive_of_onlyReports {s t : State} (h : OnlyReports s t) : SameDrive s t := by
  have hfields : ∀ m, (t.line m).circuit = (s.line m).circuit ∧ (t.line m).state = (s.line m).state
      ∧ (t.line m).tone = (s.line m).tone ∧ (t.line m).ring = (s.line m).ring := fun m => by
    rw [h.lines m]
    exact ⟨rfl, rfl, rfl, rfl⟩
  exact ⟨by rw [h.eq], fun m => (hfields m).1, fun m => (hfields m).2.1, fun m => (hfields m).2.2.1,
    fun m => ringDrive_congr (hfields m).2.1 (hfields m).2.2.2 (by rw [h.eq]) (by rw [h.eq]) (by rw [h.eq])⟩

theorem outputsAt_onlyReports {s t : State} (h : OnlyReports s t) {c : CircuitNo} (hs : s.OutputsAt c) :
    t.OutputsAt c := by
  have hcircuit : t.circuit c = s.circuit c := State.circuit_congr (by rw [h.eq]) c
  exact (outputsAt_congr (sameDrive_of_onlyReports h) (by rw [hcircuit])).2 hs

theorem outputsAt_enterState {s : State} (l : Line) (new : LineState) {c : CircuitNo}
    (h : (s.line l).circuit ≠ some c → s.OutputsAt c) : (enterState l new s).OutputsAt c := by
  obtain ⟨t, heq, hlines, hcircuits, hstation, hcadence⟩ := enterState_circuit l new s
  have hline : ∀ m, t.line m = (s.setLine l ((s.line l).entering new)).line m := State.line_congr hlines
  have hself : (t.line l).circuit = (s.line l).circuit := by rw [hline, State.line_setLine_self]; rfl
  rw [heq]
  refine outputsAt_recomposeLine l fun hc => ?_
  rw [hself] at hc
  exact outputsAt_of_other (sameDriveBut_of_line (fun m hm => by rw [hline, State.line_setLine_ne _ hm]) hstation hcadence)
    hc (by rwa [hself]) (by rw [State.circuit_congr hcircuits]) (h hc)

/-- A path of one line leaves every circuit right that was right, and the line's own wherever it is composed. -/
theorem LinePath.outputsAt {l : Line} {s t : State} (h : LinePath l s t) {c : CircuitNo} (hs : s.OutputsAt c) :
    t.OutputsAt c := by
  induction h with
  | refl => exact hs
  | report s e => exact outputsAt_onlyReports (onlyReports_queueReport s e) hs
  | edit s r hst ht hc hr =>
    have hline : ∀ m, ((s.setLine l r).line m).circuit = (s.line m).circuit ∧ ((s.setLine l r).line m).state = (s.line m).state
        ∧ ((s.setLine l r).line m).tone = (s.line m).tone ∧ ((s.setLine l r).line m).ring = (s.line m).ring := fun m => by
      rw [State.line_setLine]
      split
      · subst m; exact ⟨hc, hst, ht, hr⟩
      · exact ⟨rfl, rfl, rfl, rfl⟩
    have hsame : SameDrive s (s.setLine l r) := ⟨rfl, fun m => (hline m).1, fun m => (hline m).2.1,
      fun m => (hline m).2.2.1, fun m => ringDrive_congr (hline m).2.1 (hline m).2.2.2 rfl rfl rfl⟩
    exact (outputsAt_congr hsame rfl).2 hs
  | tone s t =>
    refine outputsAt_recomposeLine l fun hc => ?_
    rw [State.line_setLine_self] at hc
    exact outputsAt_of_other (sameDriveBut_of_line (fun m hm => State.line_setLine_ne _ hm _) rfl rfl) hc
      (by rwa [State.line_setLine_self]) rfl hs
  | enter s new => exact outputsAt_enterState l new fun _ => hs
  | trans _ _ ih1 ih2 => exact ih2 (ih1 hs)

theorem outputsOk_remap {s : State} (hs : s.OutputsOk) (d : CircuitNo) (l : Line) : (moveToCircuit d l s).OutputsOk := by
  intro c
  show State.OutputsAt _ c
  refine outputsAt_recomposeLeft _ fun hleft => outputsAt_onlyReports (onlyReports_traceChange ..) ?_
  have hreport : ∀ t, OnlyReports t
      ((if (s.line l).state = .fault then queueLine .blocked l [] else queueLineState l) t) := fun t => by
    split
    · exact onlyReports_queueLine ..
    · exact onlyReports_queueLineState ..
  refine outputsAt_onlyReports (hreport _) (outputsAt_enterState l .blocked fun hnew => ?_)
  exact outputsAt_of_other (sameDriveBut_of_line (fun m hm => State.line_setLine_ne _ hm _) rfl rfl) hleft hnew rfl (hs c)

theorem outputsOk_lost {s : State} (hs : s.OutputsOk) (l : Line) (u : LineWords) : (lineMemoryFault l u s).OutputsOk := by
  intro c
  show State.OutputsAt _ c
  obtain ⟨v, t, hv, -, honly, heq⟩ := lost_path l u s
  rw [heq]
  refine outputsAt_recomposeLeft _ fun hleft => outputsAt_onlyReports honly ?_
  have hline : ∀ m, v.line m = s.line m := State.line_congr (by rw [hv])
  have hcircuit : (v.setLine l ((s.line l).rewritten u)).circuit c = s.circuit c := State.circuit_congr (by rw [hv]; rfl) c
  refine outputsAt_of_other (sameDriveBut_of_line (fun m hm => ?_) ?_ ?_) hleft ?_ (by rw [hcircuit]) (hs c)
  · rw [State.line_setLine_ne _ hm, hline]
  · rw [hv]; rfl
  · rw [hv]; rfl
  · rw [State.line_setLine_self]
    exact nofun

/-- A line in FAULT is driven by nothing, so that its tone and ring drive do not count (R2). -/
theorem outputsOk_records {s t : State} (hs : s.OutputsOk) (h : t = { s with lines := t.lines })
    (hl : ∀ l, (t.line l).circuit = (s.line l).circuit ∧ (t.line l).state = (s.line l).state
      ∧ ((s.line l).state = .fault ∨ (t.line l).tone = (s.line l).tone ∧ t.ringDrive l = s.ringDrive l)) : t.OutputsOk := by
  intro c
  have hok := hs c
  have hcircuit : t.circuit c = s.circuit c := State.circuit_congr (by rw [h]) c
  have hstation : t.station = s.station := by rw [h]
  rw [hcircuit]
  unfold State.OutputsOf at hok ⊢
  rw [hstation, owner_congr (fun l => (hl l).1)]
  split
  · rename_i hstop
    rwa [if_pos hstop] at hok
  · rename_i hstop
    rw [if_neg hstop] at hok
    cases hm : s.owner c with
    | none => simpa only [hm] using hok
    | some m =>
      obtain ⟨-, hstate, hdrive⟩ := hl m
      simp only [hm] at hok ⊢
      rw [hstate]
      rcases hdrive with hfault | ⟨htone, hdrive⟩
      · simpa [hfault] using hok
      · rw [htone, hdrive]
        exact hok

/-- A run that may leave no output stale, and scans nothing, keeps the outputs as R2 composes them. -/
theorem Run.outputsOk {s t : State} (h : Run K s t) (hstale : .stale ∉ K) (hscan : .scan ∉ K) (hs : s.OutputsOk) :
    t.OutputsOk := by
  induction h with
  | refl | queue | peer | straps => exact hs
  | trans _ _ ih1 ih2 => exact ih2 hstale hscan (ih1 hstale hscan hs)
  | line h => exact fun c => h.outputsAt (hs c)
  | enter s l new ring =>
    refine fun c => outputsAt_enterState (s := s.setLine l _) l new fun hc => ?_
    have hself : ((s.setLine l { s.line l with ring := ring }).line l).circuit = (s.line l).circuit := by
      rw [State.line_setLine_self]
    exact outputsAt_of_other (sameDriveBut_of_line (fun m hm => State.line_setLine_ne _ hm _) rfl rfl) (hself ▸ hc) hc rfl
      (hs c)
  | report s e => exact fun c => outputsAt_onlyReports (onlyReports_queueReport s e) (hs c)
  | records h hl => exact outputsOk_records hs h hl
  | blocks h =>
    rename_i s t _
    have hlines : t.lines = s.lines := by rw [h]
    have hcircuits : t.circuits = s.circuits := by rw [h]
    have hline := State.line_congr hlines
    have hcircuit := State.circuit_congr hcircuits
    have hstation : t.station.state = s.station.state := congrArg (fun t => t.station.state) h
    have hphase : t.cadence.phase = s.cadence.phase := congrArg (fun t => t.cadence.phase) h
    have htick : t.cadence.tick = s.cadence.tick := congrArg (fun t => t.cadence.tick) h
    exact OutputsOk_congr (s := s) ⟨hstation, fun m => by rw [hline], fun m => by rw [hline], fun m => by rw [hline],
      fun m => ringDrive_congr (by rw [hline]) (by rw [hline]) hstation hphase (by rw [htick])⟩
      (fun c => by rw [hcircuit]) hs
  | filters s d x hx =>
    refine OutputsOk_congr (s := s) ⟨rfl, fun _ => rfl, fun _ => rfl, fun _ => rfl, fun _ => rfl⟩ (fun c => ?_) hs
    rw [State.circuit_setCircuit]
    split
    · subst d; exact hx.1
    · rfl
  | down s => exact outputsOk_goDown s
  | silent s n => exact outputsOk_goSilent _
  | cadence _ _ hK | state _ _ _ _ hK => exact absurd hK hstale
  | recompose => exact outputsOk_recomposeAll _
  | remap s l d => exact outputsOk_remap hs d l
  | lost s l u => exact outputsOk_lost hs l u
  | found => exact outputsOk_recomposeAll _
  | start => exact (start_pass ..).2.1
  | scan _ _ hK => exact absurd hK hscan

/-- Settles O60: no row but TICK has the licence to scan, and none to leave the outputs stale. -/
theorem outputsFollowTheirComposition : Obligations.OutputsFollowTheirComposition := by
  unfold Obligations.OutputsFollowTheirComposition
  intro i s t htick hs h
  refine (run_of_row h).outputsOk ?_ ?_ hs
  · cases i <;> simp
  · cases i
    case tick x => exact absurd rfl (htick x)
    all_goals simp

/-! ### The reset state -/

theorem reset_line (l : Line) : State.reset.line l = LineRecord.fresh (some ⟨l.val, by omega⟩) := by
  simp [State.reset, State.line]

theorem reset_ringOk : State.reset.RingOk := by
  have hring : ∀ l, (State.reset.line l).ring = none := fun l => by rw [reset_line]; rfl
  have hstate : ∀ l, (State.reset.line l).state = .idle := fun l => by rw [reset_line]; rfl
  have hclaim : State.reset.ringUnit = ⟨[], none, []⟩ := rfl
  constructor
  case ownRow => decide
  all_goals simp [hring, hstate, hclaim, LineState.isRing]

theorem reset_mapOk : State.reset.MapOk := by
  refine ⟨fun l m c hl hm => ?_, fun l hl => ?_⟩
  · rw [reset_line] at hl hm
    have hval := congrArg Fin.val (Option.some.inj (hl.trans hm.symm))
    exact Fin.ext hval
  · rw [reset_line] at hl
    cases hl

theorem reset_outputsOk : State.reset.OutputsOk := by
  rw [← powerOn_reset]
  exact (start_pass ..).2.1

/-- Settles O57: fresh lines, each on its own circuit, empty queues and tables, and outputs that a start composes. -/
theorem invariantsHoldAtReset : Obligations.InvariantsHoldAtReset := by
  unfold Obligations.InvariantsHoldAtReset
  refine ⟨reset_ringOk, reset_mapOk, ?_, ?_, ⟨fun i => ?_, ?_⟩, reset_outputsOk⟩
  · exact ⟨by decide, .nil, .nil⟩
  · unfold State.ControlOk; decide
  · show PeerRow.Ok (Vector.replicate 15 PeerRow.absent)[i]
    simpa using ok_absent
  · decide

end Sys2Proof.Machine
end

section
/-! PROOFS. The supply warning, the filters and START (R100, R101, R175, R176). -/

namespace Sys2Proof.Machine

/-- A change of the warning filter to ASSERTED that is due takes a station that heeds it to DOWN (R175). -/
theorem takeWarning_of_due {s : State} (hdue : s.control.warning = ⟨false, 3⟩) (hs : s.station.state.heedsWarning = true) :
    takeWarning s = goDown (s.setWarning ⟨true, 0⟩) := by
  unfold takeWarning
  rw [if_pos (by simp [InputFilter.changeDue, hdue]), hdue]
  exact if_pos (by simpa [InputFilter.accepted] using hs)

/-- Settles O7: the warning is accepted, and the station goes to DOWN. -/
theorem supplyWarningTakesStationDown : Obligations.SupplyWarningTakesStationDown := by
  unfold Obligations.SupplyWarningTakesStationDown
  intro s hdue hstate
  have hheeds : s.station.state.heedsWarning = true := by rcases hstate with h | h | h <;> rw [h] <;> rfl
  refine ⟨goDown (s.setWarning ⟨true, 0⟩), ?_, rfl, rfl, rfl, rfl, fun c => ?_, fun c => ?_, rfl, rfl, rfl, rfl, rfl, rfl⟩
  · rw [← takeWarning_of_due hdue hheeds]
    rfl
  · rw [goDown_circuit]
    exact ⟨rfl, rfl, rfl, rfl⟩
  · rw [goDown_circuit]
    exact ⟨rfl, rfl, rfl⟩

/-- Settles O8: each filter takes its change, and the base in force follows that of reduced ring power. -/
theorem filterChangesAreAccepted : Obligations.FilterChangesAreAccepted := by
  unfold Obligations.FilterChangesAreAccepted
  refine ⟨fun s hdue => ?_, fun s hdue => ?_⟩
  · have hnegated : takeWarningNegated s = s.setWarning ⟨false, 0⟩ := by
      unfold takeWarningNegated
      rw [if_pos (by simp [InputFilter.changeDue, hdue]), hdue]
      rfl
    exact congrArg Host.Outcome.next hnegated
  · have hchange : takeReducedChange s = s.setReduced ⟨!s.table.reduced.asserted, 0⟩ := if_pos hdue
    refine ⟨_, congrArg Host.Outcome.next hchange, rfl, fun priority => ?_⟩
    cases s.table.reduced.asserted <;> simp [State.effectiveBudget, State.baseInForce]

/-- Settles O9: START composes the outputs of the station that leaves HELD, and leaves any other as it is. -/
theorem startLeavesHeld : Obligations.StartLeavesHeld := by
  unfold Obligations.StartLeavesHeld
  intro h s hh haddr
  refine ⟨fun hheld hnormal => ?_, fun hrun => ?_⟩
  · have hstart : startStation (s.endFrame true) = ((s.endFrame true).setStationState .starting).recomposeAll := by
      unfold startStation
      rw [if_pos (by simpa using hheld)]
      exact heedWarning_of_normal hnormal
    refine ⟨_, congrArg Host.Outcome.next ((stationCommand_of_hears hh (by rw [hheld]; rfl) haddr _).trans hstart), rfl,
      outputsOk_recomposeAll _, rfl, fun c => ?_⟩
    rw [State.circuit_recomposeAll]
    exact composed_keeps _ c
  · have hstate := running_iff.1 hrun
    have htakes : s.station.state.takesStart = true := by rcases hstate with h | h <;> rw [h] <;> rfl
    have hstart : startStation (s.endFrame true) = s.endFrame true := if_neg (by
      rcases hstate with h | h <;> simp [h])
    exact congrArg Host.Outcome.next ((stationCommand_of_hears hh htakes haddr _).trans hstart)

end Sys2Proof.Machine
end

section
/-! PROOFS. The Shelf Signalling Bus: the frames received, sent, lost and completed (R89 to R94, R136 to R148). -/

namespace Sys2Proof.Machine

/-! ### Frames of peers -/

/-- A whole frame of another number is delivered (R145). -/
theorem receiveFrame_of_peer {s : State} {st : StationNo} (hr : s.receiving = true) (hst : st ≠ s.own)
    (deliver : State → State) : receiveFrame st deliver s = deliver (s.endFrame false) := by
  simp [receiveFrame, hr, hst]

theorem discardFrame_of_receiving {s : State} (hr : s.receiving = true) : discardFrame s = s.endFrame false := if_pos hr

/-- The table takes no frame from station 0, and none while the station is stopped (R89, R106). -/
theorem updateRow_of_none {s : State} {st : StationNo} (h : st = 0 ∨ s.running = false) (f : PeerRow → PeerRow) :
    updateRow st f s = s := by
  rcases h with h | h <;> simp [updateRow, h]

theorem updateRow_of_running {s : State} {st : StationNo} (hrun : s.running = true) (hst : st ≠ 0)
    (f : PeerRow → PeerRow) : updateRow st f s = { s with table := { s.table with
      peers := s.table.peers.set (rowIndex st) (f s.table.peers[rowIndex st]) } } := by
  simp [updateRow, hrun, hst]

/-- The rows after a change of a peer's row. -/
theorem getElem_set_rowIndex (peers : Vector PeerRow 15) {st : StationNo} (hst : st ≠ 0) (f : PeerRow → PeerRow) (k : Fin 15) :
    (peers.set (rowIndex st) (f peers[rowIndex st]))[k] = if k.val + 1 = st.val then f peers[k] else peers[k] := by
  have hpos : st.val ≠ 0 := fun h => hst (Fin.ext h)
  have hidx : (rowIndex st).val = st.val - 1 := rfl
  by_cases hk : k.val + 1 = st.val
  · have hkr : k = rowIndex st := Fin.ext (by omega)
    subst hkr
    simp [hk]
  · rw [if_neg hk]
    exact Vector.getElem_set_ne _ _ (by omega)

/-- A peer's frame that the table takes changes the peer's row alone. -/
theorem receivePeer_spec {st : StationNo} {s : State} (hr : s.receiving = true) (hrun : s.running = true) (hown : st ≠ s.own)
    (hst : st ≠ 0) {g f : PeerRow → PeerRow} (hg : ∀ r, g r = f r) :
    receiveFrame st (updateRow st g) s = { s.endFrame false with table := { s.table with
        peers := (receiveFrame st (updateRow st g) s).table.peers } }
      ∧ ∀ k : Fin 15, (receiveFrame st (updateRow st g) s).table.peers[k]
          = if k.val + 1 = st.val then f s.table.peers[k] else s.table.peers[k] := by
  rw [receiveFrame_of_peer hr hown, updateRow_of_running (s := s.endFrame false) hrun hst, funext hg]
  exact ⟨rfl, getElem_set_rowIndex s.table.peers hst f⟩

/-- A row is its cells, its presence and its age. -/
theorem PeerRow.ext_cells {a b : PeerRow} (hp : a.present = b.present) (ha : a.age = b.age)
    (hc : ∀ p : Phase, a.cells[p] = b.cells[p]) : a = b := by
  obtain ⟨cells, present, age⟩ := a
  have hcells : cells = b.cells := Vector.ext fun i hi => hc ⟨i, hi⟩
  cases b
  simp_all

/-- Settles O26: each row of a peer's frame applies its change to the peer's row. -/
theorem peerFramesChangeTheirRow : Obligations.PeerFramesChangeTheirRow := by
  unfold Obligations.PeerFramesChangeTheirRow
  intro st s hr hrun hown hst i f hi
  have hcells : ∀ {g : PeerRow → PeerRow} (r : PeerRow), (g r).present = true → (g r).age = 0 →
      (f r).present = true ∧ (f r).age = 0 → (∀ p : Phase, (g r).cells[p] = (f r).cells[p]) → g r = f r :=
    fun r hp ha hf hc => PeerRow.ext_cells (hp.trans hf.1.symm) (ha.trans hf.2.symm) hc
  rcases hi with ⟨l, w, set, rfl, hf⟩ | ⟨l, w, set, rfl, hf⟩ | ⟨cells, rfl, hf⟩ | ⟨rfl, hf⟩ | ⟨code, number, values, rfl, hv, hf⟩
  · refine ⟨_, rfl, receivePeer_spec hr hrun hown hst fun r => ?_⟩
    obtain ⟨hp, ha, hc⟩ := hf r
    exact hcells (g := PeerRow.claimed w.val set) r rfl rfl ⟨hp, ha⟩ fun p => by rw [hc]; simp [PeerRow.claimed]
  · refine ⟨_, rfl, receivePeer_spec hr hrun hown hst fun r => ?_⟩
    obtain ⟨hp, ha, hc⟩ := hf r
    exact hcells (g := PeerRow.released w.val set) r rfl rfl ⟨hp, ha⟩ fun p => by rw [hc]; simp [PeerRow.released]
  · refine ⟨_, rfl, receivePeer_spec hr hrun hown hst fun r => ?_⟩
    obtain ⟨hp, ha, hc⟩ := hf r
    exact hcells (g := PeerRow.summarised cells) r rfl rfl ⟨hp, ha⟩ fun p => by rw [hc]; simp [PeerRow.summarised]
  · exact ⟨_, rfl, receivePeer_spec hr hrun hown hst fun r => (hf r).symm⟩
  · refine ⟨_, congrArg Host.Outcome.next (if_pos hv), receivePeer_spec hr hrun hown hst fun r => (hf r).symm⟩

/-- Settles O27: none of these frames has anything to deliver. -/
theorem framesWithoutEffect : Obligations.FramesWithoutEffect := by
  unfold Obligations.FramesWithoutEffect
  intro s hr
  refine ⟨fun octets framing hd => ?_, fun h code hown hdecided hcode => ?_, fun st hown hnone i hi => ?_, rfl⟩
  · exact congrArg Host.Outcome.next ((if_pos hd).trans (discardFrame_of_receiving hr))
  · have hunknown : knownCode code = false := by
      rcases hcode with rfl | hcode
      · rfl
      · simp only [knownCode, Bool.and_eq_false_iff, decide_eq_false_iff_not]
        omega
    have hnoeffect : receiveCommand h false false id s = s.endFrame false := by
      simp [receiveCommand, hr, hdecided, hown]
    exact congrArg Host.Outcome.next ((if_neg (by simp [hunknown])).trans hnoeffect)
  · have hpeer : ∀ f, receiveFrame st (updateRow st f) s = s.endFrame false := fun f => by
      rw [receiveFrame_of_peer hr hown, updateRow_of_none (s := s.endFrame false) hnone]
    rcases hi with ⟨l, w, set, rfl⟩ | ⟨l, w, set, rfl⟩ | ⟨cells, rfl⟩ | rfl | ⟨code, number, values, rfl⟩
    · exact congrArg Host.Outcome.next (hpeer _)
    · exact congrArg Host.Outcome.next (hpeer _)
    · exact congrArg Host.Outcome.next (hpeer _)
    · exact congrArg Host.Outcome.next (hpeer _)
    · refine congrArg Host.Outcome.next ?_
      split
      · exact hpeer _
      · exact discardFrame_of_receiving hr

/-! ### Conflicts -/

/-- A conflict that is not the third is counted (R148). -/
theorem countConflict_of_few {s : State} (hrun : s.running = true) (hc : s.station.conflicts < 2) :
    countConflict s = { s with station := { s.station with conflicts := s.station.conflicts + 1 } } := by
  unfold countConflict
  rw [if_pos hrun]
  exact if_neg (by simp; omega)

/-- The third conflict takes the station to SILENT (R148). -/
theorem countConflict_of_third {s : State} (hrun : s.running = true) (hc : 2 ≤ s.station.conflicts) :
    countConflict s = goSilent { s with station := { s.station with conflicts := s.station.conflicts + 1 } } := by
  unfold countConflict
  rw [if_pos hrun]
  exact if_pos (by simp; omega)

/-- No conflict is counted in a stopped station (R148). -/
theorem countConflict_of_stopped {s : State} (hrun : s.running = false) : countConflict s = s := by
  simp [countConflict, hrun]

theorem receiveCommand_of_own {s : State} {h : CommandHeader} (hr : s.receiving = true) (hst : h.station = s.own)
    (hd : s.bus.rx.decided ≠ some true) (takes allowed : Bool) (act : State → State) :
    receiveCommand h takes allowed act s = takeOwnNumberFrame s := by
  simp [receiveCommand, hr, hd, hst]

theorem receiveFrame_of_own {s : State} (hr : s.receiving = true) (deliver : State → State) :
    receiveFrame s.own deliver s = takeOwnNumberFrame s := by
  simp [receiveFrame, hr]

/-- A whole frame with the own number is taken as such, whatever its kind (R145, R148). -/
theorem exec_ownNumber {s : State} {i : Instr} (hc : s.CarriesOwnNumber i) (hr : s.receiving = true) :
    exec i s = .next (takeOwnNumberFrame s) := by
  rcases hc with ⟨k, rfl⟩ | ⟨l, w, set, rfl⟩ | ⟨l, w, set, rfl⟩ | ⟨cells, rfl⟩ | rfl | ⟨code, number, values, rfl, hv⟩
    | ⟨h, hh, hst, hwf, hd⟩
  case inr.inr.inr.inr.inr.inl =>
    exact congrArg Host.Outcome.next ((if_pos hv).trans (receiveFrame_of_own hr _))
  case inr.inr.inr.inr.inr.inr =>
    cases i
    case unknownCommand h' code =>
      cases hh
      refine congrArg Host.Outcome.next ((if_neg ?_).trans (receiveCommand_of_own hr hst hd _ _ _))
      simpa [Instr.wellFormed] using hwf
    all_goals first
      | (cases hh; exact congrArg Host.Outcome.next (receiveCommand_of_own hr hst hd _ _ _))
      | cases hh
  all_goals exact congrArg Host.Outcome.next (receiveFrame_of_own hr _)

theorem takeOwnNumberFrame_of_counted {s : State} (h : s.bus.rx.mismatchCounted = true) :
    takeOwnNumberFrame s = s.endFrame false := if_pos h

theorem takeOwnNumberFrame_of_new {s : State} (h : s.bus.rx.mismatchCounted = false) :
    takeOwnNumberFrame s = countConflict (s.endFrame false) := if_neg (by simp [h])

/-! ### Frames lost and abandoned -/

/-- The claim in flight as its frame leaves the wire unsent (R116). -/
theorem claim_unsent (u : RingUnit) : { u with claim := u.claim.bind Claim.unsent } = { u with claim := (match u.claim with
    | none => none
    | some c => if c.status = .orphaned then none else some { c with status := .pending }) } := by
  rcases u with ⟨queue, _ | ⟨l, w, set, _ | _ | _⟩, releases⟩ <;> rfl

/-- An own frame that leaves the wire unsent: its source alone is told (R116, R147, R162). -/
theorem dropFrame_eq (s : State) (k : FrameKind) : s.dropFrame k = { s with
    bus := { s.bus with tx := none }
    ringUnit := if k = .claim then { s.ringUnit with claim := s.ringUnit.claim.bind Claim.unsent } else s.ringUnit
    reports := if k = .report then s.reports.map ReportEntry.offWire else s.reports } := by
  cases k <;> rfl

/-- The state in which a mismatch leaves the bus, before the conflict is counted (R141, R148). -/
def State.mismatched (s : State) (k : FrameKind) : State :=
  let s1 := s.dropFrame k
  s1.setBus { s1.bus with rx := { s1.bus.rx with mismatchCounted := s.running } }

theorem abandonOnMismatch_of_body {s : State} {f : TxFrame} (htx : s.bus.tx = some f) (hf : f.phase = .body) :
    abandonOnMismatch s = countConflict (s.mismatched f.kind) := by
  simp only [abandonOnMismatch, htx]
  rw [if_neg (by rw [hf]; decide)]
  rfl

theorem mismatched_eq (s : State) (k : FrameKind) : s.mismatched k = { s with
    bus := { s.bus with tx := none, rx := { s.bus.rx with mismatchCounted := s.running } }
    ringUnit := if k = .claim then { s.ringUnit with claim := s.ringUnit.claim.bind Claim.unsent } else s.ringUnit
    reports := if k = .report then s.reports.map ReportEntry.offWire else s.reports } := by
  rw [State.mismatched, dropFrame_eq]
  rfl

theorem loseContest_of_contest {s : State} {f : TxFrame} (htx : s.bus.tx = some f) (hf : f.phase = .contest) :
    loseContest s = s.dropFrame f.kind := by
  simp only [loseContest, htx]
  exact if_pos hf

/-- A conflict counted in a state whose transmission has ended. -/
theorem countConflict_spec {s u : State} (hrun : u.running = true) (hst : u.station = s.station) (hcontrol : u.control = s.control)
    (hcircuits : u.circuits = s.circuits) (hcadence : u.cadence = s.cadence) (hlines : u.lines = s.lines)
    (htable : u.table = s.table) (hqueue : u.ringUnit.queue = s.ringUnit.queue)
    (hreleases : u.ringUnit.releases = s.ringUnit.releases) (htx : u.bus.tx = none)
    (hdue : u.bus.withdrawDue = s.bus.withdrawDue) :
    (countConflict u).station.conflicts = s.station.conflicts + 1 ∧ (countConflict u).bus.tx = none
      ∧ (countConflict u).lines = s.lines ∧ (countConflict u).table = s.table
      ∧ (countConflict u).ringUnit.queue = s.ringUnit.queue ∧ (countConflict u).ringUnit.releases = s.ringUnit.releases
      ∧ (s.station.conflicts < 2 → (countConflict u).station.state = s.station.state ∧ (countConflict u).control = s.control
          ∧ (countConflict u).circuits = s.circuits ∧ (countConflict u).cadence = s.cadence)
      ∧ (2 ≤ s.station.conflicts → (countConflict u).station.state = .silent ∧ (countConflict u).control.alarm = true
          ∧ (countConflict u).OutputsOk ∧ (countConflict u).bus.withdrawDue = s.bus.withdrawDue) := by
  by_cases hc : s.station.conflicts < 2
  · rw [countConflict_of_few hrun (by rwa [hst])]
    refine ⟨by rw [hst], htx, hlines, htable, hqueue, hreleases, fun _ => ⟨by rw [hst], hcontrol, hcircuits, hcadence⟩,
      fun h => absurd h (by omega)⟩
  · rw [countConflict_of_third hrun (by rw [hst]; omega)]
    exact ⟨by rw [goSilent_station, hst], rfl, hlines, htable, hqueue, hreleases, fun h => absurd h hc,
      fun _ => ⟨rfl, rfl, outputsOk_goSilent _, hdue⟩⟩

theorem countConflict_rx (s : State) : (countConflict s).bus.rx = s.bus.rx := by
  unfold countConflict
  dsimp only
  repeat' split
  all_goals rfl

/-- Settles O28: a frame with the own number and a mismatch each count one conflict in a working station. -/
theorem conflictsAreCounted : Obligations.ConflictsAreCounted := by
  unfold Obligations.ConflictsAreCounted
  refine ⟨fun s i hrun hi => ?_, fun s i hr hc hno => ?_, fun s f hrun htx hf => ?_⟩
  · rcases hi with ⟨hc, hr, hnew⟩ | ⟨rfl, f, htx, hf⟩
    · have htx : s.bus.tx = none := by
        simp only [State.receiving, Bool.and_eq_true, Option.isNone_iff_eq_none] at hr
        exact hr.2
      obtain ⟨h1, h2, h3, h4, h5, h6, h7, h8⟩ := countConflict_spec (s := s) (u := s.endFrame false) hrun rfl rfl rfl rfl rfl
        rfl rfl rfl htx rfl
      refine ⟨_, (exec_ownNumber hc hr).trans (congrArg _ (takeOwnNumberFrame_of_new hnew)), h1, h2, h3, h4, h5, h6, h7, h8, ?_⟩
      rintro rfl
      rcases hc with ⟨k, hk⟩ | ⟨l, w, set, hk⟩ | ⟨l, w, set, hk⟩ | ⟨cells, hk⟩ | hk | ⟨code, number, values, hk, -⟩
        | ⟨h, hk, -⟩ <;> cases hk
    · have hqueue : (s.mismatched f.kind).ringUnit.queue = s.ringUnit.queue := by rw [mismatched_eq]; split <;> rfl
      have hreleases : (s.mismatched f.kind).ringUnit.releases = s.ringUnit.releases := by
        rw [mismatched_eq]; split <;> rfl
      obtain ⟨h1, h2, h3, h4, h5, h6, h7, h8⟩ := countConflict_spec (s := s) (u := s.mismatched f.kind)
        (by rw [mismatched_eq]; exact hrun) (by rw [mismatched_eq]) (by rw [mismatched_eq]) (by rw [mismatched_eq])
        (by rw [mismatched_eq]) (by rw [mismatched_eq]) (by rw [mismatched_eq]) hqueue hreleases (by rw [mismatched_eq])
        (by rw [mismatched_eq])
      refine ⟨_, congrArg Host.Outcome.next (abandonOnMismatch_of_body htx hf), h1, h2, h3, h4, h5, h6, h7, h8, fun _ => ?_⟩
      rw [countConflict_rx, mismatched_eq]
      exact hrun
  · rw [exec_ownNumber hc hr]
    refine congrArg _ ?_
    rcases hno with hcounted | hrun
    · exact takeOwnNumberFrame_of_counted hcounted
    · cases hcounted : s.bus.rx.mismatchCounted
      · rw [takeOwnNumberFrame_of_new hcounted, countConflict_of_stopped (s := s.endFrame false) hrun]
      · exact takeOwnNumberFrame_of_counted hcounted
  · refine ⟨_, congrArg Host.Outcome.next (abandonOnMismatch_of_body htx hf), ?_⟩
    rw [mismatched_eq, countConflict_of_stopped (by exact hrun)]
    exact ⟨rfl, rfl, rfl⟩

/-- Settles O29: the source of the frame takes it back; the third conflict takes every report off the wire. -/
theorem abandonedAndLostFrames : Obligations.AbandonedAndLostFrames := by
  unfold Obligations.AbandonedAndLostFrames
  intro s f htx
  have hmark : ∀ q : List ReportEntry, (q.map ReportEntry.offWire).map ReportEntry.offWire = q.map ReportEntry.offWire :=
    fun q => by rw [List.map_map]; rfl
  refine ⟨fun hf => ?_, fun hf => ?_⟩
  · refine ⟨_, congrArg Host.Outcome.next (abandonOnMismatch_of_body htx hf), ?_⟩
    by_cases hthird : s.running = true ∧ 2 ≤ s.station.conflicts
    · rw [mismatched_eq, countConflict_of_third (by exact hthird.1) (by exact hthird.2)]
      refine ⟨rfl, rfl, rfl, fun hk => ?_, fun hk => ?_, ?_⟩
      · exact (if_pos hk).trans (claim_unsent s.ringUnit)
      · rw [goSilent_ringUnit, if_neg hk]
      · have hmarks : (if f.kind = .report then s.reports.map ReportEntry.offWire else s.reports).map ReportEntry.offWire
            = s.reports.map ReportEntry.offWire := by
          split
          · exact hmark _
          · rfl
        exact hmarks.trans (if_pos (.inr hthird)).symm
    · have hreports : (f.kind = .report ∨ s.running = true ∧ 2 ≤ s.station.conflicts) ↔ f.kind = .report := by
        simp [hthird]
      have hcount : ∃ n, countConflict (s.mismatched f.kind)
          = { s.mismatched f.kind with station := { s.station with conflicts := n } } := by
        rw [mismatched_eq]
        cases hrun : s.running
        · exact ⟨s.station.conflicts, countConflict_of_stopped (by exact hrun)⟩
        · exact ⟨_, countConflict_of_few (by exact hrun) (by simpa [hrun] using hthird)⟩
      obtain ⟨n, hcount⟩ := hcount
      rw [hcount, mismatched_eq]
      refine ⟨rfl, rfl, rfl, fun hk => ?_, fun hk => if_neg hk, ?_⟩
      · exact (if_pos hk).trans (claim_unsent s.ringUnit)
      · exact (if_congr hreports rfl rfl).symm
  · refine ⟨_, congrArg Host.Outcome.next (loseContest_of_contest htx hf), ?_⟩
    rw [dropFrame_eq]
    refine ⟨rfl, fun hk => ?_, fun hk => if_neg hk, rfl⟩
    exact (if_pos hk).trans (claim_unsent s.ringUnit)

end Sys2Proof.Machine
end

section
/-! PROOFS. The choice of a frame, its beginning, and the completions of the station's own frames (R77, R127, R136, R146,
R147, R162, R163, R165). -/

namespace Sys2Proof.Machine

/-! ### The choice of a frame -/

theorem hasFrame_claim (s : State) : s.hasFrame .claim = s.ringUnit.claim.any (fun c => c.status = .pending) := by
  cases h : s.ringUnit.claim <;> simp [State.hasFrame, h]

/-- The choice of R146 among the frames that the station state allows. -/
theorem chooseFrame_eq (s : State) : s.chooseFrame =
    if s.hasFrame .withdraw && s.station.state.maySend .withdraw then some .withdraw
    else if s.hasFrame .release && s.station.state.maySend .release then some .release
    else if s.hasFrame .claim && s.station.state.maySend .claim then some .claim
    else if s.hasFrame .report && s.station.state.maySend .report then some .report
    else if s.hasFrame .summary && s.station.state.maySend .summary then some .summary
    else none := by
  simp only [State.chooseFrame, List.find?_cons, List.find?_nil]
  repeat' split
  all_goals simp_all

/-- Settles O31: each station state's row of the second table of R146, put into the first. -/
theorem frameSelectionOrder : Obligations.FrameSelectionOrder := by
  unfold Obligations.FrameSelectionOrder
  intro s
  have hrelease : s.hasFrame .release = decide (s.ringUnit.releases ≠ []) := by
    cases h : s.ringUnit.releases <;> simp [State.hasFrame, h]
  have hreport : s.hasFrame .report = decide (s.reports ≠ []) := by cases h : s.reports <;> simp [State.hasFrame, h]
  have hwithdraw : s.hasFrame .withdraw = s.bus.withdrawDue := rfl
  have hsummary : s.hasFrame .summary = s.bus.summaryDue := rfl
  refine ⟨fun h => ?_, fun h => ?_, fun h => ?_, fun h => ?_⟩
  · rw [chooseFrame_eq, hwithdraw, hsummary, hrelease, hreport, hasFrame_claim, h]
    simp [StationState.maySend]
  · rw [chooseFrame_eq, hwithdraw, hreport, h]
    simp [StationState.maySend]
  · rw [chooseFrame_eq, hwithdraw, h]
    simp [StationState.maySend]
  · rcases h with h | h <;> simp [chooseFrame_eq, h, StationState.maySend]

/-! ### The beginning of a frame -/

theorem sendHead_setReports (s : State) : s.sendHead = s.setReports (match s.reports with
    | [] => []
    | e :: q => { e with sending := true, replaced := false } :: q) := by
  unfold State.sendHead
  cases h : s.reports with
  | nil => exact congrArg s.setReports h
  | cons e q => rfl

/-- A frame that begins, composed from its source; the source alone is told (R136, R143, R147, R162). -/
theorem beginFrame_eq (s : State) (k : FrameKind) : s.beginFrame k = { s with
    bus := { s.bus with tx := some ⟨k, s.composeFrame k, 0, 0, .contest⟩, rx := RxAssembly.begun }
    ringUnit := if k = .claim
      then { s.ringUnit with claim := s.ringUnit.claim.map fun c => { c with status := .sending } } else s.ringUnit
    reports := if k = .report
      then (match s.reports with
        | [] => []
        | e :: q => { e with sending := true, replaced := false } :: q)
      else s.reports } := by
  cases k
  case report =>
    show State.sendHead _ = _
    rw [sendHead_setReports]
    rfl
  all_goals rfl

/-- The choice and the octets of a frame do not depend on the assembly. -/
theorem beginIfReady_setRx (s : State) (rx : RxAssembly) : (s.setBus { s.bus with rx := rx }).beginIfReady
    = (match s.chooseFrame with
      | some k => s.beginFrame k
      | none => s.setBus { s.bus with rx := rx }) := by
  have hchoose : (s.setBus { s.bus with rx := rx }).chooseFrame = s.chooseFrame := rfl
  have hcompose : ∀ k, (s.setBus { s.bus with rx := rx }).composeFrame k = s.composeFrame k := fun k => by
    cases k <;> rfl
  rw [State.beginIfReady, hchoose]
  cases s.chooseFrame with
  | none => rfl
  | some k =>
    dsimp only
    rw [beginFrame_eq, beginFrame_eq, hcompose]
    rfl

/-- What BUS_IDLE, START_BIT and a ready frame leave of a bus on which the station sends nothing. -/
theorem begins_spec {s : State} (htx : s.bus.tx = none) (rx : RxAssembly) :
    (s.setBus { s.bus with rx := rx }).beginIfReady = { s with
        bus := (s.setBus { s.bus with rx := rx }).beginIfReady.bus
        ringUnit := (s.setBus { s.bus with rx := rx }).beginIfReady.ringUnit
        reports := (s.setBus { s.bus with rx := rx }).beginIfReady.reports }
      ∧ (s.chooseFrame = none → (s.setBus { s.bus with rx := rx }).beginIfReady.bus.tx = none
        ∧ (s.setBus { s.bus with rx := rx }).beginIfReady.ringUnit = s.ringUnit
        ∧ (s.setBus { s.bus with rx := rx }).beginIfReady.reports = s.reports
        ∧ (s.setBus { s.bus with rx := rx }).beginIfReady.bus.rx.state = rx.state)
      ∧ ∀ k, s.chooseFrame = some k →
        (s.setBus { s.bus with rx := rx }).beginIfReady.bus.tx = some ⟨k, s.composeFrame k, 0, 0, .contest⟩
        ∧ (s.setBus { s.bus with rx := rx }).beginIfReady.bus.rx.state = .assembling
        ∧ (s.setBus { s.bus with rx := rx }).beginIfReady.ringUnit = (if k = .claim
            then { s.ringUnit with claim := s.ringUnit.claim.map fun c => { c with status := .sending } }
            else s.ringUnit)
        ∧ (s.setBus { s.bus with rx := rx }).beginIfReady.reports = (if k = .report
            then (match s.reports with
              | [] => []
              | e :: q => { e with sending := true, replaced := false } :: q)
            else s.reports) := by
  rw [beginIfReady_setRx]
  cases h : s.chooseFrame with
  | none => exact ⟨rfl, fun _ => ⟨htx, rfl, rfl, rfl⟩, nofun⟩
  | some k =>
    dsimp only
    rw [beginFrame_eq]
    refine ⟨rfl, nofun, fun k' hk => ?_⟩
    cases hk
    exact ⟨rfl, rfl, rfl, rfl⟩

/-- Settles O30: the three occasions begin the frame chosen, with the assembly as each leaves it. -/
theorem idleBusBeginsTheChosenFrame : Obligations.IdleBusBeginsTheChosenFrame := by
  unfold Obligations.IdleBusBeginsTheChosenFrame
  intro s htx
  refine ⟨fun t rx hcase => ?_, ⟨_, rfl⟩, ⟨_, rfl⟩, sendIfIdle_of_not_idle, fun hwaiting => ?_⟩
  · rcases hcase with ⟨ht, hx, rfl⟩ | ⟨ht, hx, rfl⟩ | ⟨rfl, hx, rfl⟩
    · have hidle : becomeIdle s = (s.setBus { s.bus with rx := RxAssembly.onIdleBus }).beginIfReady := if_neg hx
      have ht' : Host.Outcome.next (becomeIdle s) = .next t := ht
      rw [hidle] at ht'
      cases ht'
      exact begins_spec htx RxAssembly.onIdleBus
    · have hstart : takeStartBit s = (s.setBus { s.bus with rx := RxAssembly.begun }).beginIfReady := by
        simp only [takeStartBit, hx]
      have ht' : Host.Outcome.next (takeStartBit s) = .next t := ht
      rw [hstart] at ht'
      cases ht'
      exact begins_spec htx RxAssembly.begun
    · have hready : s.sendIfIdle = (s.setBus { s.bus with rx := s.bus.rx }).beginIfReady := if_pos hx
      have h := begins_spec htx s.bus.rx
      rwa [← hready, hx] at h
  · have hstart : takeStartBit s = s.setBus { s.bus with rx := { s.bus.rx with recessive := 0 } } := by
      simp only [takeStartBit, hwaiting]
    exact congrArg Host.Outcome.next hstart

/-! ### The completions of the own frames -/

/-- The state in which the own frame that has completed leaves the station, before its source acts (R141). -/
def State.completed (s : State) : State := { s with
  bus := { s.bus with tx := none, rx := RxAssembly.waitingForIdle, ackSlot := false }
  station := { s.station with conflicts := 0 } }

theorem completeOwn_of_tx {s : State} {f : TxFrame} (htx : s.bus.tx = some f) {k : FrameKind} (hk : f.kind = k)
    (act : State → State) : completeOwn k act s = act s.completed := by
  simp only [completeOwn, htx]
  exact if_pos hk

/-- Settles O35: each source takes its frame off what it owes. -/
theorem ownFramesComplete : Obligations.OwnFramesComplete := by
  unfold Obligations.OwnFramesComplete
  intro s f htx
  exact ⟨fun hk => congrArg Host.Outcome.next (completeOwn_of_tx htx hk _),
    fun hk => congrArg Host.Outcome.next (completeOwn_of_tx htx hk _),
    fun hk => congrArg Host.Outcome.next (completeOwn_of_tx htx hk _)⟩

/-- The entry on the wire is the first with the sending mark. -/
theorem find?_sending {front back : List ReportEntry} {e : ReportEntry} (hf : ∀ x ∈ front, x.sending = false)
    (he : e.sending = true) : (front ++ e :: back).find? (fun e => e.sending) = some e
      ∧ (front ++ e :: back).eraseP (fun e => e.sending) = front ++ back := by
  have hnone : front.find? (fun e => e.sending) = none := by simpa using hf
  refine ⟨by simp [List.find?_append, hnone, he], ?_⟩
  rw [List.eraseP_append_right _ (by simpa using hf)]
  simp [he]

/-- A report kept in a queue with room enters, and its LINE STATE clears the flag (R164, R165). -/
theorem queueLineState_of_room {s : State} (h : s.reports.length < 32) (l : Line) :
    queueLineState l s = (s.queueReport (s.lineStateReport l)).clearResync l := by
  have hkeeps : s.keepsReport (s.lineStateReport l) = true := by
    simp [State.keepsReport, show s.reports.length < reportCapacity from h]
  exact if_pos hkeeps

theorem resyncLine_eq_none {s : State} (h : ∀ l, (s.line l).resyncDue = false) : s.resyncLine = none := by
  simp [State.resyncLine, List.find?_eq_none, h]

theorem resyncLine_eq_some {s : State} {l : Line} (hl : (s.line l).resyncDue = true)
    (h : ∀ m < l, (s.line m).resyncDue = false) : s.resyncLine = some l := by
  unfold State.resyncLine
  rw [List.find?_eq_some_iff_getElem]
  refine ⟨hl, l.val, by simp, by simp, fun j hj => ?_⟩
  have hlt : (⟨j, by omega⟩ : Line) < l := hj
  simpa using h ⟨j, by omega⟩ hlt

/-- Settles O36: the entry on the wire is found, and the lowest line with resync-due set is reported in the room it leaves. -/
theorem ownReportCompletes : Obligations.OwnReportCompletes := by
  unfold Obligations.OwnReportCompletes
  intro s f e front back htx hk hq hfront he hlen
  obtain ⟨hfind, herase⟩ := find?_sending (back := back) hfront he
  have hcomplete : exec .ownReportCompletes s = .next s.completed.reportSent :=
    congrArg Host.Outcome.next (completeOwn_of_tx htx hk _)
  have hfind' : s.completed.reports.find? (fun e => e.sending) = some e := by
    show s.reports.find? _ = _
    rw [hq, hfind]
  have hsent : s.completed.reportSent = if e.replaced then s.completed.unsendReports
      else (s.completed.setReports (front ++ back)).settleResync := by
    unfold State.reportSent
    rw [hfind']
    show (if _ then _ else (s.completed.setReports (s.reports.eraseP _)).settleResync) = _
    rw [hq, herase]
  have hroom : (front ++ back).length < 32 := by
    rw [hq] at hlen
    simp only [List.length_append, List.length_cons] at hlen ⊢
    omega
  have hkept : e.replaced = false → s.completed.reportSent = (s.completed.setReports (front ++ back)).settleResync :=
    fun h => by rw [hsent, if_neg (by simp [h])]
  refine ⟨fun hr => ⟨_, hcomplete, ?_⟩, fun hr hno => ⟨_, hcomplete, ?_⟩, fun l hr hl hlow => ⟨_, hcomplete, ?_⟩,
    fun t ht => ?_⟩
  · rw [hsent, if_pos hr]
    exact ⟨rfl, rfl⟩
  · rw [hkept hr, State.settleResync, resyncLine_eq_none (s := s.completed.setReports (front ++ back)) hno]
    exact ⟨rfl, rfl⟩
  · rw [hkept hr, State.settleResync, resyncLine_eq_some (s := s.completed.setReports (front ++ back)) hl hlow]
    dsimp only
    rw [queueLineState_of_room (by exact hroom)]
    have hlines : (State.queueReport (s.completed.setReports (front ++ back))
        ((s.completed.setReports (front ++ back)).lineStateReport l)).lines = s.lines :=
      queueReport_lines_of_room (by exact hroom) _
    have hline := State.line_congr hlines
    refine ⟨?_, ?_, fun m hm => ?_⟩
    · rw [State.clearResync_eq, State.setLine_reports]
      exact queueReport_reports_congr (s := { s with reports := front ++ back })
        (t := s.completed.setReports (front ++ back)) rfl (s.lineStateReport l)
    · rw [State.clearResync_eq, State.line_setLine_self, hline]
    · rw [State.clearResync_eq, State.line_setLine_ne _ hm, hline]
  · rw [hcomplete] at ht
    cases ht
    have honly := onlyReports_reportSent s.completed
    rw [honly.eq]
    rfl

end Sys2Proof.Machine
end

section
/-! PROOFS. The Cadence Table and the on-portion boundary (R3, R78, R79, R80). -/

namespace Sys2Proof.Machine

/-- The rotated sets of the four codes (R78, R79). -/
theorem inSet_rotatedSet : ∀ (code : Fin 4) (o q : Phase), inSet (rotatedSet code o) q = true
    ↔ q = o ∨ code ≠ 1 ∧ q = o + 1 ∨ code = 3 ∧ (q = o + 4 ∨ q = o + 5) := by
  decide +kernel

/-- The phase codes of the four entries (R78). -/
theorem phaseCode_eq : ∀ (code : Fin 4) (p : Phase), phaseCode code p
    = if p = 0 ∨ code ≠ 1 ∧ p = 1 ∨ code = 3 ∧ (p = 4 ∨ p = 5) then (if code = 2 then .split else .full) else .silent := by
  decide +kernel

theorem onPortion_phaseCode (code : Fin 4) (p : Phase) {n : Nat} (hn : n < 150) :
    onPortion (phaseCode code p) n = true
      ↔ (p = 0 ∨ code ≠ 1 ∧ p = 1 ∨ code = 3 ∧ (p = 4 ∨ p = 5)) ∧ (code = 2 → n < 45 ∨ 75 ≤ n ∧ n < 120) := by
  rw [phaseCode_eq]
  split
  · rename_i hp
    split
    · rename_i hc; rw [and_iff_right hp]; simp [onPortion, hc]
    · rename_i hc; rw [and_iff_right hp]; simp [onPortion, hc, hn]
  · rename_i hp
    simp [onPortion, hp]

theorem withOutputs_blanking (x : Circuit) (relay dial special cutOff : Bool) :
    (x.withOutputs relay dial special cutOff).blanking
      = if (x.withOutputs relay dial special cutOff).ringRelay = x.ringRelay then x.blanking else 2 := rfl

/-- A composed circuit blanks where its relay has changed (R3). -/
theorem composed_blanking (s : State) (c : CircuitNo) : (s.composed c).blanking
    = if (s.composed c).ringRelay = (s.circuit c).ringRelay then (s.circuit c).blanking else 2 := by
  unfold State.composed
  dsimp only
  split
  · exact withOutputs_blanking ..
  split
  · exact withOutputs_blanking ..
  split <;> exact withOutputs_blanking ..

/-- A line that rings is driven by the ring drive (R2, R80). -/
theorem composed_ringRelay {s : State} {c : CircuitNo} {l : Line} (hst : s.station.state = .active) (ho : s.owner c = some l)
    (hl : (s.line l).state = .ringing) : (s.composed c).ringRelay = s.ringDrive l := by
  have hout := outputsOf_composed s c
  simp only [State.OutputsOf, hst, ho, hl] at hout
  simpa using hout.1

/-- Settles O48: the tables by evaluation, and the drive as R80 has it at a tick below 150. -/
theorem onPortionBoundaryDrivesTheRelays : Obligations.OnPortionBoundaryDrivesTheRelays := by
  unfold Obligations.OnPortionBoundaryDrivesTheRelays
  refine ⟨inSet_rotatedSet, fun code p n hn => onPortion_phaseCode code p hn, fun s hst htick => ?_⟩
  have htick' : onPortionTick s.cadence.tick = true := by simpa [onPortionTick, or_assoc] using htick
  have htake : takeOnPortion s = s.recomposeAll := by simp [takeOnPortion, hst, htick']
  refine ⟨_, congrArg Host.Outcome.next htake, rfl, outputsOk_recomposeAll s, fun c l r ho hl hr => ?_, fun c => ?_⟩
  · have hmin : min s.cadence.tick 149 = s.cadence.tick := by omega
    rw [State.circuit_recomposeAll, composed_ringRelay hst ho hl]
    simp [State.ringDrive, hr, hl, hst, hmin, codePhase]
  · rw [State.circuit_recomposeAll, composed_blanking]

end Sys2Proof.Machine
end

section
/-! PROOFS. What a move of one line writes and reports (`Told`), said once for each move of the Line State Controller and of
the Hook Timing Unit (R22 to R37, R40 to R53, R68). -/

namespace Sys2Proof.Machine

/-! ### The record written and the reports queued -/

/-- A path of the line `l` that leaves its record as `r`, the resync-due flag apart, and queues `es`. Reports of class 3 set no
flag, so that the record is then `r` itself (R164). -/
structure Told (l : Line) (s : State) (r : LineRecord) (es : List ReportEntry) (t : State) : Prop where
  path : LinePath l s t
  record : SameButResync r (t.line l)
  exact : (∀ e ∈ es, e.cls = 3) → t.line l = r
  reports : t.reports = s.reportsAfter es

section Told
variable {l : Line} {s t u : State} {r : LineRecord} {es fs : List ReportEntry}

theorem Told.refl (l : Line) (s : State) : Told l s (s.line l) [] s := ⟨.refl s, .refl _, fun _ => rfl, rfl⟩

theorem Told.own (h : Told l s r es t) : t.own = s.own := h.path.lineMove.own

theorem Told.profile (h : Told l s r es t) : t.profile = s.profile := h.path.lineMove.profile

/-- A move whose reports are none leaves the record as it says. -/
theorem Told.line (h : Told l s r [] t) : t.line l = r := h.exact nofun

/-- A move after another, whose record does not read the resync-due flag. -/
theorem Told.andThen (h : Told l s r es t) {f : LineRecord → LineRecord} (k : Told l t (f (t.line l)) fs u)
    (hf : ∀ x, SameButResync (f r) (f { r with resyncDue := x })) : Told l s (f r) (es ++ fs) u where
  path := h.path.trans k.path
  record := by
    have hr := hf (t.line l).resyncDue
    rw [← h.record] at hr
    exact hr.trans k.record
  exact hes := by
    rw [k.exact fun e he => hes e (List.mem_append_right _ he), h.exact fun e he => hes e (List.mem_append_left _ he)]
  reports := k.reports.trans (reportsAfter_then s es fs h.reports)

/-- A report leaves the record but for the flag. -/
theorem told_queueReport (l : Line) (s : State) (e : ReportEntry) : Told l s (s.line l) [e] (s.queueReport e) where
  path := .report s e
  record := (onlyReports_queueReport s e).lines l
  exact he := by rw [queueReport_class3 s e (he e List.mem_cons_self)]; rfl
  reports := rfl

theorem told_queueLine (l : Line) (s : State) (code : ReportCode) (v : List Octet) :
    Told l s (s.line l) [s.lineEntry l code v] (queueLine code l v s) := told_queueReport l s _

/-- An edit of what the outputs and the Ring Placement Unit do not read. -/
theorem told_setLine (s : State) (r : LineRecord) (hs : r.state = (s.line l).state) (ht : r.tone = (s.line l).tone)
    (hc : r.circuit = (s.line l).circuit) (hr : r.ring = (s.line l).ring) : Told l s r [] (s.setLine l r) where
  path := .edit s r hs ht hc hr
  record := by rw [State.line_setLine_self]; exact .refl _
  exact _ := State.line_setLine_self ..
  reports := rfl

theorem told_setTiming (s : State) (t : Timing) : Told l s { s.line l with timing := t } [] (s.setTiming l t) :=
  told_setLine s _ rfl rfl rfl rfl

theorem told_setBlockPending (s : State) (b : Bool) :
    Told l s { s.line l with blockPending := b } [] (s.setBlockPending l b) := told_setLine s _ rfl rfl rfl rfl

/-- A tone selection (R40). -/
theorem told_setTone (l : Line) (s : State) (t : Tone) : Told l s { s.line l with tone := t } [] (setTone l t s) := by
  have heq := recomposeLine_eq (s.setLine l { s.line l with tone := t }) l
  have hline : (setTone l t s).line l = { s.line l with tone := t } := by
    have hlines : (setTone l t s).lines = (s.setLine l { s.line l with tone := t }).lines := by
      rw [setTone, heq]
    rw [State.line_congr hlines l, State.line_setLine_self]
  refine ⟨.tone s t, by rw [hline]; exact .refl _, fun _ => hline, ?_⟩
  rw [setTone, heq]
  rfl

/-- The LINE STATE of a line, whose own flag it clears if it is queued (R165). -/
theorem told_queueLineState (l : Line) (s : State) : Told l s (s.line l) [s.lineStateReport l] (queueLineState l s) where
  path := linePath_queueLineState l s
  record := (onlyReports_queueLineState l s).lines l
  exact he := absurd (he _ List.mem_cons_self) (by change ¬ (2 = 3); decide)
  reports := by unfold queueLineState; split <;> rfl

/-- A change of state with its reports, and the TRACE of a watched line behind them (R41, R42; log 11). -/
theorem told_transition (s : State) {new : LineState} (hn : new.isRing = false) {report : State → State}
    (hr : Told l (enterState l new s) ((s.line l).entering new) es (report (enterState l new s))) :
    Told l s ((s.line l).entering new) (es ++ s.traceEntries l (s.line l).state new) (transition l new report s) := by
  have hfields := hr.record.fields
  have htrace := traceChange_reports l (s.line l).state (report (enterState l new s))
  rw [hfields.1, traceEntries_congr (s := s) l _ _ hfields.2.2.1 (hr.own.trans (enterState_own ..))] at htrace
  refine ⟨((LinePath.enter s new hn).trans hr.path).trans (linePath_traceChange ..), ?_, fun hes => ?_, ?_⟩
  · rw [transition, traceChange_line]
    exact hr.record
  · rw [transition, traceChange_line]
    exact hr.exact fun e he => hes e (List.mem_append_left _ he)
  · refine htrace.trans ((reportsAfter_then (enterState l new s) es _ hr.reports).trans (reportsAfter_congr ?_ _))
    exact enterState_reports l new s

/-- A change of state with no report of its own. -/
theorem told_transition_id (s : State) {new : LineState} (hn : new.isRing = false) :
    Told l s ((s.line l).entering new) (s.traceEntries l (s.line l).state new) (transition l new id s) := by
  have h := Told.refl l (enterState l new s)
  rw [enterState_line_self] at h
  exact told_transition (report := id) s hn h

/-- A change of state with a report of the line. -/
theorem told_transition_report (s : State) {new : LineState} (hn : new.isRing = false) (code : ReportCode)
    (v : List Octet) : Told l s ((s.line l).entering new) (s.lineEntry l code v :: s.traceEntries l (s.line l).state new)
      (transition l new (queueLine code l v) s) := by
  have h := told_queueLine l (enterState l new s) code v
  have hentry : (enterState l new s).lineEntry l code v = s.lineEntry l code v := by
    simp [State.lineEntry]
  rw [enterState_line_self, hentry] at h
  exact told_transition s hn h

/-- A change of state with the LINE STATE of the line as it then stands. -/
theorem told_transition_lineState (s : State) {new : LineState} (hn : new.isRing = false) :
    Told l s ((s.line l).entering new)
      (s.lineEntry l .lineState (lineStateValues ((s.line l).entering new)) :: s.traceEntries l (s.line l).state new)
      (transition l new (queueLineState l) s) := by
  have h := told_queueLineState l (enterState l new s)
  have hentry : (enterState l new s).lineStateReport l
      = s.lineEntry l .lineState (lineStateValues ((s.line l).entering new)) := by
    simp [State.lineStateReport, State.lineEntry]
  rw [enterState_line_self, hentry] at h
  exact told_transition s hn h

/-- A move of the line after others, whose TRACE names the states as they follow. -/
theorem Told.traceEntries (h : Told l s r es t) (a b : LineState) (hw : r.watch = (s.line l).watch) :
    t.traceEntries l a b = s.traceEntries l a b :=
  traceEntries_congr l a b (h.record.fields.2.2.1.trans hw) h.own

theorem Told.lineEntry (h : Told l s r es t) (code : ReportCode) (v : List Octet) :
    t.lineEntry l code v = s.lineEntry l code v := by
  simp [State.lineEntry, h.own]

/-- What the report of a change of state is told of: either none, or a line report. -/
inductive Reporting (l : Line) : (State → State) → (State → List ReportEntry) → Prop
  | none : Reporting l id fun _ => []
  | line (code : ReportCode) (v : List Octet) : Reporting l (queueLine code l v) fun s => [s.lineEntry l code v]

theorem Reporting.told {report : State → State} {entries : State → List ReportEntry} (h : Reporting l report entries)
    (s : State) {new : LineState} (hn : new.isRing = false) :
    Told l s ((s.line l).entering new) (entries s ++ s.traceEntries l (s.line l).state new) (transition l new report s) := by
  cases h with
  | none => exact told_transition_id s hn
  | line code v => exact told_transition_report s hn code v

/-! ### Entries into IDLE and into the call states -/

/-- The record of a line that passes through IDLE to BLOCKED (R46). -/
theorem entering_blocked (r : LineRecord) : { r.entering .idle with blockPending := false }.entering .blocked
    = r.outOfUse .blocked := rfl

theorem entering_idle (r : LineRecord) : r.entering .idle = r.inState .idle .none none := rfl

/-- An entry into IDLE with block-pending set passes to BLOCKED (R46). -/
theorem told_enterIdle_blockPending {report : State → State} {entries : State → List ReportEntry}
    (h : Reporting l report entries) (s : State) (hb : (s.line l).blockPending = true) :
    Told l s ((s.line l).outOfUse .blocked) (entries s ++ s.traceEntries l (s.line l).state .idle
      ++ s.lineEntry l .blocked [] :: s.traceEntries l .idle .blocked) (enterIdle l report s) := by
  have hidle := h.told s (new := .idle) rfl
  have hpending : ((transition l .idle report s).line l).blockPending = true := by
    rw [hidle.record.fields.2.2.2.1]
    exact hb
  have hclear := told_setBlockPending (l := l) (transition l .idle report s) false
  have hblocked := told_transition_report (l := l) ((transition l .idle report s).setBlockPending l false) (new := .blocked) rfl
    .blocked []
  have hcleared := hidle.andThen (f := fun r => { r with blockPending := false }) hclear fun _ => rfl
  have hdone := hcleared.andThen (f := fun r => r.entering .blocked) hblocked fun _ => rfl
  rw [hcleared.lineEntry, hcleared.traceEntries _ _ rfl, List.append_nil] at hdone
  have hstate : (((transition l .idle report s).setBlockPending l false).line l).state = .idle := by
    rw [hcleared.record.fields.1]; rfl
  rw [hstate] at hdone
  have henter : enterIdle l report s = transition l .blocked (queueLine .blocked l [])
      ((transition l .idle report s).setBlockPending l false) := if_pos hpending
  rw [henter]
  exact hdone

/-- An entry into IDLE with no make running stays there. -/
theorem told_enterIdle_idle {report : State → State} {entries : State → List ReportEntry}
    (h : Reporting l report entries) (s : State) (hb : (s.line l).blockPending = false)
    (hm : (s.line l).timing.sense ≠ .mk) :
    Told l s ((s.line l).inState .idle .none none) (entries s ++ s.traceEntries l (s.line l).state .idle)
      (enterIdle l report s) := by
  have hidle := h.told s (new := .idle) rfl
  have hfields := hidle.record.fields
  have henter : enterIdle l report s = transition l .idle report s := by
    unfold enterIdle
    dsimp only
    rw [if_neg (by rw [hfields.2.2.2.1]; simpa [LineRecord.entering] using hb), if_neg]
    rw [hidle.record]
    exact hm
  rw [henter]
  exact hidle

/-- The hold of SEIZING is not yet confirmed (R28). -/
theorem handSeizeConfirmed_of_not_held {s : State} (h : s.seizeHeld l = false) : handSeizeConfirmed l s = s := by
  simp [handSeizeConfirmed, h]

/-- An entry into IDLE with a make running goes on to SEIZING (R37). -/
theorem told_enterIdle_seizing {report : State → State} {entries : State → List ReportEntry}
    (h : Reporting l report entries) (s : State) (hb : (s.line l).blockPending = false)
    (hm : (s.line l).timing.sense = .mk) (hshort : (s.line l).timing.edgeCount < seizeConfirmTicks s.profile) :
    Told l s ((s.line l).inState .seizing .none none) (entries s ++ s.traceEntries l (s.line l).state .idle
      ++ s.traceEntries l .idle .seizing) (enterIdle l report s) := by
  have hidle := h.told s (new := .idle) rfl
  have hfields := hidle.record.fields
  have hseizing := hidle.andThen (f := fun r => r.entering .seizing)
    (told_transition_id (transition l .idle report s) (new := .seizing) rfl) fun _ => rfl
  rw [hidle.traceEntries _ _ rfl, hfields.1] at hseizing
  have henter : enterIdle l report s = transition l .seizing id (transition l .idle report s) := by
    unfold enterIdle
    dsimp only
    rw [if_neg (by rw [hfields.2.2.2.1]; simpa [LineRecord.entering] using hb), if_pos (by rw [hidle.record]; exact hm)]
    refine handSeizeConfirmed_of_not_held ?_
    unfold State.seizeHeld
    rw [hseizing.profile, hseizing.record]
    simpa [LineRecord.entering, entryTiming, hm] using hshort
  rw [henter]
  exact hseizing

/-- No break stands at the clear threshold after an entry that keeps the edge count (R23). -/
theorem clearDue_of_short {s t : State} (h : Told l s r es t) (hs : r.timing.sense = (s.line l).timing.sense)
    (hc : r.timing.edgeCount = (s.line l).timing.edgeCount) (hshort : s.BreakShort l) : t.clearDue l = false := by
  unfold State.clearDue
  rw [h.profile, h.record]
  by_cases hb : (s.line l).timing.sense = .brk
  · have := hshort hb
    simp [hs, hc, hb, this]
  · simp [hs, hb]

/-- An entry into a call state with a short break, or none (R23). -/
theorem told_enterCall {report : State → State} {entries : State → List ReportEntry} (h : Reporting l report entries)
    (s : State) {new : LineState} (hn : new = .connected ∨ new = .parked) (hshort : s.BreakShort l) :
    Told l s ((s.line l).inState new .none none) (entries s ++ s.traceEntries l (s.line l).state new)
      (enterCall l new report s) := by
  have hring : new.isRing = false := by rcases hn with rfl | rfl <;> rfl
  have hin : (s.line l).entering new = (s.line l).inState new .none none := by rcases hn with rfl | rfl <;> rfl
  have hcall := h.told s hring
  rw [hin] at hcall
  have henter : enterCall l new report s = transition l new report s := by
    unfold enterCall handClearReached
    exact if_neg (by rw [clearDue_of_short hcall rfl rfl hshort]; exact Bool.false_ne_true)
  rw [henter]
  exact hcall

/-- A line that enters a call state with its break at the clear threshold goes on to IDLE with CLEAR (R23). -/
theorem told_enterCall_clear {report : State → State} {entries : State → List ReportEntry} (h : Reporting l report entries)
    (s : State) {new : LineState} (hn : new = .connected ∨ new = .parked) (hb : (s.line l).blockPending = false)
    (hbrk : (s.line l).timing.sense = .brk) (hlong : clearTicks s.profile ≤ (s.line l).timing.edgeCount) :
    Told l s ((s.line l).inState .idle .none none) (entries s ++ s.traceEntries l (s.line l).state new
      ++ (s.lineEntry l .clear [] :: s.traceEntries l new .idle)) (enterCall l new report s) := by
  have hring : new.isRing = false := by rcases hn with rfl | rfl <;> rfl
  have hin : (s.line l).entering new = (s.line l).inState new .none none := by rcases hn with rfl | rfl <;> rfl
  have hcall := h.told s hring
  rw [hin] at hcall
  have hfields := hcall.record.fields
  have hdue : (transition l new report s).clearDue l = true := by
    have hiscall : new.isCall = true := by rcases hn with rfl | rfl <;> rfl
    unfold State.clearDue
    rw [hcall.profile, hcall.record]
    simp [LineRecord.inState, hiscall, hbrk, hlong]
  have hidle := told_enterIdle_idle (Reporting.line (l := l) .clear []) (transition l new report s)
    (by rw [hfields.2.2.2.1]; exact hb) (by rw [hcall.record]; simp [LineRecord.inState, hbrk])
  have hdone := hcall.andThen (f := fun r => r.inState .idle .none none) hidle fun _ => rfl
  rw [hcall.lineEntry, hcall.traceEntries _ _ rfl, hfields.1] at hdone
  have henter : enterCall l new report s = enterIdle l (queueLine .clear l []) (transition l new report s) := if_pos hdue
  rw [henter]
  exact hdone

end Told

end Sys2Proof.Machine
end

section
/-! PROOFS. The line commands (R15, R16, R59 to R67, R157), each as the move it makes of the line addressed. -/

namespace Sys2Proof.Machine

variable {l : Line} {s t : State} {r : LineRecord} {es : List ReportEntry}

theorem endFrame_line (s : State) (ack : Bool) (l : Line) : (s.endFrame ack).line l = s.line l := rfl

/-- The reports of a move that a command makes behind its acknowledge slot. -/
theorem Told.reports_endFrame (k : Told l (s.endFrame true) r es t) : t.reports = s.reportsAfter es :=
  k.reports.trans (reportsAfter_congr (s := s) (t := s.endFrame true) rfl es)

theorem Told.exact_of_trace (k : Told l (s.endFrame true) r es t) (h : ∀ e ∈ es, e.cls = 3) :
    t.line l = r ∧ t.reports = s.reportsAfter es := ⟨k.exact h, k.reports_endFrame⟩

/-- A TRACE is of class 3 (R160). -/
theorem traceEntries_cls (s : State) (l : Line) (a b : LineState) : ∀ e ∈ s.traceEntries l a b, e.cls = 3 := by
  intro e he
  unfold State.traceEntries at he
  split at he
  · rw [List.mem_singleton.1 he]; rfl
  · cases he

theorem traces_cls (s : State) (l : Line) (a b c d : LineState) :
    ∀ e ∈ s.traceEntries l a b ++ s.traceEntries l c d, e.cls = 3 := fun e he =>
  (List.mem_append.1 he).elim (traceEntries_cls s l a b e) (traceEntries_cls s l c d e)

/-- What a line command answers that is taken for one line. -/
theorem answer_of_takes {h : CommandHeader} {mask : Octet} (ht : s.Takes h mask l) {act : Line → State → State} {u : State}
    (hu : act l (s.endFrame true) = u) :
    (.next (lineCommand h mask act s) : Host.Outcome State Fault Refusal) = .next u := by
  rw [lineCommand_of_takes ht, hu]

/-! ### STOP RING, RELEASE LINE and CONNECT -/

theorem stopRingLine_of_ring (h : (s.line l).state.isRing = true) : stopRingLine l s = enterIdle l id s := if_pos h

theorem stopRingLine_of_not_ring (h : (s.line l).state.isRing = false) : stopRingLine l s = s :=
  if_neg (by rw [h]; exact Bool.false_ne_true)

/-- RELEASE LINE parks a line in SEIZING or in a call state other than PARKED (R61). -/
def LineState.releases : LineState → Bool
  | .seizing | .dialTone | .dialing | .connected | .recallTone | .recallDialing => true
  | _ => false

theorem releaseLine_eq : releaseLine l s
    = if (s.line l).state.releases then enterCall l .parked id s else stopRingLine l s := by
  unfold releaseLine
  cases (s.line l).state <;> rfl

theorem releaseLine_of_ring (h : (s.line l).state.isRing = true) : releaseLine l s = enterIdle l id s := by
  rw [releaseLine_eq, if_neg, stopRingLine_of_ring h]
  cases hst : (s.line l).state <;> simp [hst, LineState.isRing, LineState.releases] at h ⊢

/-- Settles O12: both commands are an entry into IDLE with no report of its own. -/
theorem stopRingEndsTheRing : Obligations.StopRingEndsTheRing := by
  unfold Obligations.StopRingEndsTheRing
  intro h l s
  refine ⟨fun i hi hring => ?_, fun ht hring => congrArg Host.Outcome.next ?_⟩
  · have hexec : exec i s = .next (enterIdle l id (s.endFrame true)) := by
      rcases hi with ⟨rfl, ht⟩ | ⟨rfl, ht⟩
      · exact answer_of_takes ht (stopRingLine_of_ring hring)
      · exact answer_of_takes ht (releaseLine_of_ring hring)
    refine ⟨fun hm hb => ⟨_, hexec, ?_⟩, fun hm hshort hb => ⟨_, hexec, ?_⟩, fun hb => ⟨_, hexec, ?_⟩⟩
    · exact (told_enterIdle_idle (Reporting.none (l := l)) (s.endFrame true) hb hm).exact_of_trace (traceEntries_cls s l _ _)
    · exact (told_enterIdle_seizing (Reporting.none (l := l)) (s.endFrame true) hb hm hshort).exact_of_trace
        (traces_cls s l _ _ _ _)
    · have htold := told_enterIdle_blockPending (Reporting.none (l := l)) (s.endFrame true) hb
      refine ⟨htold.record, htold.reports_endFrame.trans ?_⟩
      rw [List.nil_append, List.append_assoc (s.traceEntries l _ _) [_]]
      rfl
  · exact (lineCommand_of_takes ht _).trans (stopRingLine_of_not_ring hring)

/-- Settles O13: CONNECT is an entry into CONNECTED with no report of its own, or a refusal. -/
theorem connectTakesDiallingLine : Obligations.ConnectTakesDiallingLine := by
  unfold Obligations.ConnectTakesDiallingLine
  intro h l s ht
  have hconnect : (s.line l).state.isDialling = true →
      exec (.connect h) s = .next (enterCall l .connected id (s.endFrame true)) := fun hd =>
    answer_of_takes ht (if_pos hd)
  refine ⟨fun hd hshort => ⟨_, hconnect hd, ?_⟩, fun hd hb hbrk hlong => ⟨_, hconnect hd, ?_⟩, fun hd => ?_⟩
  · exact (told_enterCall (Reporting.none (l := l)) (s.endFrame true) (.inl rfl) hshort).exact_of_trace
      (traceEntries_cls s l _ _)
  · have htold := told_enterCall_clear (Reporting.none (l := l)) (s.endFrame true) (.inl rfl) hb hbrk hlong
    refine ⟨htold.record, htold.reports_endFrame.trans ?_⟩
    rw [List.nil_append, List.append_assoc (s.traceEntries l _ _) [_]]
    rfl
  · exact answer_of_takes ht (if_neg (by rw [endFrame_line, hd]; exact Bool.false_ne_true))

/-- Settles O14: RELEASE LINE is an entry into PARKED with no report of its own, or nothing. -/
theorem releaseLineParks : Obligations.ReleaseLineParks := by
  unfold Obligations.ReleaseLineParks
  intro h l s ht
  refine ⟨fun hst hshort => ?_, fun hst => ?_⟩
  · have hreleases : (s.line l).state.releases = true := by
      rcases hst with h | h | h | h | h | h <;> rw [h] <;> rfl
    exact ⟨_, answer_of_takes ht (releaseLine_eq.trans (if_pos hreleases)),
      (told_enterCall (Reporting.none (l := l)) (s.endFrame true) (.inr rfl) hshort).exact_of_trace (traceEntries_cls s l _ _)⟩
  · have hnot : (s.line l).state.releases = false ∧ (s.line l).state.isRing = false := by
      rcases hst with h | h | h | h <;> rw [h] <;> exact ⟨rfl, rfl⟩
    refine answer_of_takes ht (releaseLine_eq.trans ?_)
    rw [if_neg (by rw [endFrame_line, hnot.1]; exact Bool.false_ne_true)]
    exact stopRingLine_of_not_ring hnot.2

/-! ### TONE -/

/-- Settles O15: TONE is a tone selection, or a refusal. -/
theorem toneSetsTheSelection : Obligations.ToneSetsTheSelection := by
  unfold Obligations.ToneSetsTheSelection
  intro h v l s ht
  refine ⟨fun hst => ?_, fun hc hp => ?_⟩
  · have htone : toneLine (toneOf v) l (s.endFrame true) = setTone l (toneOf v) (s.endFrame true) :=
      if_pos (by rcases hst with h | h <;> simp [h])
    have htold := told_setTone l (s.endFrame true) (toneOf v)
    exact ⟨_, answer_of_takes ht htone, htold.line, htold.reports⟩
  · exact answer_of_takes ht (if_neg (by simp [hc, hp]))

/-! ### BLOCK -/

/-- A report and the change to BLOCKED or FAULT behind it, block-pending cleared (R46, R63, R64, R68). -/
theorem told_outOfUse (s : State) {new : LineState} (hn : new = .blocked ∨ new = .fault) (code : ReportCode) (v : List Octet) :
    Told l s ((s.line l).outOfUse new) (s.lineEntry l code v :: s.traceEntries l (s.line l).state new)
      (transition l new (queueLine code l v) (s.setBlockPending l false)) := by
  have hring : new.isRing = false := by rcases hn with rfl | rfl <;> rfl
  have hin : ({ s.line l with blockPending := false } : LineRecord).entering new = (s.line l).outOfUse new := by
    rcases hn with rfl | rfl <;> rfl
  have hclear := told_setBlockPending (l := l) s false
  have hentered := told_transition_report (l := l) (s.setBlockPending l false) hring code v
  have hdone := hclear.andThen (f := fun r => r.entering new) hentered fun _ => rfl
  rw [hclear.lineEntry, hclear.traceEntries _ _ rfl, hclear.line, hin] at hdone
  exact hdone

/-- Settles O16: a polite BLOCK of a busy line is an edit of its flag, the other BLOCKs a change to BLOCKED. -/
theorem blockPolitelyOrAtOnce : Obligations.BlockPolitelyOrAtOnce := by
  unfold Obligations.BlockPolitelyOrAtOnce
  intro h form l s ht
  refine ⟨fun hst => ?_, fun hi hb hf => ?_, fun hform hb hf => ?_, fun hst => ?_⟩
  · have hact : blockPoliteLine l (s.endFrame true)
        = transition l .blocked (queueLine .blocked l []) (s.endFrame true) := by
      simp only [blockPoliteLine, State.endFrame_eq, State.line_setBus, hst]
    have htold := told_transition_report (l := l) (s.endFrame true) (new := .blocked) rfl .blocked []
    have hreports := htold.reports_endFrame
    obtain ⟨hs, htone, -, -, -, htiming, -⟩ := htold.record.fields
    refine ⟨_, answer_of_takes ht hact, hs, htiming, htone, hreports.trans ?_⟩
    show s.reportsAfter (_ :: s.traceEntries l (s.line l).state .blocked) = _
    rw [hst]
    rfl
  · have hact : blockPoliteLine l (s.endFrame true) = (s.endFrame true).setBlockPending l true := by
      unfold blockPoliteLine
      split
      · exact absurd ‹_› hi
      · exact absurd ‹_› hb
      · exact absurd ‹_› hf
      · rfl
    exact ⟨_, answer_of_takes ht hact, (told_setBlockPending (s.endFrame true) true).line, rfl, rfl⟩
  · have hout : (s.line l).state.outOfService = false := outOfService_eq_false_iff.2 ⟨hb, hf⟩
    have hact : (if form = 0 then blockPoliteLine else blockForcedLine) l (s.endFrame true)
        = transition l .blocked (queueLine .blocked l []) ((s.endFrame true).setBlockPending l false) := by
      rw [if_neg hform]
      exact if_neg (by rw [endFrame_line, hout]; exact Bool.false_ne_true)
    have htold := told_outOfUse (l := l) (s.endFrame true) (.inl rfl) .blocked []
    exact ⟨_, answer_of_takes ht hact, htold.record, htold.reports_endFrame⟩
  · have hout : (s.line l).state.outOfService = true := outOfService_eq_true_iff.2 hst
    have hpolite : blockPoliteLine l (s.endFrame true) = s.endFrame true := by
      rcases hst with hst | hst <;> simp only [blockPoliteLine, State.endFrame_eq, State.line_setBus, hst]
    have hforced : blockForcedLine l (s.endFrame true) = s.endFrame true := if_pos hout
    refine ⟨answer_of_takes ht hpolite, answer_of_takes ht ?_⟩
    split
    · exact hpolite
    · exact hforced

/-! ### UNBLOCK -/

/-- The values of LINE STATE outside the ring states (R161). -/
theorem lineStateValues_of_no_ring {r : LineRecord} (h : r.ring = none) : lineStateValues r
    = [stateOctet r.state, circuitOctet r.circuit, toneOctet r.tone,
        octet ((if r.watch then 1 else 0) + (if r.blockPending then 2 else 0) + (if r.resyncDue then 4 else 0))] := by
  simp [lineStateValues, h]

/-- The state to which UNBLOCK returns a line, by the hook state presented to it (R35, R65). -/
def servedState (h : Option Hook) : LineState := if h = some .offHook then .parked else .idle

/-- The sense that UNBLOCK reads from the circuit (R35). -/
def servedSense : Option Hook → Sense
  | some .offHook => .mk
  | some .onHook => .brk
  | none => .none

theorem returnToService_eq (l : Line) (s : State) : returnToService l s
    = transition l (servedState (s.presentedTo l)) (queueLineState l)
        (s.setTiming l { Timing.fresh with sense := servedSense (s.presentedTo l) }) := by
  unfold returnToService
  rcases s.presentedTo l with _ | _ | _ <;> rfl

/-- A return to service writes a fresh timing context with the sense read, and reports the line (R35, R65, R66). -/
theorem told_returnToService (l : Line) (s : State) : Told l s
    (({ s.line l with
        timing := { Timing.fresh with sense := servedSense (s.presentedTo l) } }).entering (servedState (s.presentedTo l)))
    (s.lineEntry l .lineState [stateOctet (servedState (s.presentedTo l)), circuitOctet (s.line l).circuit, 0, s.flagsOctet l]
      :: s.traceEntries l (s.line l).state (servedState (s.presentedTo l)))
    (returnToService l s) := by
  have hring : (servedState (s.presentedTo l)).isRing = false := by unfold servedState; split <;> rfl
  have htiming := told_setTiming (l := l) s { Timing.fresh with sense := servedSense (s.presentedTo l) }
  have hstate := told_transition_lineState (l := l)
    (s.setTiming l { Timing.fresh with sense := servedSense (s.presentedTo l) }) hring
  have hdone := htiming.andThen (f := fun r => r.entering (servedState (s.presentedTo l))) hstate fun _ => rfl
  rw [htiming.lineEntry, htiming.traceEntries _ _ rfl, htiming.line, List.nil_append,
    lineStateValues_of_no_ring (by unfold LineRecord.entering; rw [if_neg (by rw [hring]; exact Bool.false_ne_true)])] at hdone
  have htone : toneOctet (entryTone (servedState (s.presentedTo l))) = 0 := by unfold servedState; split <;> rfl
  rw [returnToService_eq, ← htone]
  exact hdone

theorem presentedTo_congr (hl : (t.line l).circuit = (s.line l).circuit) (hc : ∀ c, (t.circuit c).hook = (s.circuit c).hook) :
    t.presentedTo l = s.presentedTo l := by
  unfold State.presentedTo
  rw [hl]
  cases (s.line l).circuit with
  | none => rfl
  | some c => simp only [Circuit.presented, hc]

theorem entering_served_timing (r : LineRecord) (h : Option Hook) (hr : r.timing = { Timing.fresh with sense := servedSense h }) :
    (r.entering (servedState h)).timing = { Timing.fresh with sense := servedSense h } := by
  unfold servedState
  split <;> simp [LineRecord.entering, entryTiming, hr, Timing.fresh]

/-- Settles O17: block-pending is cleared, and a BLOCKED line returned to service. -/
theorem unblockReturnsABlockedLine : Obligations.UnblockReturnsABlockedLine := by
  unfold Obligations.UnblockReturnsABlockedLine
  intro h l s ht
  refine ⟨fun hst => ?_, fun hb hf => ?_⟩
  · have hact : unblockLine l (s.endFrame true) = returnToService l ((s.endFrame true).setBlockPending l false) := by
      simp only [unblockLine, State.endFrame_eq, State.line_setBus, hst]
    have hclear := told_setBlockPending (l := l) (s.endFrame true) false
    have hserve := told_returnToService l ((s.endFrame true).setBlockPending l false)
    have hpresented : ((s.endFrame true).setBlockPending l false).presentedTo l = s.presentedTo l :=
      presentedTo_congr (by rw [hclear.line]; rfl) fun _ => rfl
    rw [hpresented, hclear.line, hclear.lineEntry, hclear.traceEntries _ _ rfl] at hserve
    have hfields := hserve.record.fields
    obtain ⟨h1, h2, h3, h4, h5, h6, -⟩ := hfields
    rw [entering_served_timing _ (s.presentedTo l) rfl] at h6
    refine ⟨_, answer_of_takes ht hact, h1, ?_, by rw [h6]; rfl, by rw [h6]; rfl, by rw [h6]; rfl, by rw [h6]; rfl, h4,
      h2.trans (by unfold LineRecord.entering servedState; dsimp only; split <;> rfl), h5, h3, ?_⟩
    · rw [h6]
      show servedSense (s.presentedTo l) = _
      unfold servedSense
      rcases s.presentedTo l with _ | _ | _ <;> rfl
    · refine hserve.reports.trans ((reportsAfter_congr (s := s)
        (t := (s.endFrame true).setBlockPending l false) rfl _).trans ?_)
      show s.reportsAfter (s.lineEntry l .lineState [_, _, _, _] :: s.traceEntries l (s.line l).state _) = _
      have hoctet : stateOctet (servedState (s.presentedTo l)) = if s.presentedTo l = some .offHook then 7 else 0 := by
        unfold servedState
        split <;> rfl
      rw [hst, hoctet]
      rfl
  · have hact : unblockLine l (s.endFrame true) = (s.endFrame true).setBlockPending l false := by
      unfold unblockLine
      split
      · exact absurd ‹_› hb
      · exact absurd ‹_› hf
      · rfl
    exact answer_of_takes ht hact

/-- A change of state that ends in a LINE STATE queued in a queue with room leaves no resync-due flag (R165). -/
theorem transition_lineState_line_of_room {s : State} {new : LineState} (h : s.reports.length < 32) :
    (transition l new (queueLineState l) s).line l = { (s.line l).entering new with resyncDue := false } := by
  have hroom : (enterState l new s).reports.length < 32 := by rwa [enterState_reports]
  rw [transition_line, queueLineState_of_room hroom, State.clearResync_eq, State.line_setLine_self,
    State.line_congr (queueReport_lines_of_room hroom _), enterState_line_self]

/-- Settles O18: refused by the two tests of R66, or rewritten fresh and returned to service. -/
theorem unblockOfAFaultedLine : Obligations.UnblockOfAFaultedLine := by
  unfold Obligations.UnblockOfAFaultedLine
  intro h l s ht hf
  refine ⟨fun hc => ?_, fun c hc ha => ?_, fun c hc ha hroom => ?_⟩
  · have hact : unblockLine l (s.endFrame true) = refuse l 7 5 (s.endFrame true) := by
      simp only [unblockLine, State.endFrame_eq, State.line_setBus, hf, hc]
    exact answer_of_takes ht hact
  · exact answer_of_takes ht (unblockLine_of_asserted (s := s.endFrame true) hf hc ha)
  · have hclears : (s.endFrame true).Clears l c := ⟨hf, hc, ha⟩
    have hself : (rewriteFaulted l c (s.endFrame true)).line l = { LineRecord.fresh (some c) with state := .fault } :=
      State.line_setLine_self ..
    have hhook : ∀ d, ((rewriteFaulted l c (s.endFrame true)).circuit d).hook = (s.circuit d).hook := fun d => by
      show (((s.endFrame true).setCircuit c _).circuit d).hook = _
      rw [State.circuit_setCircuit]
      split
      · subst d; rfl
      · rfl
    have hpresented : (rewriteFaulted l c (s.endFrame true)).presentedTo l = s.presentedTo l :=
      presentedTo_congr (by rw [hself, hc]; rfl) hhook
    have hserve := told_returnToService l (rewriteFaulted l c (s.endFrame true))
    have hmark := congrFun (unblockLine_clears hclears).1 c
    refine ⟨_, answer_of_takes ht rfl, ?_, ?_, ?_⟩
    · simpa [State.marks] using hmark
    · rw [unblockLine_of_clears hclears, returnToService_eq, transition_lineState_line_of_room (by exact hroom), hpresented,
        State.setTiming_eq, State.line_setLine_self, hself]
      unfold servedState servedSense
      rcases s.presentedTo l with _ | _ | _ <;> rfl
    · rw [unblockLine_of_clears hclears]
      refine hserve.reports.trans ((reportsAfter_congr (s := s)
        (t := rewriteFaulted l c (s.endFrame true)) rfl _).trans ?_)
      have hwatch : (rewriteFaulted l c (s.endFrame true)).traceEntries l
          ((rewriteFaulted l c (s.endFrame true)).line l).state
          (servedState ((rewriteFaulted l c (s.endFrame true)).presentedTo l)) = [] :=
        if_neg (by rw [hself]; exact Bool.false_ne_true)
      have hflags : (rewriteFaulted l c (s.endFrame true)).flagsOctet l = 0 := by
        unfold State.flagsOctet
        rw [hself]
        rfl
      have hoctet : stateOctet (servedState (s.presentedTo l)) = if s.presentedTo l = some .offHook then 7 else 0 := by
        unfold servedState
        split <;> rfl
      rw [hwatch, hflags, hself, hpresented, hoctet]
      rfl

end Sys2Proof.Machine
end

section
/-! PROOFS. REMAP, WATCH, QUERY LINE and RING (R13, R15, R16, R55, R67, R109, R157). -/

namespace Sys2Proof.Machine

variable {l : Line} {s t : State}

/-! ### REMAP -/

theorem remapTarget_eq_some {v : Octet} {c : CircuitNo} (h : c.val = v.toNat) : remapTarget v = some c := by
  have hlt : v.toNat < 18 := h ▸ c.isLt
  unfold remapTarget
  rw [dif_pos hlt]
  exact congrArg some (Fin.ext h.symm)

theorem remapTarget_eq_none {v : Octet} (h : 17 < v.toNat) : remapTarget v = none := dif_neg (by omega)

/-- The tests of R15 in their order. -/
theorem remapLine_of_no_target {v : Octet} (ho : (s.line l).state.outOfService = true) (hv : remapTarget v = none) :
    remapLine v l s = refuse l 8 5 s := by
  simp [remapLine, ho, hv]

theorem remapLine_of_target {v : Octet} {c : CircuitNo} (ho : (s.line l).state.outOfService = true)
    (hv : remapTarget v = some c) : remapLine v l s = if (s.owner c).isSome then refuse l 8 5 s
      else if (s.circuit c).faultMark then refuse l 8 5 s else moveToCircuit c l s := by
  simp [remapLine, ho, hv]

theorem remapLine_refused {v : Octet} (ho : (s.line l).state.outOfService = true)
    (h : 17 < v.toNat ∨ (∃ m, ∃ c, (s.line m).circuit = some c ∧ c.val = v.toNat)
      ∨ ∃ c : CircuitNo, c.val = v.toNat ∧ (s.circuit c).faultMark = true) : remapLine v l s = refuse l 8 5 s := by
  rcases h with h | ⟨m, c, hm, hc⟩ | ⟨c, hc, hmark⟩
  · exact remapLine_of_no_target ho (remapTarget_eq_none h)
  · have howned : (s.owner c).isSome = true := by
      rw [Option.isSome_iff_ne_none]
      exact fun hnone => owner_eq_none_iff.1 hnone m hm
    rw [remapLine_of_target ho (remapTarget_eq_some hc), if_pos howned]
  · rw [remapLine_of_target ho (remapTarget_eq_some hc), if_pos hmark, ite_self]

theorem remapLine_passes {v : Octet} {c : CircuitNo} (ho : (s.line l).state.outOfService = true) (hc : c.val = v.toNat)
    (hfree : ∀ m, (s.line m).circuit ≠ some c) (hmark : (s.circuit c).faultMark = false) :
    remapLine v l s = moveToCircuit c l s := by
  rw [remapLine_of_target ho (remapTarget_eq_some hc),
    if_neg (by rw [owner_eq_none_iff.2 hfree]; exact Bool.false_ne_true), if_neg (by rw [hmark]; exact Bool.false_ne_true)]

/-- A line in BLOCKED or FAULT holds its circuit cut off (R2). -/
theorem outputs_of_outOfService {c : CircuitNo} (hat : t.OutputsAt c) (hrun : t.running = true) (ho : t.owner c = some l)
    (hl : (t.line l).state = .blocked ∨ (t.line l).state = .fault) :
    (t.circuit c).ringRelay = false ∧ (t.circuit c).dialSwitch = false ∧ (t.circuit c).specialSwitch = false
      ∧ (t.circuit c).cutOff = true := by
  unfold State.OutputsAt State.OutputsOf at hat
  rw [if_neg (by rcases running_iff.1 hrun with h | h <;> rw [h] <;> decide), ho] at hat
  exact (if_pos hl).mp hat

theorem recomposeLeft_keeps (s : State) (left : Option CircuitNo) (c : CircuitNo) :
    ((s.recomposeLeft left).circuit c).hook = (s.circuit c).hook
      ∧ ((s.recomposeLeft left).circuit c).fault = (s.circuit c).fault
      ∧ ((s.recomposeLeft left).circuit c).faultMark = (s.circuit c).faultMark := by
  rw [recomposeLeft_circuit]
  split
  · exact composed_keeps s c
  · exact ⟨rfl, rfl, rfl⟩

/-- The one line that maps a circuit owns it (R8, R11). -/
theorem owner_eq_some {c : CircuitNo} (hl : (s.line l).circuit = some c) (h : ∀ m, (s.line m).circuit = some c → m = l) :
    s.owner c = some l := by
  cases ho : s.owner c with
  | none => exact absurd hl (owner_eq_none_iff.1 ho l)
  | some m => rw [h m (by simpa [State.owner] using List.find?_some ho)]

/-- The record that a REMAP writes before the change to BLOCKED (R16). -/
def State.remapped (s : State) (l : Line) (c : CircuitNo) : State :=
  s.setLine l { s.line l with circuit := some c, timing := Timing.fresh, ring := none }

/-- A REMAP that passes: the record, the reports, the filters, and the target cut off (R13, R16). -/
theorem moveToCircuit_spec {c : CircuitNo} (hrun : s.running = true) (hfree : ∀ m, (s.line m).circuit ≠ some c)
    {es : List ReportEntry} {report : State → State}
    (hreport : report = if (s.line l).state = .fault then queueLine .blocked l [] else queueLineState l)
    (htold : Told l (s.remapped l c) (((s.remapped l c).line l).entering .blocked) es
      (transition l .blocked report (s.remapped l c))) :
    SameButResync (((s.remapped l c).line l).entering .blocked) ((moveToCircuit c l s).line l)
      ∧ (moveToCircuit c l s).reports = s.reportsAfter es
      ∧ (∀ d, ((moveToCircuit c l s).circuit d).hook = (s.circuit d).hook
          ∧ ((moveToCircuit c l s).circuit d).fault = (s.circuit d).fault
          ∧ ((moveToCircuit c l s).circuit d).faultMark = (s.circuit d).faultMark)
      ∧ ((moveToCircuit c l s).circuit c).ringRelay = false ∧ ((moveToCircuit c l s).circuit c).cutOff = true := by
  have hmove : moveToCircuit c l s
      = (transition l .blocked report (s.remapped l c)).recomposeLeft (s.line l).circuit := by rw [hreport]; rfl
  have hself : (s.remapped l c).line l = { s.line l with circuit := some c, timing := Timing.fresh, ring := none } :=
    State.line_setLine_self ..
  have hrecord : SameButResync (((s.remapped l c).line l).entering .blocked) ((moveToCircuit c l s).line l) := by
    rw [hmove, recomposeLeft_line]
    exact htold.record
  have hfields := hrecord.fields
  refine ⟨hrecord, ?_, fun d => ?_, ?_⟩
  · rw [hmove, recomposeLeft_reports]
    exact htold.reports.trans (reportsAfter_congr (s := s) (t := s.remapped l c) rfl es)
  · obtain ⟨h1, h2, h3⟩ := recomposeLeft_keeps (transition l .blocked report (s.remapped l c)) (s.line l).circuit d
    obtain ⟨k1, k2, k3⟩ := htold.path.lineMove.filters d
    rw [hmove]
    exact ⟨h1.trans k1, h2.trans k2, h3.trans k3⟩
  · have honly : ∀ u, OnlyReports u (report u) := fun u => by
      rw [hreport]
      split
      · exact onlyReports_queueLine ..
      · exact onlyReports_queueLineState ..
    have hat : (moveToCircuit c l s).OutputsAt c := by
      rw [hmove]
      refine outputsAt_recomposeLeft _ fun _ => outputsAt_onlyReports (onlyReports_traceChange ..)
        (outputsAt_onlyReports (honly _) (outputsAt_enterState l .blocked fun hne => absurd ?_ hne))
      rw [hself]
    have hrunning : (moveToCircuit c l s).running = true := by
      unfold State.running
      rw [lineWork_remap c l s]
      exact hrun
    have howner : (moveToCircuit c l s).owner c = some l := by
      refine owner_eq_some (by rw [hfields.2.2.2.2.1, hself]; rfl) fun m hm => by_contra fun hml => hfree m ?_
      rw [hmove, recomposeLeft_line, (htold.path.lineMove.fields m).1] at hm
      rwa [State.remapped, State.line_setLine_ne _ hml] at hm
    obtain ⟨hrelay, -, -, hcut⟩ := outputs_of_outOfService hat hrunning howner (.inl hfields.1)
    exact ⟨hrelay, hcut⟩

/-- Settles O19: the tests of R15 one by one, and the move of R16. -/
theorem remapMovesTheLine : Obligations.RemapMovesTheLine := by
  unfold Obligations.RemapMovesTheLine
  intro h target l s ht
  refine ⟨fun hb hf => ?_, fun hout hno => ?_, fun c hout hc hfree hmark => ?_⟩
  · have hin : (s.line l).state.outOfService = false := outOfService_eq_false_iff.2 ⟨hb, hf⟩
    exact answer_of_takes ht (if_pos (by rw [endFrame_line, hin]; rfl))
  · exact answer_of_takes ht (remapLine_refused (s := s.endFrame true) (outOfService_eq_true_iff.2 hout) hno)
  · have hpasses := remapLine_passes (s := s.endFrame true) (outOfService_eq_true_iff.2 hout) hc hfree hmark
    have hself : ((s.endFrame true).remapped l c).line l
        = { s.line l with circuit := some c, timing := Timing.fresh, ring := none } := State.line_setLine_self ..
    have hwatch : ∀ a b, ((s.endFrame true).remapped l c).traceEntries l a b = s.traceEntries l a b := fun a b =>
      traceEntries_congr l a b (by rw [hself]) rfl
    have hrun : s.running = true := ht.2.2.2.1
    refine ⟨_, answer_of_takes ht hpasses, ?_⟩
    rcases hout with hst | hst
    · have htold := told_transition_lineState (l := l) ((s.endFrame true).remapped l c) (new := .blocked) rfl
      obtain ⟨hrecord, hreports, hfilters, hrelay, hcut⟩ := moveToCircuit_spec (s := s.endFrame true) hrun hfree
        (if_neg (by rw [endFrame_line, hst]; decide)).symm htold
      obtain ⟨h1, h2, h3, -, h5, h6, h7, -⟩ := hrecord.fields
      rw [hself] at h2 h3 h5 h6 h7
      refine ⟨h5, h1, h6, h2, h7, h3, hcut, hrelay, fun d => ?_, fun hf => ?_, fun _ => ?_⟩
      · obtain ⟨k1, k2, k3⟩ := hfilters d
        exact ⟨k3, k1, k2⟩
      · rw [hst] at hf; cases hf
      · refine hreports.trans ((reportsAfter_congr (s := s) (t := s.endFrame true) rfl _).trans ?_)
        rw [hwatch, hself, lineStateValues_of_no_ring rfl]
        show s.reportsAfter (_ :: s.traceEntries l (s.line l).state .blocked) = _
        rw [hst]
        rfl
    · have htold := told_transition_report (l := l) ((s.endFrame true).remapped l c) (new := .blocked) rfl .blocked []
      obtain ⟨hrecord, hreports, hfilters, hrelay, hcut⟩ := moveToCircuit_spec (s := s.endFrame true) hrun hfree
        (if_pos (by rw [endFrame_line, hst])).symm htold
      obtain ⟨h1, h2, h3, -, h5, h6, h7, -⟩ := hrecord.fields
      rw [hself] at h2 h3 h5 h6 h7
      refine ⟨h5, h1, h6, h2, h7, h3, hcut, hrelay, fun d => ?_, fun _ => ?_, fun hb => ?_⟩
      · obtain ⟨k1, k2, k3⟩ := hfilters d
        exact ⟨k3, k1, k2⟩
      · refine hreports.trans ((reportsAfter_congr (s := s) (t := s.endFrame true) rfl _).trans ?_)
        rw [hwatch, hself]
        show s.reportsAfter (_ :: s.traceEntries l (s.line l).state .blocked) = _
        rw [hst]
        rfl
      · rw [hst] at hb; cases hb

/-! ### WATCH and QUERY LINE -/

/-- The values of LINE STATE in a ring state (R161). -/
theorem lineStateValues_of_ring {r : LineRecord} {c : RingContext} (h : r.ring = some c) (hs : r.state.isRing = true) :
    lineStateValues r = [stateOctet r.state, circuitOctet r.circuit, toneOctet r.tone,
        octet ((if r.watch then 1 else 0) + (if r.blockPending then 2 else 0) + (if r.resyncDue then 4 else 0))]
      ++ ringOctets c := by
  simp [lineStateValues, h, hs]

/-- Settles O20: an edit of the flag, and a LINE STATE in a queue with room. -/
theorem watchAndQueryLine : Obligations.WatchAndQueryLine := by
  unfold Obligations.WatchAndQueryLine
  intro h l s ht
  refine ⟨fun v => answer_of_takes ht rfl, fun hroom hring => ?_⟩
  have hquery := queueLineState_of_room (s := s.endFrame true) (by exact hroom) l
  have hlines := queueReport_lines_of_room (s := s.endFrame true) (by exact hroom) ((s.endFrame true).lineStateReport l)
  have hreports : (queueLineState l (s.endFrame true)).reports = s.reportsAfter [s.lineStateReport l] := by
    rw [hquery]
    exact queueReport_reports_congr (s := s) (t := s.endFrame true) rfl _
  refine ⟨_, answer_of_takes ht rfl, ?_, ?_, fun hnone => ?_, fun r hr => ?_⟩
  · rw [hquery, State.clearResync_eq, State.line_setLine_self, State.line_congr hlines]
    rfl
  · rw [hquery, State.clearResync_eq, State.setLine_circuits, (onlyReports_queueReport _ _).eq]
    rfl
  · rw [hreports, State.lineStateReport, lineStateValues_of_no_ring hnone]
    rfl
  · have hisring : (s.line l).state.isRing = true := by rw [← hring.context l, hr]; rfl
    rw [hreports, State.lineStateReport, lineStateValues_of_ring hr hisring]
    rfl

/-! ### RING -/

theorem attemptPlacement_of_not (h : s.mayAttempt = false) : attemptPlacement s = s := by
  simp [attemptPlacement, h]

/-- The state in which a RING has queued its line, before the placement attempt (R55, R109). -/
def State.ringQueued (s : State) (l : Line) (c : RingContext) : State :=
  (transition l .ringQueued id (s.setRing l c)).queueNew l

theorem takeRing_eq (c : RingContext) (l : Line) (s : State) :
    takeRing c l s = handSeizeConfirmed l (attemptPlacement (s.ringQueued l c)) := rfl

section RingQueued
variable (l : Line) (s : State) (c : RingContext)

/-- The record of a line that a RING queues. -/
def LineRecord.queued (r : LineRecord) (c : RingContext) : LineRecord :=
  { r with state := .ringQueued, tone := .none, ring := some c, timing := { r.timing with pulseCount := 0, stateTimer := none } }

theorem ringQueued_line (m : Line) :
    (s.ringQueued l c).line m = if m = l then (s.line l).queued c else s.line m := by
  have hunit : (s.ringQueued l c).line m = (transition l .ringQueued id (s.setRing l c)).line m := rfl
  rw [hunit, transition, traceChange_line, id, State.setRing_eq, enterState_line, State.line_setLine_self, State.line_setLine]
  split <;> rfl

theorem ringQueued_ring (h : (s.line l).state.isRing = false) :
    (transition l .ringQueued id (s.setRing l c)).ringUnit = s.ringUnit
      ∧ (s.ringQueued l c).table = s.table := by
  have hring : ((s.setRing l c).line l).state.isRing = false := by rw [State.setRing_eq, State.line_setLine_self]; exact h
  exact transition_id_ring l .ringQueued (s.setRing l c) (.inl hring)

/-- What a RING that queues its line leaves. -/
theorem ringQueued_eq : s.ringQueued l c = { s with
    lines := (s.ringQueued l c).lines, circuits := (s.ringQueued l c).circuits, ringUnit := (s.ringQueued l c).ringUnit
    reports := (s.ringQueued l c).reports
    table := { s.table with ownRow := (s.ringQueued l c).table.ownRow } } := by
  have hwork : LineWork s (transition l .ringQueued id (s.setRing l c)) :=
    ((lineWork_setLine s l _).trans (lineWork_enterState l .ringQueued _)).trans (onlyReports_traceChange ..).lineWork
  have hqueue : LineWork s (s.ringQueued l c) := hwork.trans rfl
  exact hqueue

/-- The queue after a RING's entry, by its class (R109). -/
theorem ringQueued_queue (h : (s.line l).state.isRing = false) :
    (s.ringQueued l c).ringUnit = { s.ringUnit with 
      queue := if c.priority then (s.ringQueued l c).afterPriority l s.ringUnit.queue else s.ringUnit.queue ++ [l] } := by
  have hunit := (ringQueued_ring l s c h).1
  have hprio : (transition l .ringQueued id (s.setRing l c)).isPriority l = c.priority := by
    have hline := ringQueued_line l s c l
    rw [if_pos rfl] at hline
    have hline : (transition l .ringQueued id (s.setRing l c)).line l = (s.line l).queued c := hline
    unfold State.isPriority
    rw [hline]
    rfl
  unfold State.ringQueued State.queueNew
  rw [hprio, hunit]
  rfl

theorem ringQueued_reports (h : (s.line l).state = .idle) :
    (s.ringQueued l c).reports = s.reportsAfter (s.traceEntries l .idle .ringQueued) := by
  have hring : ((s.setRing l c).line l).state = .idle := by rw [State.setRing_eq, State.line_setLine_self]; exact h
  have hreports := transition_reports l .ringQueued id (s.setRing l c) onlyReports_id [] (enterState_reports ..)
  rw [hring] at hreports
  refine hreports.trans ((reportsAfter_congr (s := s) (t := s.setRing l c) rfl _).trans ?_)
  have hwatch : ((s.setRing l c).line l).watch = (s.line l).watch := by rw [State.setRing_eq, State.line_setLine_self]
  rw [List.nil_append, traceEntries_congr (s := s) (t := s.setRing l c) l _ _ hwatch rfl]

theorem seizeHeld_congr {s t : State} {l : Line} (hs : (t.line l).timing.sense = (s.line l).timing.sense)
    (hc : (t.line l).timing.edgeCount = (s.line l).timing.edgeCount) (hp : t.profile = s.profile) :
    t.seizeHeld l = s.seizeHeld l := by
  unfold State.seizeHeld
  rw [hs, hc, hp]

theorem ringQueued_profile : (s.ringQueued l c).profile = s.profile := by
  rw [ringQueued_eq]
  rfl

theorem ringQueued_seizeHeld : (s.ringQueued l c).seizeHeld l = s.seizeHeld l := by
  have hline := ringQueued_line l s c l
  rw [if_pos rfl] at hline
  exact seizeHeld_congr (by rw [hline]; rfl) (by rw [hline]; rfl) (ringQueued_profile l s c)

end RingQueued

/-- A RING on a line that is not IDLE is refused, by the state (R55). -/
theorem ringLine_refused {p1 p2 : Octet} (h : (s.line l).state ≠ .idle) : ringLine p1 p2 l s
    = refuse l 1 (if (s.line l).state = .blocked then 3 else if (s.line l).state = .fault then 4 else 1) s := by
  unfold ringLine
  cases hst : (s.line l).state
  case idle => exact absurd hst h
  all_goals rfl

theorem ringLine_of_idle {p1 p2 : Octet} (h : (s.line l).state = .idle) :
    ringLine p1 p2 l s = takeRing (ringContextOf p1 p2) l s := by
  simp only [ringLine, h]

theorem ringContextOf_code (p1 p2 : Octet) : (ringContextOf p1 p2).code.val
    = if 3 < highHalf p1 ∨ (highHalf p1 = 3 ∧ lowHalf p1 = 0) then 0 else highHalf p1 := by
  show (adjustedCode (highHalf p1) (lowHalf p1 ≠ 0)).val = _
  unfold adjustedCode
  by_cases h3 : highHalf p1 = 3
  · by_cases hl : lowHalf p1 = 0 <;> simp [h3, hl]
  · by_cases h4 : highHalf p1 < 4
    · have : ¬ 3 < highHalf p1 := by omega
      simp [h3, h4, this]
    · have : 3 < highHalf p1 := by omega
      simp [h3, h4, this]

/-- A line's entry stands behind the priority entries before it and ahead of the first routine one (R109). -/
theorem afterPriority_split {s t : State} {l : Line} {q : List Line}
    (h : ∀ m ∈ q, t.isPriority m = s.isPriority m) : ∃ front back, q = front ++ back
      ∧ t.afterPriority l q = front ++ l :: back ∧ (∀ m ∈ front, s.isPriority m = true)
      ∧ ∀ m ∈ back.head?, s.isPriority m = false := by
  refine ⟨q.takeWhile t.isPriority, q.dropWhile t.isPriority, List.takeWhile_append_dropWhile.symm, rfl, fun m hm => ?_,
    fun m hm => ?_⟩
  · rw [← h m ((List.takeWhile_prefix _).subset hm)]
    exact List.mem_takeWhile_imp hm
  · rw [← h m ((List.dropWhile_suffix _).subset (List.mem_of_mem_head? hm))]
    have hhead := List.head?_dropWhile_not t.isPriority q
    rw [Option.mem_def.1 hm] at hhead
    simpa using hhead

/-- A RING on an occasion with no placement attempt leaves its line queued (R55, R111). -/
theorem ringLine_of_no_attempt {p1 p2 : Octet} (hidle : (s.line l).state = .idle) (hno : s.mayAttempt = false)
    (hheld : s.seizeHeld l = false) : ringLine p1 p2 l s = s.ringQueued l (ringContextOf p1 p2) := by
  have hqueue := ringQueued_queue l s (ringContextOf p1 p2) (by rw [hidle]; rfl)
  have hstation : (s.ringQueued l (ringContextOf p1 p2)).station = s.station := by rw [ringQueued_eq]
  have hattempt : (s.ringQueued l (ringContextOf p1 p2)).mayAttempt = false := by
    unfold State.mayAttempt at hno ⊢
    rw [hstation, hqueue]
    exact hno
  rw [ringLine_of_idle hidle, takeRing_eq, attemptPlacement_of_not hattempt]
  exact handSeizeConfirmed_of_not_held ((ringQueued_seizeHeld ..).trans hheld)

/-- Settles O10: the queue entry of R109, or the refusal of R55. -/
theorem ringQueuesTheLine : Obligations.RingQueuesTheLine := by
  unfold Obligations.RingQueuesTheLine
  intro h p1 p2 l s ht
  refine ⟨fun hidle hno hheld => ?_, fun hst => answer_of_takes ht (ringLine_refused hst)⟩
  have hact := ringLine_of_no_attempt (p1 := p1) (p2 := p2) (s := s.endFrame true) hidle hno hheld
  have hqueue := ringQueued_queue l (s.endFrame true) (ringContextOf p1 p2) (by rw [endFrame_line, hidle]; rfl)
  have hline := ringQueued_line l (s.endFrame true) (ringContextOf p1 p2)
  have hreports := (ringQueued_reports l (s.endFrame true) (ringContextOf p1 p2) hidle).trans
    (reportsAfter_congr (s := s) (t := s.endFrame true) rfl _)
  refine ⟨_, answer_of_takes ht hact, ?_⟩
  generalize (s.endFrame true).ringQueued l (ringContextOf p1 p2) = t at hqueue hline hreports
  have hself := hline l
  rw [if_pos rfl] at hself
  refine ⟨by rw [hself]; rfl, by rw [hself]; rfl, ⟨ringContextOf p1 p2, by rw [hself]; rfl, rfl, ringContextOf_code p1 p2,
    rfl, rfl, rfl, rfl, rfl⟩, fun hlow => ?_, fun hlow => ?_, by rw [hqueue]; rfl, by rw [hqueue]; rfl, hreports⟩
  · have hroutine : (ringContextOf p1 p2).priority = false := by simpa [ringContextOf] using hlow
    rw [hqueue, if_neg (by rw [hroutine]; exact Bool.false_ne_true)]
    rfl
  · have hpriority : (ringContextOf p1 p2).priority = true := by simpa [ringContextOf] using hlow
    have hafter : t.ringUnit.queue = t.afterPriority l s.ringUnit.queue := by
      rw [hqueue, if_pos hpriority]
      rfl
    by_cases hl : l ∈ s.ringUnit.queue
    · exact ⟨_, _, List.takeWhile_append_dropWhile.symm, hafter, fun hn => absurd hl hn⟩
    · obtain ⟨front, back, hq, ha, hf, hb⟩ := afterPriority_split (s := s) (t := t) (l := l) (q := s.ringUnit.queue)
        fun m hm => by
          have hml : m ≠ l := by rintro rfl; exact hl hm
          simp only [State.isPriority, hline m, if_neg hml, endFrame_line]
      exact ⟨front, back, hq, hafter.trans ha, fun _ => ⟨hf, hb⟩⟩

end Sys2Proof.Machine
end

section
/-! PROOFS. The threshold events and the fault edges of the hook path (R9, R23, R28, R30 to R34, R46 to R57, R68). -/

namespace Sys2Proof.Machine

variable {l : Line} {s t : State}

/-! ### What each threshold event writes and reports -/

theorem entering_served {new : LineState} (h : new = .connected ∨ new = .parked) (r : LineRecord) :
    r.entering new = r.inState new .none none := by rcases h with rfl | rfl <;> rfl

theorem breakShort_of_make (h : (s.line l).timing.sense = .mk) : s.BreakShort l := fun hb => by rw [h] at hb; cases hb

/-- CLEAR-REACHED that is due (R23). -/
theorem told_handClearReached_idle (hdue : s.clearDue l = true) (hb : (s.line l).blockPending = false)
    (hbrk : (s.line l).timing.sense = .brk) : Told l s ((s.line l).inState .idle .none none)
      (s.lineEntry l .clear [] :: s.traceEntries l (s.line l).state .idle) (handClearReached l s) := by
  rw [handClearReached, if_pos hdue]
  exact told_enterIdle_idle (.line .clear []) s hb (by rw [hbrk]; decide)

theorem told_handClearReached_blocked (hdue : s.clearDue l = true) (hb : (s.line l).blockPending = true) :
    Told l s ((s.line l).outOfUse .blocked) (s.lineEntry l .clear [] :: s.traceEntries l (s.line l).state .idle
      ++ s.lineEntry l .blocked [] :: s.traceEntries l .idle .blocked) (handClearReached l s) := by
  rw [handClearReached, if_pos hdue]
  exact told_enterIdle_blockPending (.line .clear []) s hb

/-- SEIZE-CONFIRMED in SEIZING (R47). -/
theorem told_handSeizeConfirmed_seizing (hheld : s.seizeHeld l = true) (hst : (s.line l).state = .seizing) :
    Told l s ((s.line l).inState .dialTone .dial (some 0)) (s.lineEntry l .seize [] :: s.traceEntries l .seizing .dialTone)
      (handSeizeConfirmed l s) := by
  have htold := told_transition_report (l := l) s (new := .dialTone) rfl .seize []
  rw [hst] at htold
  rw [handSeizeConfirmed, if_pos hheld]
  simp only [hst]
  exact htold

/-- An answer before ring (R57). -/
theorem handSeizeConfirmed_of_ring (hheld : s.seizeHeld l = true)
    (hst : (s.line l).state = .ringQueued ∨ (s.line l).state = .ringClaiming ∨ (s.line l).state = .ringArmed) :
    handSeizeConfirmed l s = transition l .connected (queueLine .answer l [0]) s := by
  rw [handSeizeConfirmed, if_pos hheld]
  rcases hst with hst | hst | hst <;> simp only [hst]

theorem told_answer (s : State) (v : Octet) : Told l s ((s.line l).inState .connected .none none)
    (s.lineEntry l .answer [v] :: s.traceEntries l (s.line l).state .connected)
    (transition l .connected (queueLine .answer l [v]) s) := told_transition_report s (new := .connected) rfl .answer [v]

/-- TRIP-CONFIRMED that is due (R31, R57). -/
theorem told_handTripConfirmed (hdue : s.tripDue l = true) : Told l s ((s.line l).inState .connected .none none)
    (s.lineEntry l .answer [1] :: s.traceEntries l (s.line l).state .connected) (handTripConfirmed l s) := by
  rw [handTripConfirmed, if_pos hdue]
  exact told_answer s 1

/-- The report of a pulse count (R30). -/
def State.digitEntry (s : State) (l : Line) (pulses : Nat) : ReportEntry :=
  if pulses ≤ 10 then s.lineEntry l .digit [octet (pulses % 10)] else s.lineEntry l .digitError [octet pulses]

theorem queueDigit_eq (l : Line) (n : Nat) (s : State) : queueDigit l n s = s.queueReport (s.digitEntry l n) := by
  unfold queueDigit State.digitEntry
  split
  · have hdigit : (if n = 10 then 0 else n) = n % 10 := by split <;> omega
    rw [hdigit]
    rfl
  · rfl

/-- DIGIT-END that is due (R30). -/
theorem told_handDigitEnd (hdue : s.digitEndDue l = true) :
    Told l s { s.line l with timing := { (s.line l).timing with pulseCount := 0 } }
      [s.digitEntry l (s.line l).timing.pulseCount] (handDigitEnd l s) := by
  have hclear := told_setTiming (l := l) s { (s.line l).timing with pulseCount := 0 }
  have hreport := told_queueReport l (s.setTiming l { (s.line l).timing with pulseCount := 0 })
    (s.digitEntry l (s.line l).timing.pulseCount)
  have hdone := hclear.andThen (f := id) hreport fun _ => rfl
  rw [handDigitEnd, if_pos hdue, queueDigit_eq]
  exact hdone

/-- The state that an interdigit timeout enters (R49, R52). -/
def LineState.timedOut (st : LineState) : LineState := if st = .dialing then .parked else .connected

theorem LineState.timedOut_served (st : LineState) : st.timedOut = .connected ∨ st.timedOut = .parked := by
  unfold LineState.timedOut
  split
  · exact .inr rfl
  · exact .inl rfl

/-- The interdigit timeout that is due (R32). -/
theorem told_handInterdigitTimeout (hdue : s.interdigitDue l = true)
    (hst : (s.line l).state = .dialing ∨ (s.line l).state = .recallDialing) (hmk : (s.line l).timing.sense = .mk) :
    Told l s ((s.line l).inState (s.line l).state.timedOut .none none)
      (s.lineEntry l .dialTimeout [stateOctet (s.line l).state]
        :: s.traceEntries l (s.line l).state (s.line l).state.timedOut) (handInterdigitTimeout l s) := by
  have htold := told_enterCall (Reporting.line (l := l) .dialTimeout [stateOctet (s.line l).state]) s
    (s.line l).state.timedOut_served (breakShort_of_make hmk)
  have henter : handInterdigitTimeout l s
      = enterCall l (s.line l).state.timedOut (queueLine .dialTimeout l [stateOctet (s.line l).state]) s := by
    rw [handInterdigitTimeout, if_pos hdue]
    rcases hst with hst | hst <;> simp only [hst] <;> rfl
  rw [henter]
  exact htold

/-- The timeouts of the two tone states that are due (R34). -/
theorem told_handDialToneTimeout (hdue : s.dialToneDue l = true) (hshort : s.BreakShort l) :
    Told l s ((s.line l).inState .parked .none none)
      (s.lineEntry l .dialTimeout [2] :: s.traceEntries l (s.line l).state .parked) (handDialToneTimeout l s) := by
  rw [handDialToneTimeout, if_pos hdue]
  exact told_enterCall (.line .dialTimeout [2]) s (.inr rfl) hshort

theorem told_handRecallTimeout (hdue : s.recallDue l = true) (hshort : s.BreakShort l) :
    Told l s ((s.line l).inState .connected .none none)
      (s.lineEntry l .dialTimeout [5] :: s.traceEntries l (s.line l).state .connected) (handRecallTimeout l s) := by
  rw [handRecallTimeout, if_pos hdue]
  exact told_enterCall (.line .dialTimeout [5]) s (.inl rfl) hshort

/-! ### The threshold rows -/

theorem whenRunning_of_running (h : s.running = true) (act : State → State) : whenRunning act s = act s := if_pos h

/-- What a threshold row answers in a running station. -/
theorem threshold_answer (h : s.running = true) (act : State → State) :
    (.next (whenRunning act s).sendIfIdle : Host.Outcome State Fault Refusal) = .next (act s).sendIfIdle := by
  rw [whenRunning_of_running h]

/-- Settles O42: each threshold that is due is the change of state of its row. -/
theorem clearSeizeAndTripConfirmed : Obligations.ClearSeizeAndTripConfirmed := by
  unfold Obligations.ClearSeizeAndTripConfirmed
  refine ⟨rfl, fun l s hrun => ⟨fun hcall hbrk hlong => ?_, fun hmk => ⟨fun hst hheld => ?_, fun hst hheld => ?_,
    fun hst hheld => ?_⟩⟩⟩
  · have hdue : s.clearDue l = true := by simp [State.clearDue, hcall, hbrk, hlong]
    refine ⟨fun hb => ?_, fun hb => ?_⟩
    · have htold := told_handClearReached_idle hdue hb hbrk
      exact ⟨_, threshold_answer hrun (handClearReached l), htold.record, htold.reports⟩
    · have htold := told_handClearReached_blocked hdue hb
      exact ⟨_, threshold_answer hrun (handClearReached l), htold.record, htold.reports⟩
  · have htold := told_handSeizeConfirmed_seizing (l := l) (by simp [State.seizeHeld, hmk, hheld]) hst
    exact ⟨_, threshold_answer hrun (handSeizeConfirmed l), htold.record, htold.reports⟩
  · have htold := told_answer (l := l) s 0
    rw [← handSeizeConfirmed_of_ring (by simp [State.seizeHeld, hmk, hheld]) hst] at htold
    exact ⟨_, threshold_answer hrun (handSeizeConfirmed l), htold.record, htold.reports⟩
  · have htold := told_handTripConfirmed (l := l) (s := s) (by simp [State.tripDue, hst, hmk, hheld])
    rw [hst] at htold
    exact ⟨_, threshold_answer hrun (handTripConfirmed l), htold.record, htold.reports⟩

theorem digitTimed_iff : s.digitTimed l = true
    ↔ ((s.line l).state = .dialing ∨ (s.line l).state = .recallDialing) ∧ (s.line l).timing.sense = .mk := by
  simp [State.digitTimed]

/-- Settles O43: each count or timer that is due is the report or the change of state of its row. -/
theorem digitsAndTimeouts : Obligations.DigitsAndTimeouts := by
  unfold Obligations.DigitsAndTimeouts
  refine ⟨rfl, fun l s hrun => ⟨fun hmk hst => ?_, fun n hn hshort => ⟨fun hst hlong => ?_, fun hst hlong => ?_⟩⟩⟩
  · have htimed := digitTimed_iff.2 ⟨hst, hmk⟩
    refine ⟨fun hpulses hlong => ?_, fun hpulses hlong => ?_⟩
    · have htold := told_handDigitEnd (l := l) (s := s) (by simp [State.digitEndDue, htimed, hpulses, hlong])
      exact ⟨_, threshold_answer hrun (handDigitEnd l), htold.record, htold.reports⟩
    · have htold := told_handInterdigitTimeout (by simp [State.interdigitDue, htimed, hpulses, hlong]) hst hmk
      exact ⟨_, threshold_answer hrun (handInterdigitTimeout l), htold.record, htold.reports⟩
  · have htold := told_handDialToneTimeout (by simp [State.dialToneDue, State.timerReached, hst, hn, hlong]) hshort
    rw [hst] at htold
    exact ⟨_, threshold_answer hrun (handDialToneTimeout l), htold.record, htold.reports⟩
  · have htold := told_handRecallTimeout (by simp [State.recallDue, State.timerReached, hst, hn, hlong]) hshort
    rw [hst] at htold
    exact ⟨_, threshold_answer hrun (handRecallTimeout l), htold.record, htold.reports⟩

/-! ### The fault edges -/

theorem forOwner_of_owner {c : CircuitNo} (hrun : s.running = true) (ho : s.owner c = some l) (act : Line → State → State) :
    forOwner c act s = act l s := by
  simp [forOwner, hrun, ho]

/-- A spare circuit, or a stopped station, has no line that acts (R4, R8). -/
theorem forOwner_of_none {c : CircuitNo} (h : s.owner c = none ∨ s.running = false) (act : Line → State → State) :
    forOwner c act s = s := by
  rcases h with h | h <;> simp [forOwner, h]

theorem owner_setCircuit (c d : CircuitNo) (x : Circuit) : (s.setCircuit d x).owner c = s.owner c := rfl

/-- The circuit of a line that has entered a state out of service (R2). -/
theorem outputs_after_outOfUse {c : CircuitNo} {new : LineState} {report : State → State} (hrun : s.running = true)
    (hn : new = .blocked ∨ new = .fault) (hr : ∀ u, OnlyReports u (report u)) (ho : s.owner c = some l) :
    ((transition l new report s).circuit c).ringRelay = false ∧ ((transition l new report s).circuit c).dialSwitch = false
      ∧ ((transition l new report s).circuit c).specialSwitch = false
      ∧ ((transition l new report s).circuit c).cutOff = true := by
  have hmaps : (s.line l).circuit = some c := by simpa [State.owner] using List.find?_some ho
  have hmove := lineMove_transition l new report s hr fun _ => by rcases hn with rfl | rfl <;> rfl
  have hat : (transition l new report s).OutputsAt c :=
    outputsAt_onlyReports (onlyReports_traceChange ..) (outputsAt_onlyReports (hr _)
      (outputsAt_enterState l new fun hne => absurd hmaps hne))
  have hstate : ((transition l new report s).line l).state = new := (transition_same l new report s hr).fields.1
  refine outputs_of_outOfService hat ?_ ?_ (by rw [hstate]; exact hn)
  · unfold State.running
    rw [hmove.eq]
    exact hrun
  · unfold State.owner
    simp only [(hmove.fields _).1]
    exact ho

theorem enterFault_of_fault (cause : Octet) (h : (s.line l).state = .fault) : enterFault l cause s = s := if_pos h

theorem enterFault_of_not_fault (cause : Octet) (h : (s.line l).state ≠ .fault) : enterFault l cause s
    = transition l .fault (queueLine .fault l [cause]) (s.setBlockPending l false) := if_neg h

/-- An entry into FAULT (R68). -/
theorem told_enterFault (cause : Octet) (h : (s.line l).state ≠ .fault) : Told l s ((s.line l).outOfUse .fault)
    (s.lineEntry l .fault [cause] :: s.traceEntries l (s.line l).state .fault) (enterFault l cause s) := by
  rw [enterFault_of_not_fault cause h]
  exact told_outOfUse s (.inr rfl) .fault [cause]

/-- The state after the filter and the mark of a circuit take an ASSERTED change (R9). -/
def State.faultAsserted (s : State) (c : CircuitNo) : State :=
  s.setCircuit c { s.circuit c with fault := ⟨true, 0⟩, faultMark := true }

theorem takeFaultAsserted_eq {c : CircuitNo} (h : (s.circuit c).fault = ⟨false, 3⟩) : takeFaultAsserted c s
    = forOwner c (fun l t => enterFault l 0 t) (s.faultAsserted c) := by
  unfold takeFaultAsserted
  rw [if_pos (by rw [h]; rfl), h]
  rfl

/-- Settles O41: an ASSERTED edge is the circuit's filter and mark, and the line's entry into FAULT behind it. -/
theorem faultEdges : Obligations.FaultEdges := by
  unfold Obligations.FaultEdges
  refine ⟨fun c l s hrun hf ho => ?_, fun c s hf hnone => ?_, fun c s hf => ?_⟩
  · have htake : takeFaultAsserted c s = enterFault l 0 (s.faultAsserted c) := by
      rw [takeFaultAsserted_eq hf]
      exact forOwner_of_owner (s := s.faultAsserted c) hrun ho _
    have hself : (s.faultAsserted c).circuit c = { s.circuit c with fault := ⟨true, 0⟩, faultMark := true } :=
      State.circuit_setCircuit_self ..
    obtain ⟨-, hfault, hmark⟩ := (linePath_enterFault l (s.faultAsserted c) 0).lineMove.filters c
    refine ⟨_, congrArg (fun u : State => Host.Outcome.next u.sendIfIdle) htake, by rw [hmark, hself], by rw [hfault, hself],
      fun hst => ?_, fun hst => ?_⟩
    · have htold := told_enterFault (s := s.faultAsserted c) 0 hst
      have hout := outputs_after_outOfUse (s := (s.faultAsserted c).setBlockPending l false) (c := c) hrun (.inr rfl)
        (onlyReports_queueLine .fault l [0]) ((owner_congr (fun m => ?_) c).trans ho)
      · rw [enterFault_of_not_fault (s := s.faultAsserted c) 0 hst] at htold ⊢
        exact ⟨htold.record, htold.reports.trans (reportsAfter_congr (s := s) (t := s.faultAsserted c) rfl _), hout⟩
      · show (((s.faultAsserted c).setLine l _).line m).circuit = _
        rw [State.line_setLine]
        split
        · subst m; rfl
        · rfl
    · rw [enterFault_of_fault 0 (s := s.faultAsserted c) hst]
      exact ⟨rfl, rfl⟩
  · refine congrArg (fun u : State => Host.Outcome.next u.sendIfIdle) ?_
    rw [takeFaultAsserted_eq hf]
    exact forOwner_of_none (s := s.faultAsserted c) hnone _
  · refine congrArg Host.Outcome.next ?_
    unfold takeFaultNormal
    rw [if_pos (by rw [hf]; rfl), hf]
    rfl

end Sys2Proof.Machine
end

section
/-! PROOFS. The hook edges and the settle notices, and the thresholds handed before them (R4, R7, R21, R22, R24, R27, R35,
R36, R45). -/

namespace Sys2Proof.Machine

variable {l : Line} {s t : State}

/-! ### Thresholds that are not due -/

/-- SEIZE-CONFIRMED is due (R28). -/
def State.seizeDue (s : State) (l : Line) : Bool :=
  s.seizeHeld l && ((s.line l).state = .seizing || (s.line l).state = .ringQueued || (s.line l).state = .ringClaiming
    || (s.line l).state = .ringArmed)

theorem handDigitEnd_of_not_due (h : s.digitEndDue l = false) : handDigitEnd l s = s := by
  simp [handDigitEnd, h]

theorem handInterdigitTimeout_of_not_due (h : s.interdigitDue l = false) : handInterdigitTimeout l s = s := by
  simp [handInterdigitTimeout, h]

theorem handClearReached_of_not_due (h : s.clearDue l = false) : handClearReached l s = s := by
  simp [handClearReached, h]

theorem handSeizeConfirmed_of_not_due (h : s.seizeDue l = false) : handSeizeConfirmed l s = s := by
  cases hheld : s.seizeHeld l with
  | false => exact handSeizeConfirmed_of_not_held hheld
  | true => cases hst : (s.line l).state <;> simp [State.seizeDue, handSeizeConfirmed, hheld, hst] at h ⊢

theorem handTripConfirmed_of_not_due (h : s.tripDue l = false) : handTripConfirmed l s = s := by
  simp [handTripConfirmed, h]

theorem handDialToneTimeout_of_not_due (h : s.dialToneDue l = false) : handDialToneTimeout l s = s := by
  simp [handDialToneTimeout, h]

theorem handRecallTimeout_of_not_due (h : s.recallDue l = false) : handRecallTimeout l s = s := by
  simp [handRecallTimeout, h]

theorem State.QuietLine.seize (h : s.QuietLine l) : s.seizeDue l = false := by
  obtain ⟨-, -, -, -, -, -, hseize⟩ := h
  by_cases hst : (s.line l).state = .seizing ∨ (s.line l).state = .ringQueued ∨ (s.line l).state = .ringClaiming
      ∨ (s.line l).state = .ringArmed
  · simp [State.seizeDue, hseize hst]
  · simp only [not_or] at hst
    simp [State.seizeDue, hst]

/-- Nothing is handed of a line with no threshold due (R21). -/
theorem handDue_of_quiet (h : s.QuietLine l) : handDue l s = s := by
  have hseize := h.seize
  obtain ⟨hclear, htrip, hdigit, hinter, hdial, hrecall, -⟩ := h
  rw [handDue, handDigitEnd_of_not_due hdigit, handInterdigitTimeout_of_not_due hinter, handClearReached_of_not_due hclear,
    handSeizeConfirmed_of_not_due hseize, handTripConfirmed_of_not_due htrip, handDialToneTimeout_of_not_due hdial,
    handRecallTimeout_of_not_due hrecall]

/-- No threshold of a line in BLOCKED or FAULT is due. -/
theorem quietLine_of_outOfService (h : (s.line l).state = .blocked ∨ (s.line l).state = .fault) : s.QuietLine l := by
  rcases h with h | h <;>
    simp [State.QuietLine, State.clearDue, State.tripDue, State.digitEndDue, State.interdigitDue, State.digitTimed,
      State.dialToneDue, State.recallDue, LineState.isCall, h]

/-! ### The one threshold due -/

/-- What is due where one threshold alone is. -/
theorem due_of_lone {r : Instr} (h : ((s.thresholds l).filter fun x => x.2).map (fun x => x.1) = [r]) :
    (∃ x ∈ s.thresholds l, x.2 = true ∧ x.1 = r) ∧ ∀ x ∈ s.thresholds l, x.1 ≠ r → x.2 = false := by
  constructor
  · have hr : r ∈ ((s.thresholds l).filter fun x => x.2).map (fun x => x.1) := by rw [h]; exact List.mem_singleton.2 rfl
    obtain ⟨x, hx, hxr⟩ := List.mem_map.1 hr
    obtain ⟨hmem, hdue⟩ := List.mem_filter.1 hx
    exact ⟨x, hmem, hdue, hxr⟩
  · intro x hx hne
    by_contra hdue
    have hmem : x.1 ∈ ((s.thresholds l).filter fun x => x.2).map (fun x => x.1) :=
      List.mem_map.2 ⟨x, List.mem_filter.2 ⟨hx, by simpa using hdue⟩, rfl⟩
    rw [h] at hmem
    exact hne (List.mem_singleton.1 hmem)

/-- What a threshold row answers where the bus is not idle. -/
theorem handed_of_exec {act : State → State} (hrun : s.running = true) (hbus : s.bus.rx.state ≠ .idle)
    (hpath : LinePath l s (act s))
    (he : (.next (whenRunning act s).sendIfIdle : Host.Outcome State Fault Refusal) = .next t) : t = act s := by
  have hsend : (act s).sendIfIdle = act s := sendIfIdle_of_not_idle (by rw [hpath.lineMove.eq]; exact hbus)
  rw [whenRunning_of_running hrun, hsend] at he
  exact (Host.Outcome.next.inj he).symm

/-- Handing all that is due of a line is then the one row, after which nothing is due. -/
theorem handDue_of_lone {r : Instr} (hrun : s.running = true) (hbus : s.bus.rx.state ≠ .idle)
    (h : ((s.thresholds l).filter fun x => x.2).map (fun x => x.1) = [r]) (he : exec r s = .next t) (hq : t.QuietLine l) :
    handDue l s = t := by
  obtain ⟨⟨x, hx, hdue, rfl⟩, hothers⟩ := due_of_lone h
  have hseize := hq.seize
  obtain ⟨hclear, htrip, hdigit, hinter, hdial, hrecall, -⟩ := hq
  have hnot : ∀ i b, (i, b) ∈ s.thresholds l → i ≠ x.1 → b = false := fun i b hm hne => hothers (i, b) hm hne
  simp only [State.thresholds, List.mem_cons, List.not_mem_nil, or_false] at hx hnot
  have hdigitS := hnot (.digitEnd l) (s.digitEndDue l) (by simp)
  have hinterS := hnot (.interdigitTimeout l) (s.interdigitDue l) (by simp)
  have hclearS := hnot (.clearReached l) (s.clearDue l) (by simp)
  have hseizeS := hnot (.seizeConfirmed l) (s.seizeDue l) (by simp [State.seizeDue])
  have htripS := hnot (.tripConfirmed l) (s.tripDue l) (by simp)
  have hdialS := hnot (.dialToneTimeout l) (s.dialToneDue l) (by simp)
  unfold handDue
  rcases hx with rfl | rfl | rfl | rfl | rfl | rfl | rfl
  · rw [← handed_of_exec hrun hbus (linePath_handDigitEnd l s) he, handInterdigitTimeout_of_not_due hinter,
      handClearReached_of_not_due hclear, handSeizeConfirmed_of_not_due hseize, handTripConfirmed_of_not_due htrip,
      handDialToneTimeout_of_not_due hdial, handRecallTimeout_of_not_due hrecall]
  · rw [handDigitEnd_of_not_due (hdigitS nofun), ← handed_of_exec hrun hbus (linePath_handInterdigitTimeout l s) he,
      handClearReached_of_not_due hclear, handSeizeConfirmed_of_not_due hseize, handTripConfirmed_of_not_due htrip,
      handDialToneTimeout_of_not_due hdial, handRecallTimeout_of_not_due hrecall]
  · rw [handDigitEnd_of_not_due (hdigitS nofun), handInterdigitTimeout_of_not_due (hinterS nofun),
      ← handed_of_exec hrun hbus (linePath_handClearReached l s) he, handSeizeConfirmed_of_not_due hseize,
      handTripConfirmed_of_not_due htrip, handDialToneTimeout_of_not_due hdial, handRecallTimeout_of_not_due hrecall]
  · rw [handDigitEnd_of_not_due (hdigitS nofun), handInterdigitTimeout_of_not_due (hinterS nofun),
      handClearReached_of_not_due (hclearS nofun), ← handed_of_exec hrun hbus (linePath_handSeizeConfirmed l s) he,
      handTripConfirmed_of_not_due htrip, handDialToneTimeout_of_not_due hdial, handRecallTimeout_of_not_due hrecall]
  · rw [handDigitEnd_of_not_due (hdigitS nofun), handInterdigitTimeout_of_not_due (hinterS nofun),
      handClearReached_of_not_due (hclearS nofun), handSeizeConfirmed_of_not_due (hseizeS nofun),
      ← handed_of_exec hrun hbus (linePath_handTripConfirmed l s) he, handDialToneTimeout_of_not_due hdial,
      handRecallTimeout_of_not_due hrecall]
  · rw [handDigitEnd_of_not_due (hdigitS nofun), handInterdigitTimeout_of_not_due (hinterS nofun),
      handClearReached_of_not_due (hclearS nofun), handSeizeConfirmed_of_not_due (hseizeS nofun),
      handTripConfirmed_of_not_due (htripS nofun), ← handed_of_exec hrun hbus (linePath_handDialToneTimeout l s) he,
      handRecallTimeout_of_not_due hrecall]
  · rw [handDigitEnd_of_not_due (hdigitS nofun), handInterdigitTimeout_of_not_due (hinterS nofun),
      handClearReached_of_not_due (hclearS nofun), handSeizeConfirmed_of_not_due (hseizeS nofun),
      handTripConfirmed_of_not_due (htripS nofun), handDialToneTimeout_of_not_due (hdialS nofun),
      ← handed_of_exec hrun hbus (linePath_handRecallTimeout l s) he]

/-! ### Thresholds and the hook filters -/

/-- Work on the lines that neither reads nor writes a hook filter. -/
def IgnoresHook (act : State → State) : Prop :=
  ∀ (s : State) (c : CircuitNo) (f : HookFilter), act (s.setHook c f) = (act s).setHook c f

theorem IgnoresHook.comp {f g : State → State} (hf : IgnoresHook f) (hg : IgnoresHook g) : IgnoresHook fun s => f (g s) :=
  fun s c k => by dsimp only; rw [hg, hf]

/-- Work made where a condition holds that no hook filter decides. -/
theorem IgnoresHook.ite {p : State → Prop} [DecidablePred p] {f g : State → State}
    (hp : ∀ s c k, p (State.setHook s c k) ↔ p s) (hf : IgnoresHook f) (hg : IgnoresHook g) :
    IgnoresHook fun s => if p s then f s else g s := fun s c k => by
  dsimp only
  by_cases h : p s
  · rw [if_pos h, if_pos ((hp s c k).2 h), hf]
  · rw [if_neg h, if_neg (fun hk => h ((hp s c k).1 hk)), hg]

/-- Work that a reading of the state picks, which no hook filter decides. -/
theorem IgnoresHook.choose {α : Type} {key : State → α} {act : α → State → State}
    (hk : ∀ s c k, key (State.setHook s c k) = key s) (ha : ∀ a, IgnoresHook (act a)) : IgnoresHook fun s => act (key s) s :=
  fun s c k => by dsimp only; rw [hk, ha]

theorem ignoresHook_id : IgnoresHook id := fun _ _ _ => rfl

theorem ignoresHook_queueReport (e : ReportEntry) : IgnoresHook fun s => s.queueReport e := by
  intro s c f
  have hreports : (s.setHook c f).reports = s.reports := rfl
  show State.queueReport _ e = (State.queueReport _ e).setHook c f
  unfold State.queueReport
  rw [hreports]
  split
  · rfl
  split
  · rfl
  split
  · split <;> rfl
  · split <;> rfl

theorem ignoresHook_queueLine (code : ReportCode) (v : List Octet) : IgnoresHook (queueLine code l v) :=
  IgnoresHook.choose (key := fun s => newReport code (shelfNumber s.own l) v) (act := fun e s => s.queueReport e)
    (fun _ _ _ => rfl) ignoresHook_queueReport

theorem ignoresHook_traceChange (left : LineState) : IgnoresHook (traceChange l left) :=
  IgnoresHook.ite (p := fun s => (s.line l).watch = true) (fun _ _ _ => Iff.rfl)
    (IgnoresHook.choose (key := fun s => [stateOctet left, stateOctet (s.line l).state]) (act := queueLine .trace l)
      (fun _ _ _ => rfl) (ignoresHook_queueLine .trace)) ignoresHook_id

/-- The outputs are composed without the hook filters (R2). -/
theorem composed_setHook (s : State) (c : CircuitNo) (f : HookFilter) (d : CircuitNo) : ∃ r a b k,
    s.composed d = (s.circuit d).withOutputs r a b k
      ∧ (s.setHook c f).composed d = ((s.setHook c f).circuit d).withOutputs r a b k := by
  have howner : (s.setHook c f).owner d = s.owner d := rfl
  have hstation : (s.setHook c f).station = s.station := rfl
  have hline : ∀ m, (s.setHook c f).line m = s.line m := fun _ => rfl
  have hdrive : ∀ m, (s.setHook c f).ringDrive m = s.ringDrive m := fun _ => rfl
  simp only [State.composed, howner, hstation, hline, hdrive]
  split
  · exact ⟨_, _, _, _, rfl, rfl⟩
  split
  · exact ⟨_, _, _, _, rfl, rfl⟩
  split <;> exact ⟨_, _, _, _, rfl, rfl⟩

theorem circuit_setHook (s : State) (c d : CircuitNo) (f : HookFilter) : (s.setHook c f).circuit d
    = { s.circuit d with hook := if d = c then f else (s.circuit d).hook } := by
  rw [State.setHook_eq, State.circuit_setCircuit]
  split
  · subst d; rfl
  · rfl

theorem ignoresHook_recomposeLine : IgnoresHook fun s => s.recomposeLine l := by
  intro s c f
  have hcircuits : ((s.setHook c f).recomposeLine l).circuits = ((s.recomposeLine l).setHook c f).circuits := by
    refine State.circuits_ext fun d => ?_
    obtain ⟨r, a, b, k, hplain, hhook⟩ := composed_setHook s c f d
    rw [circuit_setHook (s.recomposeLine l), recomposeLine_circuit, recomposeLine_circuit, hplain, hhook, circuit_setHook]
    show (if (s.line l).circuit = some d then _ else _) = _
    split <;> rfl
  show (s.setHook c f).recomposeLine l = (s.recomposeLine l).setHook c f
  rw [recomposeLine_eq, hcircuits, recomposeLine_eq s l]
  rfl

theorem ignoresHook_ringLeave (left : LineState) (ctx : Option RingContext) :
    IgnoresHook fun s => s.ringLeave l left ctx := by
  intro s c f
  have hunit : (s.setHook c f).ringUnit = s.ringUnit := rfl
  have hleave : (s.setHook c f).ringLeave l left ctx = { s.setHook c f with
      ringUnit := (s.ringLeave l left ctx).ringUnit
      table := { s.table with ownRow := (s.ringLeave l left ctx).table.ownRow } } := by
    obtain ⟨hu, ht⟩ := ringLeave_congr (s := s) (t := s.setHook c f) rfl rfl l left ctx
    rw [ringLeave_eq, hu, ht]
    rfl
  refine hleave.trans ?_
  show _ = (s.ringLeave l left ctx).setHook c f
  rw [ringLeave_eq s l left ctx]
  rfl

theorem ignoresHook_enterState (new : LineState) : IgnoresHook (enterState l new) := by
  refine IgnoresHook.comp (f := fun s => s.recomposeLine l)
    (g := fun s => if (s.line l).state.isRing && !new.isRing then
      (s.setLine l ((s.line l).entering new)).ringLeave l (s.line l).state (s.line l).ring
      else s.setLine l ((s.line l).entering new)) ignoresHook_recomposeLine ?_
  refine IgnoresHook.ite (p := fun s => ((s.line l).state.isRing && !new.isRing) = true) (fun _ _ _ => Iff.rfl) ?_
    fun _ _ _ => rfl
  exact IgnoresHook.choose (key := fun s => s.line l)
    (act := fun r s => (s.setLine l (r.entering new)).ringLeave l r.state r.ring) (fun _ _ _ => rfl) fun r =>
    (ignoresHook_ringLeave r.state r.ring).comp (g := fun s => s.setLine l (r.entering new)) fun _ _ _ => rfl

theorem ignoresHook_transition (new : LineState) {report : State → State} (hr : IgnoresHook report) :
    IgnoresHook (transition l new report) :=
  IgnoresHook.choose (key := fun s => (s.line l).state) (act := fun left s => traceChange l left (report (enterState l new s)))
    (fun _ _ _ => rfl) fun left => (ignoresHook_traceChange left).comp (hr.comp (ignoresHook_enterState new))

theorem ignoresHook_handSeizeConfirmed : IgnoresHook (handSeizeConfirmed l) :=
  IgnoresHook.ite (p := fun s => s.seizeHeld l = true) (fun _ _ _ => Iff.rfl)
    (IgnoresHook.choose (key := fun s => (s.line l).state) (act := fun st s => match st with
      | .seizing => transition l .dialTone (queueLine .seize l []) s
      | .ringQueued | .ringClaiming | .ringArmed => transition l .connected (queueLine .answer l [0]) s
      | _ => s) (fun _ _ _ => rfl) fun st => by
      cases st
      case seizing => exact ignoresHook_transition _ (ignoresHook_queueLine _ _)
      case ringQueued | ringClaiming | ringArmed => exact ignoresHook_transition _ (ignoresHook_queueLine _ _)
      all_goals exact ignoresHook_id) ignoresHook_id

theorem ignoresHook_enterIdle {report : State → State} (hr : IgnoresHook report) : IgnoresHook (enterIdle l report) :=
  IgnoresHook.comp (f := fun s => if (s.line l).blockPending then
      transition l .blocked (queueLine .blocked l []) (s.setBlockPending l false)
    else if (s.line l).timing.sense = .mk then handSeizeConfirmed l (transition l .seizing id s) else s)
    (IgnoresHook.ite (p := fun s => (s.line l).blockPending = true) (fun _ _ _ => Iff.rfl)
      ((ignoresHook_transition .blocked (ignoresHook_queueLine _ _)).comp (g := fun s => s.setBlockPending l false)
        fun _ _ _ => rfl)
      (IgnoresHook.ite (p := fun s => (s.line l).timing.sense = .mk) (fun _ _ _ => Iff.rfl)
        (ignoresHook_handSeizeConfirmed.comp (ignoresHook_transition _ ignoresHook_id)) ignoresHook_id))
    (ignoresHook_transition .idle hr)

theorem ignoresHook_handClearReached : IgnoresHook (handClearReached l) :=
  IgnoresHook.ite (p := fun s => s.clearDue l = true) (fun _ _ _ => Iff.rfl) (ignoresHook_enterIdle (ignoresHook_queueLine _ _))
    ignoresHook_id

theorem ignoresHook_enterCall (new : LineState) {report : State → State} (hr : IgnoresHook report) :
    IgnoresHook (enterCall l new report) := ignoresHook_handClearReached.comp (ignoresHook_transition new hr)

theorem ignoresHook_handDigitEnd : IgnoresHook (handDigitEnd l) := by
  refine IgnoresHook.ite (p := fun s => s.digitEndDue l = true) (fun _ _ _ => Iff.rfl) ?_ ignoresHook_id
  refine IgnoresHook.choose (key := fun s => s.line l)
    (act := fun r s => queueDigit l r.timing.pulseCount (s.setLine l { r with timing := { r.timing with pulseCount := 0 } }))
    (fun _ _ _ => rfl) fun r => IgnoresHook.comp (f := queueDigit l r.timing.pulseCount)
      (g := fun s => s.setLine l { r with timing := { r.timing with pulseCount := 0 } }) ?_ fun _ _ _ => rfl
  unfold queueDigit
  split <;> exact ignoresHook_queueLine _ _

theorem ignoresHook_handInterdigitTimeout : IgnoresHook (handInterdigitTimeout l) :=
  IgnoresHook.ite (p := fun s => s.interdigitDue l = true) (fun _ _ _ => Iff.rfl)
    (IgnoresHook.choose (key := fun s => (s.line l).state) (act := fun st s => match st with
      | .dialing => enterCall l .parked (queueLine .dialTimeout l [stateOctet .dialing]) s
      | .recallDialing => enterCall l .connected (queueLine .dialTimeout l [stateOctet .recallDialing]) s
      | _ => s) (fun _ _ _ => rfl) fun st => by
      cases st
      case dialing => exact ignoresHook_enterCall _ (ignoresHook_queueLine _ _)
      case recallDialing => exact ignoresHook_enterCall _ (ignoresHook_queueLine _ _)
      all_goals exact ignoresHook_id) ignoresHook_id

theorem ignoresHook_handTripConfirmed : IgnoresHook (handTripConfirmed l) :=
  IgnoresHook.ite (p := fun s => s.tripDue l = true) (fun _ _ _ => Iff.rfl)
    (ignoresHook_transition _ (ignoresHook_queueLine _ _)) ignoresHook_id

theorem ignoresHook_handDialToneTimeout : IgnoresHook (handDialToneTimeout l) :=
  IgnoresHook.ite (p := fun s => s.dialToneDue l = true) (fun _ _ _ => Iff.rfl)
    (ignoresHook_enterCall _ (ignoresHook_queueLine _ _)) ignoresHook_id

theorem ignoresHook_handRecallTimeout : IgnoresHook (handRecallTimeout l) :=
  IgnoresHook.ite (p := fun s => s.recallDue l = true) (fun _ _ _ => Iff.rfl)
    (ignoresHook_enterCall _ (ignoresHook_queueLine _ _)) ignoresHook_id

/-- The thresholds of a line are handed alike before and after its circuit's filter takes the change (R21). -/
theorem ignoresHook_handDue : IgnoresHook (handDue l) :=
  ignoresHook_handRecallTimeout.comp (ignoresHook_handDialToneTimeout.comp (ignoresHook_handTripConfirmed.comp
    (ignoresHook_handSeizeConfirmed.comp (ignoresHook_handClearReached.comp (ignoresHook_handInterdigitTimeout.comp
      ignoresHook_handDigitEnd)))))

/-- The work of the owner after its thresholds, where one is due before and none after its row. -/
theorem forOwner_of_lone {c : CircuitNo} {r : Instr} (h : s.LoneThreshold c l r) (he : exec r s = .next t)
    (hq : t.QuietLine l) (f : HookFilter) (act : Line → State → State) :
    forOwner c (fun l u => act l (handDue l u)) (s.setHook c f) = forOwner c (fun l u => act l (handDue l u)) (t.setHook c f)
      ∧ (t.circuit c).hook = (s.circuit c).hook := by
  obtain ⟨hrun, hbus, ho, hlone⟩ := h
  have hhanded := handDue_of_lone hrun hbus hlone he hq
  have hmove := (linePath_handDue l s).lineMove
  rw [hhanded] at hmove
  have hrunT : t.running = true := by
    unfold State.running
    rw [hmove.eq]
    exact hrun
  have hoT : t.owner c = some l := (owner_congr (fun m => (hmove.fields m).1) c).trans ho
  refine ⟨?_, (hmove.filters c).1⟩
  rw [forOwner_of_owner (s := s.setHook c f) hrun ho, forOwner_of_owner (s := t.setHook c f) hrunT hoT,
    ignoresHook_handDue s c f, hhanded, ignoresHook_handDue t c f, handDue_of_quiet hq]

end Sys2Proof.Machine
end

section
/-! PROOFS. The on-hook edge, the off-hook edge that begins a hold, and the settle notice (R4, R7, R21, R22, R27, R35 to R37,
R45, R47). -/

namespace Sys2Proof.Machine

variable {l : Line} {s t : State} {c : CircuitNo}

/-! ### The edges and the settle of a circuit -/

theorem takeOnHookEdge_eq (h : (s.circuit c).hook = ⟨.settled .offHook, 3⟩) : takeOnHookEdge c s
    = forOwner c (fun l u => takeOnHook l (handDue l u)) (s.setHook c ⟨.settled .onHook, 0⟩) :=
  if_pos (by rw [Circuit.edgeDue, h]; rfl)

theorem takeOffHookEdge_eq (h : (s.circuit c).hook = ⟨.settled .onHook, 3⟩) : takeOffHookEdge c s
    = forOwner c (fun l u => takeOffHook l (handDue l u)) (s.setHook c ⟨.settled .offHook, 0⟩) :=
  if_pos (by rw [Circuit.edgeDue, h]; rfl)

theorem takeSettleNotice_eq {k : Hook} (h : (s.circuit c).hook = ⟨.unsettled k, 3⟩) : takeSettleNotice c s
    = forOwner c (fun l u => takeSettle l k (handDue l u)) (s.setHook c ⟨.settled k, 0⟩) := by
  simp [takeSettleNotice, h]

/-- The work of an owner with no threshold due. -/
theorem forOwner_of_quiet (hrun : s.running = true) (ho : s.owner c = some l) (hq : s.QuietLine l) (f : HookFilter)
    (act : Line → State → State) :
    forOwner c (fun l u => act l (handDue l u)) (s.setHook c f) = act l (s.setHook c f) := by
  rw [forOwner_of_owner (s := s.setHook c f) hrun ho, handDue_of_quiet (s := s.setHook c f) hq]

/-- A spare, a stopped station, and a line in BLOCKED or FAULT take no hook input (R4, R8, R35). -/
theorem forOwner_of_deaf (h : s.owner c = none ∨ s.running = false
      ∨ ∃ l, s.owner c = some l ∧ ((s.line l).state = .blocked ∨ (s.line l).state = .fault)) (f : HookFilter)
    {act : Line → State → State} (hact : ∀ l u, (State.line u l).state.outOfService = true → act l u = u) :
    forOwner c (fun l u => act l (handDue l u)) (s.setHook c f) = s.setHook c f := by
  rcases h with h | h | ⟨l, ho, hst⟩
  · exact forOwner_of_none (s := s.setHook c f) (.inl h) _
  · exact forOwner_of_none (s := s.setHook c f) (.inr h) _
  · cases hrun : s.running with
    | false => exact forOwner_of_none (s := s.setHook c f) (.inr hrun) _
    | true =>
      rw [forOwner_of_quiet hrun ho (quietLine_of_outOfService hst)]
      exact hact l (s.setHook c f) (outOfService_eq_true_iff.2 hst)

/-- The filter of the circuit after a move of its owner. -/
theorem hook_after_path {f : HookFilter} (h : LinePath l (s.setHook c f) t) : (t.circuit c).hook = f := by
  rw [(h.lineMove.filters c).1, circuit_setHook]
  exact if_pos rfl

/-! ### What the edges write and report -/

theorem takeOnHook_of_outOfService (h : (s.line l).state.outOfService = true) : takeOnHook l s = s := if_pos h

theorem takeOffHook_of_outOfService (h : (s.line l).state.outOfService = true) : takeOffHook l s = s := if_pos h

theorem takeSettle_of_outOfService (k : Hook) (h : (s.line l).state.outOfService = true) : takeSettle l k s = s := if_pos h

/-- An on-hook edge outside SEIZING begins a break and takes the tone of the two tone states (R22, R40). -/
theorem told_takeOnHook (hout : (s.line l).state.outOfService = false) (hst : (s.line l).state ≠ .seizing) :
    Told l s { s.line l with
      tone := if (s.line l).state = .dialTone ∨ (s.line l).state = .recallTone then .none else (s.line l).tone
      timing := (s.line l).timing.beginBreak } [] (takeOnHook l s) := by
  have hbreak := told_setTiming (l := l) s (s.line l).timing.beginBreak
  have hsilenced := hbreak.andThen (f := fun r => { r with tone := .none })
    (told_setTone l (s.setTiming l (s.line l).timing.beginBreak) .none) fun _ => rfl
  by_cases htone : (s.line l).state = .dialTone ∨ (s.line l).state = .recallTone
  · have htake : takeOnHook l s = setTone l .none (s.setTiming l (s.line l).timing.beginBreak) := by
      rw [takeOnHook, if_neg (by rw [hout]; exact Bool.false_ne_true)]
      rcases htone with h | h <;> simp only [h]
    rw [htake, if_pos htone]
    exact hsilenced
  · have htake : takeOnHook l s = s.setTiming l (s.line l).timing.beginBreak := by
      rw [takeOnHook, if_neg (by rw [hout]; exact Bool.false_ne_true)]
      cases h : (s.line l).state <;> simp [h] at hst htone ⊢
    rw [htake, if_neg htone]
    exact hbreak

theorem takeOnHook_of_seizing (h : (s.line l).state = .seizing) :
    takeOnHook l s = enterIdle l id (s.setTiming l (s.line l).timing.beginBreak) := by
  simp [takeOnHook, LineState.outOfService, h]

/-- An on-hook edge in SEIZING returns the line to IDLE, and to BLOCKED where block-pending is set (R46, R47). -/
theorem told_takeOnHook_seizing (hst : (s.line l).state = .seizing) (hb : (s.line l).blockPending = false) :
    Told l s (({ s.line l with timing := (s.line l).timing.beginBreak } : LineRecord).inState .idle .none none)
      (s.traceEntries l .seizing .idle) (takeOnHook l s) := by
  have hbreak := told_setTiming (l := l) s (s.line l).timing.beginBreak
  have hidle := hbreak.andThen (f := fun r => r.inState .idle .none none)
    (told_enterIdle_idle (Reporting.none (l := l)) (s.setTiming l (s.line l).timing.beginBreak)
      (by rw [hbreak.line]; exact hb) (by rw [hbreak.line]; exact nofun)) fun _ => rfl
  rw [hbreak.traceEntries _ _ rfl, hbreak.line] at hidle
  simp only [hst] at hidle
  rw [takeOnHook_of_seizing hst]
  exact hidle

theorem takeOnHook_blocked (hst : (s.line l).state = .seizing) (hb : (s.line l).blockPending = true) :
    ((takeOnHook l s).line l).state = .blocked := by
  have hbreak := told_setTiming (l := l) s (s.line l).timing.beginBreak
  rw [takeOnHook_of_seizing hst]
  exact (told_enterIdle_blockPending (Reporting.none (l := l)) (s.setTiming l (s.line l).timing.beginBreak)
    (by rw [hbreak.line]; exact hb)).record.fields.1

theorem takeOffHook_of_hold (hout : (s.line l).state.outOfService = false)
    (hcall : ¬((s.line l).state.isCall = true ∧ (s.line l).timing.sense = .brk)) : takeOffHook l s = beginHold l s := by
  unfold takeOffHook
  rw [if_neg (by rw [hout]; exact Bool.false_ne_true), if_neg (by simpa using hcall)]

/-- A hold that begins in IDLE goes to SEIZING (R27, R47). -/
theorem told_beginHold_idle (hst : (s.line l).state = .idle) :
    Told l s (({ s.line l with timing := (s.line l).timing.beginMake } : LineRecord).inState .seizing .none none)
      (s.traceEntries l .idle .seizing) (beginHold l s) := by
  have hmake := told_setTiming (l := l) s (s.line l).timing.beginMake
  have hseizing := hmake.andThen (f := fun r => r.entering .seizing)
    (told_transition_id (s.setTiming l (s.line l).timing.beginMake) (new := .seizing) rfl) fun _ => rfl
  rw [hmake.traceEntries _ _ rfl, hmake.line] at hseizing
  simp only [hst] at hseizing
  rw [beginHold, if_pos hst]
  exact hseizing

theorem told_beginHold (hst : (s.line l).state ≠ .idle) :
    Told l s { s.line l with timing := (s.line l).timing.beginMake } [] (beginHold l s) := by
  rw [beginHold, if_neg hst]
  exact told_setTiming s _

/-- Settles O38: each edge is the filter's change, and for an owner in service the move of its state. -/
theorem edgesBeginABreakOrAHold : Obligations.EdgesBeginABreakOrAHold := by
  unfold Obligations.EdgesBeginABreakOrAHold
  refine ⟨fun c l s ⟨hrun, hhook, ho, hq⟩ hout => ?_, fun c l s ⟨hrun, hhook, ho, hq⟩ hout hcall => ?_,
    fun c s hdeaf => ⟨fun hhook => ?_, fun hhook => ?_⟩,
    fun c l r s t hlone he hq => ⟨fun hhook => ?_, fun hhook => ?_⟩⟩
  · have htake : takeOnHookEdge c s = takeOnHook l (s.setHook c ⟨.settled .onHook, 0⟩) :=
      (takeOnHookEdge_eq hhook).trans (forOwner_of_quiet hrun ho hq _ takeOnHook)
    refine ⟨_, congrArg (fun u : State => Host.Outcome.next u.sendIfIdle) htake, hook_after_path (linePath_takeOnHook ..),
      fun hst => ?_, fun hst hb => ?_, fun hst hb => takeOnHook_blocked (s := s.setHook c ⟨.settled .onHook, 0⟩) hst hb⟩
    · have htold := told_takeOnHook (s := s.setHook c ⟨.settled .onHook, 0⟩) hout hst
      exact ⟨htold.line, htold.reports⟩
    · have htold := told_takeOnHook_seizing (s := s.setHook c ⟨.settled .onHook, 0⟩) hst hb
      obtain ⟨hstate, -, -, -, -, htiming, -⟩ := htold.record.fields
      exact ⟨hstate, by rw [htiming]; rfl, by rw [htiming]; rfl,
        htold.reports.trans (reportsAfter_congr (s := s) (t := s.setHook c ⟨.settled .onHook, 0⟩) rfl _)⟩
  · have htake : takeOffHookEdge c s = beginHold l (s.setHook c ⟨.settled .offHook, 0⟩) :=
      ((takeOffHookEdge_eq hhook).trans (forOwner_of_quiet hrun ho hq _ takeOffHook)).trans
        (takeOffHook_of_hold (s := s.setHook c ⟨.settled .offHook, 0⟩) hout hcall)
    refine ⟨_, congrArg (fun u : State => Host.Outcome.next u.sendIfIdle) htake, ?_⟩
    by_cases hst : (s.line l).state = .idle
    · have htold := told_beginHold_idle (s := s.setHook c ⟨.settled .offHook, 0⟩) hst
      obtain ⟨hstate, -, -, -, -, htiming, -⟩ := htold.record.fields
      exact ⟨hook_after_path htold.path, by rw [htiming]; rfl, by rw [htiming]; rfl, by rw [htiming]; rfl, fun _ => ⟨hstate,
        htold.reports.trans (reportsAfter_congr (s := s) (t := s.setHook c ⟨.settled .offHook, 0⟩) rfl _)⟩,
        fun hne => absurd hst hne⟩
    · have htold := told_beginHold (s := s.setHook c ⟨.settled .offHook, 0⟩) hst
      have hline := htold.line
      exact ⟨hook_after_path htold.path, by rw [hline]; rfl, by rw [hline]; rfl, by rw [hline]; rfl,
        fun hidle => absurd hidle hst, fun _ => ⟨hline, htold.reports⟩⟩
  · exact congrArg (fun u : State => Host.Outcome.next u.sendIfIdle)
      ((takeOnHookEdge_eq hhook).trans (forOwner_of_deaf hdeaf _ fun _ _ => takeOnHook_of_outOfService))
  · exact congrArg (fun u : State => Host.Outcome.next u.sendIfIdle)
      ((takeOffHookEdge_eq hhook).trans (forOwner_of_deaf hdeaf _ fun _ _ => takeOffHook_of_outOfService))
  · obtain ⟨hsame, hkeep⟩ := forOwner_of_lone hlone he hq ⟨.settled .onHook, 0⟩ takeOnHook
    exact congrArg (fun u : State => Host.Outcome.next u.sendIfIdle)
      ((takeOnHookEdge_eq hhook).trans (hsame.trans (takeOnHookEdge_eq (hkeep.trans hhook)).symm))
  · obtain ⟨hsame, hkeep⟩ := forOwner_of_lone hlone he hq ⟨.settled .offHook, 0⟩ takeOffHook
    exact congrArg (fun u : State => Host.Outcome.next u.sendIfIdle)
      ((takeOffHookEdge_eq hhook).trans (hsame.trans (takeOffHookEdge_eq (hkeep.trans hhook)).symm))

/-! ### The settle notice -/

/-- The timing context that a settle writes in a line with no sense (R36). -/
def Timing.settled (t : Timing) (k : Hook) : Timing :=
  { t with sense := senseOf k, edgeCount := 0, heldMake := 0, pulseCount := 0 }

/-- A settle of a line with no sense writes the sense read (R36). -/
theorem told_takeSettle (k : Hook) (hout : (s.line l).state.outOfService = false) (hs : (s.line l).timing.sense = .none)
    (h : (s.line l).state ≠ .idle ∨ k = .onHook) :
    Told l s { s.line l with timing := (s.line l).timing.settled k } [] (takeSettle l k s) := by
  have htake : takeSettle l k s = s.setTiming l ((s.line l).timing.settled k) := by
    have hnot : ¬((s.line l).state = .idle ∧ k = .offHook) := fun ⟨hidle, hoff⟩ =>
      h.elim (fun hne => hne hidle) fun hon => by rw [hoff] at hon; cases hon
    unfold takeSettle
    dsimp only
    rw [if_neg (by rw [hout]; exact Bool.false_ne_true), if_pos hs, if_neg (by simpa using hnot)]
    rfl
  rw [htake]
  exact told_setTiming s _

/-- An IDLE line found OFF-HOOK is PARKED with a LINE STATE (R45). -/
theorem takeSettle_parked (hst : (s.line l).state = .idle) (hs : (s.line l).timing.sense = .none) :
    takeSettle l .offHook s
      = enterCall l .parked (queueLineState l) (s.setTiming l ((s.line l).timing.settled .offHook)) := by
  unfold takeSettle
  rw [hst]
  dsimp only
  rw [if_pos hs]
  rfl

theorem told_takeSettle_parked (hst : (s.line l).state = .idle) (hs : (s.line l).timing.sense = .none) :
    Told l s (({ s.line l with timing := (s.line l).timing.settled .offHook } : LineRecord).inState .parked .none none)
      (s.lineEntry l .lineState [7, circuitOctet (s.line l).circuit, 0, s.flagsOctet l] :: s.traceEntries l .idle .parked)
      (takeSettle l .offHook s) := by
  have hsettled := told_setTiming (l := l) s ((s.line l).timing.settled .offHook)
  have hparked := told_transition_lineState (l := l) (s.setTiming l ((s.line l).timing.settled .offHook))
    (new := .parked) rfl
  have hdone := hsettled.andThen (f := fun r => r.entering .parked) hparked fun _ => rfl
  rw [hsettled.lineEntry, hsettled.traceEntries _ _ rfl, hsettled.line, lineStateValues_of_no_ring rfl] at hdone
  have hshort : handClearReached l (transition l .parked (queueLineState l)
      (s.setTiming l ((s.line l).timing.settled .offHook)))
        = transition l .parked (queueLineState l) (s.setTiming l ((s.line l).timing.settled .offHook)) := by
    refine handClearReached_of_not_due ?_
    unfold State.clearDue
    rw [hdone.record]
    simp [LineRecord.entering, entryTiming, Timing.settled, senseOf]
  rw [takeSettle_parked hst hs, enterCall, hshort]
  simp only [hst] at hdone
  exact hdone

/-- Settles O40: a settle is the filter's change, and for an owner in service the move of its state. -/
theorem settleNotice : Obligations.SettleNotice := by
  unfold Obligations.SettleNotice
  refine ⟨fun c k s hdeaf hhook => ?_, fun c l r k s t hlone he hq hhook => ?_,
    fun c l k s hrun hhook ho hq hout hs => ?_⟩
  · exact congrArg (fun u : State => Host.Outcome.next u.sendIfIdle)
      ((takeSettleNotice_eq hhook).trans (forOwner_of_deaf hdeaf _ fun _ _ => takeSettle_of_outOfService k))
  · obtain ⟨hsame, hkeep⟩ := forOwner_of_lone hlone he hq ⟨.settled k, 0⟩ fun l => takeSettle l k
    exact congrArg (fun u : State => Host.Outcome.next u.sendIfIdle)
      ((takeSettleNotice_eq hhook).trans (hsame.trans (takeSettleNotice_eq (hkeep.trans hhook)).symm))
  · have htake : takeSettleNotice c s = takeSettle l k (s.setHook c ⟨.settled k, 0⟩) :=
      (takeSettleNotice_eq hhook).trans (forOwner_of_quiet hrun ho hq _ fun l => takeSettle l k)
    refine ⟨_, congrArg (fun u : State => Host.Outcome.next u.sendIfIdle) htake, hook_after_path (linePath_takeSettle ..), ?_⟩
    by_cases hpark : (s.line l).state = .idle ∧ k = .offHook
    · obtain ⟨hst, rfl⟩ := hpark
      have htold := told_takeSettle_parked (s := s.setHook c ⟨.settled .offHook, 0⟩) hst hs
      have hmaps : ((s.setHook c ⟨.settled .offHook, 0⟩).line l).circuit = some c := by
        simpa [State.owner] using List.find?_some ho
      rw [hmaps] at htold
      obtain ⟨hstate, -, -, -, -, htiming, -⟩ := htold.record.fields
      refine ⟨by rw [htiming]; rfl, by rw [htiming]; rfl, by rw [htiming]; rfl, by rw [htiming]; rfl, fun _ _ => ⟨hstate,
        htold.reports.trans (reportsAfter_congr (s := s) (t := s.setHook c ⟨.settled .offHook, 0⟩) rfl _)⟩, fun h => ?_⟩
      rcases h with h | h
      · exact absurd hst h
      · cases h
    · have hstay : (s.line l).state ≠ .idle ∨ k = .onHook := by
        by_cases hst : (s.line l).state = .idle
        · cases k with
          | onHook => exact .inr rfl
          | offHook => exact absurd ⟨hst, rfl⟩ hpark
        · exact .inl hst
      have htold := told_takeSettle (s := s.setHook c ⟨.settled k, 0⟩) k hout hs hstay
      have hline := htold.line
      refine ⟨?_, by rw [hline]; rfl, by rw [hline]; rfl, by rw [hline]; rfl,
        fun hst hoff => absurd ⟨hst, hoff⟩ hpark, fun _ => ⟨by rw [hline]; rfl, htold.reports⟩⟩
      rw [hline]
      cases k <;> rfl

end Sys2Proof.Machine
end

section
/-! PROOFS. The off-hook edge that ends a break of a call state (R24 to R32, R48 to R53). -/

namespace Sys2Proof.Machine

variable {l : Line} {s t : State} {c : CircuitNo}

/-! ### HIT -/

/-- The tone that a HIT gives back (R48, R51). -/
def LineRecord.toneBack (r : LineRecord) : Tone :=
  if r.state = .dialTone then .dial else if r.state = .recallTone then .special else r.tone

/-- The record of a line whose make count a HIT resumes (R26). -/
def LineRecord.resumed (r : LineRecord) (p : Profile) : LineRecord :=
  { r with tone := r.toneBack, timing := r.timing.resume p }

/-- The part of a HIT before the threshold tests. -/
def State.hit (s : State) (l : Line) : State :=
  if (s.line l).state = .dialTone ∨ (s.line l).state = .recallTone then
    setTone l (s.line l).toneBack (s.setTiming l ((s.line l).timing.resume s.profile))
  else s.setTiming l ((s.line l).timing.resume s.profile)

theorem takeHit_eq : takeHit l s = handInterdigitTimeout l (handDigitEnd l (s.hit l)) := by
  unfold takeHit State.hit LineRecord.toneBack
  cases (s.line l).state <;> rfl

theorem toneBack_of_not_tone {r : LineRecord} (h : ¬(r.state = .dialTone ∨ r.state = .recallTone)) :
    r.toneBack = r.tone := by
  unfold LineRecord.toneBack
  rw [if_neg fun hd => h (.inl hd), if_neg fun hr => h (.inr hr)]

theorem told_hit : Told l s ((s.line l).resumed s.profile) [] (s.hit l) := by
  have hresume := told_setTiming (l := l) s ((s.line l).timing.resume s.profile)
  unfold State.hit
  split
  · exact hresume.andThen (f := fun r => { r with tone := (s.line l).toneBack }) (told_setTone l _ _) fun _ => rfl
  · rename_i htone
    unfold LineRecord.resumed
    rw [toneBack_of_not_tone htone]
    exact hresume

/-- The thresholds of a resumed make count (R26, R30, R32). -/
theorem digitEndDue_hit : (s.hit l).digitEndDue l = true
    ↔ ((s.line l).state = .dialing ∨ (s.line l).state = .recallDialing) ∧ 0 < (s.line l).timing.pulseCount
      ∧ interdigitMakeTicks s.profile ≤ (s.line l).timing.heldMake + (s.line l).timing.edgeCount := by
  have hcap : interdigitMakeTicks s.profile ≤ interdigitTimeoutTicks s.profile := by cases s.profile <;> decide
  simp only [State.digitEndDue, State.digitTimed, Bool.and_eq_true, Bool.or_eq_true, decide_eq_true_eq]
  rw [told_hit.line, told_hit.profile]
  simp [LineRecord.resumed, Timing.resume, hcap, and_assoc]

theorem interdigitDue_hit : (s.hit l).interdigitDue l = true
    ↔ ((s.line l).state = .dialing ∨ (s.line l).state = .recallDialing) ∧ (s.line l).timing.pulseCount = 0
      ∧ interdigitTimeoutTicks s.profile ≤ (s.line l).timing.heldMake + (s.line l).timing.edgeCount := by
  simp only [State.interdigitDue, State.digitTimed, Bool.and_eq_true, Bool.or_eq_true, decide_eq_true_eq]
  rw [told_hit.line, told_hit.profile]
  simp [LineRecord.resumed, Timing.resume, and_assoc]

/-- A HIT whose resumed count reaches no threshold. -/
theorem told_takeHit (hdigit : (s.hit l).digitEndDue l = false) (hinter : (s.hit l).interdigitDue l = false) :
    Told l s ((s.line l).resumed s.profile) [] (takeHit l s) := by
  rw [takeHit_eq, handDigitEnd_of_not_due hdigit, handInterdigitTimeout_of_not_due hinter]
  exact told_hit

/-- A HIT whose resumed count ends a digit (R30). -/
theorem told_takeHit_digit (hdigit : (s.hit l).digitEndDue l = true)
    (hshort : (s.line l).timing.heldMake + (s.line l).timing.edgeCount < interdigitTimeoutTicks s.profile) :
    Told l s { (s.line l).resumed s.profile with timing := { ((s.line l).resumed s.profile).timing with pulseCount := 0 } }
      [s.digitEntry l (s.line l).timing.pulseCount] (takeHit l s) := by
  have hend := told_hit.andThen (f := fun r => { r with timing := { r.timing with pulseCount := 0 } })
    (told_handDigitEnd hdigit) fun _ => rfl
  have hentry : (s.hit l).digitEntry l ((s.hit l).line l).timing.pulseCount
      = s.digitEntry l (s.line l).timing.pulseCount := by
    unfold State.digitEntry
    rw [told_hit.lineEntry, told_hit.lineEntry, told_hit.line]
    rfl
  rw [hentry, List.nil_append] at hend
  have hinter : (handDigitEnd l (s.hit l)).interdigitDue l = false := by
    unfold State.interdigitDue
    rw [hend.record, hend.profile]
    simp [LineRecord.resumed, Timing.resume, hshort]
  rw [takeHit_eq, handInterdigitTimeout_of_not_due hinter]
  exact hend

/-- A HIT whose resumed count reaches the interdigit timeout (R32). -/
theorem told_takeHit_timeout (hdigit : (s.hit l).digitEndDue l = false) (hinter : (s.hit l).interdigitDue l = true)
    (hst : (s.line l).state = .dialing ∨ (s.line l).state = .recallDialing) :
    Told l s (((s.line l).resumed s.profile).inState (s.line l).state.timedOut .none none)
      (s.lineEntry l .dialTimeout [stateOctet (s.line l).state]
        :: s.traceEntries l (s.line l).state (s.line l).state.timedOut) (takeHit l s) := by
  have hstate : ((s.hit l).line l).state = (s.line l).state := by rw [told_hit.line]; rfl
  have hout := told_hit.andThen (f := fun r => r.inState (s.line l).state.timedOut .none none)
    (by
      have h := told_handInterdigitTimeout hinter (by rwa [hstate]) (by rw [told_hit.line]; rfl)
      rw [hstate] at h
      exact h) fun _ => rfl
  rw [told_hit.lineEntry, told_hit.traceEntries _ _ rfl, List.nil_append] at hout
  rw [takeHit_eq, handDigitEnd_of_not_due hdigit]
  exact hout

/-! ### PULSE and LONG PULSE -/

/-- The state that a pulse enters (R48, R51). -/
def LineState.pulsed (st : LineState) : LineState :=
  if st = .dialTone then .dialing else if st = .recallTone then .recallDialing else st

/-- A pulse outside the dialling states begins a make alone. -/
theorem told_takePulse_plain (h : (s.line l).state.isDialling = false) :
    Told l s { s.line l with timing := (s.line l).timing.beginMake } [] (takePulse l s) := by
  rw [takePulse, if_neg (by rw [h]; exact Bool.false_ne_true)]
  exact told_setTiming s _

/-- The context of a line that has counted a pulse (R29). -/
def Timing.counted (t : Timing) : Timing := { t.beginMake with pulseCount := min (t.pulseCount + 1) 15 }

theorem takePulse_of_dialling (h : (s.line l).state.isDialling = true) : takePulse l s
    = if (s.line l).state = .dialTone ∨ (s.line l).state = .recallTone then
        transition l (s.line l).state.pulsed id (s.setTiming l (s.line l).timing.counted)
      else s.setTiming l (s.line l).timing.counted := by
  rw [takePulse, if_pos h]
  cases hst : (s.line l).state <;> rfl

/-- A pulse in DIALING or RECALL DIALING counts. -/
theorem told_takePulse_counted (h : (s.line l).state = .dialing ∨ (s.line l).state = .recallDialing) :
    Told l s { s.line l with timing := (s.line l).timing.counted } [] (takePulse l s) := by
  rw [takePulse_of_dialling (by rcases h with h | h <;> rw [h] <;> rfl),
    if_neg (by rcases h with h | h <;> rw [h] <;> decide)]
  exact told_setTiming s _

/-- The first pulse goes from a tone state to its dialling state, and counts. -/
theorem told_takePulse_first (h : (s.line l).state = .dialTone ∨ (s.line l).state = .recallTone) :
    Told l s (({ s.line l with timing := (s.line l).timing.counted } : LineRecord).entering (s.line l).state.pulsed)
      (s.traceEntries l (s.line l).state (s.line l).state.pulsed) (takePulse l s) := by
  have hring : (s.line l).state.pulsed.isRing = false := by rcases h with h | h <;> rw [h] <;> rfl
  have hcount := told_setTiming (l := l) s (s.line l).timing.counted
  have hdone := hcount.andThen (f := fun r => r.entering (s.line l).state.pulsed)
    (told_transition_id (s.setTiming l (s.line l).timing.counted) hring) fun _ => rfl
  rw [hcount.traceEntries _ _ rfl, hcount.line, List.nil_append] at hdone
  rw [takePulse_of_dialling (by rcases h with h | h <;> rw [h] <;> rfl), if_pos h]
  exact hdone

/-! ### FLASH -/

/-- The state that a flash enters (R48 to R52). -/
def LineState.flashed : LineState → LineState
  | .dialTone | .dialing => .dialTone
  | .connected => .recallTone
  | .recallTone | .recallDialing => .connected
  | st => st

/-- A flash in PARKED begins a make alone (R53). -/
theorem told_takeFlash_parked (h : (s.line l).state = .parked) :
    Told l s { s.line l with timing := (s.line l).timing.beginMake } [] (takeFlash l s) := by
  have htake : takeFlash l s = s.setTiming l (s.line l).timing.beginMake := by simp only [takeFlash, h]
  rw [htake]
  exact told_setTiming s _

/-- A flash in DIAL TONE begins DIAL TONE anew, with no FLASH report (R48). -/
theorem told_takeFlash_dialTone (h : (s.line l).state = .dialTone) :
    Told l s (({ s.line l with timing := (s.line l).timing.beginMake } : LineRecord).entering .dialTone)
      (s.traceEntries l .dialTone .dialTone) (takeFlash l s) := by
  have htake : takeFlash l s = transition l .dialTone id (s.setTiming l (s.line l).timing.beginMake) := by
    simp only [takeFlash, h]
  have hmake := told_setTiming (l := l) s (s.line l).timing.beginMake
  have hdone := hmake.andThen (f := fun r => r.entering .dialTone)
    (told_transition_id (s.setTiming l (s.line l).timing.beginMake) (new := .dialTone) rfl) fun _ => rfl
  rw [hmake.traceEntries _ _ rfl, hmake.line] at hdone
  simp only [h] at hdone
  rw [htake]
  exact hdone

/-- A flash in another call state reports FLASH and changes the state (R49 to R52). -/
theorem told_takeFlash (h : (s.line l).state = .dialing ∨ (s.line l).state = .connected ∨ (s.line l).state = .recallTone
      ∨ (s.line l).state = .recallDialing) :
    Told l s (({ s.line l with timing := (s.line l).timing.beginMake } : LineRecord).entering (s.line l).state.flashed)
      (s.lineEntry l .flash [] :: s.traceEntries l (s.line l).state (s.line l).state.flashed) (takeFlash l s) := by
  have htake : takeFlash l s = transition l (s.line l).state.flashed (queueLine .flash l [])
      (s.setTiming l (s.line l).timing.beginMake) := by
    rcases h with h | h | h | h <;> simp only [takeFlash, h] <;> rfl
  have hring : (s.line l).state.flashed.isRing = false := by rcases h with h | h | h | h <;> rw [h] <;> rfl
  have hmake := told_setTiming (l := l) s (s.line l).timing.beginMake
  have hdone := hmake.andThen (f := fun r => r.entering (s.line l).state.flashed)
    (told_transition_report (s.setTiming l (s.line l).timing.beginMake) hring .flash []) fun _ => rfl
  rw [hmake.lineEntry, hmake.traceEntries _ _ rfl, hmake.line, List.nil_append] at hdone
  rw [htake]
  exact hdone

/-! ### The end of a break -/

theorem takeOffHook_of_break (hcall : (s.line l).state.isCall = true) (hbrk : (s.line l).timing.sense = .brk) :
    takeOffHook l s = endBreak l s := by
  have hout : (s.line l).state.outOfService = false := by
    cases h : (s.line l).state <;> simp [LineState.isCall, LineState.outOfService, h] at hcall ⊢
  unfold takeOffHook
  rw [if_neg (by rw [hout]; exact Bool.false_ne_true), if_pos (by simp [hcall, hbrk])]

theorem endBreak_of_hit (h : classifyBreak s.profile (s.line l).timing.edgeCount = .hit) : endBreak l s = takeHit l s := by
  simp only [endBreak, h]

theorem endBreak_of_pulse (h : classifyBreak s.profile (s.line l).timing.edgeCount = .pulse
    ∨ classifyBreak s.profile (s.line l).timing.edgeCount = .longPulse) : endBreak l s = takePulse l s := by
  rcases h with h | h <;> simp only [endBreak, h]

theorem endBreak_of_flash (h : classifyBreak s.profile (s.line l).timing.edgeCount = .flash) :
    endBreak l s = takeFlash l s := by
  simp only [endBreak, h]

/-- The state with the hook filter settled OFF-HOOK. -/
def State.offHooked (s : State) (c : CircuitNo) : State := s.setHook c ⟨.settled .offHook, 0⟩

/-- What an off-hook edge that ends a break answers. -/
theorem exec_offHookEdge_of_break (h : s.HookEdge c l .onHook) (hcall : (s.line l).state.isCall = true)
    (hbrk : (s.line l).timing.sense = .brk) {u : State} (hu : endBreak l (s.offHooked c) = u) :
    exec (.offHookEdge c) s = .next u.sendIfIdle := by
  obtain ⟨hrun, hhook, ho, hq⟩ := h
  have htake : takeOffHookEdge c s = endBreak l (s.offHooked c) :=
    ((takeOffHookEdge_eq hhook).trans (forOwner_of_quiet hrun ho hq _ takeOffHook)).trans
      (takeOffHook_of_break (s := s.offHooked c) hcall hbrk)
  exact congrArg (fun v : State => Host.Outcome.next v.sendIfIdle) (htake.trans hu)

/-- The reports of a move from the state with the filter settled are those of the state before. -/
theorem Told.reports_offHooked {r : LineRecord} {es : List ReportEntry} (h : Told l (s.offHooked c) r es t) :
    t.reports = s.reportsAfter es := h.reports.trans (reportsAfter_congr (s := s) (t := s.offHooked c) rfl es)

/-- A PULSE or LONG PULSE in each call state. -/
theorem takePulse_spec (hcall : (s.line l).state.isCall = true) :
    ((takePulse l s).line l).timing.sense = .mk ∧ ((takePulse l s).line l).timing.edgeCount = 0
      ∧ ((takePulse l s).line l).timing.pulseCount = (if (s.line l).state.isDialling then
          min ((s.line l).timing.pulseCount + 1) 15 else (s.line l).timing.pulseCount)
      ∧ ((takePulse l s).line l).state = (s.line l).state.pulsed
      ∧ (takePulse l s).reports = if (s.line l).state = .dialTone ∨ (s.line l).state = .recallTone then
          s.reportsAfter (s.traceEntries l (s.line l).state (s.line l).state.pulsed) else s.reports := by
  by_cases hfirst : (s.line l).state = .dialTone ∨ (s.line l).state = .recallTone
  · have htold := told_takePulse_first hfirst
    obtain ⟨hstate, -, -, -, -, htiming, -⟩ := htold.record.fields
    rw [if_pos hfirst, htiming]
    refine ⟨?_, ?_, ?_, hstate, htold.reports⟩ <;> rcases hfirst with h | h <;> rw [h] <;> rfl
  rw [if_neg hfirst]
  cases hd : (s.line l).state.isDialling with
  | true =>
    have hst : (s.line l).state = .dialing ∨ (s.line l).state = .recallDialing := by
      cases h : (s.line l).state <;> simp [LineState.isDialling, h] at hd hfirst ⊢
    have htold := told_takePulse_counted hst
    have hline := htold.line
    rw [hline]
    refine ⟨rfl, rfl, rfl, ?_, htold.reports⟩
    rcases hst with h | h <;> simp only [h] <;> rfl
  | false =>
    have htold := told_takePulse_plain hd
    have hline := htold.line
    rw [hline]
    refine ⟨rfl, rfl, rfl, ?_, htold.reports⟩
    cases h : (s.line l).state <;> simp [LineState.isCall, LineState.isDialling, LineState.pulsed, h] at hd hcall ⊢

theorem classifyBreak_eq (n : Nat) :
    (n ≤ 120 → classifyBreak .a n
      = (if n ≤ 7 then .hit else if n ≤ 20 then .pulse else if n ≤ 23 then .longPulse else .flash))
    ∧ (n ≤ 160 → classifyBreak .b n
      = (if n ≤ 7 then .hit else if n ≤ 24 then .pulse else if n ≤ 29 then .longPulse else .flash)) :=
  ⟨fun _ => rfl, fun _ => rfl⟩

/-- The record of a dialling line whose make count a HIT resumes short of the timeout. -/
theorem resumed_of_dialling {r : LineRecord} {p : Profile} (h : r.state = .dialing ∨ r.state = .recallDialing)
    (hshort : r.timing.heldMake + r.timing.edgeCount < interdigitTimeoutTicks p) : r.resumed p
    = { r with timing := { r.timing with sense := .mk, edgeCount := r.timing.heldMake + r.timing.edgeCount } } := by
  unfold LineRecord.resumed Timing.resume
  rw [toneBack_of_not_tone (by rcases h with h | h <;> rw [h] <;> decide), min_eq_left hshort.le]

/-- Settles O39: each class of break is the move of its state. -/
theorem offHookEdgeEndsABreak : Obligations.OffHookEdgeEndsABreak := by
  unfold Obligations.OffHookEdgeEndsABreak
  refine ⟨fun n _ => classifyBreak_eq n, fun c l s hedge hcall hbrk => ⟨fun hclass hnone => ?_,
    fun hclass hst => ⟨fun hpulses hlong hshort => ?_, fun hpulses hlong => ?_⟩, fun hclass => ?_, fun hclass => ?_⟩⟩
  · have hcap : interdigitMakeTicks s.profile ≤ interdigitTimeoutTicks s.profile := by cases s.profile <;> decide
    have hdigit : ((s.offHooked c).hit l).digitEndDue l = false := by
      rw [← Bool.not_eq_true, digitEndDue_hit]
      rintro ⟨hst, hpulses, hlong⟩
      rcases hnone with ⟨h1, h2⟩ | h | ⟨h, -⟩
      · exact hst.elim h1 h2
      · exact absurd h (Nat.not_lt.2 hlong)
      · exact absurd h hpulses.ne'
    have hinter : ((s.offHooked c).hit l).interdigitDue l = false := by
      rw [← Bool.not_eq_true, interdigitDue_hit]
      rintro ⟨hst, hpulses, hlong⟩
      rcases hnone with ⟨h1, h2⟩ | h | ⟨-, h⟩
      · exact hst.elim h1 h2
      · exact absurd h (Nat.not_lt.2 (hcap.trans hlong))
      · exact absurd h (Nat.not_lt.2 hlong)
    have htold := told_takeHit hdigit hinter
    exact ⟨_, exec_offHookEdge_of_break hedge hcall hbrk (endBreak_of_hit (s := s.offHooked c) hclass), htold.reports,
      htold.line⟩
  · have htold := told_takeHit_digit (digitEndDue_hit.2 ⟨hst, hpulses, hlong⟩) (s := s.offHooked c) hshort
    have hline : ((s.offHooked c).line l).resumed (s.offHooked c).profile = _ := resumed_of_dialling hst hshort
    rw [hline] at htold
    exact ⟨_, exec_offHookEdge_of_break hedge hcall hbrk (endBreak_of_hit (s := s.offHooked c) hclass), htold.record,
      htold.reports_offHooked⟩
  · have hdigit : ((s.offHooked c).hit l).digitEndDue l = false := by
      rw [← Bool.not_eq_true, digitEndDue_hit]
      exact fun h => absurd hpulses h.2.1.ne'
    have htold := told_takeHit_timeout hdigit (interdigitDue_hit.2 ⟨hst, hpulses, hlong⟩) (s := s.offHooked c) hst
    obtain ⟨hstate, htone, -, -, -, htiming, -⟩ := htold.record.fields
    have hcount : min ((s.line l).timing.heldMake + (s.line l).timing.edgeCount) (interdigitTimeoutTicks s.profile)
        = interdigitTimeoutTicks s.profile := min_eq_right hlong
    exact ⟨_, exec_offHookEdge_of_break hedge hcall hbrk (endBreak_of_hit (s := s.offHooked c) hclass), hstate,
      by rw [htiming]; rfl, by rw [htiming]; exact hcount, by rw [htiming]; rfl, htone, htold.reports_offHooked⟩
  · obtain ⟨hsense, hcount, hpulses, hstate, hreports⟩ := takePulse_spec (s := s.offHooked c) hcall
    refine ⟨_, exec_offHookEdge_of_break hedge hcall hbrk (endBreak_of_pulse (s := s.offHooked c) hclass), hsense, hcount,
      hpulses, hstate, hreports.trans ?_⟩
    show (if (s.line l).state = .dialTone ∨ (s.line l).state = .recallTone then
      (s.offHooked c).reportsAfter (s.traceEntries l (s.line l).state (s.line l).state.pulsed) else s.reports) = _
    rw [reportsAfter_congr (s := s) (t := s.offHooked c) rfl]
    cases (s.line l).state <;> rfl
  · refine ⟨_, exec_offHookEdge_of_break hedge hcall hbrk (endBreak_of_flash (s := s.offHooked c) hclass), ?_⟩
    by_cases hparked : (s.line l).state = .parked
    · have htold := told_takeFlash_parked (s := s.offHooked c) hparked
      have hline := htold.line
      simp only [hparked, hline]
      exact ⟨rfl, rfl, fun _ => ⟨hparked, htold.reports⟩, nofun, nofun, nofun, nofun⟩
    by_cases hdial : (s.line l).state = .dialTone
    · have htold := told_takeFlash_dialTone (s := s.offHooked c) hdial
      obtain ⟨hstate, htone, -, -, -, htiming, -⟩ := htold.record.fields
      simp only [hdial, htiming]
      exact ⟨rfl, rfl, nofun, fun _ => ⟨hstate, htone, rfl, htold.reports_offHooked⟩, nofun, nofun, nofun⟩
    · have hst : (s.line l).state = .dialing ∨ (s.line l).state = .connected ∨ (s.line l).state = .recallTone
          ∨ (s.line l).state = .recallDialing := by
        cases h : (s.line l).state <;> simp [LineState.isCall, h] at hcall hparked hdial ⊢
      have htold := told_takeFlash (s := s.offHooked c) hst
      obtain ⟨hstate, htone, -, -, -, htiming, -⟩ := htold.record.fields
      have hreports := htold.reports_offHooked
      have hline : (s.offHooked c).line l = s.line l := rfl
      rw [hline] at hstate htone htiming hreports
      rw [htiming, hstate, htone]
      rcases hst with h | h | h | h <;> rw [h] at hreports ⊢
      · exact ⟨rfl, rfl, nofun, nofun, fun _ => ⟨rfl, rfl, rfl, rfl, hreports⟩, nofun, by simp⟩
      · exact ⟨rfl, rfl, nofun, nofun, nofun, fun _ => ⟨rfl, rfl, rfl, hreports⟩, by simp⟩
      · exact ⟨rfl, rfl, nofun, nofun, nofun, nofun, fun _ => ⟨rfl, rfl, rfl, hreports⟩⟩
      · exact ⟨rfl, rfl, nofun, nofun, nofun, nofun, fun _ => ⟨rfl, rfl, rfl, hreports⟩⟩

end Sys2Proof.Machine
end

section
/-! PROOFS. What a line that leaves the ring states hands the Ring Placement Unit (R120 to R123), and the frame of the line
commands and of the rows of one line (R19, R39, R41, R112, R124, R156, R169). -/

namespace Sys2Proof.Machine

variable {l : Line} {s t u : State}

/-! ### The ring-leave notice of a path -/

/-- A path of one line from a ring state: either the line stands there and the Ring Placement Unit as it was, or it has left,
and one notice has been handed. -/
structure RingLeft (l : Line) (s t : State) : Prop where
  stays : (t.line l).state.isRing = true → (t.line l).state = (s.line l).state ∧ (t.line l).ring = (s.line l).ring
    ∧ t.ringUnit = s.ringUnit ∧ t.table = s.table
  leaves : (t.line l).state.isRing = false →
    t.ringUnit = (s.ringLeave l (s.line l).state (s.line l).ring).ringUnit
      ∧ t.table = (s.ringLeave l (s.line l).state (s.line l).ring).table

/-- A part of a path that keeps the line's state and what the notice is formed from. -/
theorem RingLeft.of_stays (hs : (s.line l).state.isRing = true) (hstate : (t.line l).state = (s.line l).state)
    (hring : (t.line l).ring = (s.line l).ring) (hunit : t.ringUnit = s.ringUnit) (htable : t.table = s.table) :
    RingLeft l s t :=
  ⟨fun _ => ⟨hstate, hring, hunit, htable⟩, fun h => by rw [hstate, hs] at h; cases h⟩

theorem LinePath.ringLeft (h : LinePath l s t) (hs : (s.line l).state.isRing = true) : RingLeft l s t := by
  induction h with
  | refl s => exact .of_stays hs rfl rfl rfl rfl
  | report s e =>
    have honly := onlyReports_queueReport s e
    obtain ⟨hstate, -, -, -, -, -, hring, -⟩ := (honly.lines l).fields
    exact .of_stays hs hstate hring (by rw [honly.eq]) (by rw [honly.eq])
  | edit s r hstate _ _ hring =>
    exact .of_stays hs (by rw [State.line_setLine_self, hstate]) (by rw [State.line_setLine_self, hring]) rfl rfl
  | tone s v =>
    have hline := (told_setTone l s v).line
    have heq := recomposeLine_eq (s.setLine l { s.line l with tone := v }) l
    exact .of_stays hs (by rw [hline]) (by rw [hline]) (by rw [setTone, heq]; rfl) (by rw [setTone, heq]; rfl)
  | enter s new hn =>
    have hout : ((enterState l new s).line l).state.isRing = false := by rw [enterState_line_self]; exact hn
    exact ⟨fun h => absurd (hout.symm.trans h) Bool.false_ne_true, fun _ => enterState_ring_of_leaving l new s hs hn⟩
  | @trans s t u hst htu ih ih' =>
    have hfirst := ih hs
    cases ht : (t.line l).state.isRing with
    | true =>
      obtain ⟨hstate, hring, hunit, htable⟩ := hfirst.stays ht
      have hsecond := ih' ht
      obtain ⟨hu, htb⟩ := ringLeave_congr hunit htable l (s.line l).state (s.line l).ring
      refine ⟨fun hr => ?_, fun hr => ?_⟩
      · obtain ⟨a, b, c, d⟩ := hsecond.stays hr
        exact ⟨a.trans hstate, b.trans hring, c.trans hunit, d.trans htable⟩
      · obtain ⟨a, b⟩ := hsecond.leaves hr
        rw [hstate, hring] at a b
        exact ⟨a.trans hu, b.trans htb⟩
    | false =>
      obtain ⟨hunit, htable⟩ := hfirst.leaves ht
      obtain ⟨hr, hunit', hrow⟩ := htu.lineMove.ring ht
      refine ⟨fun h => absurd (hr.symm.trans h) Bool.false_ne_true, fun _ => ⟨hunit'.trans hunit, ?_⟩⟩
      have heq := htu.lineMove.eq
      have htable' : u.table = { t.table with ownRow := u.table.ownRow } := by rw [heq]
      rw [htable', hrow]
      exact htable

/-- What the Ring Placement Unit does on the notice, as the statements read it (R120 to R123). -/
theorem afterRingLeave_of_notice (hunit : t.ringUnit = (s.ringLeave l (s.line l).state (s.line l).ring).ringUnit)
    (htable : t.table.ownRow = (s.ringLeave l (s.line l).state (s.line l).ring).table.ownRow) : AfterRingLeave l s t := by
  unfold AfterRingLeave
  split
  · rename_i hst
    rw [hst] at hunit htable
    exact ⟨hunit, htable⟩
  · rename_i c hst hc
    rw [hst] at hunit htable
    intro hl ho
    rw [State.ringLeave, leaveClaim_own hc hl ho] at hunit htable
    refine ⟨hunit, fun p => ?_⟩
    rw [htable]
    exact getElem_removeLoad c.weight c.set s.table.ownRow p
  · rename_i r hst hr
    rw [hst, hr] at hunit htable
    refine ⟨hunit, fun p => ?_⟩
    rw [htable]
    exact getElem_removeLoad r.weight _ s.table.ownRow p
  · rename_i r hst hr
    rw [hst, hr] at hunit htable
    refine ⟨hunit, fun p => ?_⟩
    rw [htable]
    exact getElem_removeLoad r.weight _ s.table.ownRow p
  · trivial

theorem afterRingLeave_of_path (h : LinePath l s t) (hs : (s.line l).state.isRing = true)
    (ht : (t.line l).state.isRing = false) : AfterRingLeave l s t := by
  obtain ⟨hunit, htable⟩ := (h.ringLeft hs).leaves ht
  exact afterRingLeave_of_notice hunit (by rw [htable])

/-! ### The rows that take a line out of the ring states -/

theorem transition_not_ring {new : LineState} (hn : new.isRing = false) {report : State → State}
    (hr : ∀ u, LinePath l u (report u)) : ((transition l new report s).line l).state.isRing = false := by
  have hpath : LinePath l (enterState l new s) (transition l new report s) := (hr _).trans (linePath_traceChange ..)
  exact (hpath.lineMove.ring (by rw [enterState_line_self]; exact hn)).1

theorem enterIdle_not_ring {report : State → State} (hr : ∀ u, LinePath l u (report u)) :
    ((enterIdle l report s).line l).state.isRing = false := by
  have hidle := transition_not_ring (l := l) (s := s) (new := .idle) rfl hr
  unfold enterIdle
  dsimp only
  split
  · exact transition_not_ring rfl fun _ => linePath_queueLine ..
  split
  · exact ((linePath_handSeizeConfirmed l _).lineMove.ring (transition_not_ring rfl .refl)).1
  · exact hidle

/-- A line command, once taken, leaves the assembly waiting, so that no frame begins. -/
theorem LinePath.sendIfIdle_after_command (h : LinePath l (s.endFrame true) t) : t = t.sendIfIdle := by
  refine (sendIfIdle_of_not_idle ?_).symm
  rw [h.lineMove.eq]
  exact nofun

/-- Settles O25: each row is a path of the line that ends outside the ring states. -/
theorem ringLeaveActsByTheStateLeft : Obligations.RingLeaveActsByTheStateLeft := by
  unfold Obligations.RingLeaveActsByTheStateLeft
  intro l s t i hring hi he
  have hcommand : ∀ {v : State}, LinePath l (s.endFrame true) v → (v.line l).state.isRing = false →
      exec i s = .next v → ∃ u, t = u.sendIfIdle ∧ AfterRingLeave l s u := fun {v} hpath hout hv => by
    obtain rfl : v = t := Host.Outcome.next.inj (hv.symm.trans he)
    have hafter : AfterRingLeave l (s.endFrame true) v := afterRingLeave_of_path hpath hring hout
    exact ⟨v, hpath.sendIfIdle_after_command, hafter⟩
  have hevent : ∀ {v : State}, LinePath l s v → (v.line l).state.isRing = false →
      exec i s = .next v.sendIfIdle → ∃ u, t = u.sendIfIdle ∧ AfterRingLeave l s u := fun {v} hpath hout hv =>
    ⟨v, Host.Outcome.next.inj (he.symm.trans hv), afterRingLeave_of_path hpath hring hout⟩
  have hservice : (s.line l).state ≠ .blocked ∧ (s.line l).state ≠ .fault := by
    constructor <;> intro h <;> rw [h] at hring <;> cases hring
  rcases hi with ⟨h, rfl, ht⟩ | ⟨h, rfl, ht⟩ | ⟨h, v, rfl, hv, ht⟩ | ⟨rfl, hrun, hnot, hheld⟩ | ⟨rfl, hrun, hdue⟩
    | ⟨c, rfl, hrun, hf, ho⟩ | ⟨w, rfl, hrun, hany, hmark⟩
  · exact hcommand (linePath_enterIdle l _ id .refl) (enterIdle_not_ring .refl) (answer_of_takes ht (stopRingLine_of_ring hring))
  · exact hcommand (linePath_enterIdle l _ id .refl) (enterIdle_not_ring .refl) (answer_of_takes ht (releaseLine_of_ring hring))
  · have hact : (if v = 0 then blockPoliteLine else blockForcedLine) l (s.endFrame true)
        = transition l .blocked (queueLine .blocked l []) ((s.endFrame true).setBlockPending l false) := by
      rw [if_neg hv, blockForcedLine, if_neg]
      rw [endFrame_line, outOfService_eq_false_iff.2 hservice]
      exact Bool.false_ne_true
    refine hcommand ?_ (transition_not_ring rfl fun _ => linePath_queueLine ..) (answer_of_takes ht hact)
    exact (linePath_setBlockPending ..).trans (linePath_transition _ _ _ _ (fun _ => linePath_queueLine ..) rfl)
  · have hstate : (s.line l).state = .ringQueued ∨ (s.line l).state = .ringClaiming ∨ (s.line l).state = .ringArmed := by
      cases h : (s.line l).state <;> simp [LineState.isRing, h] at hring hnot ⊢
    refine hevent (linePath_handSeizeConfirmed l s) ?_ (threshold_answer hrun (handSeizeConfirmed l))
    rw [handSeizeConfirmed_of_ring hheld hstate]
    exact transition_not_ring rfl fun _ => linePath_queueLine ..
  · refine hevent (linePath_handTripConfirmed l s) ?_ (threshold_answer hrun (handTripConfirmed l))
    rw [handTripConfirmed, if_pos hdue]
    exact transition_not_ring rfl fun _ => linePath_queueLine ..
  · have htake : takeFaultAsserted c s = enterFault l 0 (s.faultAsserted c) := by
      rw [takeFaultAsserted_eq hf]
      exact forOwner_of_owner (s := s.faultAsserted c) hrun ho _
    have hout : ((enterFault l 0 (s.faultAsserted c)).line l).state.isRing = false := by
      rw [enterFault_of_not_fault (s := s.faultAsserted c) 0 hservice.2]
      exact transition_not_ring rfl fun _ => linePath_queueLine ..
    have hafter := afterRingLeave_of_path (linePath_enterFault l (s.faultAsserted c) 0) hring hout
    have hanswer : exec (.faultAssertedEdge c) s = .next (enterFault l 0 (s.faultAsserted c)).sendIfIdle :=
      congrArg (fun u : State => Host.Outcome.next u.sendIfIdle) htake
    exact ⟨_, Host.Outcome.next.inj (he.symm.trans hanswer), hafter⟩
  · have hcorrect : correctLineRecord l s = enterFault l 1 (reportCorrection l s) := if_pos hmark
    have hdone : (if s.running && ((s.line l).reads w).any then correctLineRecord l s else s) = correctLineRecord l s :=
      if_pos (by rw [hrun, hany]; rfl)
    refine hevent (linePath_correctLineRecord l s) ?_ (congrArg (fun u : State => Host.Outcome.next u.sendIfIdle) hdone)
    have hstate : ((reportCorrection l s).line l).state = (s.line l).state := by
      unfold reportCorrection
      rw [State.line_setLine_self]
      exact ((onlyReports_queueLine ..).lines l).fields.1
    rw [hcorrect, enterFault_of_not_fault 1 (by rw [hstate]; exact hservice.2)]
    exact transition_not_ring rfl fun _ => linePath_queueLine ..

end Sys2Proof.Machine
end

section
/-! PROOFS. The placement of a queued line (R111, R112, R115), and the frame of the line commands (R41, R112, R156). -/

namespace Sys2Proof.Machine

variable {l : Line} {s t u : State}

/-! ### A placement -/

/-- The record of a line placed, with its ring context (R115). -/
def LineRecord.claiming (r : LineRecord) (c : RingContext) : LineRecord :=
  { r with state := .ringClaiming, tone := .none, ring := some c, timing := { r.timing with pulseCount := 0, stateTimer := none } }

/-- The Ring Placement Unit and the own row after a placement, the line not yet in RING CLAIMING (R115). -/
def State.claimed (s : State) (l : Line) (c : RingContext) (o : Phase) : State :=
  (((s.unqueue l).setRing l { c with offset := o }).addOwnLoad c.weight (rotatedSet c.code o)).setClaim
    (some ⟨l, c.weight, rotatedSet c.code o, .pending⟩)

/-- The state after a placement, before a hold already confirmed is handed (R28, R115). -/
def State.placed (s : State) (l : Line) (c : RingContext) (o : Phase) : State :=
  transition l .ringClaiming id (s.claimed l c o)

theorem place_of_ring {c : RingContext} {o : Phase} (h : (s.line l).ring = some c) :
    place l o s = handSeizeConfirmed l (s.placed l c o) := by
  simp [place, h, State.placed, State.claimed]

theorem place_of_no_ring {o : Phase} (h : (s.line l).ring = none) : place l o s = s := by
  simp [place, h]

theorem enterState_circuit_of_ne {new : LineState} {d : CircuitNo} (h : (s.line l).circuit ≠ some d) :
    (enterState l new s).circuit d = s.circuit d := by
  obtain ⟨t, heq, hlines, hcircuits, -, -⟩ := enterState_circuit l new s
  have hself : (t.line l).circuit = (s.line l).circuit := by
    rw [State.line_congr hlines, State.line_setLine_self]
    rfl
  rw [heq, recomposeLine_circuit, if_neg (by rwa [hself]), State.circuit_congr hcircuits]

/-- A change of state with no report of its own. -/
theorem transition_id_circuit {new : LineState} {d : CircuitNo} (h : (s.line l).circuit ≠ some d) :
    (transition l new id s).circuit d = s.circuit d := by
  have hreports := traceChange_eq l (s.line l).state (enterState l new s)
  exact (congrArg (fun v : State => v.circuit d) hreports).trans (enterState_circuit_of_ne h)

theorem lineWork_transition_id (l : Line) (new : LineState) (s : State) : LineWork s (transition l new id s) :=
  (lineWork_enterState l new s).trans (onlyReports_traceChange ..).lineWork

section Placed
variable (l : Line) (s : State) (c : RingContext) (o : Phase)

theorem claimed_line (m : Line) : (s.claimed l c o).line m
    = if m = l then { s.line l with ring := some { c with offset := o } } else s.line m := State.line_setLine ..

theorem placed_line (m : Line) :
    (s.placed l c o).line m = if m = l then (s.line l).claiming { c with offset := o } else s.line m := by
  rw [State.placed, transition, traceChange_line, id, enterState_line, claimed_line, claimed_line, if_pos rfl]
  split <;> rfl

theorem placed_line_self : (s.placed l c o).line l = (s.line l).claiming { c with offset := o } := by
  rw [placed_line, if_pos rfl]

theorem placed_line_ne {m : Line} (h : m ≠ l) : (s.placed l c o).line m = s.line m := by
  rw [placed_line, if_neg h]

theorem placed_ring : (s.placed l c o).ringUnit = ⟨s.ringUnit.queue.filter (· ≠ l),
      some ⟨l, c.weight, rotatedSet c.code o, .pending⟩, s.ringUnit.releases⟩
    ∧ (s.placed l c o).table = { s.table with ownRow := addLoad c.weight (rotatedSet c.code o) s.table.ownRow } := by
  obtain ⟨hunit, htable⟩ := transition_id_ring l .ringClaiming (s.claimed l c o) (.inr rfl)
  exact ⟨hunit, htable⟩

theorem placed_reports :
    (s.placed l c o).reports = s.reportsAfter (s.traceEntries l (s.line l).state .ringClaiming) := by
  have hreports := transition_reports l .ringClaiming id (s.claimed l c o) onlyReports_id [] (enterState_reports ..)
  have hself : (s.claimed l c o).line l = _ := (claimed_line l s c o l).trans (if_pos rfl)
  rw [hself] at hreports
  refine hreports.trans ((reportsAfter_congr (s := s) (t := s.claimed l c o) rfl _).trans ?_)
  rw [List.nil_append, traceEntries_congr (s := s) (t := s.claimed l c o) l _ _ (by rw [hself]) rfl]

theorem placed_circuit {d : CircuitNo} (h : (s.line l).circuit ≠ some d) : (s.placed l c o).circuit d = s.circuit d := by
  refine transition_id_circuit (s := s.claimed l c o) ?_
  rw [claimed_line, if_pos rfl]
  exact h

theorem lineWork_placed : LineWork s (s.placed l c o) := by
  have hclaimed : LineWork s (s.claimed l c o) := rfl
  exact hclaimed.trans (lineWork_transition_id ..)

theorem placed_profile : (s.placed l c o).profile = s.profile := by
  rw [lineWork_placed l s c o]
  rfl

theorem placed_seizeHeld : (s.placed l c o).seizeHeld l = s.seizeHeld l :=
  seizeHeld_congr (by rw [placed_line_self]; rfl) (by rw [placed_line_self]; rfl) (placed_profile l s c o)

end Placed

/-- A claim that is left stays with its RELEASE to come (R121, R122). -/
theorem leaveClaim_releases (s : State) (l : Line) : (s.leaveClaim l).ringUnit.releases = s.ringUnit.releases := by
  unfold State.leaveClaim
  repeat' split
  all_goals rfl

/-- A hold confirmed before RING ARMED takes the line from the queue or the claim, and owes no RELEASE (R120 to R122). -/
theorem handSeizeConfirmed_releases (h : (s.line l).state ≠ .ringArmed) :
    (handSeizeConfirmed l s).ringUnit.releases = s.ringUnit.releases := by
  cases hring : (s.line l).state.isRing with
  | false => rw [((linePath_handSeizeConfirmed l s).lineMove.ring hring).2.1]
  | true =>
    by_cases hheld : s.seizeHeld l = true
    · by_cases hringing : (s.line l).state = .ringing
      · have hid : handSeizeConfirmed l s = s := by rw [handSeizeConfirmed, if_pos hheld, hringing]
        rw [hid]
      · have hst : (s.line l).state = .ringQueued ∨ (s.line l).state = .ringClaiming := by
          cases hst : (s.line l).state <;> simp [LineState.isRing, hst] at hring hringing h ⊢
        have hout : ((handSeizeConfirmed l s).line l).state.isRing = false := by
          rw [handSeizeConfirmed_of_ring hheld (hst.imp_right .inl)]
          exact transition_not_ring rfl fun _ => linePath_queueLine ..
        rw [(((linePath_handSeizeConfirmed l s).ringLeft hring).leaves hout).1]
        rcases hst with hst | hst <;> rw [hst]
        · rfl
        · exact leaveClaim_releases s l
    · rw [handSeizeConfirmed_of_not_held (by simpa using hheld)]

/-- What a placement attempt leaves: the line placed apart, every line; and it owes no RELEASE (R111, R112, R115). -/
structure Attempted (s t : State) : Prop where
  work : LineWork s t
  bus : t.bus = s.bus
  releases : t.ringUnit.releases = s.ringUnit.releases
  lines : ∀ m, m ∉ s.ringUnit.queue → SameButResync (s.line m) (t.line m)
  notArmed : ∀ m, (s.line m).state = .ringQueued → (t.line m).state ≠ .ringArmed

theorem Attempted.refl (s : State) : Attempted s s :=
  ⟨rfl, rfl, rfl, fun _ _ => .refl _, fun m h => by rw [h]; exact nofun⟩

theorem attempted_place {m : Line} (hm : m ∈ s.ringUnit.queue) (o : Phase) : Attempted s (place m o s) := by
  cases hr : (s.line m).ring with
  | none => rw [place_of_no_ring hr]; exact .refl s
  | some c =>
    rw [place_of_ring hr]
    have hpath := linePath_handSeizeConfirmed m (s.placed m c o)
    have hself := placed_line_self m s c o
    refine ⟨(lineWork_placed m s c o).trans hpath.lineWork, ?_, ?_, fun k hk => ?_, fun k hk => ?_⟩
    · rw [hpath.lineMove.eq, lineWork_placed m s c o]
    · rw [handSeizeConfirmed_releases (by rw [hself]; exact nofun), (placed_ring m s c o).1]
    · have hkm : k ≠ m := by rintro rfl; exact hk hm
      have hline := hpath.lineMove.lines k hkm
      rwa [placed_line_ne m s c o hkm] at hline
    · by_cases hkm : k = m
      · subst hkm
        cases hheld : (s.placed k c o).seizeHeld k with
        | false => rw [handSeizeConfirmed_of_not_held hheld, hself]; exact nofun
        | true =>
          rw [handSeizeConfirmed_of_ring hheld (.inr (.inl (by rw [hself]; rfl))),
            (transition_same _ _ _ _ fun _ => onlyReports_queueLine ..).fields.1]
          exact nofun
      · rw [(hpath.lineMove.fields k).2 hkm, placed_line_ne m s c o hkm, hk]
        exact nofun

theorem attempted_attemptPlacement (s : State) : Attempted s (attemptPlacement s) := by
  unfold attemptPlacement
  split
  · split
    · rename_i m o hfound
      exact attempted_place (findPlacement_mem hfound) o
    · exact .refl s
  · exact .refl s

/-! ### What work on some lines leaves alone -/

/-- Work on the lines `ls` that keeps their circuit fields and takes none into the ring states. -/
structure LinesKept (ls : List Line) (s t : State) : Prop extends LinesFrame ls s t where
  bus : t.bus = s.bus
  maps : ∀ l, (t.line l).circuit = (s.line l).circuit
  outside : ∀ l, (s.line l).state.isRing = false → (t.line l).state.isRing = false

section LinesKept
variable {ls : List Line}

theorem LinesKept.refl (ls : List Line) (s : State) : LinesKept ls s s where
  station := rfl
  control := rfl
  cadence := rfl
  table := rfl
  lines _ _ := .refl _
  circuits _ _ := rfl
  ring _ := ⟨rfl, rfl⟩
  freeDraws := rfl
  wire := rfl
  pending := rfl
  bus := rfl
  maps _ := rfl
  outside _ h := h

/-- Work that keeps the circuit fields, and work after it that need not. -/
theorem LinesKept.thenFrame (h : LinesKept ls s t) (k : LinesFrame ls t u) : LinesFrame ls s u where
  station := k.station.trans h.station
  control := k.control.trans h.control
  cadence := k.cadence.trans h.cadence
  table := by rw [k.table, h.table]
  lines m hm := (h.lines m hm).trans (k.lines m hm)
  circuits d hd := by
    rw [k.circuits d fun l hl => ⟨by rw [h.maps l]; exact (hd l hl).1, (hd l hl).2⟩,
      h.circuits d fun l hl => ⟨(hd l hl).1, by rw [h.maps l]; exact (hd l hl).1⟩]
  ring hr := by
    obtain ⟨a, b⟩ := h.ring hr
    obtain ⟨a', b'⟩ := k.ring fun l hl => h.outside l (hr l hl)
    exact ⟨a'.trans a, b'.trans b⟩
  freeDraws := k.freeDraws.trans h.freeDraws
  wire := k.wire.trans h.wire
  pending := k.pending.trans h.pending

theorem LinesKept.trans (h : LinesKept ls s t) (k : LinesKept ls t u) : LinesKept ls s u where
  toLinesFrame := h.thenFrame k.toLinesFrame
  bus := k.bus.trans h.bus
  maps l := (k.maps l).trans (h.maps l)
  outside l hl := k.outside l (h.outside l hl)

theorem LineMove.kept (h : LineMove l s t) (hl : l ∈ ls) : LinesKept ls s t where
  station := by rw [h.eq]
  control := by rw [h.eq]
  cadence := by rw [h.eq]
  table := by rw [h.eq]
  lines m hm := h.lines m (by rintro rfl; exact hm hl)
  circuits d hd := h.circuits d (hd l hl).1
  ring hr := (h.ring (hr l hl)).2
  freeDraws := by rw [h.eq]
  wire := by rw [h.eq]
  pending := by rw [h.eq]
  bus := by rw [h.eq]
  maps m := (h.fields m).1
  outside m hm := by
    by_cases hml : m = l
    · subst hml
      exact (h.ring hm).1
    · rw [(h.fields m).2 hml]
      exact hm

/-- New values in a circuit that a line maps. -/
theorem kept_setCircuit {c : CircuitNo} (hc : (s.line l).circuit = some c) (hl : l ∈ ls) (x : Circuit) :
    LinesKept ls s (s.setCircuit c x) where
  station := rfl
  control := rfl
  cadence := rfl
  table := rfl
  lines _ _ := .refl _
  circuits d hd := State.circuit_setCircuit_ne s (c := c) (d := d) (fun hdc => (hd l hl).1 (by rw [hdc]; exact hc)) x
  ring _ := ⟨rfl, rfl⟩
  freeDraws := rfl
  wire := rfl
  pending := rfl
  bus := rfl
  maps _ := rfl
  outside _ h := h

theorem kept_unblockLine (hl : l ∈ ls) (s : State) : LinesKept ls s (unblockLine l s) := by
  by_cases h : ∃ c, s.Clears l c
  · obtain ⟨c, hc⟩ := h
    obtain ⟨hf, hmaps, -⟩ := id hc
    rw [unblockLine_of_clears hc]
    have hrewrite : LineMove l (s.setCircuit c { s.circuit c with faultMark := false }) (rewriteFaulted l c s) :=
      lineMove_setLine l _ _ hmaps.symm fun _ => rfl
    exact ((kept_setCircuit hmaps hl _).trans (hrewrite.kept hl)).trans ((linePath_returnToService ..).lineMove.kept hl)
  · exact (linePath_unblockLine (not_exists.1 h)).lineMove.kept hl

/-- Work on some lines, one after another. -/
theorem LinesKept.foldl {act : Line → State → State} (hact : ∀ l ∈ ls, ∀ u, LinesKept ls u (act l u)) (qs : List Line)
    (hq : ∀ l ∈ qs, l ∈ ls) (h : LinesKept ls s t) : LinesKept ls s (qs.foldl (fun u l => act l u) t) := by
  induction qs generalizing t with
  | nil => exact h
  | cons l qs ih =>
    exact ih (fun m hm => hq m (List.mem_cons_of_mem _ hm)) (h.trans (hact l (hq l List.mem_cons_self) t))

end LinesKept

/-! ### The frame of the line commands -/

/-- A line command taken, whose work keeps the frame of each line. -/
theorem lineCommand_frame {h : CommandHeader} {mask : Octet} {act : Line → State → State} (hh : s.Hears h)
    (hrun : s.running = true) (hl : addressedLines s.own h.address mask ≠ [])
    (hact : ∀ l ∈ addressedLines s.own h.address mask, ∀ u, LinesKept (addressedLines s.own h.address mask) u (act l u))
    (he : (.next (lineCommand h mask act s) : Host.Outcome State Fault Refusal) = .next t) :
    LinesFrame (addressedLines s.own h.address mask) s t ∧ t.bus = (s.endFrame true).bus := by
  rw [lineCommand_of_admits (admits_of_hears hh hrun) hl] at he
  obtain rfl := Host.Outcome.next.inj he
  have hkept := LinesKept.foldl hact _ (fun _ hm => hm) (.refl _ (s.endFrame true))
  exact ⟨{ hkept.toLinesFrame with }, hkept.bus⟩

/-- Under all ones an address names one line at most (R154). -/
theorem addressedLines_fullMask_eq {own : StationNo} {address : Octet} (h : l ∈ addressedLines own address 255) :
    addressedLines own address 255 = [l] := by
  have hmem : ∀ m, m ∈ addressedLines own address 255 ↔ m ∈ [l] := fun m => by
    rw [List.mem_singleton]
    refine ⟨fun hm => ?_, fun hm => hm ▸ h⟩
    have hlm := (mem_addressedLines_fullMask.1 hm).trans (mem_addressedLines_fullMask.1 h).symm
    exact Fin.ext (Nat.add_left_cancel hlm)
  exact List.perm_singleton.1 ((List.perm_ext_iff_of_nodup (addressedLines_nodup ..) (List.nodup_singleton l)).2 hmem)

/-- A REMAP that passes changes the line, the circuit it leaves and the circuit it takes (R16). -/
theorem frame_moveToCircuit (c : CircuitNo) (l : Line) (s : State) :
    LinesFrame [l] s (moveToCircuit c l s) ∧ (moveToCircuit c l s).bus = s.bus := by
  obtain ⟨t, hpath, heq⟩ := remap_path c l s
  have hwork : LineWork s (moveToCircuit c l s) := lineWork_remap c l s
  have hline : ∀ m, (moveToCircuit c l s).line m = t.line m := fun m => by rw [heq, recomposeLeft_line]
  have hself : ((moveToCircuit c l s).line l).circuit = some c := by
    rw [hline, hpath.lineMove.circuit, State.line_setLine_self]
  have hunit : (moveToCircuit c l s).ringUnit = t.ringUnit ∧ (moveToCircuit c l s).table = t.table := by
    rw [heq]
    cases (s.line l).circuit <;> exact ⟨rfl, rfl⟩
  have hbus : t.bus = s.bus := by rw [hpath.lineMove.eq]; rfl
  refine ⟨{ station := by rw [hwork], control := by rw [hwork], cadence := by rw [hwork], table := by rw [hwork],
            freeDraws := by rw [hwork], wire := by rw [hwork], pending := by rw [hwork]
            lines := fun m hm => ?_, circuits := fun d hd => ?_, ring := fun hr => ?_ }, by rw [hwork]⟩
  · have hml : m ≠ l := fun h => hm (List.mem_singleton.2 h)
    have hsame := hpath.lineMove.lines m hml
    rwa [State.line_setLine_ne _ hml, ← hline] at hsame
  · obtain ⟨hleft, htaken⟩ := hd l (List.mem_singleton.2 rfl)
    rw [heq, recomposeLeft_circuit, if_neg hleft]
    refine hpath.lineMove.circuits d ?_
    rw [State.line_setLine_self, ← hself]
    exact htaken
  · obtain ⟨-, hu, hrow⟩ := hpath.lineMove.ring (by
      rw [State.line_setLine_self]
      exact hr l (List.mem_singleton.2 rfl))
    rw [hunit.1, hunit.2]
    exact ⟨hu, hrow⟩

theorem frame_remapLine (v : Octet) (l : Line) (s : State) :
    LinesFrame [l] s (remapLine v l s) ∧ (remapLine v l s).bus = s.bus := by
  have hrefuse : ∀ r : Octet, LinesFrame [l] s (refuse l 8 r s) ∧ (refuse l 8 r s).bus = s.bus := fun r =>
    have hkept := (linePath_refuse l s 8 r).lineMove.kept (ls := [l]) (List.mem_singleton.2 rfl)
    ⟨hkept.toLinesFrame, hkept.bus⟩
  cases hout : (s.line l).state.outOfService with
  | false =>
    have hrefused : remapLine v l s = refuse l 8 2 s := by simp [remapLine, hout]
    rw [hrefused]
    exact hrefuse 2
  | true =>
    cases htarget : remapTarget v with
    | none => rw [remapLine_of_no_target hout htarget]; exact hrefuse 5
    | some c =>
      rw [remapLine_of_target hout htarget]
      split
      · exact hrefuse 5
      split
      · exact hrefuse 5
      · exact frame_moveToCircuit c l s

/-- What a RING leaves, whether or not it places a queued line (R55, R112). -/
theorem ringLine_frame (p1 p2 : Octet) (l : Line) (s : State) : LineWork s (ringLine p1 p2 l s)
    ∧ (ringLine p1 p2 l s).ringUnit.releases = s.ringUnit.releases
    ∧ ∀ m, m ≠ l → m ∉ s.ringUnit.queue → SameButResync (s.line m) ((ringLine p1 p2 l s).line m) := by
  by_cases hidle : (s.line l).state = .idle
  · rw [ringLine_of_idle hidle, takeRing_eq]
    have hqueue := ringQueued_queue l s (ringContextOf p1 p2) (by rw [hidle]; rfl)
    have hmem : ∀ m, m ∈ (s.ringQueued l (ringContextOf p1 p2)).ringUnit.queue → m = l ∨ m ∈ s.ringUnit.queue :=
      fun m hm => by
        rw [hqueue] at hm
        split at hm
        · exact (mem_afterPriority ..).1 hm
        · simpa [or_comm] using hm
    have hqueued : LineWork s (s.ringQueued l (ringContextOf p1 p2)) := ringQueued_eq l s (ringContextOf p1 p2)
    have hattempt := attempted_attemptPlacement (s.ringQueued l (ringContextOf p1 p2))
    have hpath := linePath_handSeizeConfirmed l (attemptPlacement (s.ringQueued l (ringContextOf p1 p2)))
    refine ⟨(hqueued.trans hattempt.work).trans hpath.lineWork, ?_, fun m hm hnot => ?_⟩
    · rw [handSeizeConfirmed_releases, hattempt.releases, hqueue]
      refine hattempt.notArmed l ?_
      rw [ringQueued_line, if_pos rfl]
      rfl
    · have hline := (hattempt.lines m fun hq => (hmem m hq).elim hm hnot).trans (hpath.lineMove.lines m hm)
      rwa [ringQueued_line, if_neg hm] at hline
  · rw [ringLine_refused hidle]
    have honly := onlyReports_refuse l 1 (if (s.line l).state = .blocked then 3 else if (s.line l).state = .fault then 4
      else 1) s
    exact ⟨honly.lineWork, by rw [honly.eq], fun m _ _ => honly.lines m⟩

/-- Settles O24: each command is a path of each addressed line, but for REMAP, which changes the map, and RING, which may
place a queued line. -/
theorem lineCommandFrame : Obligations.LineCommandFrame := by
  unfold Obligations.LineCommandFrame
  intro h s hh hrun
  refine ⟨fun i hi hl t he => ?_, fun i hi hl t he => ?_, fun p1 p2 l hl t he => ?_⟩
  · have hpath : ∀ {act : Line → State → State}, (∀ l u, LinePath l u (act l u)) →
        (.next (lineCommand h 255 act s) : Host.Outcome State Fault Refusal) = .next t →
        LinesFrame (addressedLines s.own h.address 255) s t ∧ t.bus = (s.endFrame true).bus := fun ha he =>
      lineCommand_frame hh hrun hl (fun l hm u => (ha l u).lineMove.kept hm) he
    rcases hi with rfl | rfl | ⟨v, rfl⟩ | ⟨v, rfl⟩ | ⟨v, rfl⟩ | rfl
    · exact hpath linePath_connectLine he
    · exact hpath linePath_releaseLine he
    · exact hpath (fun l u => linePath_toneLine l u (toneOf v)) he
    · obtain ⟨l, hmem⟩ := List.exists_mem_of_ne_nil _ hl
      have hone := addressedLines_fullMask_eq hmem
      have hframe := frame_remapLine v l (s.endFrame true)
      obtain rfl : remapLine v l (s.endFrame true) = t :=
        Host.Outcome.next.inj ((answer_of_takes (takes_of_admits (admits_of_hears hh hrun) hone) rfl).symm.trans he)
      rw [hone]
      exact ⟨{ hframe.1 with }, hframe.2⟩
    · exact hpath (fun l u => linePath_watchLine l u v) he
    · exact hpath linePath_queueLineState he
  · rcases hi with rfl | rfl | ⟨v, rfl⟩ | rfl
    · exact lineCommand_frame hh hrun hl (fun l hm u => (linePath_stopRingLine l u).lineMove.kept hm) he
    · exact lineCommand_frame hh hrun hl (fun l hm u => (linePath_blockPoliteLine l u).lineMove.kept hm) he
    · refine lineCommand_frame hh hrun hl (fun l hm u => ?_) he
      split
      · exact (linePath_blockPoliteLine l u).lineMove.kept hm
      · exact (linePath_blockForcedLine l u).lineMove.kept hm
    · exact lineCommand_frame hh hrun hl (fun l hm u => kept_unblockLine hm u) he
  · obtain rfl : ringLine p1 p2 l (s.endFrame true) = t :=
      Host.Outcome.next.inj ((answer_of_takes (takes_of_admits (admits_of_hears hh hrun) hl) rfl).symm.trans he)
    obtain ⟨hwork, hreleases, hlines⟩ := ringLine_frame p1 p2 l (s.endFrame true)
    exact ⟨by rw [hwork]; rfl, by rw [hwork]; rfl, by rw [hwork]; rfl, by rw [hwork]; rfl, by rw [hwork], hreleases,
      by rw [hwork]; rfl, by rw [hwork]; rfl, hlines⟩

end Sys2Proof.Machine
end

section
/-! PROOFS. The corrections and the double-bit errors of a line record (R14, R124, R167 to R170), and the frame of the rows
of one line (R19, R39, R41, R124, R169). -/

namespace Sys2Proof.Machine

variable {l : Line} {s t u : State}

/-! ### The notice without a context -/

theorem unqueue_of_not_mem (h : l ∉ s.ringUnit.queue) : s.unqueue l = s := by
  have hfilter : s.ringUnit.queue.filter (· ≠ l) = s.ringUnit.queue :=
    List.filter_eq_self.2 fun m hm => decide_eq_true fun hml => h (hml ▸ hm)
  rw [State.unqueue_eq, hfilter]
  rfl

/-- No claim of the line is in flight but an orphaned one. -/
theorem leaveClaim_of_not_own (h : ∀ c, s.ringUnit.claim = some c → c.line = l → c.status = .orphaned) :
    s.leaveClaim l = s := by
  unfold State.leaveClaim
  split
  · rename_i c hc
    split
    · rename_i hl
      simp only [h c hc hl]
    · rfl
  · rfl

/-- The own row exceeds the row of the other lines by the line's own load (R87, R124). -/
theorem State.RingOk.excess_eq (h : s.RingOk) (l : Line) (p : Phase) : s.excess l p = (s.line l).loadIn p := by
  rw [State.excess, h.ownRow_split l]
  omega

theorem leaveExcess_of_none (h : ∀ p, s.excess l p = 0) : s.leaveExcess l = s :=
  if_pos (Nat.le_zero.1 (fold_max_le (s.excess l) (List.finRange 8) 0 0 (Nat.le_refl 0) fun p _ => by rw [h p]))

/-- An excess that is one weight over a set is found as that weight and that set (R124). -/
theorem leaveExcess_of_load {w : Nat} {set : PhaseSet} (hw : 0 < w) (hset : ∃ q, inSet set q = true)
    (h : ∀ p, s.excess l p = if inSet set p then w else 0) :
    s.leaveExcess l = (s.removeOwnLoad w set).appendRelease ⟨l, w, set⟩ := by
  obtain ⟨q, hq⟩ := hset
  have hmem : ∀ p, inSet (s.excessSet l) p = inSet set p := fun p => by
    rw [Bool.eq_iff_iff, inSet_excessSet, h p]
    cases inSet set p <;> simp [hw]
  have hfound : s.excessSet l = set := BitVec.eq_of_getLsbD_eq fun i hi => hmem ⟨i, hi⟩
  have hweight : s.excessWeight l = w := by
    have hremoved := excess_removed s l w (inSet set) h q
    rw [h q, hmem q, hq] at hremoved
    exact hremoved
  rw [State.leaveExcess, if_neg (by rw [hweight]; omega), hweight, hfound]

/-- Outside the ring states there is nothing to hand (R124). -/
theorem ringLeaveBlind_of_not_ring (h : s.RingOk) (hring : (s.line l).state.isRing = false) : s.ringLeaveBlind l = s := by
  obtain ⟨-, hqueue, hclaim⟩ := h.outside hring
  rw [State.ringLeaveBlind, unqueue_of_not_mem hqueue, leaveClaim_of_not_own hclaim]
  exact leaveExcess_of_none fun p => by rw [h.excess_eq, loadIn_of_not_carrying _ (carriesLoad_of_not_ring hring)]

/-- In RING CLAIMING what the blind notice finds is the claim (R121, R122, R124). -/
theorem ringLeaveBlind_of_claiming (h : s.RingOk) (hst : (s.line l).state = .ringClaiming) :
    s.ringLeaveBlind l = s.leaveClaim l := by
  obtain ⟨c, hc, hcl, ho⟩ := (h.claimed l).1 hst
  obtain ⟨r, hr⟩ := ring_isSome h (l := l) (by rw [hst]; rfl)
  obtain ⟨hw, hset⟩ := h.claimLoad c r hc ho (by rw [hcl]; exact hr)
  have hqueue : l ∉ s.ringUnit.queue := fun hl => by
    rw [(h.queued l).1 hl] at hst
    cases hst
  rw [State.ringLeaveBlind, unqueue_of_not_mem hqueue]
  refine leaveExcess_of_none fun p => ?_
  have hlines : (s.leaveClaim l).lines = s.lines := by rw [leaveClaim_own hc hcl ho]; rfl
  have hrow : (s.leaveClaim l).table.ownRow[p] = s.table.ownRow[p] - (s.line l).loadIn p := by
    rw [leaveClaim_own hc hcl ho, loadIn_of_carrying (by rw [hst]; rfl) hr, ← hw, ← hset]
    exact getElem_removeLoad ..
  rw [State.excess, hrow, loadWithout_lines hlines, h.ownRow_split l]
  omega

/-- In a ring state the blind notice does what the one with the context does (R124). -/
theorem ringLeaveBlind_of_ring (h : s.RingOk) (hring : (s.line l).state.isRing = true) :
    s.ringLeaveBlind l = s.ringLeave l (s.line l).state (s.line l).ring := by
  obtain ⟨r, hr⟩ := ring_isSome h hring
  have hnotClaiming : (s.line l).state ≠ .ringClaiming →
      ∀ c, s.ringUnit.claim = some c → c.line = l → c.status = .orphaned := fun hne c hc hl =>
    by_contra fun ho => hne ((h.claimed l).2 ⟨c, hc, hl, ho⟩)
  by_cases hclaiming : (s.line l).state = .ringClaiming
  · rw [ringLeaveBlind_of_claiming h hclaiming, hclaiming]
    rfl
  have hclaim := hnotClaiming hclaiming
  by_cases hqueued : (s.line l).state = .ringQueued
  · have hsame : (s.unqueue l).leaveClaim l = s.unqueue l := leaveClaim_of_not_own hclaim
    rw [State.ringLeaveBlind, hsame, hqueued]
    refine leaveExcess_of_none (s := s.unqueue l) fun p => ?_
    have hexcess : (s.unqueue l).excess l p = s.excess l p := rfl
    rw [hexcess, h.excess_eq, loadIn_of_not_carrying _ (by rw [hqueued]; rfl)]
  · have hload : (s.line l).state = .ringArmed ∨ (s.line l).state = .ringing := by
      cases hst : (s.line l).state <;> simp [LineState.isRing, hst] at hring hclaiming hqueued ⊢
    have hcarries : (s.line l).state.carriesLoad = true := by rcases hload with hst | hst <;> rw [hst] <;> rfl
    obtain ⟨q, hq⟩ := List.exists_mem_of_ne_nil _ (setPhases_rotatedSet_ne_nil r.code r.offset)
    rw [State.ringLeaveBlind, unqueue_of_not_mem (fun hl => hqueued ((h.queued l).1 hl)), leaveClaim_of_not_own hclaim,
      leaveExcess_of_load (h.weight l r hr).1 ⟨q, mem_setPhases.1 hq⟩ fun p => by
        rw [h.excess_eq, loadIn_of_carrying hcarries hr], hr]
    rcases hload with hst | hst <;> rw [hst] <;> rfl

/-- The notice of a memory fault, with or without the record's words (R124, R169). -/
theorem memoryRingLeave_of_ring (h : s.RingOk) (w : LineWords) (hring : (s.line l).state.isRing = true) :
    memoryRingLeave l w s = s.ringLeave l (s.line l).state (s.line l).ring := by
  unfold memoryRingLeave
  dsimp only
  rw [if_pos hring, ringLeaveBlind_of_ring h hring, ite_self]

theorem memoryRingLeave_of_not_ring (h : s.RingOk) (w : LineWords) (hring : (s.line l).state.isRing = false) :
    memoryRingLeave l w s = s := by
  unfold memoryRingLeave
  dsimp only
  rw [ringLeaveBlind_of_not_ring h hring, hring, if_neg Bool.false_ne_true, ite_self]

/-! ### Corrections -/

/-- A correction queues CORRECTED, of class 3, and sets the mark (R167). -/
theorem reportCorrection_eq (l : Line) (s : State) : reportCorrection l s
    = (s.setReports (s.reportsAfter [s.lineEntry l .corrected [0]])).setLine l { s.line l with correctionMark := true } := by
  have hqueue : queueLine .corrected l [0] s = s.setReports (s.reportsAfter [s.lineEntry l .corrected [0]]) :=
    queueReport_class3 s _ rfl
  unfold reportCorrection
  rw [hqueue]
  rfl

theorem told_reportCorrection (l : Line) (s : State) : Told l s { s.line l with correctionMark := true }
    [s.lineEntry l .corrected [0]] (reportCorrection l s) :=
  (told_queueLine l s .corrected [0]).andThen (f := fun r => { r with correctionMark := true })
    (told_setLine (queueLine .corrected l [0] s) _ rfl rfl rfl rfl) fun _ => rfl

/-- What a correction that an access finds answers. -/
theorem exec_lineRecordCorrection {w : LineWords} (hrun : s.running = true) (hany : ((s.line l).reads w).any = true)
    (hu : correctLineRecord l s = u) : exec (.lineRecordCorrection l w) s = .next u.sendIfIdle := by
  have hdone : (if s.running && ((s.line l).reads w).any then correctLineRecord l s else s) = u := by
    rw [if_pos (by rw [hrun, hany]; rfl), hu]
  exact congrArg (fun v : State => Host.Outcome.next v.sendIfIdle) hdone

/-- Settles O50: the report and the mark, and the entry into FAULT behind them where the mark stood. -/
theorem lineRecordCorrections : Obligations.LineRecordCorrections := by
  unfold Obligations.LineRecordCorrections
  intro l w s hrun hany
  have hkeeps : (s.line l).correctionMark = true → ({ s.line l with correctionMark := true } : LineRecord) = s.line l :=
    fun h => by rw [← h]
  refine ⟨fun hmark => ?_, fun hmark hst => ?_, fun hmark hst => ?_⟩
  · have hcorrect : correctLineRecord l s = reportCorrection l s := if_neg (by rw [hmark]; exact Bool.false_ne_true)
    refine ⟨_, exec_lineRecordCorrection hrun hany hcorrect, ?_⟩
    rw [reportCorrection_eq]
    exact ⟨State.line_setLine_self .., rfl, rfl, rfl, rfl, fun m hm => State.line_setLine_ne _ hm _⟩
  · have hcorrect : correctLineRecord l s = enterFault l 1 (reportCorrection l s) := if_pos hmark
    have hreported := told_reportCorrection l s
    have hstate : ((reportCorrection l s).line l).state = (s.line l).state := hreported.record.fields.1
    have hfault := hreported.andThen (f := fun r => r.outOfUse .fault)
      (told_enterFault 1 (by rw [hstate]; exact hst)) fun _ => rfl
    rw [hreported.lineEntry, hreported.traceEntries _ _ rfl, hstate, hkeeps hmark] at hfault
    exact ⟨_, exec_lineRecordCorrection hrun hany hcorrect, hfault.record, hfault.reports⟩
  · have hstate : ((reportCorrection l s).line l).state = .fault :=
      (told_reportCorrection l s).record.fields.1.trans hst
    refine exec_lineRecordCorrection hrun hany ((if_pos hmark).trans ((enterFault_of_fault 1 hstate).trans ?_))
    rw [reportCorrection_eq, hkeeps hmark]
    exact State.setLine_line_self (s.setReports (s.reportsAfter [s.lineEntry l .corrected [0]])) l

/-! ### Double-bit errors -/

theorem recomposeLost_eq (s : State) (c : Option CircuitNo) : s.recomposeLost c = s.recomposeLeft c := by
  cases c <;> rfl

/-- What an access that finds a double-bit error alone answers. -/
theorem exec_lineRecordDoubleBitError {v w : LineWords} (hrun : s.running = true) (hany : ((s.line l).reads v).any = true)
    (hw : ((s.line l).reads w).any = false) :
    exec (.lineRecordDoubleBitError l v w) s = .next (lineMemoryFault l ((s.line l).reads v) s).sendIfIdle := by
  have htake : takeLineDoubleBit l v w s = lineMemoryFault l ((s.line l).reads v) s := by
    unfold takeLineDoubleBit
    dsimp only
    rw [if_pos (by rw [hrun, hany]; rfl), if_neg (by rw [hw]; exact Bool.false_ne_true)]
  exact congrArg (fun u : State => Host.Outcome.next u.sendIfIdle) htake

/-- A line in FAULT is rewritten with no report and no notice (R170). -/
theorem lineMemoryFault_of_fault {v : LineWords} (h : (s.line l).state = .fault) :
    lineMemoryFault l v s = (s.setLine l ((s.line l).rewritten v)).recomposeLeft (s.line l).circuit := by
  unfold lineMemoryFault
  dsimp only
  rw [if_pos h, recomposeLost_eq]

/-- The state after the notice and the rewriting of a record with a double-bit error. -/
def State.memoryRewritten (s : State) (l : Line) (v : LineWords) : State :=
  (memoryRingLeave l v s).setLine l ((s.line l).rewritten v)

theorem lineMemoryFault_of_not_fault {v : LineWords} (h : (s.line l).state ≠ .fault) : lineMemoryFault l v s
    = (traceChange l (s.line l).state (queueLine .fault l [1] (s.memoryRewritten l v))).recomposeLeft (s.line l).circuit := by
  unfold lineMemoryFault
  dsimp only
  rw [if_neg h, recomposeLost_eq]
  rfl

theorem memoryRewritten_line (s : State) (l : Line) (v : LineWords) :
    (s.memoryRewritten l v).line l = (s.line l).rewritten v := State.line_setLine_self ..

/-- A circuit that its one line has lost is composed as a spare (R2, R14). -/
theorem circuit_lost {c : CircuitNo} (hrun : t.running = true) (h : ∀ m, (t.line m).circuit ≠ some c) :
    ((t.recomposeLeft (some c)).circuit c).ringRelay = false ∧ ((t.recomposeLeft (some c)).circuit c).dialSwitch = false
      ∧ ((t.recomposeLeft (some c)).circuit c).specialSwitch = false
      ∧ ((t.recomposeLeft (some c)).circuit c).cutOff = true := by
  have hat : (t.recomposeLeft (some c)).OutputsAt c := outputsAt_recomposeLeft (some c) fun hne => absurd rfl hne
  have howner : (t.recomposeLeft (some c)).owner c = none := owner_eq_none_iff.2 h
  unfold State.OutputsAt State.OutputsOf at hat
  rw [if_neg (by rcases running_iff.1 hrun with h | h <;> (rw [show (t.recomposeLeft (some c)).station = t.station from rfl, h]; decide)),
    howner] at hat
  exact hat

/-- What a double-bit error outside FAULT leaves before the circuit is composed: the reports alone come behind the
rewriting. -/
def State.memoryReported (s : State) (l : Line) (v : LineWords) : State :=
  traceChange l (s.line l).state (queueLine .fault l [1] (s.memoryRewritten l v))

section MemoryReported
variable (l : Line) (v : LineWords) (s : State)

theorem onlyReports_memoryReported : OnlyReports (s.memoryRewritten l v) (s.memoryReported l v) :=
  (onlyReports_queueLine ..).trans (onlyReports_traceChange ..)

theorem memoryRewritten_eq : s.memoryRewritten l v = { s with
    lines := s.lines.set l ((s.line l).rewritten v)
    ringUnit := (memoryRingLeave l v s).ringUnit
    table := { s.table with ownRow := (memoryRingLeave l v s).table.ownRow } } := by
  rw [State.memoryRewritten, memoryRingLeave_eq]
  rfl

theorem memoryReported_line : SameButResync ((s.line l).rewritten v) ((s.memoryReported l v).line l) := by
  have hline := (onlyReports_memoryReported l v s).lines l
  rwa [memoryRewritten_line] at hline

theorem memoryReported_line_ne {m : Line} (h : m ≠ l) : SameButResync (s.line m) ((s.memoryReported l v).line m) := by
  have hline := (onlyReports_memoryReported l v s).lines m
  have hsame : (s.memoryRewritten l v).line m = s.line m := by
    rw [memoryRewritten_eq]
    exact State.line_setLine_ne s h _
  rwa [hsame] at hline

/-- The FAULT report, and the TRACE of a line whose watch flag could be read (R42, R169). -/
theorem memoryReported_reports : (s.memoryReported l v).reports = s.reportsAfter (s.lineEntry l .fault [1]
    :: if v.status then [] else s.traceEntries l (s.line l).state .fault) := by
  have hown : (s.memoryRewritten l v).own = s.own := by rw [memoryRewritten_eq]; rfl
  have hentry : (s.memoryRewritten l v).lineEntry l .fault [1] = s.lineEntry l .fault [1] := by
    rw [State.lineEntry, hown]
    rfl
  have hfirst : (queueLine .fault l [1] (s.memoryRewritten l v)).reports = s.reportsAfter [s.lineEntry l .fault [1]] := by
    rw [← hentry]
    exact queueReport_reports_congr (s := s) (t := s.memoryRewritten l v) (by rw [memoryRewritten_eq]) _
  have honly := onlyReports_queueLine .fault l [1] (s.memoryRewritten l v)
  have hline := honly.lines l
  rw [memoryRewritten_line] at hline
  have htrace : (queueLine .fault l [1] (s.memoryRewritten l v)).traceEntries l (s.line l).state .fault
      = if v.status then [] else s.traceEntries l (s.line l).state .fault := by
    have hwatch : ((queueLine .fault l [1] (s.memoryRewritten l v)).line l).watch = ((s.line l).watch && !v.status) :=
      hline.fields.2.2.1
    simp only [State.traceEntries, State.lineEntry, hwatch, honly.own, hown]
    cases v.status <;> simp
  refine (traceChange_reports ..).trans ?_
  rw [hline.fields.1]
  refine (reportsAfter_then s _ _ hfirst).trans ?_
  rw [← htrace]
  rfl

end MemoryReported

/-- Settles O51: the record, the circuit as a spare, the report, and the notice the Ring Placement Unit has acted on. -/
theorem lineRecordDoubleBitError : Obligations.LineRecordDoubleBitError := by
  unfold Obligations.LineRecordDoubleBitError
  refine ⟨fun l v c s hrun hmap hany hst hc => ?_, fun l v w s hrun hmap hany hst hw => ?_⟩
  · have hfault : lineMemoryFault l ((s.line l).reads v) s
        = (s.memoryReported l ((s.line l).reads v)).recomposeLeft (some c) := by
      rw [lineMemoryFault_of_not_fault hst, hc]
      rfl
    have honly := onlyReports_memoryReported l ((s.line l).reads v) s
    have hrewritten := memoryRewritten_eq l ((s.line l).reads v) s
    obtain ⟨hstate, htone, hwatch, hpending, hcircuit, htiming, hring, -⟩ :=
      (memoryReported_line l ((s.line l).reads v) s).fields
    have hlost : ∀ m, ((s.memoryReported l ((s.line l).reads v)).line m).circuit ≠ some c := fun m hm => by
      by_cases hml : m = l
      · rw [hml, hcircuit] at hm
        cases hm
      · rw [(memoryReported_line_ne l _ s hml).fields.2.2.2.2.1] at hm
        exact hml (hmap.1 m l c hm hc)
    have hrunning : (s.memoryReported l ((s.line l).reads v)).running = true := by
      unfold State.running
      rw [honly.eq, hrewritten]
      exact hrun
    have hstood : (s.memoryReported l ((s.line l).reads v)).circuit c = s.circuit c :=
      State.circuit_congr (by rw [honly.eq, hrewritten]) c
    obtain ⟨hrelay, hdial, hspecial, hcut⟩ := circuit_lost hrunning hlost
    obtain ⟨hhook, -, hmark⟩ := recomposeLeft_keeps (s.memoryReported l ((s.line l).reads v)) (some c) c
    have hunit : (s.memoryReported l ((s.line l).reads v)).ringUnit = (memoryRingLeave l ((s.line l).reads v) s).ringUnit := by
      rw [honly.eq, hrewritten]
    have htable : (s.memoryReported l ((s.line l).reads v)).table
        = { s.table with ownRow := (memoryRingLeave l ((s.line l).reads v) s).table.ownRow } := by
      rw [honly.eq, hrewritten]
    refine ⟨_, exec_lineRecordDoubleBitError hrun hany ?_, ?_⟩
    · simp [LineRecord.reads, LineWords.any]
    rw [hfault]
    refine ⟨hstate, hcircuit, htone, hpending, htiming, hring, hwatch, hrelay, hdial, hspecial, hcut, by rw [hmark, hstood],
      by rw [hhook, hstood], memoryReported_reports l _ s, fun hok hisring => ?_, fun hok hnot => ?_⟩
    · refine afterRingLeave_of_notice (hunit.trans ?_) ((congrArg LoadTable.ownRow htable).trans ?_)
      · rw [memoryRingLeave_of_ring hok _ hisring]
      · rw [memoryRingLeave_of_ring hok _ hisring]
    · rw [memoryRingLeave_of_not_ring hok _ hnot] at hunit htable
      exact ⟨hunit, htable⟩
  · have hself : ((s.setLine l ((s.line l).rewritten ((s.line l).reads v))).recomposeLeft (s.line l).circuit).line l
        = (s.line l).rewritten ((s.line l).reads v) := by rw [recomposeLeft_line, State.line_setLine_self]
    have hlines : ∀ m, m ≠ l → ((s.setLine l ((s.line l).rewritten ((s.line l).reads v))).recomposeLeft
        (s.line l).circuit).line m = s.line m := fun m hm => by rw [recomposeLeft_line, State.line_setLine_ne _ hm]
    refine ⟨_, exec_lineRecordDoubleBitError hrun hany hw, ?_⟩
    rw [lineMemoryFault_of_fault hst]
    refine ⟨by rw [hself]; rfl, by rw [hself]; rfl, by rw [hself]; rfl, by rw [hself]; rfl, by rw [hself]; rfl, hlines,
      fun c hc => ?_, recomposeLeft_reports .., ?_⟩
    · have hlost : ∀ m, ((s.setLine l ((s.line l).rewritten ((s.line l).reads v))).line m).circuit ≠ some c := fun m hm => by
        rw [State.line_setLine] at hm
        split at hm
        · cases hm
        · rename_i hml
          exact hml (hmap.1 m l c hm hc)
      obtain ⟨hrelay, -, -, hcut⟩ := circuit_lost (t := s.setLine l ((s.line l).rewritten ((s.line l).reads v))) hrun hlost
      rw [hc]
      exact ⟨hrelay, hcut, (recomposeLeft_keeps _ (some c) c).2.2⟩
    · cases (s.line l).circuit <;> exact ⟨rfl, rfl⟩

/-! ### The frame of the rows of one line -/

/-- The work of the owner of a circuit is work on that line. -/
theorem kept_forOwner {c : CircuitNo} (ho : s.owner c = some l) {act : Line → State → State}
    (ha : ∀ l u, LinePath l u (act l u)) : LinesKept [l] s (forOwner c act s) := by
  cases hrun : s.running with
  | true => rw [forOwner_of_owner hrun ho]; exact (ha l s).lineMove.kept (List.mem_singleton.2 rfl)
  | false => rw [forOwner_of_none (.inr hrun)]; exact .refl _ s

theorem kept_whenRunning {act : State → State} (ha : ∀ u, LinePath l u (act u)) : LinesKept [l] s (whenRunning act s) := by
  unfold whenRunning
  split
  · exact (ha s).lineMove.kept (List.mem_singleton.2 rfl)
  · exact .refl _ s

/-- A change of a filter of a circuit, and the work of its owner behind it. -/
theorem kept_edge {c : CircuitNo} (ho : s.owner c = some l) (x : Circuit) {act : Line → State → State}
    (ha : ∀ l u, LinePath l u (act l u)) : LinesKept [l] s (forOwner c act (s.setCircuit c x)) := by
  have hc : (s.line l).circuit = some c := by simpa [State.owner] using List.find?_some ho
  exact (kept_setCircuit hc (List.mem_singleton.2 rfl) x).trans (kept_forOwner (s := s.setCircuit c x) ho ha)

/-- A double-bit error changes its line and the circuit lost, and hands nothing outside the ring states (R169, R170). -/
theorem frame_lineMemoryFault (hok : s.RingOk) (v : LineWords) :
    LinesFrame [l] s (lineMemoryFault l v s) ∧ (lineMemoryFault l v s).bus = s.bus := by
  have hwork := lineWork_lost l v s
  obtain ⟨w, t, hw, -, honly, heq⟩ := lost_path l v s
  have hline : ∀ m, (lineMemoryFault l v s).line m = t.line m := fun m => by rw [heq, recomposeLeft_line]
  refine ⟨{ station := by rw [hwork], control := by rw [hwork], cadence := by rw [hwork], table := by rw [hwork],
            freeDraws := by rw [hwork], wire := by rw [hwork], pending := by rw [hwork]
            lines := fun m hm => ?_, circuits := fun d hd => ?_, ring := fun hr => ?_ }, by rw [hwork]⟩
  · have hml : m ≠ l := fun h => hm (List.mem_singleton.2 h)
    have hsame := honly.lines m
    rwa [State.line_setLine_ne _ hml, State.line_congr (t := w) (s := s) (by rw [hw]), ← hline] at hsame
  · rw [heq, recomposeLeft_circuit, if_neg (hd l (List.mem_singleton.2 rfl)).1]
    exact State.circuit_congr (by rw [honly.eq, State.setLine_circuits, hw]) d
  · have hnot := hr l (List.mem_singleton.2 rfl)
    by_cases hst : (s.line l).state = .fault
    · rw [lineMemoryFault_of_fault hst]
      cases (s.line l).circuit <;> exact ⟨rfl, rfl⟩
    · have hreported : lineMemoryFault l v s = (s.memoryReported l v).recomposeLeft (s.line l).circuit :=
        lineMemoryFault_of_not_fault hst
      have hstood : (s.memoryReported l v).ringUnit = s.ringUnit ∧ (s.memoryReported l v).table.ownRow = s.table.ownRow := by
        rw [(onlyReports_memoryReported l v s).eq, memoryRewritten_eq, memoryRingLeave_of_not_ring hok v hnot]
        exact ⟨rfl, rfl⟩
      rw [hreported]
      cases (s.line l).circuit <;> exact hstood

/-- The frame of an access with a double-bit error, with the CORRECTED of the same access before it (R169). -/
theorem frame_takeLineDoubleBit (hok : s.RingOk) (v w : LineWords) :
    LinesFrame [l] s (takeLineDoubleBit l v w s) ∧ (takeLineDoubleBit l v w s).bus = s.bus := by
  unfold takeLineDoubleBit
  dsimp only
  split
  · split
    · have hkept := (told_reportCorrection l s).path.lineMove.kept (ls := [l]) (List.mem_singleton.2 rfl)
      have hframe := frame_lineMemoryFault (l := l) (v := (s.line l).reads v)
        (ringOk_setLine ((onlyReports_queueLine .corrected l [0] s).ringOk hok) l
          { (queueLine .corrected l [0] s).line l with correctionMark := true } rfl rfl)
      exact ⟨hkept.thenFrame hframe.1, hframe.2.trans hkept.bus⟩
    · exact frame_lineMemoryFault hok _
  · exact ⟨(LinesKept.refl [l] s).toLinesFrame, rfl⟩

/-- Settles O44: each row is a path of the line, with the filter of its circuit or the record's rewriting before it. -/
theorem oneLineFrame : Obligations.OneLineFrame := by
  unfold Obligations.OneLineFrame
  intro l s t i hi he
  have hkept : ∀ {v : State}, LinesKept [l] s v → exec i s = .next v.sendIfIdle →
      ∃ u, (t = u ∨ t = u.sendIfIdle) ∧ LinesFrame [l] s u ∧ u.bus = s.bus := fun {v} hv hexec =>
    ⟨v, .inr (Host.Outcome.next.inj (he.symm.trans hexec)), hv.toLinesFrame, hv.bus⟩
  rcases hi with ⟨c, ho, rfl | rfl | rfl | rfl | rfl⟩ | rfl | rfl | rfl | rfl | rfl | rfl | rfl | ⟨w, rfl⟩
    | ⟨v, w, hok, rfl⟩
  · refine hkept (v := takeOnHookEdge c s) ?_ rfl
    unfold takeOnHookEdge
    split
    · exact kept_edge ho _ fun m u => (linePath_handDue m u).trans (linePath_takeOnHook ..)
    · exact .refl _ s
  · refine hkept (v := takeOffHookEdge c s) ?_ rfl
    unfold takeOffHookEdge
    split
    · exact kept_edge ho _ fun m u => (linePath_handDue m u).trans (linePath_takeOffHook ..)
    · exact .refl _ s
  · refine hkept (v := takeSettleNotice c s) ?_ rfl
    unfold takeSettleNotice
    split
    · split
      · exact kept_edge ho _ fun m u => (linePath_handDue m u).trans (linePath_takeSettle ..)
      · exact .refl _ s
    · exact .refl _ s
  · refine hkept (v := takeFaultAsserted c s) ?_ rfl
    unfold takeFaultAsserted
    split
    · exact kept_edge ho _ fun m u => linePath_enterFault m u 0
    · exact .refl _ s
  · have hc : (s.line l).circuit = some c := by simpa [State.owner] using List.find?_some ho
    have hnormal : LinesKept [l] s (takeFaultNormal c s) := by
      unfold takeFaultNormal
      split
      · exact kept_setCircuit hc (List.mem_singleton.2 rfl) _
      · exact .refl _ s
    exact ⟨_, .inl (Host.Outcome.next.inj he).symm, hnormal.toLinesFrame, hnormal.bus⟩
  · exact hkept (kept_whenRunning (linePath_handClearReached l)) rfl
  · exact hkept (kept_whenRunning (linePath_handSeizeConfirmed l)) rfl
  · exact hkept (kept_whenRunning (linePath_handTripConfirmed l)) rfl
  · exact hkept (kept_whenRunning (linePath_handDigitEnd l)) rfl
  · exact hkept (kept_whenRunning (linePath_handInterdigitTimeout l)) rfl
  · exact hkept (kept_whenRunning (linePath_handDialToneTimeout l)) rfl
  · exact hkept (kept_whenRunning (linePath_handRecallTimeout l)) rfl
  · refine hkept (v := if s.running && ((s.line l).reads w).any then correctLineRecord l s else s) ?_ rfl
    split
    · exact (linePath_correctLineRecord l s).lineMove.kept (List.mem_singleton.2 rfl)
    · exact .refl _ s
  · have hframe := frame_takeLineDoubleBit (l := l) hok v w
    exact ⟨_, .inr (Host.Outcome.next.inj he).symm, hframe⟩

end Sys2Proof.Machine
end

section
/-! PROOFS. The report queue: coalescing, entering, displacing and dropping (R162, R163, R164). -/

namespace Sys2Proof.Machine

variable {s : State} {e : ReportEntry}

theorem coalescesWith_iff (new old : ReportEntry) : new.coalescesWith old = true ↔ new.code = old.code ∧ new.number = old.number
    ∧ (new.code = .lineState ∨ new.code = .trace ∨ new.code = .corrected ∧ new.values = old.values) := by
  simp [ReportEntry.coalescesWith, and_assoc, or_assoc]

/-- Two entries that one report coalesces with coalesce with each other (R163). -/
theorem coalescesWith_of_both {a b : ReportEntry} (ha : e.coalescesWith a = true) (hb : e.coalescesWith b = true) :
    a.coalescesWith b = true := by
  obtain ⟨hcode, hnumber, hkind⟩ := (coalescesWith_iff e a).1 ha
  obtain ⟨hcode', hnumber', hkind'⟩ := (coalescesWith_iff e b).1 hb
  refine (coalescesWith_iff a b).2 ⟨hcode.symm.trans hcode', hnumber.symm.trans hnumber', ?_⟩
  rcases hkind with h | h | ⟨h, hv⟩
  · exact .inl (hcode.symm.trans h)
  · exact .inr (.inl (hcode.symm.trans h))
  · rcases hkind' with h' | h' | ⟨-, hv'⟩
    · rw [h] at h'; cases h'
    · rw [h] at h'; cases h'
    · exact .inr (.inr ⟨hcode.symm.trans h, hv.symm.trans hv'⟩)

/-- A coalescing report is written in its one older entry (R163). -/
theorem coalesce_eq {front back : List ReportEntry} {old : ReportEntry} (h : QueueOk (front ++ old :: back))
    (hc : e.coalescesWith old = true) : coalesce e (front ++ old :: back) = front ++ old.replaceWith e :: back := by
  obtain ⟨-, hfront⟩ := h
  have hback := (List.pairwise_append.1 hfront).2.1
  have hcross := (List.pairwise_append.1 hfront).2.2
  have hkeep : ∀ q : List ReportEntry, (∀ x ∈ q, e.coalescesWith x = false) →
      q.map (fun x => if e.coalescesWith x then x.replaceWith e else x) = q := fun q hq => by
    refine (List.map_congr_left fun x hx => ?_).trans (List.map_id q)
    rw [hq x hx]
    rfl
  rw [coalesce, List.map_append, List.map_cons, if_pos hc, hkeep front, hkeep back]
  · intro x hx
    by_contra hne
    have := coalescesWith_of_both hc (by simpa using hne)
    rw [List.rel_of_pairwise_cons hback hx] at this
    cases this
  · intro x hx
    by_contra hne
    have := coalescesWith_of_both (by simpa using hne) hc
    rw [hcross x hx old List.mem_cons_self] at this
    cases this

/-- A report enters a queue in class order behind the last entry of its class (R162). -/
theorem insertReport_eq_filter {q : List ReportEntry} (h : q.Pairwise fun a b => a.cls ≤ b.cls) : insertReport e q
    = q.filter (fun x => x.cls ≤ e.cls) ++ e :: q.filter (fun x => e.cls < x.cls) := by
  induction q with
  | nil => rfl
  | cons x q ih =>
    obtain ⟨hx, hq⟩ := List.pairwise_cons.1 h
    by_cases hle : x.cls ≤ e.cls
    · rw [insertReport, if_pos hle, ih hq, List.filter_cons_of_pos (by simpa using hle),
        List.filter_cons_of_neg (by simpa using hle)]
      rfl
    · have hlt : e.cls < x.cls := Nat.lt_of_not_le hle
      have hnone : q.filter (fun y => y.cls ≤ e.cls) = [] :=
        List.filter_eq_nil_iff.2 fun y hy => by simpa using hlt.trans_le (hx y hy)
      have hall : q.filter (fun y => e.cls < y.cls) = q :=
        List.filter_eq_self.2 fun y hy => by simpa using hlt.trans_le (hx y hy)
      rw [insertReport, if_neg hle, List.filter_cons_of_neg (by simpa using hlt), List.filter_cons_of_pos (by simpa using hlt),
        hnone, hall]
      rfl

theorem removeNewest_eq_none {cls : Nat} {q : List ReportEntry} (h : ∀ x ∈ q, x.cls = cls → x.sending = true) :
    removeNewest cls q = none := by
  induction q with
  | nil => rfl
  | cons x q ih =>
    have hx := h x List.mem_cons_self
    rw [removeNewest, ih fun y hy => h y (List.mem_cons_of_mem x hy)]
    by_cases hc : x.cls = cls
    · simp [hx hc]
    · simp [hc]

/-- The newest entry of a class that is not on the wire (R164). -/
theorem removeNewest_eq_some {cls : Nat} {front back : List ReportEntry} {d : ReportEntry} (hd : d.cls = cls)
    (hs : d.sending = false) (h : ∀ x ∈ back, x.cls = cls → x.sending = true) :
    removeNewest cls (front ++ d :: back) = some (d, front ++ back) := by
  induction front with
  | nil => simp [removeNewest, removeNewest_eq_none h, hd, hs]
  | cons x front ih => simp [removeNewest, ih]

/-- A report that coalesces with no entry of a full queue (R164). -/
theorem queueReport_of_full (hc : ∀ x ∈ s.reports, e.coalescesWith x = false) (hfull : s.reports.length = 32) :
    (∀ d rest, displacedBy e s.reports = some (d, rest) → s.queueReport e
        = if d.cls = 2 then (s.setReports (insertReport e rest)).markResync d.number else s.setReports (insertReport e rest))
      ∧ (displacedBy e s.reports = none → s.queueReport e = if e.cls = 3 then s else s.markResync e.number) := by
  have hany : s.reports.any e.coalescesWith = false := by simpa using hc
  have hroom : ¬ s.reports.length < reportCapacity := by rw [hfull]; decide
  refine ⟨fun d rest hd => ?_, fun hd => ?_⟩ <;>
    simp only [State.queueReport, hany, Bool.false_eq_true, if_false, if_neg hroom, hd]

theorem displacedBy_of_class3 (h : e.cls = 3) (q : List ReportEntry) : displacedBy e q = none := if_pos h

/-- Another report displaces the newest class 3 entry that is not on the wire (R164). -/
theorem displacedBy_class3 {front back : List ReportEntry} {d : ReportEntry} (hd : d.cls = 3) (hs : d.sending = false)
    (h : ∀ x ∈ back, x.cls = 3 → x.sending = true) (he : e.cls ≠ 3) :
    displacedBy e (front ++ d :: back) = some (d, front ++ back) := by
  rw [displacedBy, if_neg he, removeNewest_eq_some hd hs h]

theorem displacedBy_of_no_class3 {q : List ReportEntry} (h : ∀ x ∈ q, x.cls = 3 → x.sending = true) (he : e.cls ≠ 3) :
    displacedBy e q = if e.cls = 1 then removeNewest 2 q else none := by
  rw [displacedBy, if_neg he, removeNewest_eq_none h]

/-- Settles O37: the queue's four answers, each by the first test that holds. -/
theorem fullQueueDisplacesOrDrops : Obligations.FullQueueDisplacesOrDrops := by
  unfold Obligations.FullQueueDisplacesOrDrops
  refine ⟨coalescesWith_iff, fun s e ⟨hlength, horder, hdistinct⟩ => ⟨fun front old back hq hc => ?_,
    fun hnone => ⟨fun hroom => ?_, fun hfull => ?_⟩⟩⟩
  · have hany : s.reports.any e.coalescesWith = true := by
      rw [hq]
      exact List.any_eq_true.2 ⟨old, by simp, hc⟩
    have hwrite : coalesce e s.reports = front ++ old.replaceWith e :: back := by
      rw [hq]
      exact coalesce_eq (by rw [← hq]; exact ⟨horder, hdistinct⟩) hc
    rw [State.queueReport, if_pos hany, hwrite]
    rfl
  · have hany : ¬ s.reports.any e.coalescesWith = true := by simpa using hnone
    rw [State.queueReport, if_neg hany, if_pos (by exact hroom), insertReport_eq_filter horder]
    rfl
  · obtain ⟨hdisplaced, hdropped⟩ := queueReport_of_full hnone hfull
    have hrest : ∀ {front back : List ReportEntry} {d : ReportEntry}, s.reports = front ++ d :: back →
        insertReport e (front ++ back) = (front ++ back).filter (fun x => x.cls ≤ e.cls)
          ++ e :: (front ++ back).filter (fun x => e.cls < x.cls) := fun {front back d} hq => by
      refine insertReport_eq_filter (horder.sublist ?_)
      rw [hq]
      exact (List.Sublist.refl front).append (List.sublist_cons_self d back)
    refine ⟨fun hcls => ?_, fun front d back hq hd hs hback hcls => ?_, fun hsent =>
      ⟨fun front d back hq hd hs hback hcls => ?_, fun hcls => ?_⟩⟩
    · rw [hdropped (displacedBy_of_class3 hcls _), if_pos hcls]
    · have hfound : displacedBy e s.reports = some (d, front ++ back) := by
        rw [hq]
        exact displacedBy_class3 hd hs hback hcls
      rw [hdisplaced d _ hfound, if_neg (by rw [hd]; decide), hrest hq]
      rfl
    · have hfound : displacedBy e s.reports = some (d, front ++ back) := by
        rw [displacedBy_of_no_class3 hsent (by rw [hcls]; decide), if_pos hcls, hq]
        exact removeNewest_eq_some hd hs hback
      rw [hdisplaced d _ hfound, if_pos hd, hrest hq]
      rfl
    · have hne : e.cls ≠ 3 := by rcases hcls with h | ⟨h, -⟩ <;> rw [h] <;> decide
      have hnothing : displacedBy e s.reports = none := by
        rw [displacedBy_of_no_class3 hsent hne]
        rcases hcls with h | ⟨h, hall⟩
        · rw [h]; rfl
        · rw [if_pos h]; exact removeNewest_eq_none hall
      rw [hdropped hnothing, if_neg hne]
      rfl

end Sys2Proof.Machine
end

section
/-! PROOFS. The decision on a COMMAND, its slot, and its completion (R142, R155, R156, R173, R177, R178). -/

namespace Sys2Proof.Machine

variable {s : State} {h : CommandHeader} {i : Instr}

/-! ### The completion of a COMMAND -/

theorem receiveCommand_of_hears (hh : s.Hears h) (takes allowed : Bool) (act : State → State) :
    receiveCommand h takes allowed act s = if takes then act (s.endFrame true) else s.endFrame false := by
  obtain ⟨hreceiving, hstation, hdecided⟩ := hh
  simp [receiveCommand, hreceiving, hstation, hdecided]

/-- A command left untaken at its check octet. -/
theorem receiveCommand_of_untaken (hr : s.receiving = true) (hst : h.station ≠ s.own) (hd : s.bus.rx.decided = some false)
    (takes allowed : Bool) (act : State → State) : receiveCommand h takes allowed act s = s.endFrame false := by
  simp [receiveCommand, hr, hst, hd]

/-- A command taken at its check octet: the state at the completion is all that is looked at again (R156). -/
theorem receiveCommand_of_taken (hr : s.receiving = true) (hd : s.bus.rx.decided = some true) (takes allowed : Bool)
    (act : State → State) :
    receiveCommand h takes allowed act s = if allowed then act (s.endFrame true) else s.endFrame true := by
  simp [receiveCommand, hr, hd]

/-- A COMMAND row as Command Dispatch takes it: the decision, the states that allow it, and its work. None of the three reads
the bus, and the work leaves the slot (R155, R156). -/
structure CommandRow (i : Instr) (h : CommandHeader) where
  takes : State → Bool
  allowed : State → Bool
  act : State → State → State
  exec_eq : ∀ s, exec i s = .next (receiveCommand h (takes s) (allowed s) (act s) s)
  decision_eq : ∀ s, s.decision i = some (takes s)
  admits : ∀ s, takes s = true → h.station ≠ s.own ∧ allowed s = true
  bus_free : ∀ s b, takes (s.setBus b) = takes s ∧ allowed (s.setBus b) = allowed s ∧ act (s.setBus b) = act s
  ackSlot : ∀ s u, (act s u).bus.ackSlot = u.bus.ackSlot

/-- A line command under a mask. -/
def lineRow {i : Instr} {h : CommandHeader} {mask : Octet} {act : Line → State → State}
    (he : ∀ s : State, exec i s = .next (lineCommand h mask act s)) (hd : ∀ s : State, s.decision i = some (s.takesLine h mask))
    (ha : ∀ l t, (act l t).dispatch = t.dispatch) : CommandRow i h where
  takes s := s.takesLine h mask
  allowed s := s.running
  act s t := (addressedLines s.own h.address mask).foldl (fun t l => act l t) t
  exec_eq := he
  decision_eq := hd
  admits s ht := by
    simp only [State.takesLine, Bool.and_eq_true, decide_eq_true_eq] at ht
    exact ⟨ht.1.1, ht.1.2⟩
  bus_free _ _ := ⟨rfl, rfl, rfl⟩
  ackSlot s u := by
    have hfold := foldl_keeps (fun t : State => t.dispatch = u.dispatch) (fun t l => act l t)
      (fun t l ht => (ha l t).trans ht) (addressedLines s.own h.address mask) rfl
    rw [bus_of_dispatch hfold]

/-- A station command. -/
def stationRow {i : Instr} {h : CommandHeader} {allowed : StationState → Bool} {act : State → State}
    (he : ∀ s : State, exec i s = .next (stationCommand h allowed act s)) (hd : ∀ s : State, s.decision i = some (s.takesStation h allowed))
    (ha : ∀ u, (act u).bus.ackSlot = u.bus.ackSlot) : CommandRow i h where
  takes s := s.takesStation h allowed
  allowed s := allowed s.station.state
  act _ := act
  exec_eq := he
  decision_eq := hd
  admits s ht := by
    simp only [State.takesStation, Bool.and_eq_true, decide_eq_true_eq] at ht
    exact ht.1
  bus_free _ _ := ⟨rfl, rfl, rfl⟩
  ackSlot _ := ha

theorem startStation_ackSlot (u : State) : (startStation u).bus.ackSlot = u.bus.ackSlot := by
  unfold startStation heedWarning
  split
  · split <;> rfl
  · rfl

/-- Every COMMAND row is one that Command Dispatch decides on. -/
theorem commandRow (hh : commandHeader i = some h) (hwf : i.wellFormed = true) : Nonempty (CommandRow i h) := by
  cases i
  case ring k p1 p2 =>
    cases hh
    exact ⟨lineRow (fun _ => rfl) (fun _ => rfl) fun l t => ringLine_dispatch l t p1 p2⟩
  case stopRing => cases hh; exact ⟨lineRow (fun _ => rfl) (fun _ => rfl) fun l t => (linePath_stopRingLine l t).dispatch⟩
  case connect => cases hh; exact ⟨lineRow (fun _ => rfl) (fun _ => rfl) fun l t => (linePath_connectLine l t).dispatch⟩
  case releaseLine => cases hh; exact ⟨lineRow (fun _ => rfl) (fun _ => rfl) fun l t => (linePath_releaseLine l t).dispatch⟩
  case tone => cases hh; exact ⟨lineRow (fun _ => rfl) (fun _ => rfl) fun l t => (linePath_toneLine l t _).dispatch⟩
  case blockPolite => cases hh; exact ⟨lineRow (fun _ => rfl) (fun _ => rfl) fun l t => (linePath_blockPoliteLine l t).dispatch⟩
  case blockForced k v =>
    cases hh
    refine ⟨lineRow (fun _ => rfl) (fun _ => rfl) fun l t => ?_⟩
    split
    · exact (linePath_blockPoliteLine l t).dispatch
    · exact (linePath_blockForcedLine l t).dispatch
  case unblock => cases hh; exact ⟨lineRow (fun _ => rfl) (fun _ => rfl) unblockLine_dispatch⟩
  case remap k v => cases hh; exact ⟨lineRow (fun _ => rfl) (fun _ => rfl) fun l t => remapLine_dispatch l t v⟩
  case watch k v => cases hh; exact ⟨lineRow (fun _ => rfl) (fun _ => rfl) fun l t => (linePath_watchLine l t v).dispatch⟩
  case queryLine => cases hh; exact ⟨lineRow (fun _ => rfl) (fun _ => rfl) fun l t => (linePath_queueLineState l t).dispatch⟩
  case queryStation =>
    cases hh
    exact ⟨stationRow (fun _ => rfl) (fun _ => rfl) fun u => by rw [(onlyReports_queueStationReport ..).eq]⟩
  case queryTable =>
    cases hh
    exact ⟨stationRow (fun _ => rfl) (fun _ => rfl) fun u => by rw [(onlyReports_queueStationReport ..).eq]⟩
  case start => cases hh; exact ⟨stationRow (fun _ => rfl) (fun _ => rfl) startStation_ackSlot⟩
  case stationReset k e => cases hh; exact ⟨stationRow (fun _ => rfl) (fun _ => rfl) fun u => (stationReset_spec e u).ackSlot⟩
  case unknownCommand k code =>
    cases hh
    refine ⟨⟨fun _ => false, fun _ => false, fun _ => id, fun s => ?_, fun _ => rfl,
      fun _ hno => absurd hno Bool.false_ne_true, fun _ _ => ⟨rfl, rfl, rfl⟩, fun _ _ => rfl⟩⟩
    exact congrArg Host.Outcome.next (if_neg (by simpa [Instr.wellFormed] using hwf))
  all_goals cases hh

/-! ### Commands that are not taken -/

theorem takesLine_eq_false {mask : Octet} (hno : s.running = false ∨ addressedLines s.own h.address mask = []) :
    s.takesLine h mask = false := by
  rcases hno with hno | hno <;> simp [State.takesLine, hno]

theorem lineCommand_of_untaken {mask : Octet} (hh : s.Hears h) (act : Line → State → State)
    (hno : s.running = false ∨ addressedLines s.own h.address mask = []) : lineCommand h mask act s = s.endFrame false := by
  rw [lineCommand, receiveCommand_of_hears hh, takesLine_eq_false hno]
  rfl

theorem stationCommand_of_untaken {allowed : StationState → Bool} (hh : s.Hears h) (act : State → State)
    (hno : allowed s.station.state = false ∨ addressesStation s.own h.address = false) :
    stationCommand h allowed act s = s.endFrame false := by
  have htakes : s.takesStation h allowed = false := by rcases hno with hno | hno <;> simp [State.takesStation, hno]
  rw [stationCommand, receiveCommand_of_hears hh, htakes]
  rfl

/-- A command taken at its check octet, in a station that no longer allows it (R156). -/
theorem lineCommand_of_stopped {mask : Octet} (hr : s.receiving = true) (hd : s.bus.rx.decided = some true)
    (hrun : s.running = false) (act : Line → State → State) : lineCommand h mask act s = s.endFrame true := by
  rw [lineCommand, receiveCommand_of_taken hr hd, hrun]
  rfl

theorem stationCommand_of_not_allowed {allowed : StationState → Bool} (hr : s.receiving = true)
    (hd : s.bus.rx.decided = some true) (hno : allowed s.station.state = false) (act : State → State) :
    stationCommand h allowed act s = s.endFrame true := by
  rw [stationCommand, receiveCommand_of_taken hr hd, hno]
  rfl

/-- The work of a command that was taken at its check octet is that of one decided on now. -/
theorem exec_of_taken (hh : commandHeader i = some h) (hwf : i.wellFormed = true) (hr : s.receiving = true)
    (hd : s.bus.rx.decided = some true) (hdecision : s.decision i = some true) :
    exec i s = exec i { s with bus := { s.bus with rx := { s.bus.rx with decided := none } } } := by
  obtain ⟨row⟩ := commandRow hh hwf
  have htakes : row.takes s = true := by rw [row.decision_eq] at hdecision; exact Option.some.inj hdecision
  obtain ⟨hst, hallowed⟩ := row.admits s htakes
  obtain ⟨htakes', -, hact'⟩ := row.bus_free s { s.bus with rx := { s.bus.rx with decided := none } }
  have hhears : ({ s with bus := { s.bus with rx := { s.bus.rx with decided := none } } } : State).Hears h :=
    ⟨hr, hst, rfl⟩
  rw [row.exec_eq, row.exec_eq, receiveCommand_of_taken hr hd, receiveCommand_of_hears hhears, hallowed]
  refine congrArg Host.Outcome.next ?_
  have hnow : row.takes { s with bus := { s.bus with rx := { s.bus.rx with decided := none } } } = true := htakes'.trans htakes
  have hwork : row.act { s with bus := { s.bus with rx := { s.bus.rx with decided := none } } } = row.act s := hact'
  rw [hnow, hwork]
  rfl

/-- Settles O22: the decision and the state at the completion tell whether a COMMAND acts; the slot shows the decision. -/
theorem untakenCommandsHaveNoEffect : Obligations.UntakenCommandsHaveNoEffect := by
  unfold Obligations.UntakenCommandsHaveNoEffect
  refine ⟨fun h s hh => ⟨fun i hi hno => ?_, fun i hi hno => ?_, fun i hi hno => ?_, fun hno => ?_, fun e hno => ?_,
    fun i d hi hwf hd => ?_⟩, fun i h s hi hwf hr => ⟨fun hd hst => ?_, fun hd hdecision => exec_of_taken hi hwf hr hd hdecision⟩,
    fun h s hr hd => ⟨fun i hi hrun => ?_, fun hst => ?_, fun e => ⟨fun hst => ?_, fun hst hw => ?_⟩⟩⟩
  · obtain ⟨act, -, hrow⟩ := exec_fullMask hi
    rw [hrow, lineCommand_of_untaken hh act hno]
  · obtain ⟨haim, act, -, hrow⟩ := exec_masked hi
    rw [← haim, hrow, lineCommand_of_untaken hh act hno]
  · rcases hi with rfl | rfl
    · exact congrArg Host.Outcome.next (stationCommand_of_untaken hh _ hno)
    · exact congrArg Host.Outcome.next (stationCommand_of_untaken hh _ hno)
  · refine congrArg Host.Outcome.next (stationCommand_of_untaken hh _ ?_)
    rcases hno with hst | hst | hst
    · exact .inl (by rw [hst]; rfl)
    · exact .inl (by rw [hst]; rfl)
    · exact .inr hst
  · exact congrArg Host.Outcome.next (stationCommand_of_untaken hh _ (hno.imp_left fun hst => by rw [hst]; rfl))
  · obtain ⟨row⟩ := commandRow hi hwf
    obtain rfl : row.takes s = d := by rw [row.decision_eq] at hd; exact Option.some.inj hd
    refine ⟨_, row.exec_eq s, ?_⟩
    rw [receiveCommand_of_hears hh]
    cases row.takes s with
    | true => exact row.ackSlot s _
    | false => rfl
  · obtain ⟨row⟩ := commandRow hi hwf
    rw [row.exec_eq, receiveCommand_of_untaken hr hst hd]
  · have hline : ∀ mask act, lineCommand h mask act s = s.endFrame true := fun _ => lineCommand_of_stopped hr hd hrun
    rcases hi with ⟨p1, p2, rfl⟩ | rfl | rfl | rfl | ⟨v, rfl⟩ | rfl | ⟨v, rfl⟩ | rfl | ⟨v, rfl⟩ | ⟨v, rfl⟩ | rfl | rfl | rfl
    case inr.inr.inr.inr.inr.inr.inr.inr.inr.inr.inr.inl => exact congrArg Host.Outcome.next (stationCommand_of_not_allowed hr hd hrun _)
    case inr.inr.inr.inr.inr.inr.inr.inr.inr.inr.inr.inr => exact congrArg Host.Outcome.next (stationCommand_of_not_allowed hr hd hrun _)
    all_goals exact congrArg Host.Outcome.next (hline _ _)
  · refine congrArg Host.Outcome.next (stationCommand_of_not_allowed hr hd ?_ _)
    rcases hst with hst | hst <;> rw [hst] <;> rfl
  · exact congrArg Host.Outcome.next (stationCommand_of_not_allowed hr hd (by rw [hst]; rfl) _)
  · have hreset : stationCommand h StationState.takesReset (stationReset e) s = stationReset e (s.endFrame true) := by
      rw [stationCommand, receiveCommand_of_taken hr hd, hst]
      rfl
    have hspec := stationReset_spec e (s.endFrame true)
    refine ⟨_, congrArg Host.Outcome.next hreset, hspec.ackSlot, hspec.blocks, hspec.station.trans ?_⟩
    have hnormal : (s.endFrame true).control.warning.asserted = false := hw
    have hstarts : (s.endFrame true).resetStarts = decide (s.strapsKnown = true ∧ s.own ≠ 0) := by
      show (s.strapsKnown && decide (s.own ≠ 0)) = _
      simp
    rw [hnormal, hstarts]
    by_cases hs : s.strapsKnown = true ∧ s.own ≠ 0
    · rw [decide_eq_true hs, if_pos hs]; rfl
    · rw [decide_eq_false hs, if_neg hs]; rfl

end Sys2Proof.Machine
end

section
/-! PROOFS. STATION_RECORD_CORRECTION and STATION_RECORD_DOUBLE_BIT_ERROR (R172, R173). -/

namespace Sys2Proof.Machine

/-! ### The rules of the station record -/

theorem queueStationReport_eq (code : ReportCode) (v : List Octet) (s : State) : queueStationReport code v s
    = { s with lines := (queueStationReport code v s).lines, reports := (queueStationReport code v s).reports } :=
  (onlyReports_queueStationReport code v s).eq

theorem queueStationReport_station (code : ReportCode) (v : List Octet) (s : State) :
    (queueStationReport code v s).station = s.station := by
  rw [queueStationReport_eq]

/-- Equal straps are left alone (R172). -/
theorem compareStraps_of_eq {a : Straps} {s : State} (h₁ : s.station.strap1 = some a) (h₂ : s.station.strap2 = some a) :
    compareStraps s = s := by
  simp [compareStraps, h₁, h₂]

/-- Straps that differ take the station to SILENT (R172). -/
theorem compareStraps_of_ne {a b : Straps} {s : State} (h₁ : s.station.strap1 = some a) (h₂ : s.station.strap2 = some b)
    (h : a ≠ b) : compareStraps s = goSilent s := by
  simp [compareStraps, h₁, h₂, h]

/-- A station in SILENT begins no frame (R146). -/
theorem sendIfIdle_of_silent {s : State} (h : s.station.state = .silent) : s.sendIfIdle = s := by
  have hchoose : s.chooseFrame = none := by rw [chooseFrame_eq, h]; simp [StationState.maySend]
  rw [State.sendIfIdle, State.beginIfReady, hchoose]
  split <;> rfl

/-- A station whose straps both read the same knows them. -/
theorem straps_of_copies {a : Straps} {s : State} (h₁ : s.station.strap1 = some a) (h₂ : s.station.strap2 = some a) :
    s.strapsKnown = true ∧ s.straps = a := by
  simp [State.strapsKnown, State.straps, h₁, h₂]

/-- STATION RESET behaviour in a station whose straps both read `a` (R173, R177). -/
theorem stationReset_of_copies {a : Straps} {s : State} (h₁ : s.station.strap1 = some a) (h₂ : s.station.strap2 = some a)
    (e : CircuitWordErrors) : (stationReset e s).sendIfIdle = stationReset e s
    ∧ (stationReset e s).station.strap1 = some a ∧ (stationReset e s).station.strap2 = some a
    ∧ (stationReset e s).station.conflicts = 0
    ∧ StartedBlocks s.table.baseBudget (decide (a.station ≠ 0)) (stationReset e s)
    ∧ (stationReset e s).station.state
        = (if a.station = 0 then .silent else if s.control.warning.asserted then .down else .starting)
    ∧ (stationReset e s).control.alarm = decide (a.station = 0) := by
  obtain ⟨hknown, hstraps⟩ := straps_of_copies h₁ h₂
  have hspec := stationReset_spec e s
  have hstarts : s.resetStarts = decide (a.station ≠ 0) := by simp [State.resetStarts, hknown, State.own, hstraps]
  have hidle : (stationReset e s).bus.rx.state ≠ .idle := by
    obtain ⟨-, -, -, -, -, -, -, -, hrx, -⟩ := hspec.blocks
    rw [hrx]; decide
  refine ⟨sendIfIdle_of_not_idle hidle, by rw [hspec.station, h₁], by rw [hspec.station, h₂], by rw [hspec.station],
    hstarts ▸ hspec.blocks, ?_, by rw [hspec.control, hstarts]; simp⟩
  rw [hspec.station, hstarts]
  by_cases ha : a.station = 0 <;> simp [ha]

/-- Where neither copy can be read the station goes to SILENT (R173). -/
theorem takeStationDoubleBit_of_none (b : Bool) (e : CircuitWordErrors) (s : State) :
    takeStationDoubleBit ⟨true, true, b⟩ ⟨false, false, false⟩ e s
      = goSilent { s with station := { s.station with strap1 := none, strap2 := none }, freeDraws := s.freeDraws + 1 } :=
  rfl

/-- One unreadable copy is rewritten from the other (R173). -/
theorem takeStationDoubleBit_of_one {first : Bool} {a : Straps} {s : State}
    (h : (if first then s.station.strap2 else s.station.strap1) = some a) (e : CircuitWordErrors) :
    takeStationDoubleBit ⟨first, !first, false⟩ ⟨false, false, false⟩ e s
      = rebuildStation false e { s with station := { s.station with strap1 := some a, strap2 := some a } } := by
  cases first with
  | true =>
    rw [if_pos rfl] at h
    simp [takeStationDoubleBit, StationWords.any, State.readStraps, stationMemoryFault, repairStraps, h]
  | false =>
    rw [if_neg Bool.false_ne_true] at h
    simp [takeStationDoubleBit, StationWords.any, State.readStraps, stationMemoryFault, repairStraps, h]

/-- An unreadable station state word leaves the copies as they are (R173). -/
theorem takeStationDoubleBit_of_state {a : Straps} {s : State} (h₁ : s.station.strap1 = some a)
    (h₂ : s.station.strap2 = some a) (e : CircuitWordErrors) :
    takeStationDoubleBit ⟨false, false, true⟩ ⟨false, false, false⟩ e s
      = rebuildStation true e { s with station := { s.station with strap1 := some a, strap2 := some a } } := by
  simp [takeStationDoubleBit, StationWords.any, State.readStraps, stationMemoryFault, repairStraps, h₁, h₂]

/-! ### The obligation -/

theorem stationRecordCorrection_equal {w : StationWords} {a : Straps} {s : State} (hw : w.any = true)
    (h₁ : s.station.strap1 = some a) (h₂ : s.station.strap2 = some a) :
    exec (.stationRecordCorrection w) s = .next (s.queueReport (newReport .corrected
      (BitVec.ofNat 8 (16 * a.station.val)) [1])).sendIfIdle := by
  have hwork : (if w.any then correctStationRecord s else s) = queueStationReport .corrected [1] s := by
    rw [if_pos hw, correctStationRecord]
    exact compareStraps_of_eq (by rw [queueStationReport_station, h₁]) (by rw [queueStationReport_station, h₂])
  have hown : s.own = a.station := congrArg Straps.station (straps_of_copies h₁ h₂).2
  refine (congrArg (fun u : State => Host.Outcome.next u.sendIfIdle) hwork).trans ?_
  rw [queueStationReport, hown]
  rfl

theorem stationRecordCorrection_differing {w : StationWords} {a b : Straps} {s : State} (hw : w.any = true)
    (h₁ : s.station.strap1 = some a) (h₂ : s.station.strap2 = some b) (hne : a ≠ b) :
    ∃ t, exec (.stationRecordCorrection w) s = .next t
      ∧ t.station = { s.station with state := .silent } ∧ t.control.alarm = true ∧ t.ringUnit = s.ringUnit
      ∧ t.table = s.table ∧ t.bus = { s.bus with tx := none } ∧ t.OutputsOk := by
  have hwork : (if w.any then correctStationRecord s else s) = goSilent (queueStationReport .corrected [1] s) := by
    rw [if_pos hw, correctStationRecord]
    exact compareStraps_of_ne (by rw [queueStationReport_station, h₁]) (by rw [queueStationReport_station, h₂]) hne
  have hsilent : (goSilent (queueStationReport .corrected [1] s)).sendIfIdle
      = goSilent (queueStationReport .corrected [1] s) := sendIfIdle_of_silent rfl
  refine ⟨_, congrArg Host.Outcome.next ((congrArg State.sendIfIdle hwork).trans hsilent), ?_, rfl, ?_, ?_, ?_,
    outputsOk_goSilent _⟩
  · rw [goSilent_station, queueStationReport_station]
  · rw [goSilent_ringUnit, queueStationReport_eq]
  · rw [goSilent_table, queueStationReport_eq]
  · rw [goSilent_bus, queueStationReport_eq]

/-- Settles O52: each row of the table of R172 and R173 as the access leaves the station. -/
theorem stationRecordErrors : Obligations.StationRecordErrors := by
  unfold Obligations.StationRecordErrors
  refine ⟨fun w a b s hw h₁ h₂ => ⟨?_, stationRecordCorrection_differing hw h₁ h₂⟩, fun b e s => ?_,
    fun first a e s ha => ?_, fun a e s h₁ h₂ => ?_⟩
  · rintro rfl
    exact stationRecordCorrection_equal hw h₁ h₂
  · refine ⟨_, congrArg (fun u : State => Host.Outcome.next u.sendIfIdle) (takeStationDoubleBit_of_none b e s), ?_⟩
    rw [sendIfIdle_of_silent rfl]
    exact ⟨rfl, rfl, rfl, rfl, rfl, rfl, rfl, rfl⟩
  · have hexec := congrArg
      (fun u : State => (Host.Outcome.next u.sendIfIdle : Host.Outcome State Fault Refusal)) (takeStationDoubleBit_of_one ha e)
    refine ⟨fun hdown => ?_, fun hdown => ?_⟩
    · refine hexec.trans ?_
      rw [rebuildStation, if_neg Bool.false_ne_true, if_pos hdown]
    · have hreset := stationReset_of_copies
        (s := { s with station := { s.station with strap1 := some a, strap2 := some a } }) rfl rfl e
      rw [rebuildStation, if_neg Bool.false_ne_true, if_neg hdown, hreset.1] at hexec
      exact ⟨_, hexec, hreset.2⟩
  · have hexec := congrArg
      (fun u : State => (Host.Outcome.next u.sendIfIdle : Host.Outcome State Fault Refusal)) (takeStationDoubleBit_of_state h₁ h₂ e)
    refine ⟨fun halarm hheld => ?_, fun hheld => ?_⟩
    · have hfound : ({ s with station := { s.station with strap1 := some a, strap2 := some a } } : State).foundDown = true := by
        simpa [State.foundDown, halarm] using hheld
      rw [rebuildStation, if_pos rfl, if_pos hfound] at hexec
      exact ⟨_, hexec, rfl, outputsOk_recomposeAll _⟩
    · have hfound : ({ s with station := { s.station with strap1 := some a, strap2 := some a } } : State).foundDown = false := by
        rcases hheld with halarm | ⟨hw, hcount⟩
        · simp [State.foundDown, halarm]
        · simp [State.foundDown, hw, hcount]
      have hreset := stationReset_of_copies
        (s := { s with station := { s.station with strap1 := some a, strap2 := some a } }) rfl rfl e
      rw [rebuildStation, if_pos rfl, hfound, if_neg Bool.false_ne_true, hreset.1] at hexec
      exact ⟨_, hexec, hreset.2⟩

end Sys2Proof.Machine
end

section
/-! PROOFS. The completion of the own CLAIM (R117, R118, R122). -/

namespace Sys2Proof.Machine

variable {s t : State} {l : Line} {c : Claim} {r : RingContext}

/-! ### The two outcomes of a validation -/

/-- The state in which a claim has passed validation, before a hold already confirmed is handed (R117). -/
def State.armed (s : State) (c : Claim) : State := transition c.line .ringArmed id (s.setClaim none)

/-- The books after a claim has failed validation, the line not yet back in RING QUEUED (R118). -/
def State.unclaimed (s : State) (c : Claim) (r : RingContext) : State :=
  (((s.removeOwnLoad c.weight c.set).appendRelease ⟨c.line, c.weight, c.set⟩).setClaim none).setRing
    c.line { r with offset := 0 }

/-- The state in which a claim has failed validation, before a hold already confirmed is handed (R118). -/
def State.requeued (s : State) (c : Claim) (r : RingContext) : State :=
  (transition c.line .ringQueued id (s.unclaimed c r)).queueAtHead c.line

theorem claimPasses_iff {set : PhaseSet} {priority : Bool} : s.claimPasses set priority = true
    ↔ ∀ p : Phase, inSet set p = true → s.phaseTotal p ≤ s.effectiveBudget priority := by
  simp [State.claimPasses, mem_setPhases]

theorem validateClaim_of_passes (hst : (s.line c.line).state = .ringClaiming) (hr : (s.line c.line).ring = some r)
    (h : s.claimPasses c.set r.priority = true) : validateClaim c s = handSeizeConfirmed c.line (s.armed c) := by
  simp [validateClaim, hst, hr, h, confirmClaim, State.armed]

theorem validateClaim_of_fails (hst : (s.line c.line).state = .ringClaiming) (hr : (s.line c.line).ring = some r)
    (h : s.claimPasses c.set r.priority = false) : validateClaim c s = handSeizeConfirmed c.line (s.requeued c r) := by
  simp [validateClaim, hst, hr, h, withdrawClaim, State.requeued, State.unclaimed]

theorem validateClaim_of_not_claiming (h : (s.line c.line).state ≠ .ringClaiming ∨ (s.line c.line).ring = none) :
    validateClaim c s = s.setClaim none := by
  unfold validateClaim
  split
  · rename_i hst hr
    rcases h with h | h
    · exact absurd hst h
    · rw [hr] at h; cases h
  · rfl

theorem claimCompleted_of_sending (hc : s.ringUnit.claim = some c) (hst : c.status = .sending) :
    claimCompleted s = validateClaim c s := by
  simp [claimCompleted, hc, hst]

theorem claimCompleted_of_orphaned (hc : s.ringUnit.claim = some c) (hst : c.status = .orphaned) :
    claimCompleted s = (s.setClaim none).appendRelease ⟨c.line, c.weight, c.set⟩ := by
  simp [claimCompleted, hc, hst]

theorem claimCompleted_of_pending (hc : s.ringUnit.claim = some c) (hst : c.status = .pending) :
    claimCompleted s = s := by
  simp [claimCompleted, hc, hst]

/-! ### Rules of the armed state -/

theorem armed_line_self : (s.armed c).line c.line = (s.line c.line).entering .ringArmed :=
  transition_id_line ..

theorem armed_ring : (s.armed c).ringUnit = { s.ringUnit with claim := none } ∧ (s.armed c).table = s.table :=
  transition_id_ring c.line .ringArmed (s.setClaim none) (.inr rfl)

/-- New books for a line that stands in a ring state. -/
theorem lineMove_books (h : (s.line l).state.isRing = true) (u : RingUnit) (row : Vector Nat 8) :
    LineMove l s { s with ringUnit := u, table := { s.table with ownRow := row } } where
  eq := rfl
  lines _ _ := .refl _
  circuit := rfl
  circuits _ _ := rfl
  filters _ := ⟨rfl, rfl, rfl⟩
  ring hno := absurd h (by rw [hno]; exact Bool.false_ne_true)

theorem lineMove_armed (h : (s.line c.line).state = .ringClaiming) : LineMove c.line s (s.armed c) := by
  have hbooks : LineMove c.line s (s.setClaim none) := lineMove_books (by rw [h]; rfl) _ s.table.ownRow
  refine hbooks.trans (lineMove_transition c.line .ringArmed id _ onlyReports_id fun hno => ?_)
  have hring : (s.line c.line).state.isRing = false := hno
  rw [h] at hring
  cases hring

theorem seizeHeld_of_lineMove (h : LineMove l s t) (hl : (t.line l).timing.sense = (s.line l).timing.sense)
    (hcount : (t.line l).timing.edgeCount = (s.line l).timing.edgeCount) : t.seizeHeld l = s.seizeHeld l :=
  seizeHeld_congr hl hcount (by rw [h.eq]; rfl)

theorem armed_seizeHeld (h : (s.line c.line).state = .ringClaiming) : (s.armed c).seizeHeld c.line = s.seizeHeld c.line :=
  seizeHeld_of_lineMove (lineMove_armed h) (by rw [armed_line_self]; rfl) (by rw [armed_line_self]; rfl)

/-! ### Rules of the state back in RING QUEUED -/

theorem unclaimed_line_self : (s.unclaimed c r).line c.line = { s.line c.line with ring := some { r with offset := 0 } } :=
  State.line_setLine_self ..

theorem unclaimed_line_ne {m : Line} (h : m ≠ c.line) : (s.unclaimed c r).line m = s.line m := by
  rw [State.unclaimed, State.setRing_eq, State.line_setLine, if_neg h]
  rfl

theorem requeued_line (m : Line) : (s.requeued c r).line m = (transition c.line .ringQueued id (s.unclaimed c r)).line m :=
  rfl

theorem requeued_line_self : (s.requeued c r).line c.line
    = ({ s.line c.line with ring := some { r with offset := 0 } } : LineRecord).entering .ringQueued := by
  rw [requeued_line, transition_id_line, unclaimed_line_self]

theorem requeued_line_ne {m : Line} (h : m ≠ c.line) : (s.requeued c r).line m = s.line m := by
  rw [requeued_line, transition_others _ _ _ _ h, unclaimed_line_ne h]

theorem requeued_isPriority_self : (s.requeued c r).isPriority c.line = r.priority := by
  unfold State.isPriority
  rw [requeued_line_self]
  rfl

theorem requeued_isPriority_ne {m : Line} (h : m ≠ c.line) : (s.requeued c r).isPriority m = s.isPriority m := by
  unfold State.isPriority
  rw [requeued_line_ne h]

/-- The place behind the priority entries is one of their classes alone. -/
theorem afterPriority_congr {q : List Line} (h : ∀ m ∈ q, t.isPriority m = s.isPriority m) :
    t.afterPriority l q = q.takeWhile s.isPriority ++ l :: q.dropWhile s.isPriority := by
  rw [State.afterPriority]
  induction q with
  | nil => rfl
  | cons m q ih =>
    rw [List.forall_mem_cons] at h
    cases hm : s.isPriority m with
    | false => simp [hm, h.1]
    | true => simpa [hm, h.1] using ih h.2

/-- The place of a line whose claim failed: the head of its class's portion (R109, R118). -/
theorem requeued_ringUnit : (s.requeued c r).ringUnit = ⟨
    if r.priority then c.line :: s.ringUnit.queue else (s.requeued c r).afterPriority c.line s.ringUnit.queue, none,
    s.ringUnit.releases ++ [⟨c.line, c.weight, c.set⟩]⟩ := by
  have hunit : (transition c.line .ringQueued id (s.unclaimed c r)).ringUnit
      = ⟨s.ringUnit.queue, none, s.ringUnit.releases ++ [⟨c.line, c.weight, c.set⟩]⟩ :=
    (transition_id_ring c.line .ringQueued (s.unclaimed c r) (.inr rfl)).1
  have hprio : (transition c.line .ringQueued id (s.unclaimed c r)).isPriority c.line = r.priority :=
    requeued_isPriority_self (s := s)
  rw [State.requeued, State.queueAtHead, hprio, hunit]
  rfl

theorem requeued_table :
    (s.requeued c r).table = { s.table with ownRow := removeLoad c.weight c.set s.table.ownRow } :=
  (transition_id_ring c.line .ringQueued (s.unclaimed c r) (.inr rfl)).2

theorem requeued_reports : (s.requeued c r).reports = s.reportsAfter (s.traceEntries c.line (s.line c.line).state .ringQueued) := by
  have hreports := transition_reports c.line .ringQueued id (s.unclaimed c r) onlyReports_id [] (enterState_reports ..)
  rw [unclaimed_line_self] at hreports
  refine hreports.trans ((reportsAfter_congr (s := s) (t := s.unclaimed c r) rfl _).trans ?_)
  rw [List.nil_append, traceEntries_congr (s := s) (t := s.unclaimed c r) c.line _ _ (by rw [unclaimed_line_self]) rfl]

theorem lineMove_requeued (h : (s.line c.line).state = .ringClaiming) : LineMove c.line s (s.requeued c r) := by
  have hbooks : LineMove c.line s (((s.removeOwnLoad c.weight c.set).appendRelease ⟨c.line, c.weight, c.set⟩).setClaim none) :=
    lineMove_books (by rw [h]; rfl) _ _
  have hunclaimed : LineMove c.line s (s.unclaimed c r) := hbooks.trans (lineMove_setLine _ _ _ rfl id)
  have hqueued : LineMove c.line s (transition c.line .ringQueued id (s.unclaimed c r)) :=
    hunclaimed.trans (lineMove_transition c.line .ringQueued id _ onlyReports_id fun hno => by
      rw [unclaimed_line_self, h] at hno; cases hno)
  exact hqueued.trans (lineMove_books (by rw [transition_id_line]; rfl) _ (transition c.line .ringQueued id (s.unclaimed c r)).table.ownRow)

theorem requeued_seizeHeld (h : (s.line c.line).state = .ringClaiming) :
    (s.requeued c r).seizeHeld c.line = s.seizeHeld c.line :=
  seizeHeld_of_lineMove (lineMove_requeued h) (by rw [requeued_line_self]; rfl) (by rw [requeued_line_self]; rfl)

/-! ### What a completion leaves alone -/

/-- What the completion of the CLAIM for a line leaves alone in any station. -/
structure ClaimFrame (l : Line) (s t : State) : Prop where
  control : t.control = s.control
  cadence : t.cadence = s.cadence
  table : t.table = { s.table with ownRow := t.table.ownRow }
  lines : ∀ m, m ≠ l → SameButResync (s.line m) (t.line m)
  circuits : ∀ d, (s.line l).circuit ≠ some d → t.circuit d = s.circuit d

theorem LineMove.claimFrame (h : LineMove l s t) : ClaimFrame l s t :=
  ⟨by rw [h.eq], by rw [h.eq], by rw [h.eq], h.lines, h.circuits⟩

/-- New books alone. -/
theorem claimFrame_setRingUnit (l : Line) (s : State) (u : RingUnit) : ClaimFrame l s (s.setRingUnit u) :=
  ⟨rfl, rfl, rfl, fun _ _ => .refl _, fun _ _ => rfl⟩

theorem claimFrame_validateClaim (c : Claim) (s : State) : ClaimFrame c.line s (validateClaim c s) := by
  have hseize := fun t => (linePath_handSeizeConfirmed c.line t).lineMove
  by_cases hst : (s.line c.line).state = .ringClaiming
  · cases hr : (s.line c.line).ring with
    | none =>
      rw [validateClaim_of_not_claiming (.inr hr)]
      exact claimFrame_setRingUnit ..
    | some r =>
      cases hpass : s.claimPasses c.set r.priority with
      | true =>
        rw [validateClaim_of_passes hst hr hpass]
        exact ((lineMove_armed hst).trans (hseize _)).claimFrame
      | false =>
        rw [validateClaim_of_fails hst hr hpass]
        exact ((lineMove_requeued hst).trans (hseize _)).claimFrame
  · rw [validateClaim_of_not_claiming (.inl hst)]
    exact claimFrame_setRingUnit ..

theorem claimFrame_claimCompleted (hc : s.ringUnit.claim = some c) : ClaimFrame c.line s (claimCompleted s) := by
  cases hst : c.status with
  | pending => rw [claimCompleted_of_pending hc hst]; exact (LineMove.refl _ s).claimFrame
  | sending => rw [claimCompleted_of_sending hc hst]; exact claimFrame_validateClaim c s
  | orphaned => rw [claimCompleted_of_orphaned hc hst]; exact claimFrame_setRingUnit ..

/-! ### The obligation -/

theorem exec_ownClaimCompletes {f : TxFrame} (htx : s.bus.tx = some f) (hk : f.kind = .claim) :
    exec .ownClaimCompletes s = .next (claimCompleted s.completed) :=
  congrArg Host.Outcome.next (completeOwn_of_tx htx hk _)

/-- A confirmation (R117). -/
theorem claimCompleted_passes (hc : s.ringUnit.claim = some c) (hsending : c.status = .sending)
    (hst : (s.line c.line).state = .ringClaiming) (hr : (s.line c.line).ring = some r) (hheld : s.seizeHeld c.line = false)
    (hpass : ∀ p : Phase, inSet c.set p = true → s.phaseTotal p ≤ s.effectiveBudget r.priority) :
    claimCompleted s = s.armed c := by
  rw [claimCompleted_of_sending hc hsending, validateClaim_of_passes hst hr (claimPasses_iff.2 hpass),
    handSeizeConfirmed_of_not_held (by rw [armed_seizeHeld hst, hheld])]

/-- A withdrawal (R118). -/
theorem claimCompleted_fails {p : Phase} (hc : s.ringUnit.claim = some c) (hsending : c.status = .sending)
    (hst : (s.line c.line).state = .ringClaiming) (hr : (s.line c.line).ring = some r) (hheld : s.seizeHeld c.line = false)
    (hp : inSet c.set p = true) (hover : s.effectiveBudget r.priority < s.phaseTotal p) :
    claimCompleted s = s.requeued c r := by
  have hfails : s.claimPasses c.set r.priority = false := by
    rw [Bool.eq_false_iff]
    exact fun hpass => absurd (claimPasses_iff.1 hpass p hp) (by omega)
  rw [claimCompleted_of_sending hc hsending, validateClaim_of_fails hst hr hfails,
    handSeizeConfirmed_of_not_held (by rw [requeued_seizeHeld hst, hheld])]

/-- Settles O34: the two outcomes of a validation, the orphaned claim, and the frame of all three. -/
theorem ownClaimIsValidated : Obligations.OwnClaimIsValidated := by
  unfold Obligations.OwnClaimIsValidated
  intro s f c htx hk hc
  have hexec := exec_ownClaimCompletes htx hk
  refine ⟨fun r hsending hst hr hheld hpass => ?_, fun r p hsending hst hr hheld hp hover => ?_, fun horphan => ?_,
    fun t he => ?_⟩
  · rw [claimCompleted_passes (s := s.completed) hc hsending hst hr hheld hpass] at hexec
    have hmove : LineMove c.line s.completed (s.completed.armed c) := lineMove_armed hst
    have hself : (s.completed.armed c).line c.line = (s.line c.line).entering .ringArmed := armed_line_self
    obtain ⟨hunit, htable⟩ : (s.completed.armed c).ringUnit = { s.ringUnit with claim := none }
      ∧ (s.completed.armed c).table = s.table := armed_ring
    exact ⟨_, hexec, by rw [hself]; rfl, by rw [hself]; exact hr, hunit, htable, by rw [hmove.eq]; rfl, by rw [hmove.eq]; rfl⟩
  · rw [claimCompleted_fails (s := s.completed) hc hsending hst hr hheld hp hover] at hexec
    have hself := requeued_line_self (s := s.completed) (c := c) (r := r)
    have hunit := requeued_ringUnit (s := s.completed) (c := c) (r := r)
    have htable : (s.completed.requeued c r).table = { s.table with ownRow := removeLoad c.weight c.set s.table.ownRow } :=
      requeued_table
    refine ⟨_, hexec, by rw [hself]; rfl, by rw [hself]; rfl, by rw [hunit], by rw [hunit]; rfl, fun hprio => ?_,
      fun hprio hnot => ?_, fun q => ?_, ?_⟩
    · rw [hunit, hprio]; rfl
    · have hsame : ∀ m ∈ s.ringUnit.queue, (s.completed.requeued c r).isPriority m = s.isPriority m := fun m hm =>
        requeued_isPriority_ne (by rintro rfl; exact hnot hm)
      rw [hunit, hprio]
      show (s.completed.requeued c r).afterPriority c.line s.ringUnit.queue = _
      exact afterPriority_congr hsame
    · rw [htable]; exact getElem_removeLoad ..
    · refine requeued_reports.trans ?_
      have hst' : (s.completed.line c.line).state = .ringClaiming := hst
      rw [hst', reportsAfter_congr (s := s) (t := s.completed) rfl, traceEntries_congr (s := s) (t := s.completed) _ _ _ rfl rfl]
  · rw [claimCompleted_of_orphaned (s := s.completed) hc horphan] at hexec
    exact ⟨_, hexec, rfl, rfl, rfl, rfl⟩
  · rw [hexec] at he
    obtain rfl := Host.Outcome.next.inj he
    have hframe : ClaimFrame c.line s.completed (claimCompleted s.completed) := claimFrame_claimCompleted hc
    exact ⟨hframe.control, hframe.cadence, hframe.table, hframe.lines, hframe.circuits⟩

end Sys2Proof.Machine
end

section
/-! PROOFS. RING on an occasion with a placement attempt (R55, R109, R111, R112, R115). -/

namespace Sys2Proof.Machine

variable {s : State} {l m : Line} {c r : RingContext} {o : Phase}

/-! ### The attempt after a RING -/

theorem mayAttempt_iff : s.mayAttempt = true
    ↔ s.station.state = .active ∧ s.ringUnit.claim = none ∧ s.ringUnit.releases = [] := by
  simp [State.mayAttempt, and_assoc]

theorem attemptPlacement_of_some (h : s.mayAttempt = true) (hf : s.findPlacement = some (l, o)) :
    attemptPlacement s = place l o s := by
  simp [attemptPlacement, h, hf]

theorem attemptPlacement_of_none (hf : s.findPlacement = none) : attemptPlacement s = s := by
  simp [attemptPlacement, hf]

theorem seizeHeld_of_sense (h : (s.line l).timing.sense ≠ .mk) : s.seizeHeld l = false := by
  simp [State.seizeHeld, h]

/-- No placement for an entry whose context fits at no offset. -/
theorem placementOf_eq_none (h : ∃ r, (s.line m).ring = some r
    ∧ chooseOffset s.attemptTotals s.cadence.phase r.weight (s.effectiveBudget r.priority) r.code = none) :
    s.placementOf m = none := by
  obtain ⟨r, hr, hno⟩ := h
  rw [placementOf_of_ring hr, hno]
  rfl

/-- A placement leaves every make count. -/
theorem placed_seizeHeld_any (s : State) (m : Line) (r : RingContext) (o : Phase) (l : Line) :
    (s.placed m r o).seizeHeld l = s.seizeHeld l := by
  by_cases h : l = m
  · rw [h, placed_seizeHeld]
  · have hline := placed_line_ne m s r o h
    exact seizeHeld_congr (by rw [hline]) (by rw [hline]) (placed_profile ..)

section Queued
variable (hout : (s.line l).state.isRing = false)
include hout

/-- The attempt record is that of the state before the RING (R112). -/
theorem chooseOffset_ringQueued (r : RingContext) :
    chooseOffset (s.ringQueued l c).attemptTotals (s.ringQueued l c).cadence.phase r.weight
        ((s.ringQueued l c).effectiveBudget r.priority) r.code
      = chooseOffset s.attemptTotals s.cadence.phase r.weight (s.effectiveBudget r.priority) r.code := by
  have htable := (ringQueued_ring l s c hout).2
  have hcadence : (s.ringQueued l c).cadence = s.cadence := by rw [ringQueued_eq]
  have hown : (s.ringQueued l c).own = s.own := by rw [ringQueued_eq]; rfl
  have hphase : (s.ringQueued l c).phaseTotal = s.phaseTotal := by
    funext p
    simp only [State.phaseTotal, htable, hown]
  have htotals : (s.ringQueued l c).attemptTotals = s.attemptTotals := congrArg tabulate hphase
  have hbudget : (s.ringQueued l c).effectiveBudget r.priority = s.effectiveBudget r.priority := by
    simp only [State.effectiveBudget, State.baseInForce, htable]
  rw [htotals, hcadence, hbudget]

theorem placementOf_ringQueued_ne (h : m ≠ l) : (s.ringQueued l c).placementOf m = s.placementOf m := by
  unfold State.placementOf
  simp only [chooseOffset_ringQueued hout]
  rw [ringQueued_line, if_neg h]

theorem placementOf_ringQueued_self : (s.ringQueued l c).placementOf l
    = (chooseOffset s.attemptTotals s.cadence.phase c.weight (s.effectiveBudget c.priority) c.code).map fun o => (l, o) := by
  rw [placementOf_of_ring (r := c) (by rw [ringQueued_line, if_pos rfl]; rfl), chooseOffset_ringQueued hout]

theorem ringQueued_mayAttempt (h : s.mayAttempt = true) : (s.ringQueued l c).mayAttempt = true := by
  obtain ⟨hst, hclaim, hreleases⟩ := mayAttempt_iff.1 h
  rw [mayAttempt_iff, ringQueued_queue l s c hout, ringQueued_eq]
  exact ⟨hst, hclaim, hreleases⟩

/-- Where the new entry stands (R109): at the end of the queue, or behind the priority entries at its front. -/
theorem ringQueued_split (hl : l ∉ s.ringUnit.queue) : ∃ front back, s.ringUnit.queue = front ++ back
    ∧ (s.ringQueued l c).ringUnit.queue = front ++ l :: back
    ∧ (c.priority = false → back = [])
    ∧ (c.priority = true → front = s.ringUnit.queue.takeWhile s.isPriority) := by
  rw [ringQueued_queue l s c hout]
  cases hprio : c.priority with
  | false => exact ⟨s.ringUnit.queue, [], by simp, rfl, fun _ => rfl, nofun⟩
  | true =>
    refine ⟨_, _, List.takeWhile_append_dropWhile.symm, afterPriority_congr (s := s) fun m hm => ?_, nofun, fun _ => rfl⟩
    have hml : m ≠ l := by rintro rfl; exact hl hm
    rw [State.isPriority, State.isPriority, ringQueued_line, if_neg hml]

/-- A routine request, or one behind priority entries alone, enters behind the entry `m`. -/
theorem ringQueued_first {front back : List Line} (hl : l ∉ s.ringUnit.queue) (hqueue : s.ringUnit.queue = front ++ m :: back)
    (hr : (s.line m).ring = some r)
    (h : c.priority = false ∨ r.priority = true ∧ ∀ x ∈ front, s.isPriority x = true) :
    ∃ rest, (s.ringQueued l c).ringUnit.queue = front ++ m :: rest := by
  obtain ⟨front', back', hqueue', hq, hroutine, hpriority⟩ := ringQueued_split (c := c) hout hl
  cases hprio : c.priority with
  | false =>
    rw [hroutine hprio, List.append_nil, hqueue] at hqueue'
    exact ⟨back ++ l :: back', by rw [hq, ← hqueue']; simp⟩
  | true =>
    obtain ⟨hrp, hfront⟩ := h.resolve_left (by simp [hprio])
    have hm : s.isPriority m = true := by rw [State.isPriority, hr]; exact hrp
    have htake := hpriority hprio
    rw [hqueue, List.takeWhile_append_of_pos hfront, List.takeWhile_cons_of_pos hm] at htake
    exact ⟨back.takeWhile s.isPriority ++ l :: back', by rw [hq, htake]; simp⟩

omit hout in
theorem findPlacement_ringQueued {front back : List Line}
    (hq : (s.ringQueued l c).ringUnit.queue = front ++ m :: back)
    (hfront : ∀ x ∈ front, (s.ringQueued l c).placementOf x = none) (hm : (s.ringQueued l c).placementOf m = some (m, o)) :
    (s.ringQueued l c).findPlacement = some (m, o) := by
  rw [findPlacement_eq_findSome?, hq, List.findSome?_append, List.findSome?_eq_none_iff.2 hfront]
  simp [hm]

/-- The placement of an entry without a confirmed hold, after a RING (R115). -/
theorem ringLine_placing {p1 p2 : Octet} (hidle : (s.line l).state = .idle) (hmay : s.mayAttempt = true)
    (hheld : s.seizeHeld l = false) (hfind : (s.ringQueued l (ringContextOf p1 p2)).findPlacement = some (m, o))
    (hring : ((s.ringQueued l (ringContextOf p1 p2)).line m).ring = some r)
    (hm : (s.ringQueued l (ringContextOf p1 p2)).seizeHeld m = false) :
    ringLine p1 p2 l s = (s.ringQueued l (ringContextOf p1 p2)).placed m r o := by
  have hplaced : ((s.ringQueued l (ringContextOf p1 p2)).placed m r o).seizeHeld m = false :=
    (placed_seizeHeld ..).trans hm
  have hown : ((s.ringQueued l (ringContextOf p1 p2)).placed m r o).seizeHeld l = false := by
    rw [placed_seizeHeld_any]
    exact (ringQueued_seizeHeld ..).trans hheld
  rw [ringLine_of_idle hidle, takeRing_eq, attemptPlacement_of_some (ringQueued_mayAttempt hout hmay) hfind,
    place_of_ring hring, handSeizeConfirmed_of_not_held hplaced, handSeizeConfirmed_of_not_held hown]

end Queued

/-! ### The three outcomes -/

/-- The outcome of a RING that places its own line (R115). -/
structure PlacesSelf (s t : State) (l : Line) (c : RingContext) (o : Phase) : Prop where
  state : (t.line l).state = .ringClaiming
  ring : (t.line l).ring = some { c with offset := o }
  unit : t.ringUnit = ⟨s.ringUnit.queue, some ⟨l, c.weight, rotatedSet c.code o, .pending⟩, []⟩
  ownRow : ∀ p : Phase, t.table.ownRow[p] = s.table.ownRow[p] + (if inSet (rotatedSet c.code o) p then c.weight else 0)

/-- The outcome of a RING that places an entry of the queue before its own (R111, R115). -/
structure PlacesOther (s t : State) (l m : Line) (r : RingContext) (o : Phase) : Prop where
  state : (t.line l).state = .ringQueued
  queued : l ∈ t.ringUnit.queue
  left : m ∉ t.ringUnit.queue
  placed : (t.line m).state = .ringClaiming
  ring : (t.line m).ring = some { r with offset := o }
  claim : t.ringUnit.claim = some ⟨m, r.weight, rotatedSet r.code o, .pending⟩
  ownRow : ∀ p : Phase, t.table.ownRow[p] = s.table.ownRow[p] + (if inSet (rotatedSet r.code o) p then r.weight else 0)

section Outcomes
variable {p1 p2 : Octet} (hidle : (s.line l).state = .idle) (hmay : s.mayAttempt = true) (hl : l ∉ s.ringUnit.queue)
  (hheld : s.seizeHeld l = false)
include hidle hmay hl hheld

theorem ringLine_placesSelf {front back : List Line} (hqueue : s.ringUnit.queue = front ++ back)
    (hq : (s.ringQueued l (ringContextOf p1 p2)).ringUnit.queue = front ++ l :: back)
    (hfront : ∀ x ∈ front, s.placementOf x = none)
    (hchoose : chooseOffset s.attemptTotals s.cadence.phase (ringContextOf p1 p2).weight
        (s.effectiveBudget (ringContextOf p1 p2).priority) (ringContextOf p1 p2).code = some o) :
    PlacesSelf s (ringLine p1 p2 l s) l (ringContextOf p1 p2) o := by
  have hout : (s.line l).state.isRing = false := by rw [hidle]; rfl
  have hne : ∀ x ∈ front ++ back, x ≠ l := fun x hx => by rintro rfl; exact hl (hqueue ▸ hx)
  have hfind : (s.ringQueued l (ringContextOf p1 p2)).findPlacement = some (l, o) := by
    refine findPlacement_ringQueued hq (fun x hx => ?_) (by rw [placementOf_ringQueued_self hout, hchoose]; rfl)
    rw [placementOf_ringQueued_ne hout (hne x (List.mem_append_left _ hx)), hfront x hx]
  obtain ⟨-, hclaim, hreleases⟩ := mayAttempt_iff.1 hmay
  rw [ringLine_placing hout hidle hmay hheld hfind (r := ringContextOf p1 p2) (by rw [ringQueued_line, if_pos rfl]; rfl)
    ((ringQueued_seizeHeld ..).trans hheld)]
  obtain ⟨hunit, htable⟩ := placed_ring l (s.ringQueued l (ringContextOf p1 p2)) (ringContextOf p1 p2) o
  refine ⟨by rw [placed_line_self]; rfl, by rw [placed_line_self]; rfl, ?_, fun p => ?_⟩
  · have hfilter : (front ++ l :: back).filter (· ≠ l) = front ++ back := by
      rw [List.filter_append, List.filter_cons_of_neg (by simp), ← List.filter_append,
        List.filter_eq_self.2 fun x hx => by simpa using hne x hx]
    have hrest : (s.ringQueued l (ringContextOf p1 p2)).ringUnit.releases = s.ringUnit.releases := by
      rw [ringQueued_queue l s _ hout]
    rw [hunit, hq, hfilter, hqueue, hrest, hreleases]
  · rw [htable, (ringQueued_ring l s _ hout).2]
    exact getElem_addLoad ..

theorem ringLine_placesOther {front back : List Line} (hqueue : s.ringUnit.queue = front ++ m :: back)
    (hfront : ∀ x ∈ front, s.placementOf x = none) (hr : (s.line m).ring = some r)
    (hsense : (s.line m).timing.sense ≠ .mk)
    (hchoose : chooseOffset s.attemptTotals s.cadence.phase r.weight (s.effectiveBudget r.priority) r.code = some o)
    (hplace : lowHalf p1 = 0 ∨ r.priority = true ∧ (∀ x ∈ front, s.isPriority x = true)
      ∨ chooseOffset s.attemptTotals s.cadence.phase (ringContextOf p1 p2).weight
        (s.effectiveBudget (ringContextOf p1 p2).priority) (ringContextOf p1 p2).code = none) :
    PlacesOther s (ringLine p1 p2 l s) l m r o := by
  have hout : (s.line l).state.isRing = false := by rw [hidle]; rfl
  have hne : ∀ x ∈ s.ringUnit.queue, x ≠ l := fun x hx => by rintro rfl; exact hl hx
  have hml : m ≠ l := hne m (by rw [hqueue]; simp)
  obtain ⟨front', back', hqueue', hq, hroutine, hpriority⟩ := ringQueued_split (c := ringContextOf p1 p2) hout hl
  have hsame : ∀ x ∈ s.ringUnit.queue, (s.ringQueued l (ringContextOf p1 p2)).placementOf x = s.placementOf x :=
    fun x hx => placementOf_ringQueued_ne hout (hne x hx)
  have hm : s.placementOf m = some (m, o) := by rw [placementOf_of_ring hr, hchoose]; rfl
  have hfind : (s.ringQueued l (ringContextOf p1 p2)).findPlacement = some (m, o) := by
    have hempty : ∀ x ∈ front, (s.ringQueued l (ringContextOf p1 p2)).placementOf x = none := fun x hx =>
      (hsame x (by rw [hqueue]; exact List.mem_append_left _ hx)).trans (hfront x hx)
    have hm' := (hsame m (by rw [hqueue]; simp)).trans hm
    by_cases hfirst : (ringContextOf p1 p2).priority = false ∨ r.priority = true ∧ ∀ x ∈ front, s.isPriority x = true
    · obtain ⟨rest, hrest⟩ := ringQueued_first hout hl hqueue hr hfirst
      exact findPlacement_ringQueued hrest hempty hm'
    · have hnone : (s.ringQueued l (ringContextOf p1 p2)).placementOf l = none := by
        rw [placementOf_ringQueued_self hout, ((hplace.imp_left fun hlow => ?_).resolve_left fun h => hfirst (.inl h)).resolve_left
          fun h => hfirst (.inr h)]
        · rfl
        · simpa [ringContextOf] using hlow
      rw [findPlacement_eq_findSome?, hq, List.findSome?_append, List.findSome?_cons_of_isNone (by rw [hnone]; rfl),
        ← List.findSome?_append, ← hqueue', hqueue, List.findSome?_append, List.findSome?_eq_none_iff.2 hempty]
      simp [hm']
  have hline : (s.ringQueued l (ringContextOf p1 p2)).line m = s.line m := by rw [ringQueued_line, if_neg hml]
  rw [ringLine_placing hout hidle hmay hheld hfind (r := r) (by rw [hline, hr])
    (seizeHeld_of_sense (by rw [hline]; exact hsense))]
  obtain ⟨hunit, htable⟩ := placed_ring m (s.ringQueued l (ringContextOf p1 p2)) r o
  have hself : ((s.ringQueued l (ringContextOf p1 p2)).placed m r o).line l = (s.line l).queued (ringContextOf p1 p2) := by
    rw [placed_line_ne _ _ _ _ (Ne.symm hml), ringQueued_line, if_pos rfl]
  refine ⟨by rw [hself]; rfl, ?_, by rw [hunit]; simp, by rw [placed_line_self]; rfl, by rw [placed_line_self]; rfl,
    by rw [hunit], fun p => ?_⟩
  · rw [hunit, hq]
    simp [Ne.symm hml]
  · rw [htable, (ringQueued_ring l s _ hout).2]
    exact getElem_addLoad ..

omit hmay in
/-- No entry fits, and the new one stays queued (R111). -/
theorem ringLine_placesNone (hall : ∀ x ∈ s.ringUnit.queue, s.placementOf x = none)
    (hchoose : chooseOffset s.attemptTotals s.cadence.phase (ringContextOf p1 p2).weight
        (s.effectiveBudget (ringContextOf p1 p2).priority) (ringContextOf p1 p2).code = none) :
    ringLine p1 p2 l s = s.ringQueued l (ringContextOf p1 p2) := by
  have hout : (s.line l).state.isRing = false := by rw [hidle]; rfl
  obtain ⟨front, back, hqueue, hq, -, -⟩ := ringQueued_split (c := ringContextOf p1 p2) hout hl
  have hfind : (s.ringQueued l (ringContextOf p1 p2)).findPlacement = none := by
    rw [findPlacement_eq_findSome?, hq, List.findSome?_eq_none_iff]
    intro x hx
    by_cases hxl : x = l
    · rw [hxl, placementOf_ringQueued_self hout, hchoose]; rfl
    · rw [placementOf_ringQueued_ne hout hxl]
      refine hall x ?_
      rw [hqueue]
      simpa [hxl] using hx
  rw [ringLine_of_idle hidle, takeRing_eq, attemptPlacement_of_none hfind]
  exact handSeizeConfirmed_of_not_held ((ringQueued_seizeHeld ..).trans hheld)

end Outcomes

/-- Settles O11: the entry that the attempt finds, its own or another, and what its placement leaves. -/
theorem ringPlacesTheLine : Obligations.RingPlacesTheLine := by
  unfold Obligations.RingPlacesTheLine
  intro h p1 p2 l o s ht hidle hst hclaim hreleases hl hheld
  have hmay : (s.endFrame true).mayAttempt = true := mayAttempt_iff.2 ⟨hst, hclaim, hreleases⟩
  have hout : ((s.endFrame true).line l).state.isRing = false := by rw [endFrame_line, hidle]; rfl
  have hexec : exec (.ring h p1 p2) s = .next (ringLine p1 p2 l (s.endFrame true)) := answer_of_takes ht rfl
  have hempty : ∀ x, (∃ r, (s.line x).ring = some r
      ∧ chooseOffset s.attemptTotals s.cadence.phase r.weight (s.effectiveBudget r.priority) r.code = none) →
      (s.endFrame true).placementOf x = none := fun x hx => placementOf_eq_none (s := s.endFrame true) hx
  refine ⟨fun hall hchoose => ?_, fun front back hqueue hlow hfront hback hchoose => ?_, fun hall hchoose => ?_,
    fun front back m r hqueue hfront hqueued hr hsense hchoose hplace => ?_⟩
  · obtain ⟨front, back, hqueue, hq, -, -⟩ := ringQueued_split (c := ringContextOf p1 p2) hout hl
    have hself := ringLine_placesSelf (s := s.endFrame true) hidle hmay hl hheld hqueue hq
      (fun x hx => hempty x (hall x (hqueue ▸ List.mem_append_left _ hx))) hchoose
    exact ⟨_, hexec, hself.state, hself.ring, hself.unit, hself.ownRow⟩
  · obtain ⟨front', back', hqueue', hq, -, hpriority⟩ := ringQueued_split (c := ringContextOf p1 p2) hout hl
    have hprio : (ringContextOf p1 p2).priority = true := by simpa [ringContextOf] using hlow
    have hsplit : front' = front := by
      rw [hpriority hprio]
      show s.ringUnit.queue.takeWhile s.isPriority = front
      have hpos : ∀ x ∈ front, s.isPriority x = true := fun x hx => by
        obtain ⟨c, hc, hcp, -⟩ := hfront x hx
        rw [State.isPriority, hc]
        exact hcp
      rw [hqueue, List.takeWhile_append_of_pos hpos]
      cases back with
      | nil => simp
      | cons b back => rw [List.takeWhile_cons_of_neg (by simp [hback b (by simp)]), List.append_nil]
    have hself := ringLine_placesSelf (s := s.endFrame true) hidle hmay hl hheld hqueue' hq (fun x hx => hempty x (by
      obtain ⟨c, hc, -, hno⟩ := hfront x (hsplit ▸ hx)
      exact ⟨c, hc, hno⟩)) hchoose
    exact ⟨_, hexec, hself.state, hself.ring, hself.unit, hself.ownRow⟩
  · have hnone := ringLine_placesNone (s := s.endFrame true) hidle hl hheld (fun x hx => hempty x (hall x hx)) hchoose
    rw [hnone] at hexec
    have hline := ringQueued_line l (s.endFrame true) (ringContextOf p1 p2) l
    rw [if_pos rfl] at hline
    obtain ⟨front, back, hqueue, hq, -, -⟩ := ringQueued_split (c := ringContextOf p1 p2) hout hl
    have hunit := ringQueued_queue l (s.endFrame true) (ringContextOf p1 p2) hout
    refine ⟨_, hexec, by rw [hline]; rfl, by rw [hline]; rfl, fun m => ?_, by rw [hunit]; exact hclaim,
      by rw [hunit]; exact hreleases, (ringQueued_ring l _ _ hout).2⟩
    have hqueue : s.ringUnit.queue = front ++ back := hqueue
    rw [hq, hqueue]
    simp [or_left_comm]
  · have hother := ringLine_placesOther (s := s.endFrame true) hidle hmay hl hheld hqueue
      (fun x hx => hempty x (hfront x hx)) hr hsense hchoose hplace
    exact ⟨_, hexec, hother.state, hother.queued, hother.left, hother.placed, hother.ring, hother.claim, hother.ownRow⟩

end Sys2Proof.Machine
end

section
/-! PROOFS. A bit time of the data wire: the bus at rest, and the own frame bit by bit (R134 to R137, R141, R142, R147). -/

namespace Sys2Proof.Machine

variable {s : State} {v : Bool} {f : TxFrame}

/-! ### A bit time as a step -/

theorem step_of_no_command (h : s.pending = []) : step s = bitTime s.wireNow s.wireTaken := by
  unfold step
  split
  · rfl
  · rename_i c rest hc
    rw [h] at hc
    cases hc

/-- A bit time within which no frame begins and none completes. -/
theorem step_of_plain (h : s.pending = []) (hbegin : ¬(s.bus.rx.state = .idle ∧ s.wireNow = .dominant))
    (hc : s.wireTaken.completing = none) :
    step s = .next (assembleBit (s.wireNow.read s.bus.drive) (readBack (s.wireNow.read s.bus.drive) s.wireTaken)) := by
  have hnot : beginOnDominant s.wireNow s.wireTaken = s.wireTaken := beginOnDominant_of_not hbegin
  rw [step_of_no_command h, bitTime_of_not_completing (by rw [hnot, hc]), hnot]
  rfl

/-- A bit time that is the slot of a frame. -/
theorem step_of_completing {i : Instr} (h : s.pending = []) (hbegin : s.bus.rx.state ≠ .idle)
    (hc : s.wireTaken.completing = some i) : step s = exec i s.wireTaken := by
  have hnot : beginOnDominant s.wireNow s.wireTaken = s.wireTaken := beginOnDominant_of_not fun hb => hbegin hb.1
  rw [step_of_no_command h, bitTime_of_completing (by rw [hnot, hc]), hnot]

theorem completing_of_tx (h : s.bus.tx = some f) : s.completing = if f.phase = .ack then completionOf f.kind else none := by
  simp [State.completing, h]

theorem completing_of_none (h : s.bus.tx = none) :
    s.completing = if s.bus.rx.inSlot then readFrame s.bus.rx.octets else none := by
  simp [State.completing, h]

theorem drive_of_tx (h : s.bus.tx = some f) : s.bus.drive = f.level := by
  simp [BusInterface.drive, h]

theorem drive_of_none (h : s.bus.tx = none) : s.bus.drive = !(s.bus.rx.inSlot && s.bus.rx.decided = some true) := by
  simp [BusInterface.drive, h]

/-- An assembly that follows no frame stands in no slot. -/
theorem inSlot_of_not_assembling {rx : RxAssembly} (h : rx.state ≠ .assembling) : rx.inSlot = false := by
  simp [RxAssembly.inSlot, h]

/-- A bit read with the wire not driven by the others, by a station that drives none. -/
theorem read_of_not_dominant {w : WireInput} (h : w ≠ .dominant) : w.read true = true := by
  cases w with
  | dominant => exact absurd rfl h
  | released | broken => rfl

/-! ### The assembly's bit -/

theorem assembleBit_of_waiting (h : s.bus.rx.state = .waiting) : assembleBit true s
      = (if s.bus.rx.recessive < 11 then s.setBus { s.bus with rx := { s.bus.rx with recessive := s.bus.rx.recessive + 1 } }
        else becomeIdle s)
    ∧ assembleBit false s = s.setBus { s.bus with rx := { s.bus.rx with recessive := 0 } } := by
  simp [assembleBit, h]

theorem assembleBit_of_idle (h : s.bus.rx.state = .idle) (v : Bool) : assembleBit v s = s.sendIfIdle := by
  simp [assembleBit, h, State.sendIfIdle]

theorem assembleBit_of_readBit {rx : RxAssembly} (h : s.bus.rx.state = .assembling) (hr : s.bus.rx.readBit v = some rx) :
    assembleBit v s = (s.setBus { s.bus with rx := rx }).decideCommand := by
  simp [assembleBit, h, hr]

theorem assembleBit_of_discard (h : s.bus.rx.state = .assembling) (hr : s.bus.rx.readBit v = none) :
    assembleBit v s = s.endFrame false := by
  simp [assembleBit, h, hr]

/-- A bit taken within a frame leaves the frame in transmission. -/
theorem assembleBit_tx (h : s.bus.rx.state = .assembling) (v : Bool) : (assembleBit v s).bus.tx = s.bus.tx := by
  cases hr : s.bus.rx.readBit v with
  | none => rw [assembleBit_of_discard h hr]; rfl
  | some rx =>
    obtain ⟨d, hd⟩ := decideCommand_frame (s.setBus { s.bus with rx := rx })
    rw [assembleBit_of_readBit h hr, hd]
    rfl

/-- The bits of an octet before its stop bit are collected (R143). -/
theorem readBit_of_bits {rx : RxAssembly} (hf : framingError rx.bits v = false) (hl : rx.bits.length < 9) :
    rx.readBit v = some { rx with bits := rx.bits ++ [v] } := by
  simp [RxAssembly.readBit, hf, hl]

theorem readBit_of_framing {rx : RxAssembly} (hf : framingError rx.bits v = true) : rx.readBit v = none := by
  simp [RxAssembly.readBit, hf]

/-- No decision outside the slot. -/
theorem decideCommand_of_not_inSlot (h : s.bus.rx.inSlot = false) : s.decideCommand = s := by
  simp [State.decideCommand, h]

/-! ### The read-back -/

theorem readBack_of_same (htx : s.bus.tx = some f) (h : v = f.level) :
    readBack v s = s.setBus { s.bus with tx := some f.nextBit } := by
  simp [readBack, htx, h]

/-- A difference loses the contest in the header and a frame after it (R137, R141). -/
theorem readBack_of_other (htx : s.bus.tx = some f) (hp : f.phase ≠ .ack) (h : v ≠ f.level) :
    exec (if f.phase = .contest then .contestLost else .readBackMismatch) s = .next (readBack v s) := by
  have hnot : ¬(f.phase = .ack ∨ v = f.level) := fun h' => h'.elim hp h
  by_cases hc : f.phase = .contest
  · rw [if_pos hc]
    refine congrArg Host.Outcome.next (Eq.symm ?_)
    simp only [readBack, htx]
    rw [if_neg hnot, if_pos hc]
  · rw [if_neg hc]
    refine congrArg Host.Outcome.next (Eq.symm ?_)
    simp only [readBack, htx]
    rw [if_neg hnot, if_neg hc]

/-! ### The bus at rest -/

theorem bitTime_waiting (hp : s.pending = []) (htx : s.bus.tx = none) (hst : s.bus.rx.state = .waiting) :
    step s = .next (assembleBit (s.wireNow.read true) s.wireTaken) := by
  have hslot : s.bus.rx.inSlot = false := inSlot_of_not_assembling (by rw [hst]; exact nofun)
  have hcompleting : s.wireTaken.completing = none := by
    rw [completing_of_none (s := s.wireTaken) htx]
    exact if_neg (by rw [Bool.not_eq_true]; exact hslot)
  rw [step_of_plain hp (by rw [hst]; exact nofun) hcompleting, readBack_of_none (s := s.wireTaken) htx, drive_of_none htx, hslot]
  rfl

/-- The state in which a start bit of another station on an idle bus finds the station, a frame that is ready begun. -/
theorem takeStartBit_idle (hst : s.bus.rx.state = .idle) (htx : s.bus.tx = none) :
    (takeStartBit s).completing = none ∧ (takeStartBit s).bus.rx = RxAssembly.begun
      ∧ ((takeStartBit s).bus.tx = none ∨ ∃ f, (takeStartBit s).bus.tx = some f ∧ f.phase = .contest ∧ f.bit = 0) := by
  have hstart : takeStartBit s = (s.setBus { s.bus with rx := RxAssembly.begun }).beginIfReady := by
    simp [takeStartBit, hst]
  rw [hstart, State.beginIfReady]
  cases (s.setBus { s.bus with rx := RxAssembly.begun }).chooseFrame with
  | none =>
    refine ⟨?_, rfl, .inl htx⟩
    rw [completing_of_none (by exact htx)]
    rfl
  | some k =>
    dsimp only
    have hbegun := beginFrame_eq (s.setBus { s.bus with rx := RxAssembly.begun }) k
    refine ⟨?_, by rw [hbegun], .inr ⟨_, by rw [hbegun], rfl, rfl⟩⟩
    rw [completing_of_tx (f := ⟨k, _, 0, 0, .contest⟩) (by rw [hbegun])]
    rfl

/-- The start bit on an idle bus, driven or read (R136, R143). -/
theorem bitTime_startBit (hp : s.pending = []) (htx : s.bus.tx = none) (hst : s.bus.rx.state = .idle)
    (hw : s.wireNow = .dominant) : ∃ t, exec .startBit s.wireTaken = .next t
      ∧ step s = .next { t with bus := { t.bus with
          tx := t.bus.tx.map fun f => { f with bit := 1 }
          rx := { t.bus.rx with bits := [false] } } } := by
  refine ⟨takeStartBit s.wireTaken, rfl, ?_⟩
  have hbegin : beginOnDominant s.wireNow s.wireTaken = takeStartBit s.wireTaken := if_pos ⟨hst, hw⟩
  obtain ⟨hcompleting, hrx, htaken⟩ := takeStartBit_idle (s := s.wireTaken) hst htx
  rw [step_of_no_command hp, bitTime_of_not_completing (by rw [hbegin, hcompleting]), hbegin, hw]
  generalize takeStartBit s.wireTaken = t at hrx htaken
  have hread : ∀ u : State, u.bus.rx = RxAssembly.begun → assembleBit false u
      = { u with bus := { u.bus with tx := u.bus.tx, rx := { u.bus.rx with bits := [false] } } } := fun u hu => by
    have hbit : u.bus.rx.readBit false = some { u.bus.rx with bits := [false] } := by rw [hu]; rfl
    rw [assembleBit_of_readBit (by rw [hu]; rfl) hbit, decideCommand_of_not_inSlot (by rw [State.setBus_bus, hu]; rfl)]
    rfl
  refine congrArg Host.Outcome.next ?_
  show assembleBit false (readBack false t) = _
  rcases htaken with htaken | ⟨f, htaken, hcontest, hbit⟩
  · rw [readBack_of_none htaken, hread t hrx, htaken]
    rfl
  · have hlevel : false = f.level := by
      simp [TxFrame.level, hcontest, hbit, octetLevel]
    have hnext : f.nextBit = { f with bit := 1 } := by simp [TxFrame.nextBit, hcontest, hbit]
    rw [readBack_of_same htaken hlevel, hread (t.setBus { t.bus with tx := some f.nextBit }) hrx, hnext, htaken]
    rfl

/-! ### The own frame -/

/-- The bit a frame drives (R135, R142). -/
theorem level_of_octet {o : Octet} (hp : f.phase ≠ .ack) (ho : f.octets[f.octet]? = some o) :
    f.level = if f.bit = 0 then false else if f.bit ≤ 8 then o.getLsbD (8 - f.bit) else true := by
  have hget : f.octets.getD f.octet 255 = o := by rw [List.getD_eq_getElem?_getD, ho]; rfl
  unfold TxFrame.level
  split
  · rw [hget]; rfl
  · rw [hget]; rfl
  · exact absurd ‹f.phase = .ack› hp

theorem level_of_ack (hp : f.phase = .ack) : f.level = true := by
  simp [TxFrame.level, hp]

theorem nextBit_of_not_ack (hp : f.phase ≠ .ack) : f.nextBit = if f.bit < 9 then { f with bit := f.bit + 1 }
    else { f with
      octet := f.octet + 1
      bit := 0
      phase := if f.octet + 1 < f.octets.length then .body else .ack } := by
  rw [TxFrame.nextBit, if_neg hp]
  split
  · rfl
  · split <;> rfl

/-- The bit of an own frame that is not in its slot. -/
theorem step_of_sending (hp : s.pending = []) (htx : s.bus.tx = some f) (hst : s.bus.rx.state = .assembling)
    (hf : f.phase ≠ .ack) : step s
      = .next (assembleBit (s.wireNow.read s.bus.drive) (readBack (s.wireNow.read s.bus.drive) s.wireTaken)) := by
  refine step_of_plain hp (by rw [hst]; exact nofun) ?_
  rw [completing_of_tx (s := s.wireTaken) (f := f) htx, if_neg hf]

theorem dropFrame_rx (s : State) (k : FrameKind) : (s.dropFrame k).bus.rx = s.bus.rx := by
  rw [dropFrame_eq]

theorem countConflict_tx (h : s.bus.tx = none) : (countConflict s).bus.tx = none := by
  unfold countConflict
  dsimp only
  split
  · split
    · rfl
    · exact h
  · exact h

/-- A frame given up leaves the assembly following what is on the wire (R137, R143). -/
theorem readBack_other_bus (htx : s.bus.tx = some f) (hp : f.phase ≠ .ack) (h : v ≠ f.level) :
    (readBack v s).bus.tx = none ∧ (readBack v s).bus.rx.state = s.bus.rx.state := by
  have hnot : ¬(f.phase = .ack ∨ v = f.level) := fun h' => h'.elim hp h
  cases hphase : f.phase with
  | ack => exact absurd hphase hp
  | contest =>
    have hback : readBack v s = s.dropFrame f.kind := by
      simp only [readBack, htx]
      rw [if_neg hnot, if_pos hphase, loseContest]
      simp only [htx, hphase]
      rfl
    rw [hback, dropFrame_eq]
    exact ⟨rfl, rfl⟩
  | body =>
    have hback : readBack v s = countConflict (s.mismatched f.kind) := by
      simp only [readBack, htx]
      rw [if_neg hnot, if_neg (by rw [hphase]; exact nofun)]
      exact abandonOnMismatch_of_body htx hphase
    have hmis : (s.mismatched f.kind).bus.tx = none ∧ (s.mismatched f.kind).bus.rx.state = s.bus.rx.state := by
      rw [State.mismatched, dropFrame_eq]
      exact ⟨rfl, rfl⟩
    rw [hback, countConflict_rx]
    exact ⟨countConflict_tx hmis.1, hmis.2⟩

/-- Settles O2: the bus at rest, the own frame, and the levels on the wire. -/
theorem idleStepIsOneBusBitTime : Obligations.IdleStepIsOneBusBitTime := by
  unfold Obligations.IdleStepIsOneBusBitTime
  refine ⟨fun s hp htx => ⟨fun hst => ?_, fun hst => ⟨fun hw => ?_, bitTime_startBit hp htx hst⟩⟩,
    fun s f hp htx hst => ⟨fun o hf ho => ?_, fun hf => ?_, fun hf hsame => ?_, fun hf hother => ?_, fun hf i hi => ?_⟩,
    rfl, rfl, rfl, rfl, rfl, fun _ => ⟨rfl, rfl, rfl⟩⟩
  · have hstep := bitTime_waiting hp htx hst
    have hbit := assembleBit_of_waiting (s := s.wireTaken) hst
    refine ⟨fun hw => ?_, fun hw hfew => ?_, fun hw hmany => ?_⟩
    · rw [hstep, hw]
      exact congrArg Host.Outcome.next hbit.2
    · rw [hstep, read_of_not_dominant hw, hbit.1]
      exact congrArg Host.Outcome.next (if_pos hfew)
    · rw [hstep, read_of_not_dominant hw, hbit.1]
      exact congrArg Host.Outcome.next (if_neg (Nat.not_lt.2 hmany))
  · have hslot : s.bus.rx.inSlot = false := inSlot_of_not_assembling (by rw [hst]; exact nofun)
    have hcompleting : s.wireTaken.completing = none := by
      rw [completing_of_none (s := s.wireTaken) htx]
      exact if_neg (by rw [Bool.not_eq_true]; exact hslot)
    rw [step_of_plain hp (fun h => hw h.2) hcompleting, readBack_of_none (s := s.wireTaken) htx]
    exact congrArg Host.Outcome.next (assembleBit_of_idle (s := s.wireTaken) hst _)
  · rw [drive_of_tx htx, level_of_octet hf ho]
  · rw [drive_of_tx htx, level_of_ack hf]
  · have hstate : (s.wireTaken.setBus { s.bus with tx := some f.nextBit }).bus.rx.state = .assembling := hst
    have hback : readBack (s.wireNow.read s.bus.drive) s.wireTaken
        = s.wireTaken.setBus { s.bus with tx := some f.nextBit } :=
      readBack_of_same (s := s.wireTaken) htx (hsame.trans (drive_of_tx htx))
    refine ⟨_, step_of_sending hp htx hst hf, ?_, ?_⟩
    · rw [hback]
      exact assembleBit_frame hstate
    · rw [hback, assembleBit_tx hstate, ← nextBit_of_not_ack hf]
      rfl
  · have hne : s.wireNow.read s.bus.drive ≠ f.level := fun h => hother (h.trans (drive_of_tx htx).symm)
    obtain ⟨hnone, hrx⟩ := readBack_other_bus (s := s.wireTaken) htx hf hne
    have hstate := hrx.trans hst
    exact ⟨_, _, readBack_of_other (s := s.wireTaken) htx hf hne, step_of_sending hp htx hst hf, assembleBit_frame hstate,
      (assembleBit_tx hstate _).trans hnone⟩
  · refine step_of_completing hp (by rw [hst]; exact nofun) ?_
    rw [completing_of_tx (s := s.wireTaken) (f := f) htx, if_pos hf, hi]

end Sys2Proof.Machine
end

section
/-! PROOFS. The receive assembly, bit by bit (R142 to R145, R155), and the grounds of a discard (R144). -/

namespace Sys2Proof.Machine

variable {s : State} {v : Bool}

/-! ### The grounds of a discard -/

theorem unknownKind_iff {q : List Octet} : unknownKind q = true ↔ ∃ h r, q = h :: r ∧ 6 ≤ h.toNat / 32 := by
  cases q with
  | nil => simp [unknownKind]
  | cons h r =>
    rw [unknownKind, decide_eq_true_eq]
    simp [headerKind]

theorem wrongLength_iff {q : List Octet} : wrongLength q = true
    ↔ ∃ h a b n r, q = h :: a :: b :: n :: r ∧ h.toNat / 32 = 4 ∧ 16 < n.toNat := by
  constructor
  · intro hq
    unfold wrongLength at hq
    split at hq
    · rename_i h a b n r
      rw [Bool.and_eq_true, decide_eq_true_eq, decide_eq_true_eq] at hq
      exact ⟨h, a, b, n, r, rfl, hq⟩
    · cases hq
  · rintro ⟨h, a, b, n, r, rfl, hkind, hn⟩
    rw [wrongLength, Bool.and_eq_true, decide_eq_true_eq, decide_eq_true_eq]
    exact ⟨hkind, hn⟩

theorem checkMismatch_iff {q : List Octet} : checkMismatch q = true
    ↔ ∃ n, expectedLength q = some n ∧ n ≤ q.length ∧ checkOctet (q.take n) ≠ 0 := by
  unfold checkMismatch
  cases expectedLength q with
  | none => simp
  | some n => simp

theorem discarded_iff {q : List Octet} {framing : Bool} : discarded q framing = true ↔ framing = true
    ∨ (∃ h r, q = h :: r ∧ 6 ≤ h.toNat / 32)
    ∨ (∃ h a b n r, q = h :: a :: b :: n :: r ∧ h.toNat / 32 = 4 ∧ 16 < n.toNat)
    ∨ ∃ n, expectedLength q = some n ∧ n ≤ q.length ∧ checkOctet (q.take n) ≠ 0 := by
  rw [← unknownKind_iff, ← wrongLength_iff, ← checkMismatch_iff]
  simp [discarded, or_assoc]

/-! ### A bit of a frame of another station -/

/-- The bit read by a station that drives nothing. -/
theorem read_recessive (w : WireInput) : w.read true = decide (w ≠ .dominant) := by
  cases w <;> rfl

theorem step_of_receiving (hp : s.pending = []) (htx : s.bus.tx = none) (hst : s.bus.rx.state = .assembling)
    (hslot : s.bus.rx.inSlot = false) : s.bus.drive = true
      ∧ step s = .next (assembleBit (decide (s.wireNow ≠ .dominant)) s.wireTaken) := by
  have hdrive : s.bus.drive = true := by rw [drive_of_none htx, hslot]; rfl
  have hcompleting : s.wireTaken.completing = none := by
    rw [completing_of_none (s := s.wireTaken) htx]
    exact if_neg (by rw [Bool.not_eq_true]; exact hslot)
  refine ⟨hdrive, ?_⟩
  rw [step_of_plain hp (fun h => by rw [hst] at h; cases h.1) hcompleting, readBack_of_none (s := s.wireTaken) htx, hdrive,
    read_recessive]

/-- A bit of an octet before its stop bit is collected. -/
theorem assembleBit_collects (hst : s.bus.rx.state = .assembling) (hslot : s.bus.rx.inSlot = false)
    (hf : framingError s.bus.rx.bits v = false) (hl : s.bus.rx.bits.length < 9) :
    assembleBit v s = { s with bus := { s.bus with rx := { s.bus.rx with bits := s.bus.rx.bits ++ [v] } } } := by
  rw [assembleBit_of_readBit hst (readBit_of_bits hf hl)]
  exact decideCommand_of_not_inSlot hslot

theorem assembleBit_misframed (hst : s.bus.rx.state = .assembling) (hf : framingError s.bus.rx.bits v = true) :
    assembleBit v s = s.endFrame false :=
  assembleBit_of_discard hst (readBit_of_framing hf)

/-- The octet whose data bits a list holds behind its start bit. -/
theorem octetOfBits_tail {bits : List Bool} (hl : bits.length = 9) {o : Octet}
    (ho : ∀ i < 8, o.getLsbD i = bits.getD (8 - i) false) : octetOfBits bits.tail = o := by
  have hlevels : bits.tail = (List.range 8).map fun b => octetLevel o (b + 1) := by
    refine List.ext_getElem (by simp [hl]) fun i hi hi' => ?_
    have hi8 : i < 8 := by simpa [hl] using hi
    have hbit := ho (7 - i) (by omega)
    rw [show 8 - (7 - i) = i + 1 by omega, List.getD_eq_getElem _ _ (by omega)] at hbit
    have hlevel : octetLevel o (i + 1) = o.getLsbD (7 - i) := by
      rw [octetLevel, if_neg (by omega), if_pos (by omega)]
      congr 1
      omega
    simp [hlevel, hbit]
  rw [hlevels, octetOfBits_octetLevel]

section StopBit
variable (hst : s.bus.rx.state = .assembling) (hl : s.bus.rx.bits.length = 9) {o : Octet}
  (ho : ∀ i < 8, o.getLsbD i = s.bus.rx.bits.getD (8 - i) false)
include hst hl ho

theorem assembleBit_discards (hd : discarded (s.bus.rx.octets ++ [o]) false = true) :
    assembleBit true s = s.endFrame false := by
  refine assembleBit_of_discard hst ?_
  simp [RxAssembly.readBit, framingError, hl, octetOfBits_tail hl ho, hd]

/-- A stop bit ends an octet, and the check octet ends the frame before its slot (R143, R155). -/
theorem assembleBit_octet (hd : discarded (s.bus.rx.octets ++ [o]) false = false) : ∃ t, assembleBit true s = t
    ∧ t = { s with bus := { s.bus with rx := { s.bus.rx with
        bits := []
        octets := s.bus.rx.octets ++ [o]
        expected := expectedLength (s.bus.rx.octets ++ [o])
        decided := t.bus.rx.decided } } }
    ∧ t.bus.rx.decided = if t.bus.rx.inSlot then (readFrame (s.bus.rx.octets ++ [o])).bind s.decision
        else s.bus.rx.decided := by
  have hread : s.bus.rx.readBit true = some { s.bus.rx with
      bits := []
      octets := s.bus.rx.octets ++ [o]
      expected := expectedLength (s.bus.rx.octets ++ [o]) } := by
    have hne : s.bus.rx.bits ≠ [] := by rintro h; rw [h] at hl; cases hl
    simp [RxAssembly.readBit, framingError, hl, octetOfBits_tail hl ho, hd, hne]
  rw [assembleBit_of_readBit hst hread]
  refine ⟨_, rfl, ?_⟩
  unfold State.decideCommand
  split
  · rename_i hslot
    exact ⟨rfl, (if_pos hslot).symm⟩
  · exact ⟨rfl, rfl⟩

end StopBit

/-- Settles O3: the assembly's bit at each place of an octet, the slot, and the grounds of a discard. -/
theorem assemblyReadsTheWire : Obligations.AssemblyReadsTheWire := by
  unfold Obligations.AssemblyReadsTheWire
  refine ⟨fun s hp htx hst hslot => ?_, fun s hp htx hst n hn hlen => ?_, fun q framing => discarded_iff⟩
  · obtain ⟨hdrive, hstep⟩ := step_of_receiving hp htx hst hslot
    have hdominant : s.wireNow = .dominant → step s = .next (assembleBit false s.wireTaken) := fun hw => by
      rw [hstep, decide_eq_false fun h => h hw]
    have hother : s.wireNow ≠ .dominant → step s = .next (assembleBit true s.wireTaken) := fun hw => by
      rw [hstep, decide_eq_true hw]
    refine ⟨hdrive, fun hbits hw => ?_, fun hbits hw => ?_, fun hbits hlt => ?_, fun hl hw => ?_, fun hl hw o ho => ⟨fun hd => ?_, fun hd => ?_⟩⟩
    · rw [hother hw]
      exact congrArg Host.Outcome.next (assembleBit_misframed (s := s.wireTaken) hst (if_pos hbits))
    · rw [hdominant hw]
      refine congrArg Host.Outcome.next ((assembleBit_collects (s := s.wireTaken) hst hslot (if_pos hbits) ?_).trans ?_)
      · show s.bus.rx.bits.length < 9
        rw [hbits]
        decide
      · show ({ s.wireTaken with bus := { s.bus with rx := { s.bus.rx with bits := s.bus.rx.bits ++ [false] } } } : State) = _
        rw [hbits]
        rfl
    · rw [hstep]
      refine congrArg Host.Outcome.next (assembleBit_collects (s := s.wireTaken) hst hslot ?_ hlt)
      refine (if_neg hbits).trans ?_
      rw [decide_eq_false (by exact Nat.ne_of_lt hlt)]
      rfl
    · rw [hdominant hw]
      refine congrArg Host.Outcome.next (assembleBit_misframed (s := s.wireTaken) hst ((if_neg ?_).trans ?_))
      · intro h
        have h : s.bus.rx.bits = [] := h
        rw [h] at hl
        cases hl
      · rw [Bool.and_eq_true, decide_eq_true_eq]
        exact ⟨hl, rfl⟩
    · rw [hother hw]
      exact congrArg Host.Outcome.next (assembleBit_discards (s := s.wireTaken) hst hl ho hd)
    · obtain ⟨t, hbit, heq, hdecided⟩ := assembleBit_octet (s := s.wireTaken) hst hl ho hd
      exact ⟨t, by rw [hother hw, hbit], heq, hdecided⟩
  · have hslot : s.bus.rx.inSlot = true := by simp [RxAssembly.inSlot, hst, hn, hlen]
    refine ⟨?_, fun i hi => step_of_completing hp (by rw [hst]; exact nofun) ?_⟩
    · rw [drive_of_none htx, hslot]
      simp
    · rw [completing_of_none (s := s.wireTaken) htx]
      exact (if_pos hslot).trans hi

end Sys2Proof.Machine
end

section
/-! PROOFS. The check octet as a remainder over the two-element field, and the layouts of the frames sent (R138 to R140,
R146, R160). -/

namespace Sys2Proof.Machine

open Polynomial

/-! ### Octets as polynomials -/

/-- An octet as a polynomial over the two-element field, bit i at power i (R140). -/
noncomputable def octetPoly (o : Octet) : (ZMod 2)[X] :=
  ((List.finRange 8).map fun i => if o.getLsbD i.val then (X : (ZMod 2)[X]) ^ i.val else 0).sum

/-- The divisor of R140. -/
noncomputable def checkPoly : (ZMod 2)[X] := X ^ 8 + X ^ 2 + X + 1

/-- Octets as one polynomial, the first bit highest (R140). -/
noncomputable def framePoly (q : List Octet) : (ZMod 2)[X] := q.foldl (fun p o => X ^ 8 * p + octetPoly o) 0

theorem octetPoly_eq (o : Octet) : octetPoly o = (if o.getLsbD 0 then 1 else 0) + (if o.getLsbD 1 then X else 0)
    + (if o.getLsbD 2 then X ^ 2 else 0) + (if o.getLsbD 3 then X ^ 3 else 0) + (if o.getLsbD 4 then X ^ 4 else 0)
    + (if o.getLsbD 5 then X ^ 5 else 0) + (if o.getLsbD 6 then X ^ 6 else 0) + (if o.getLsbD 7 then X ^ 7 else 0) := by
  have hrange : List.finRange 8 = [0, 1, 2, 3, 4, 5, 6, 7] := by decide
  rw [octetPoly, hrange]
  simp [add_assoc]

/-- Bits that differ add over the two-element field. -/
theorem ite_xor (a b : Bool) (p : (ZMod 2)[X]) :
    (if (a ^^ b) then p else 0) = (if a then p else 0) + (if b then p else 0) := by
  cases a <;> cases b <;> simp [CharTwo.add_self_eq_zero]

theorem octetPoly_xor (a b : Octet) : octetPoly (a ^^^ b) = octetPoly a + octetPoly b := by
  unfold octetPoly
  rw [← List.sum_map_add]
  simp only [BitVec.getLsbD_xor, ite_xor]

/-- A shift multiplies by x and drops the highest bit. -/
theorem octetPoly_shift (r : Octet) : octetPoly (r <<< 1) + (if r.msb then X ^ 8 else 0) = X * octetPoly r := by
  have hmsb : r.msb = r.getLsbD 7 := rfl
  have hmul : ∀ (b : Bool) (p : (ZMod 2)[X]), X * (if b then p else 0) = if b then X * p else 0 := fun b p => by
    cases b <;> simp
  simp only [octetPoly_eq, BitVec.getLsbD_shiftLeft, hmsb, mul_add, hmul, ← pow_succ']
  simp [pow_two]

/-- One bit of the division multiplies the remainder by x (R140). -/
theorem octetPoly_checkBit (r : Octet) : octetPoly (checkBit r) = X * octetPoly r + if r.msb then checkPoly else 0 := by
  have hshift := octetPoly_shift r
  have hseven : octetPoly 0x07 = X ^ 2 + X + 1 := by
    rw [octetPoly_eq]
    simp
    ring
  unfold checkBit
  cases hmsb : r.msb with
  | false =>
    rw [hmsb] at hshift
    simpa using hshift
  | true =>
    rw [hmsb, if_pos rfl] at hshift
    rw [if_pos rfl, if_pos rfl, octetPoly_xor, hseven, ← hshift, checkPoly]
    have hdouble : (X : (ZMod 2)[X]) ^ 8 + X ^ 8 = 0 := CharTwo.add_self_eq_zero _
    linear_combination -hdouble

/-- The remainder after an octet, up to multiples of the divisor (R140). -/
theorem octetPoly_checkStep (r o : Octet) : checkPoly ∣ X ^ 8 * (octetPoly r + octetPoly o) - octetPoly (checkStep r o) := by
  have hbit : ∀ (p : (ZMod 2)[X]) (t : Octet), checkPoly ∣ p - octetPoly t → checkPoly ∣ X * p - octetPoly (checkBit t) :=
    fun p t hp => by
      have hself : checkPoly ∣ if t.msb then checkPoly else 0 := by split <;> simp
      rw [octetPoly_checkBit]
      have hsum := (hp.mul_left X).sub hself
      rwa [show X * (p - octetPoly t) - (if t.msb then checkPoly else 0)
        = X * p - (X * octetPoly t + if t.msb then checkPoly else 0) by ring] at hsum
  have hstart : checkPoly ∣ (octetPoly r + octetPoly o) - octetPoly (r ^^^ o) := by rw [octetPoly_xor, sub_self]; simp
  have h := hbit _ _ (hbit _ _ (hbit _ _ (hbit _ _ (hbit _ _ (hbit _ _ (hbit _ _ (hbit _ _ hstart)))))))
  rwa [show X * (X * (X * (X * (X * (X * (X * (X * (octetPoly r + octetPoly o))))))))
    = X ^ 8 * (octetPoly r + octetPoly o) by ring] at h

/-- The check octet is the remainder of the octets multiplied by x⁸ (R140). -/
theorem checkPoly_dvd (q : List Octet) : checkPoly ∣ X ^ 8 * framePoly q - octetPoly (checkOctet q) := by
  induction q using List.reverseRecOn with
  | nil => simp [framePoly, checkOctet, octetPoly_eq]
  | append_singleton q o ih =>
    have hframe : framePoly (q ++ [o]) = X ^ 8 * framePoly q + octetPoly o := by simp [framePoly]
    rw [checkOctet_concat, hframe]
    have hsum := (ih.mul_left (X ^ 8)).add (octetPoly_checkStep (checkOctet q) o)
    rwa [show X ^ 8 * (X ^ 8 * framePoly q - octetPoly (checkOctet q))
        + (X ^ 8 * (octetPoly (checkOctet q) + octetPoly o) - octetPoly (checkStep (checkOctet q) o))
      = X ^ 8 * (X ^ 8 * framePoly q + octetPoly o) - octetPoly (checkStep (checkOctet q) o) by ring] at hsum

/-! ### The layouts of the frames sent -/

/-- The header octet, 32 × kind + 16 × urgency + station (R138). -/
theorem headerOctet_eq {station : StationNo} {n : Nat} (hn : station.val = n) (kind : FrameKind) (urgency : Bool) :
    headerOctet kind urgency station = BitVec.ofNat 8 (32 * kindNumber kind + (if urgency then 16 else 0) + n) := by
  rw [headerOctet, octet, hn]

/-- The cells of a row, one by one. -/
theorem row_toList (row : Vector Nat 8) :
    row.toList = [row[0], row[1], row[2], row[3], row[4], row[5], row[6], row[7]] := by
  refine List.ext_getElem (by simp) fun i h _ => ?_
  have hi : i < 8 := by simpa using h
  interval_cases i <;> simp

/-- What each source composes (R138, R139, R146). -/
theorem composeFrame_layouts {s : State} {n : Nat} (hn : s.own.val = n) :
    s.composeFrame .withdraw = withCheck [BitVec.ofNat 8 n]
    ∧ (∀ r rest, s.ringUnit.releases = r :: rest → s.composeFrame .release
        = withCheck [BitVec.ofNat 8 (32 + n), BitVec.ofNat 8 (16 * r.line.val + r.weight), r.set])
    ∧ (∀ c, s.ringUnit.claim = some c → s.composeFrame .claim
        = withCheck [BitVec.ofNat 8 (64 + n), BitVec.ofNat 8 (16 * c.line.val + c.weight), c.set])
    ∧ (∀ e rest, s.reports = e :: rest → s.composeFrame .report
        = withCheck ([BitVec.ofNat 8 (128 + (if e.cls = 1 then 0 else 16) + n), reportOctet e.code, e.number,
            BitVec.ofNat 8 e.values.length] ++ e.values))
    ∧ s.composeFrame .summary = withCheck (BitVec.ofNat 8 (176 + n)
        :: [s.table.ownRow[0], s.table.ownRow[1], s.table.ownRow[2], s.table.ownRow[3], s.table.ownRow[4],
            s.table.ownRow[5], s.table.ownRow[6], s.table.ownRow[7]].map (BitVec.ofNat 8)) := by
  refine ⟨?_, fun r rest hr => ?_, fun c hc => ?_, fun e rest he => ?_, ?_⟩
  · rw [State.composeFrame, withdrawFrame, headerOctet_eq hn]
    simp [kindNumber]
  · rw [State.composeFrame, hr]
    show releaseFrame _ _ _ _ = _
    rw [releaseFrame, headerOctet_eq hn]
    rfl
  · rw [State.composeFrame, hc]
    show claimFrame _ _ _ _ = _
    rw [claimFrame, headerOctet_eq hn]
    rfl
  · rw [State.composeFrame, he]
    show reportFrame _ _ = _
    rw [reportFrame, headerOctet_eq hn]
    by_cases h1 : e.cls = 1 <;> simp [kindNumber, h1, octet]
  · rw [State.composeFrame, summaryFrame, headerOctet_eq hn, row_toList]
    rfl

/-- Settles O32: the remainder by induction on the octets, and each frame as its source composes it. -/
theorem framesAreComposedAsLaidOut : Obligations.FramesAreComposedAsLaidOut := by
  unfold Obligations.FramesAreComposedAsLaidOut
  refine ⟨fun q => ?_, fun q => ⟨rfl, ?_⟩, by decide +kernel, fun s n hn => composeFrame_layouts hn, by decide⟩
  · obtain ⟨quotient, hq⟩ := checkPoly_dvd q
    refine ⟨quotient, ?_⟩
    show X ^ 8 * framePoly q = quotient * checkPoly + octetPoly (checkOctet q)
    linear_combination hq
  · rw [withCheck, checkOctet_concat, checkStep_self]

end Sys2Proof.Machine
end

section
/-! PROOFS. Reading the frame of every frame row gives the row back (R138, R139, R143, R144, R153). -/

namespace Sys2Proof.Machine

/-! ### The octets of a frame, as the assembly learns them -/

theorem unknownKind_append {a b : List Octet} (h : unknownKind a = true) : unknownKind (a ++ b) = true := by
  obtain ⟨x, r, rfl, hk⟩ := unknownKind_iff.1 h
  exact unknownKind_iff.2 ⟨x, r ++ b, rfl, hk⟩

theorem wrongLength_append {a b : List Octet} (h : wrongLength a = true) : wrongLength (a ++ b) = true := by
  obtain ⟨x, y, z, n, r, rfl, hk⟩ := wrongLength_iff.1 h
  exact wrongLength_iff.2 ⟨x, y, z, n, r ++ b, rfl, hk⟩

/-- A length once learned stands as more octets come in (R143). -/
theorem expectedLength_append {a b : List Octet} {m : Nat} (h : expectedLength a = some m) :
    expectedLength (a ++ b) = some m := by
  cases a with
  | nil => cases h
  | cons x a =>
    rw [List.cons_append]
    unfold expectedLength at h ⊢
    dsimp only at h ⊢
    split at h
    case h_4 =>
      cases a with
      | nil => cases h
      | cons c a => exact h
    case h_5 =>
      obtain _ | ⟨c, _ | ⟨d, _ | ⟨n, a⟩⟩⟩ := a
      · cases h
      · cases h
      · cases h
      · exact h
    all_goals exact h

/-- A frame of the length its octets tell, with a check octet that fits, is discarded at no octet (R144). -/
theorem discarded_take {q : List Octet} (hkind : unknownKind q = false) (hlen : wrongLength q = false)
    (he : expectedLength q = some q.length) (hc : checkOctet q = 0) (n : Nat) : discarded (q.take n) false = false := by
  have hsplit : q.take n ++ q.drop n = q := List.take_append_drop n q
  have hkind' : unknownKind (q.take n) = false := by
    rw [Bool.eq_false_iff] at hkind ⊢
    exact fun h => hkind (hsplit ▸ unknownKind_append h)
  have hlen' : wrongLength (q.take n) = false := by
    rw [Bool.eq_false_iff] at hlen ⊢
    exact fun h => hlen (hsplit ▸ wrongLength_append h)
  have hcheck : checkMismatch (q.take n) = false := by
    rw [Bool.eq_false_iff]
    intro h
    obtain ⟨m, hm, hle, hne⟩ := checkMismatch_iff.1 h
    have hwhole := expectedLength_append (b := q.drop n) hm
    rw [hsplit, he] at hwhole
    obtain rfl := Option.some.inj hwhole
    rw [List.length_take] at hle
    rw [List.take_take, List.take_of_length_le (by omega)] at hne
    exact hne hc
  simp [discarded, hkind', hlen', hcheck]

/-! ### The fields of the octets -/

theorem header_toNat (kind : FrameKind) (urgency : Bool) (station : StationNo) : (headerOctet kind urgency station).toNat
    = 32 * kindNumber kind + (if urgency then 16 else 0) + station.val := by
  have hkind : kindNumber kind ≤ 5 := by cases kind <;> decide
  have hstation := station.isLt
  rw [headerOctet, octet, BitVec.toNat_ofNat]
  split <;> omega

@[simp] theorem headerKind_headerOctet (kind : FrameKind) (urgency : Bool) (station : StationNo) :
    headerKind (headerOctet kind urgency station) = kindNumber kind := by
  have hstation := station.isLt
  rw [headerKind, header_toNat]
  split <;> omega

@[simp] theorem headerStation_headerOctet (kind : FrameKind) (urgency : Bool) (station : StationNo) :
    headerStation (headerOctet kind urgency station) = station := by
  have hstation := station.isLt
  refine Fin.ext ?_
  show (headerOctet kind urgency station).toNat % 16 = station.val
  rw [header_toNat]
  split <;> omega

theorem lineWeight_toNat (l : Line) (w : Fin 16) : (lineWeightOctet l w.val).toNat = 16 * l.val + w.val := by
  have hl := l.isLt
  have hw := w.isLt
  rw [lineWeightOctet, octet, BitVec.toNat_ofNat]
  omega

@[simp] theorem claimedLine_lineWeightOctet (l : Line) (w : Fin 16) : claimedLine (lineWeightOctet l w.val) = l := by
  have hw := w.isLt
  refine Fin.ext ?_
  show (lineWeightOctet l w.val).toNat / 16 = l.val
  rw [lineWeight_toNat]
  omega

@[simp] theorem claimedWeight_lineWeightOctet (l : Line) (w : Fin 16) : claimedWeight (lineWeightOctet l w.val) = w := by
  have hw := w.isLt
  refine Fin.ext ?_
  show (lineWeightOctet l w.val).toNat % 16 = w.val
  rw [lineWeight_toNat]
  omega

/-! ### Reading back -/

/-- A frame that is read as a row, and that the assembly keeps octet by octet. -/
structure ReadsAs (q : List Octet) (i : Instr) : Prop where
  row : readFrame q = some i
  length : expectedLength q = some q.length
  kept : ∀ n ≤ q.length, discarded (q.take n) false = false

/-- A composed frame is kept where its kind is known, its length is what its octets tell, and a REPORT is in bounds. -/
theorem readsAs_withCheck {kind : FrameKind} {urgency : Bool} {station : StationNo} {body : List Octet} {i : Instr}
    (hrow : readFrame (withCheck (headerOctet kind urgency station :: body)) = some i)
    (hlen : expectedLength (withCheck (headerOctet kind urgency station :: body)) = some (body.length + 2))
    (hreport : wrongLength (withCheck (headerOctet kind urgency station :: body)) = false) :
    ReadsAs (withCheck (headerOctet kind urgency station :: body)) i := by
  have hlength : (withCheck (headerOctet kind urgency station :: body)).length = body.length + 2 := by simp [withCheck]
  have hkind : unknownKind (withCheck (headerOctet kind urgency station :: body)) = false := by
    have hle : kindNumber kind ≤ 5 := by cases kind <;> decide
    rw [withCheck, List.cons_append, unknownKind, headerKind_headerOctet, decide_eq_false_iff_not]
    omega
  have hcheck : checkOctet (withCheck (headerOctet kind urgency station :: body)) = 0 := by
    rw [withCheck, checkOctet_concat, checkStep_self]
  rw [← hlength] at hlen
  exact ⟨hrow, hlen, fun n _ => discarded_take hkind hreport hlen hcheck n⟩

/-- Only a REPORT carries a value length. -/
theorem wrongLength_of_kind {kind : FrameKind} {urgency : Bool} {station : StationNo} {body : List Octet}
    (h : kind ≠ .report) : wrongLength (withCheck (headerOctet kind urgency station :: body)) = false := by
  rw [Bool.eq_false_iff]
  intro hw
  obtain ⟨x, a, b, n, r, hq, hkind, -⟩ := wrongLength_iff.1 hw
  rw [withCheck, List.cons_append] at hq
  obtain ⟨rfl, -⟩ := List.cons.inj hq
  have hnumber : kindNumber kind = 4 := (headerKind_headerOctet ..).symm.trans hkind
  cases kind
  case report => exact h rfl
  all_goals cases hnumber

/-- A COMMAND frame is read by its code and its parameters (R139, R153). -/
theorem readsAs_command {urgency : Bool} {h : CommandHeader} {code : Octet} {ps : List Octet} {i : Instr}
    (hi : commandOf h code ps = some i) (hps : parameterCount code = ps.length) :
    ReadsAs (commandFrame urgency h code ps) i := by
  refine readsAs_withCheck ?_ ?_ (wrongLength_of_kind nofun)
  · simp only [withCheck, List.cons_append, readFrame, headerKind_headerOctet, headerStation_headerOctet, kindNumber,
      List.dropLast_concat]
    exact hi
  · simp only [withCheck, List.cons_append, expectedLength, headerKind_headerOctet, kindNumber, hps, List.length_cons]
    congr 1
    omega

theorem commandOf_unknown {h : CommandHeader} {code : Octet} (hc : code = 0 ∨ 15 ≤ code.toNat) :
    commandOf h code [] = some (.unknownCommand h code) := by
  have hval : code.toNat = 0 ∨ 15 ≤ code.toNat := hc.imp_left fun h => by rw [h]; rfl
  have hunknown : knownCode code = false := by
    simp [knownCode]
    omega
  unfold commandOf
  split
  case h_15 => rw [hunknown]; rfl
  all_goals simp_all

theorem parameterCount_unknown {code : Octet} (hc : code = 0 ∨ 15 ≤ code.toNat) : parameterCount code = 0 := by
  have hne : ∀ k : Octet, 1 ≤ k.toNat → k.toNat ≤ 14 → code ≠ k := fun k h1 h14 hk => by
    subst hk
    rcases hc with rfl | hc
    · exact absurd h1 (by decide)
    · omega
  rw [parameterCount, if_neg (hne 1 (by decide) (by decide)), if_neg]
  rintro (h | h | h | h)
  · exact hne 5 (by decide) (by decide) h
  · exact hne 6 (by decide) (by decide) h
  · exact hne 8 (by decide) (by decide) h
  · exact hne 9 (by decide) (by decide) h

theorem readsAs_peerRelease (st : StationNo) (l : Line) (w : Fin 16) (set : PhaseSet) :
    ReadsAs (releaseFrame st l w.val set) (.peerRelease st l w set) := by
  refine readsAs_withCheck ?_ ?_ (wrongLength_of_kind nofun)
  · simp [withCheck, readFrame, kindNumber]
  · simp [withCheck, expectedLength, kindNumber]

theorem readsAs_peerClaim (st : StationNo) (l : Line) (w : Fin 16) (set : PhaseSet) :
    ReadsAs (claimFrame st l w.val set) (.peerClaim st l w set) := by
  refine readsAs_withCheck ?_ ?_ (wrongLength_of_kind nofun)
  · simp [withCheck, readFrame, kindNumber]
  · simp [withCheck, expectedLength, kindNumber]

theorem readsAs_peerWithdraw (st : StationNo) : ReadsAs (withdrawFrame st) (.peerWithdraw st) := by
  refine readsAs_withCheck ?_ ?_ (wrongLength_of_kind nofun)
  · simp [withCheck, readFrame, kindNumber]
  · simp [withCheck, expectedLength, kindNumber]

theorem readsAs_peerSummary (st : StationNo) (cells : Vector Octet 8) :
    ReadsAs (withCheck (headerOctet .summary true st :: cells.toList)) (.peerSummary st cells) := by
  refine readsAs_withCheck ?_ ?_ (wrongLength_of_kind nofun)
  · obtain ⟨⟨cs⟩, hcs⟩ := cells
    obtain _ | ⟨c0, _ | ⟨c1, _ | ⟨c2, _ | ⟨c3, _ | ⟨c4, _ | ⟨c5, _ | ⟨c6, _ | ⟨c7, _ | ⟨c8, cs⟩⟩⟩⟩⟩⟩⟩⟩⟩ := cs
    case cons.cons.cons.cons.cons.cons.cons.cons.nil => simp [withCheck, readFrame, kindNumber]
    all_goals simp at hcs
  · simp [withCheck, expectedLength, kindNumber]

theorem readsAs_peerReport {urgency : Bool} (st : StationNo) (code number : Octet) {values : List Octet}
    (hv : values.length ≤ 16) :
    ReadsAs (withCheck (headerOctet .report urgency st :: code :: number :: octet values.length :: values))
      (.peerReport st code number values) := by
  have hcount : (octet values.length).toNat = values.length := by
    rw [octet, BitVec.toNat_ofNat]
    omega
  refine readsAs_withCheck ?_ ?_ ?_
  · simp [withCheck, readFrame, kindNumber]
  · simp only [withCheck, List.cons_append, expectedLength, headerKind_headerOctet, kindNumber, hcount, List.length_cons]
    congr 1
    omega
  · rw [Bool.eq_false_iff]
    intro hw
    obtain ⟨x, a, b, n, r, hq, -, hn⟩ := wrongLength_iff.1 hw
    simp only [withCheck, List.cons_append, List.cons.injEq] at hq
    obtain ⟨-, -, -, rfl, -⟩ := hq
    omega

/-- Settles O33: the frame of each row, by its layout. -/
theorem readingAFrameGivesItsRow : Obligations.ReadingAFrameGivesItsRow := by
  unfold Obligations.ReadingAFrameGivesItsRow
  intro urgency i q hq hforced hunknown hreport
  suffices h : ReadsAs q i from ⟨h.row, h.length, h.kept⟩
  cases i
  case blockForced h v =>
    cases hq
    refine readsAs_command ?_ rfl
    exact congrArg some (if_neg (hforced h v rfl))
  case stationReset h e =>
    by_cases he : e = ⟨0, 0⟩
    · subst he
      cases hq
      exact readsAs_command rfl rfl
    · rw [frameOctets, if_neg he] at hq
      cases hq
  case unknownCommand h code =>
    cases hq
    exact readsAs_command (commandOf_unknown (hunknown h code rfl)) (parameterCount_unknown (hunknown h code rfl))
  case peerClaim => cases hq; exact readsAs_peerClaim ..
  case peerRelease => cases hq; exact readsAs_peerRelease ..
  case peerSummary => cases hq; exact readsAs_peerSummary ..
  case peerWithdraw => cases hq; exact readsAs_peerWithdraw ..
  case peerReport => cases hq; exact readsAs_peerReport _ _ _ (hreport _ _ _ _ rfl)
  case ring | stopRing | connect | releaseLine | tone | blockPolite | unblock | remap | watch | queryLine | queryStation
    | queryTable | start => cases hq; exact readsAs_command rfl rfl
  all_goals cases hq

end Sys2Proof.Machine
end

section
/-! PROOFS. The passes over the lines at a phase boundary: what the work on one line leaves of the others and of the Ring
Placement Unit (R81, R128, R130, R131; log 13). -/

namespace Sys2Proof.Machine

variable {s t u : State} {l m : Line}

/-! ### Folds over the lines -/

/-- A pass over the lines, split at one of them: what the work on any other line keeps, the pass keeps before and after. -/
theorem foldl_lines_at {act : Line → State → State} {R : State → State → Prop} (hrefl : ∀ s, R s s)
    (htrans : ∀ s t u, R s t → R t u → R s u) (m : Line) (hact : ∀ l u, l ≠ m → R u (act l u)) (s : State) :
    ∃ u, R s u ∧ R (act m u) ((List.finRange 16).foldl (fun s l => act l s) s) := by
  have hkeep : ∀ (ls : List Line), m ∉ ls → ∀ u, R u (ls.foldl (fun s l => act l s) u) := fun ls hm => by
    induction ls with
    | nil => exact fun u => hrefl u
    | cons l ls ih =>
      obtain ⟨hl, hls⟩ := not_or.1 (List.mem_cons.not.1 hm)
      exact fun u => htrans _ _ _ (hact l u (Ne.symm hl)) (ih hls _)
  obtain ⟨front, back, hsplit⟩ := List.append_of_mem (List.mem_finRange m)
  have hnodup := List.nodup_finRange 16
  rw [hsplit, List.nodup_append] at hnodup
  obtain ⟨-, hback, hdisjoint⟩ := hnodup
  have hfront : m ∉ front := fun h => hdisjoint m h m List.mem_cons_self rfl
  refine ⟨front.foldl (fun s l => act l s) s, hkeep front hfront s, ?_⟩
  rw [hsplit, List.foldl_append, List.foldl_cons]
  exact hkeep back (List.nodup_cons.1 hback).1 _

theorem foldl_lines_id {act : Line → State → State} (h : ∀ l, act l s = s) :
    (List.finRange 16).foldl (fun s l => act l s) s = s :=
  List.foldl_fixed' h _

/-- A pass that works on one line alone. -/
theorem foldl_lines_one {act : Line → State → State} (h : ∀ m, m ≠ l → act m s = s)
    (h' : ∀ m, m ≠ l → act m (act l s) = act l s) : (List.finRange 16).foldl (fun s l => act l s) s = act l s := by
  obtain ⟨u, hu, ht⟩ := foldl_lines_at (act := act) (R := fun v w => (v = s → w = s) ∧ (v = act l s → w = act l s))
    (fun _ => ⟨id, id⟩) (fun _ _ _ h k => ⟨fun hv => k.1 (h.1 hv), fun hv => k.2 (h.2 hv)⟩) l
    (fun m v hm => ⟨fun hv => by rw [hv]; exact h m hm, fun hv => by rw [hv]; exact h' m hm⟩) s
  exact ht.2 (by rw [hu.1 rfl])

/-! ### The Ring Placement Unit while lines ring and end -/

/-- The queue and the claim stand, and no RELEASE that is owed is lost. -/
structure UnitGrows (s t : State) : Prop where
  queue : t.ringUnit.queue = s.ringUnit.queue
  claim : t.ringUnit.claim = s.ringUnit.claim
  releases : s.ringUnit.releases ⊆ t.ringUnit.releases

theorem UnitGrows.of_eq (h : t.ringUnit = s.ringUnit) : UnitGrows s t :=
  ⟨by rw [h], by rw [h], fun r hr => by rw [h]; exact hr⟩

theorem UnitGrows.trans (h : UnitGrows s t) (k : UnitGrows t u) : UnitGrows s u :=
  ⟨k.queue.trans h.queue, k.claim.trans h.claim, fun _ hr => k.releases (h.releases hr)⟩

/-- A line that leaves RINGING owes a RELEASE and touches neither the queue nor the claim (R123). -/
theorem unitGrows_ringLeave (l : Line) (c : Option RingContext) (s : State) : UnitGrows s (s.ringLeave l .ringing c) := by
  cases c with
  | none => exact .of_eq rfl
  | some c => exact ⟨rfl, rfl, fun _ hr => List.mem_append_left _ hr⟩

/-- A path of a line in RINGING, or in no ring state. -/
theorem LinePath.unitGrows (h : LinePath l s t) (hs : (s.line l).state = .ringing ∨ (s.line l).state.isRing = false) :
    UnitGrows s t := by
  rcases hs with hs | hs
  · have hring : (s.line l).state.isRing = true := by rw [hs]; rfl
    have hleft := h.ringLeft hring
    cases ht : (t.line l).state.isRing with
    | true => exact .of_eq (hleft.stays ht).2.2.1
    | false =>
      have hunit := (hleft.leaves ht).1
      rw [hs] at hunit
      exact (unitGrows_ringLeave l _ s).trans (.of_eq hunit)
  · exact .of_eq (h.lineMove.ring hs).2.1

/-- What the work on other lines leaves of a line, and of the Ring Placement Unit. -/
structure OthersPass (m : Line) (s t : State) : Prop where
  work : LineWork s t
  line : SameButResync (s.line m) (t.line m)
  unit : UnitGrows s t

theorem OthersPass.refl (m : Line) (s : State) : OthersPass m s s := ⟨rfl, .refl _, .of_eq rfl⟩

theorem OthersPass.trans (h : OthersPass m s t) (k : OthersPass m t u) : OthersPass m s u :=
  ⟨h.work.trans k.work, h.line.trans k.line, h.unit.trans k.unit⟩

theorem LineMove.othersPass (h : LineMove l s t) (hu : UnitGrows s t) (hm : m ≠ l) : OthersPass m s t :=
  ⟨h.eq, h.lines m hm, hu⟩

/-- The pass, split at a line. -/
theorem othersPass_foldl {act : Line → State → State} (hmove : ∀ l u, LineMove l u (act l u))
    (hunit : ∀ l u, UnitGrows u (act l u)) (m : Line) (s : State) : ∃ u, OthersPass m s u
      ∧ OthersPass m (act m u) ((List.finRange 16).foldl (fun s l => act l s) s) :=
  foldl_lines_at (R := OthersPass m) (OthersPass.refl m) (fun _ _ _ => OthersPass.trans) m
    (fun l u hl => (hmove l u).othersPass (hunit l u) (Ne.symm hl)) s

/-! ### The work on one line -/

/-- A new ring context in a record. -/
theorem lineMove_setRing (l : Line) (c : RingContext) (s : State) : LineMove l s (s.setRing l c) :=
  lineMove_setLine l s _ rfl id

theorem countRingCycle_of_not_ringing (h : (s.line l).state ≠ .ringing ∨ (s.line l).ring = none) :
    countRingCycle l s = s := by
  unfold countRingCycle
  split
  · rename_i hst hr
    rcases h with h | h
    · exact absurd hst h
    · rw [hr] at h; cases h
  · rfl

theorem countRingCycle_of_below {c : RingContext} (hst : (s.line l).state = .ringing) (hr : (s.line l).ring = some c)
    (h : c.limit = 0 ∨ min (c.cycles + 1) 15 ≠ c.limit) :
    countRingCycle l s = s.setRing l { c with cycles := min (c.cycles + 1) 15 } := by
  simp only [countRingCycle, hst, hr]
  refine if_neg ?_
  rw [Bool.and_eq_true, decide_eq_true_eq, decide_eq_true_eq]
  exact fun hno => h.elim hno.1 (fun h => h hno.2)

theorem countRingCycle_of_limit {c : RingContext} (hst : (s.line l).state = .ringing) (hr : (s.line l).ring = some c)
    (h0 : c.limit ≠ 0) (h : min (c.cycles + 1) 15 = c.limit) : countRingCycle l s
      = enterIdle l (queueLine .noAnswer l []) (s.setRing l { c with cycles := min (c.cycles + 1) 15 }) := by
  simp only [countRingCycle, hst, hr]
  refine if_pos ?_
  rw [Bool.and_eq_true, decide_eq_true_eq, decide_eq_true_eq]
  exact ⟨h0, h⟩

theorem countRingCycle_move (l : Line) (s : State) :
    LineMove l s (countRingCycle l s) ∧ UnitGrows s (countRingCycle l s) := by
  by_cases hst : (s.line l).state = .ringing
  · cases hr : (s.line l).ring with
    | none =>
      rw [countRingCycle_of_not_ringing (.inr hr)]
      exact ⟨.refl l s, .of_eq rfl⟩
    | some c =>
      have hset := lineMove_setRing l { c with cycles := min (c.cycles + 1) 15 } s
      have hself : ((s.setRing l { c with cycles := min (c.cycles + 1) 15 }).line l).state = .ringing :=
        (congrArg LineRecord.state (State.line_setLine_self ..)).trans hst
      by_cases hlim : c.limit = 0 ∨ min (c.cycles + 1) 15 ≠ c.limit
      · rw [countRingCycle_of_below hst hr hlim]
        exact ⟨hset, .of_eq rfl⟩
      · rw [not_or, not_not] at hlim
        have hidle := linePath_enterIdle l (s.setRing l { c with cycles := min (c.cycles + 1) 15 })
          (queueLine .noAnswer l []) fun _ => linePath_queueLine ..
        have hbooks : UnitGrows s (s.setRing l { c with cycles := min (c.cycles + 1) 15 }) := .of_eq rfl
        rw [countRingCycle_of_limit hst hr hlim.1 hlim.2]
        exact ⟨hset.trans hidle.lineMove, hbooks.trans (hidle.unitGrows (.inl hself))⟩
  · rw [countRingCycle_of_not_ringing (.inl hst)]
    exact ⟨.refl l s, .of_eq rfl⟩

theorem countWait_of_not_queued (h : l ∉ s.ringUnit.queue) : countWait l s = s := by
  have hno : s.ringUnit.queue.contains l = false := by simpa using h
  unfold countWait
  split
  · exact if_neg (by rw [hno]; exact Bool.false_ne_true)
  · rfl

theorem countWait_of_no_ring (h : (s.line l).ring = none) : countWait l s = s := by
  simp only [countWait, h]

theorem countWait_of_queued {c : RingContext} (hr : (s.line l).ring = some c) (h : l ∈ s.ringUnit.queue) : countWait l s
    = if c.waits = 3 then queueLine .ringDelayed l [] (s.setRing l { c with waits := min (c.waits + 1) 4 })
      else s.setRing l { c with waits := min (c.waits + 1) 4 } := by
  have hyes : s.ringUnit.queue.contains l = true := by simpa using h
  simp only [countWait, hr]
  exact if_pos hyes

theorem countWait_move (l : Line) (s : State) : LineMove l s (countWait l s) ∧ (countWait l s).ringUnit = s.ringUnit := by
  by_cases hq : l ∈ s.ringUnit.queue
  · cases hr : (s.line l).ring with
    | none =>
      rw [countWait_of_no_ring hr]
      exact ⟨.refl l s, rfl⟩
    | some c =>
      have hset := lineMove_setRing l { c with waits := min (c.waits + 1) 4 } s
      have honly := onlyReports_queueLine .ringDelayed l [] (s.setRing l { c with waits := min (c.waits + 1) 4 })
      rw [countWait_of_queued hr hq]
      split
      · exact ⟨hset.trans (honly.lineMove l), by rw [honly.eq]; rfl⟩
      · exact ⟨hset, rfl⟩
  · rw [countWait_of_not_queued hq]
    exact ⟨.refl l s, rfl⟩

theorem startRinging_of_not (h : (s.line l).state ≠ .ringArmed ∨ (s.line l).ring = none) : startRinging l s = s := by
  unfold startRinging
  split
  · rename_i hst hr
    rcases h with h | h
    · exact absurd hst h
    · rw [hr] at h; cases h
  · rfl

theorem startRinging_of_armed {c : RingContext} (hst : (s.line l).state = .ringArmed) (hr : (s.line l).ring = some c) :
    startRinging l s
      = if inSet (rotatedSet c.code c.offset) s.cadence.phase then transition l .ringing id s else s := by
  simp only [startRinging, hst, hr]

theorem startRinging_eq_or (l : Line) (s : State) : startRinging l s = s
    ∨ (s.line l).state = .ringArmed ∧ startRinging l s = transition l .ringing id s := by
  by_cases hst : (s.line l).state = .ringArmed
  · cases hr : (s.line l).ring with
    | none => exact .inl (startRinging_of_not (.inr hr))
    | some c =>
      rw [startRinging_of_armed hst hr]
      split
      · exact .inr ⟨hst, rfl⟩
      · exact .inl rfl
  · exact .inl (startRinging_of_not (.inl hst))

/-- A start of ringing leaves the books (R81). -/
theorem startRinging_ring (l : Line) (s : State) :
    (startRinging l s).ringUnit = s.ringUnit ∧ (startRinging l s).table = s.table := by
  rcases startRinging_eq_or l s with h | ⟨-, h⟩
  · rw [h]; exact ⟨rfl, rfl⟩
  · rw [h]; exact transition_id_ring l .ringing s (.inr rfl)

theorem startRinging_move (l : Line) (s : State) : LineMove l s (startRinging l s) := by
  rcases startRinging_eq_or l s with h | ⟨hst, h⟩
  · rw [h]; exact .refl l s
  · rw [h]
    exact lineMove_transition l .ringing id s onlyReports_id fun hno => by rw [hst] at hno; cases hno

/-- A line that starts ringing keeps its hook timing, its map and its ring context. -/
theorem startRinging_line (l : Line) (s : State) : ((startRinging l s).line l).timing.sense = (s.line l).timing.sense
    ∧ ((startRinging l s).line l).timing.edgeCount = (s.line l).timing.edgeCount
    ∧ ((startRinging l s).line l).ring = (s.line l).ring := by
  rcases startRinging_eq_or l s with h | ⟨-, h⟩
  · rw [h]; exact ⟨rfl, rfl, rfl⟩
  · rw [h, transition_id_line]; exact ⟨rfl, rfl, rfl⟩

theorem tripDue_eq_false (h : (s.line l).state = .ringing → (s.line l).timing.sense = .mk →
    (s.line l).timing.edgeCount < tripConfirmTicks s.profile) : s.tripDue l = false := by
  rw [Bool.eq_false_iff]
  intro hdue
  simp only [State.tripDue, Bool.and_eq_true, decide_eq_true_eq] at hdue
  obtain ⟨⟨hst, hsense⟩, hcount⟩ := hdue
  exact absurd (h hst hsense) (Nat.not_lt.2 hcount)

theorem handTripConfirmed_move (l : Line) (s : State) :
    LineMove l s (handTripConfirmed l s) ∧ UnitGrows s (handTripConfirmed l s) := by
  have hpath := linePath_handTripConfirmed l s
  refine ⟨hpath.lineMove, ?_⟩
  by_cases hst : (s.line l).state = .ringing
  · exact hpath.unitGrows (.inl hst)
  · rw [handTripConfirmed_of_not_due (tripDue_eq_false fun h => absurd h hst)]
    exact .of_eq rfl

/-! ### The four parts of the work, seen from one line -/

theorem countCycles_at (m : Line) (s : State) : ∃ u, OthersPass m s u
    ∧ OthersPass m (countWait m (countRingCycle m u)) (countCycles s) :=
  othersPass_foldl (act := fun l s => countWait l (countRingCycle l s))
    (fun l u => (countRingCycle_move l u).1.trans (countWait_move l _).1)
    (fun l u => (countRingCycle_move l u).2.trans (.of_eq (countWait_move l _).2)) m s

theorem startRingingAll_at (m : Line) (s : State) : ∃ u, OthersPass m s u
    ∧ OthersPass m (startRinging m u) (startRingingAll s) :=
  othersPass_foldl startRinging_move (fun l u => .of_eq (startRinging_ring l u).1) m s

theorem handTripsAll_at (m : Line) (s : State) : ∃ u, OthersPass m s u
    ∧ OthersPass m (handTripConfirmed m u) (handTripsAll s) :=
  othersPass_foldl (fun l u => (handTripConfirmed_move l u).1) (fun l u => (handTripConfirmed_move l u).2) m s

theorem startRingingAll_ring (s : State) :
    (startRingingAll s).ringUnit = s.ringUnit ∧ (startRingingAll s).table = s.table :=
  foldl_keeps (fun t : State => t.ringUnit = s.ringUnit ∧ t.table = s.table) _
    (fun t l h => ⟨(startRinging_ring l t).1.trans h.1, (startRinging_ring l t).2.trans h.2⟩) _ ⟨rfl, rfl⟩

theorem lineWork_countCycles (s : State) : LineWork s (countCycles s) := by
  obtain ⟨u, hu, ht⟩ := countCycles_at 0 s
  exact (hu.work.trans ((countRingCycle_move 0 u).1.trans (countWait_move 0 _).1).eq).trans ht.work

theorem lineWork_startRingingAll (s : State) : LineWork s (startRingingAll s) := by
  obtain ⟨u, hu, ht⟩ := startRingingAll_at 0 s
  exact (hu.work.trans (startRinging_move 0 u).eq).trans ht.work

theorem lineWork_handTripsAll (s : State) : LineWork s (handTripsAll s) := by
  obtain ⟨u, hu, ht⟩ := handTripsAll_at 0 s
  exact (hu.work.trans (handTripConfirmed_move 0 u).1.eq).trans ht.work

theorem unitGrows_countCycles (s : State) : UnitGrows s (countCycles s) := by
  obtain ⟨u, hu, ht⟩ := countCycles_at 0 s
  exact (hu.unit.trans ((countRingCycle_move 0 u).2.trans (.of_eq (countWait_move 0 _).2))).trans ht.unit

theorem unitGrows_handTripsAll (s : State) : UnitGrows s (handTripsAll s) := by
  obtain ⟨u, hu, ht⟩ := handTripsAll_at 0 s
  exact (hu.unit.trans (handTripConfirmed_move 0 u).2).trans ht.unit

end Sys2Proof.Machine
end

section
/-! PROOFS. PHASE_BOUNDARY at the end of a phase 0..6 (R71, R77, R81, R111, R112, R115, R128). -/

namespace Sys2Proof.Machine

variable {s t u : State} {l m : Line} {r : RingContext}

theorem LineWork.straps (h : LineWork s t) : t.own = s.own ∧ t.profile = s.profile := by
  rw [h]
  exact ⟨rfl, rfl⟩

/-! ### The work of the Ring Placement Unit -/

theorem ringUnitWork_of_active (h : s.station.state = .active) (cycle : Bool) : ringUnitWork cycle s
    = handTripsAll (attemptPlacement (startRingingAll (if cycle then countCycles s else s))) := if_pos h

theorem ringUnitWork_of_not_active (h : s.station.state ≠ .active) (cycle : Bool) : ringUnitWork cycle s = s := if_neg h

theorem lineWork_ringUnitWork (cycle : Bool) (s : State) : LineWork s (ringUnitWork cycle s) := by
  by_cases h : s.station.state = .active
  · rw [ringUnitWork_of_active h]
    have hcount : LineWork s (if cycle then countCycles s else s) := by
      cases cycle
      · exact rfl
      · exact lineWork_countCycles s
    exact ((hcount.trans (lineWork_startRingingAll _)).trans (attempted_attemptPlacement _).work).trans
      (lineWork_handTripsAll _)
  · rw [ringUnitWork_of_not_active h]
    rfl

/-- A line that is neither armed nor queued nor answered passes the part of the work after the counting. -/
theorem afterCounting_still (harmed : (s.line l).state ≠ .ringArmed)
    (htrip : (s.line l).state = .ringing → (s.line l).timing.sense ≠ .mk) (hq : l ∉ s.ringUnit.queue) :
    SameButResync (s.line l) ((handTripsAll (attemptPlacement (startRingingAll s))).line l) := by
  obtain ⟨u, hu, hv⟩ := startRingingAll_at l s
  have hstart : startRinging l u = u := startRinging_of_not (.inl (by rw [hu.line.fields.1]; exact harmed))
  rw [hstart] at hv
  have hstarted : SameButResync (s.line l) ((startRingingAll s).line l) := hu.line.trans hv.line
  have hattempt := (attempted_attemptPlacement (startRingingAll s)).lines l (by rw [(startRingingAll_ring s).1]; exact hq)
  obtain ⟨w, hw, ht⟩ := handTripsAll_at l (attemptPlacement (startRingingAll s))
  have hw' := (hstarted.trans hattempt).trans hw.line
  obtain ⟨hstate, -, -, -, -, htiming, -⟩ := hw'.fields
  have hnot : handTripConfirmed l w = w := handTripConfirmed_of_not_due (tripDue_eq_false fun h hsense => by
    rw [hstate] at h
    rw [htiming] at hsense
    exact absurd hsense (htrip h))
  rw [hnot] at ht
  exact hw'.trans ht.line

/-- A line of no ring state, and not in the queue, passes the part of the work after the counting. -/
theorem afterCounting_outside (hl : (s.line l).state.isRing = false) (hq : l ∉ s.ringUnit.queue) :
    SameButResync (s.line l) ((handTripsAll (attemptPlacement (startRingingAll s))).line l) :=
  afterCounting_still (fun h => by rw [h] at hl; cases hl) (fun h => by rw [h] at hl; cases hl) hq

/-- The record of an armed line as its set begins, or not, with the phase (R81). -/
def LineRecord.started (x : LineRecord) (set : PhaseSet) (p : Phase) : LineRecord :=
  if inSet set p then x.entering .ringing else x

theorem startRinging_record {x : LineRecord} (hx : SameButResync x (s.line l)) (hst : x.state = .ringArmed)
    (hr : x.ring = some r) :
    SameButResync (x.started (rotatedSet r.code r.offset) s.cadence.phase) ((startRinging l s).line l) := by
  obtain ⟨hstate, -, -, -, -, -, hring, -⟩ := hx.fields
  rw [startRinging_of_armed (hstate.trans hst) (hring.trans hr)]
  unfold LineRecord.started
  split
  · rw [transition_id_line, hx]
    rfl
  · exact hx

/-- An armed line, not in the queue and with no trip confirmed, after the work at a boundary (R81). -/
theorem afterCounting_armed (hst : (s.line l).state = .ringArmed) (hr : (s.line l).ring = some r) (hq : l ∉ s.ringUnit.queue)
    (htrip : (s.line l).timing.sense = .mk → (s.line l).timing.edgeCount < tripConfirmTicks s.profile) :
    SameButResync ((s.line l).started (rotatedSet r.code r.offset) s.cadence.phase)
      ((handTripsAll (attemptPlacement (startRingingAll s))).line l) := by
  obtain ⟨u, hu, hv⟩ := startRingingAll_at l s
  have hcadence : u.cadence = s.cadence := by rw [hu.work]
  have hrecord := startRinging_record hu.line hst hr
  rw [hcadence] at hrecord
  have hstarted := hrecord.trans hv.line
  have hattempt := (attempted_attemptPlacement (startRingingAll s)).lines l (by rw [(startRingingAll_ring s).1]; exact hq)
  obtain ⟨w, hw, ht⟩ := handTripsAll_at l (attemptPlacement (startRingingAll s))
  have hw' := (hstarted.trans hattempt).trans hw.line
  have hprofile : w.profile = s.profile :=
    (((lineWork_startRingingAll s).trans (attempted_attemptPlacement _).work).trans hw.work).straps.2
  have hnot : handTripConfirmed l w = w := by
    refine handTripConfirmed_of_not_due (tripDue_eq_false fun _ hsense => ?_)
    have htiming : (w.line l).timing.sense = (s.line l).timing.sense
        ∧ (w.line l).timing.edgeCount = (s.line l).timing.edgeCount := by
      rw [hw']
      unfold LineRecord.started
      split <;> exact ⟨rfl, rfl⟩
    rw [htiming.1] at hsense
    rw [htiming.2, hprofile]
    exact htrip hsense
  rw [hnot] at ht
  exact hw'.trans ht.line

/-! ### The work with no make running -/

theorem placed_no_make (h : ∀ x, (s.line x).timing.sense ≠ .mk) (m : Line) (r : RingContext) (o : Phase) (x : Line) :
    ((s.placed m r o).line x).timing.sense ≠ .mk := by
  rw [placed_line]
  split
  · exact h m
  · exact h x

section NoMake
variable (hno : ∀ m, (s.line m).timing.sense ≠ .mk)
include hno

/-- What a start of ringing leaves of every line, with no make running. -/
theorem startRingingAll_line (m : Line) : ((startRingingAll s).line m).timing.sense ≠ .mk
    ∧ ((startRingingAll s).line m).ring = (s.line m).ring
    ∧ ((s.line m).state ≠ .ringArmed → SameButResync (s.line m) ((startRingingAll s).line m)) := by
  obtain ⟨u, hu, hv⟩ := startRingingAll_at m s
  obtain ⟨hustate, -, -, -, -, hutiming, huring, -⟩ := hu.line.fields
  obtain ⟨-, -, -, -, -, hvtiming, hvring, -⟩ := hv.line.fields
  obtain ⟨hsense, -, hring⟩ := startRinging_line m u
  refine ⟨?_, by rw [hvring, hring, huring], fun hst => ?_⟩
  · rw [hvtiming, hsense, hutiming]
    exact hno m
  · rw [startRinging_of_not (.inl (by rw [hustate]; exact hst))] at hv
    exact hu.line.trans hv.line

omit hno in
theorem handTripsAll_of_no_make (h : ∀ m, (s.line m).timing.sense ≠ .mk) : handTripsAll s = s :=
  foldl_lines_id fun m => handTripConfirmed_of_not_due (tripDue_eq_false fun _ hm => absurd hm (h m))

/-- The attempt record after a start of ringing is the one before (R112). -/
theorem placementOf_startRingingAll (m : Line) : (startRingingAll s).placementOf m = s.placementOf m := by
  have htable := (startRingingAll_ring s).2
  have hwork := lineWork_startRingingAll s
  have hcadence : (startRingingAll s).cadence = s.cadence := by rw [hwork]
  have hown := hwork.straps.1
  have hphase : (startRingingAll s).phaseTotal = s.phaseTotal := by
    funext p
    simp only [State.phaseTotal, htable, hown]
  have htotals : (startRingingAll s).attemptTotals = s.attemptTotals := congrArg tabulate hphase
  have hbudget : (startRingingAll s).effectiveBudget = s.effectiveBudget := by
    funext priority
    simp only [State.effectiveBudget, State.baseInForce, htable]
  unfold State.placementOf
  rw [(startRingingAll_line hno m).2.1, htotals, hcadence, hbudget]

/-- No attempt, or none that finds a place: the books stand. -/
theorem afterCounting_no_placement (h : s.ringUnit.claim ≠ none ∨ s.ringUnit.releases ≠ []
    ∨ ∀ m ∈ s.ringUnit.queue, s.placementOf m = none) :
    handTripsAll (attemptPlacement (startRingingAll s)) = startRingingAll s := by
  have hunit := (startRingingAll_ring s).1
  have hattempt : attemptPlacement (startRingingAll s) = startRingingAll s := by
    rcases h with h | h | h
    · refine attemptPlacement_of_not (Bool.eq_false_iff.2 fun hm => h ?_)
      rw [← hunit]
      exact (mayAttempt_iff.1 hm).2.1
    · refine attemptPlacement_of_not (Bool.eq_false_iff.2 fun hm => h ?_)
      rw [← hunit]
      exact (mayAttempt_iff.1 hm).2.2
    · refine attemptPlacement_of_none ?_
      rw [findPlacement_eq_findSome?, hunit, List.findSome?_eq_none_iff]
      intro m hm
      rw [placementOf_startRingingAll hno]
      exact h m hm
  rw [hattempt]
  exact handTripsAll_of_no_make fun m => (startRingingAll_line hno m).1

/-- The first entry for which an offset fits is placed (R111, R115). -/
theorem afterCounting_placement {front back : List Line} {o : Phase} (hst : s.station.state = .active)
    (hclaim : s.ringUnit.claim = none) (hreleases : s.ringUnit.releases = [])
    (hqueue : s.ringUnit.queue = front ++ m :: back) (hfront : ∀ x ∈ front, s.placementOf x = none)
    (hr : (s.line m).ring = some r) (hm : s.placementOf m = some (m, o)) :
    handTripsAll (attemptPlacement (startRingingAll s)) = (startRingingAll s).placed m r o := by
  have hunit := (startRingingAll_ring s).1
  have hstation : (startRingingAll s).station = s.station := by rw [lineWork_startRingingAll s]
  have hmay : (startRingingAll s).mayAttempt = true := by
    rw [mayAttempt_iff, hunit, hstation]
    exact ⟨hst, hclaim, hreleases⟩
  have hfind : (startRingingAll s).findPlacement = some (m, o) := by
    have hnone : ∀ x ∈ front, (startRingingAll s).placementOf x = none := fun x hx => by
      rw [placementOf_startRingingAll hno, hfront x hx]
    rw [findPlacement_eq_findSome?, hunit, hqueue, List.findSome?_append, List.findSome?_eq_none_iff.2 hnone]
    simp [placementOf_startRingingAll hno, hm]
  have hring : ((startRingingAll s).line m).ring = some r := by rw [(startRingingAll_line hno m).2.1, hr]
  have hsense := placed_no_make (fun x => (startRingingAll_line hno x).1) m r o
  rw [attemptPlacement_of_some hmay hfind, place_of_ring hring,
    handSeizeConfirmed_of_not_held (seizeHeld_of_sense (hsense m)), handTripsAll_of_no_make hsense]

end NoMake

/-! ### The boundary -/

/-- The state at the beginning of the next phase, before the Ring Placement Unit's work (R71, R77). -/
def State.phaseBegun (s : State) : State :=
  markSummaryDue { s with cadence := { s.cadence with phase := s.cadence.phase + 1, tick := 0 } }

theorem markSummaryDue_eq (s : State) : markSummaryDue s = s.setBus { s.bus with summaryDue := (s.bus.summaryDue
    || decide (s.station.state = .active ∧ s.own.val % 8 = s.cadence.phase.val)) } := by
  unfold markSummaryDue
  by_cases h : s.station.state = .active ∧ s.own.val % 8 = s.cadence.phase.val
  · rw [if_pos (by simpa using h), decide_eq_true h, Bool.or_true]
  · rw [if_neg (by simpa using h), decide_eq_false h, Bool.or_false]
    rfl

theorem phaseBegun_eq (s : State) : s.phaseBegun = { s with
    cadence := { s.cadence with phase := s.cadence.phase + 1, tick := 0 }
    bus := { s.bus with summaryDue := (s.bus.summaryDue
      || decide (s.station.state = .active ∧ s.own.val % 8 = (s.cadence.phase + 1).val)) } } :=
  markSummaryDue_eq _

theorem takePhaseBoundary_eq (hrun : s.running = true) (htick : 150 ≤ s.cadence.tick) (hphase : s.cadence.phase ≠ 7) :
    takePhaseBoundary s = (ringUnitWork false s.phaseBegun).recomposeAll := by
  refine if_pos ?_
  rw [State.phaseEnded, Bool.and_eq_true, Bool.and_eq_true, decide_eq_true_eq, decide_eq_true_eq]
  exact ⟨⟨hrun, htick⟩, hphase⟩

/-- Settles O45: the work of the boundary, and what each line sees of it. -/
theorem phaseBoundaryBeginsThePhase : Obligations.PhaseBoundaryBeginsThePhase := by
  unfold Obligations.PhaseBoundaryBeginsThePhase
  intro s hrun htick hphase
  have hbegun := phaseBegun_eq s
  have hwork := lineWork_ringUnitWork false s.phaseBegun
  have hexec : exec .phaseBoundary s = .next ((ringUnitWork false s.phaseBegun).recomposeAll).sendIfIdle :=
    congrArg (fun u : State => Host.Outcome.next u.sendIfIdle) (takePhaseBoundary_eq hrun htick hphase)
  have hline : ∀ m, s.phaseBegun.line m = s.line m := State.line_congr (by rw [hbegun])
  have hactive : s.station.state = .active → ringUnitWork false s.phaseBegun
      = handTripsAll (attemptPlacement (startRingingAll s.phaseBegun)) := fun hst =>
    ringUnitWork_of_active (by rw [hbegun]; exact hst) false
  have hunit : s.phaseBegun.ringUnit = s.ringUnit := by rw [hbegun]
  have htable : s.phaseBegun.table = s.table := by rw [hbegun]
  have hplacement : ∀ m r, (s.line m).ring = some r → s.phaseBegun.placementOf m
      = (chooseOffset s.attemptTotals (s.cadence.phase + 1) r.weight (s.effectiveBudget r.priority) r.code).map
          fun o => (m, o) := fun m r hr => by
    rw [placementOf_of_ring (by rw [hline, hr]), hbegun]
    rfl
  have hnone : ∀ m, (∃ r, (s.line m).ring = some r
      ∧ chooseOffset s.attemptTotals (s.cadence.phase + 1) r.weight (s.effectiveBudget r.priority) r.code = none) →
      s.phaseBegun.placementOf m = none := fun m ⟨r, hr, hchoose⟩ => by
    rw [hplacement m r hr, hchoose]
    rfl
  refine ⟨_, hexec, ?_, ?_, ?_, ?_, ?_, fun l hl hq => ?_, fun hst => ?_, fun hst l r hl hr hq htrip => ?_,
    fun hst hno => ⟨fun h => ?_, fun front back m r o hclaim hreleases hqueue hfront hm hr ho => ?_⟩⟩
  · rw [State.recomposeAll_cadence, hwork, hbegun]
  · rw [State.recomposeAll_station, hwork, hbegun]
  · rw [State.recomposeAll_control, hwork, hbegun]
  · rw [State.recomposeAll_table, hwork, hbegun]
  · rw [State.recomposeAll_bus, hwork, hbegun]
  · rw [State.line_recomposeAll]
    by_cases hst : s.station.state = .active
    · rw [hactive hst, ← hline l]
      exact afterCounting_outside (by rw [hline, hl]) (by rw [hunit]; exact hq)
    · rw [ringUnitWork_of_not_active (by rw [hbegun]; exact hst), hline]
      exact .refl _
  · have hidle : ringUnitWork false s.phaseBegun = s.phaseBegun :=
      ringUnitWork_of_not_active (by rw [hbegun, hst]; exact nofun) false
    have hquiet : s.phaseBegun = { s with cadence := { s.cadence with phase := s.cadence.phase + 1, tick := 0 } } := by
      rw [hbegun, decide_eq_false (by rw [hst]; exact fun h => nomatch h.1), Bool.or_false]
    rw [hidle, hquiet]
    rfl
  · have harmed := afterCounting_armed (s := s.phaseBegun) (l := l) (r := r) (by rw [hline, hl]) (by rw [hline, hr])
      (by rw [hunit]; exact hq) (by rw [hline, hbegun]; exact htrip)
    have hcadence : s.phaseBegun.cadence.phase = s.cadence.phase + 1 := by rw [hbegun]
    rw [State.line_recomposeAll, hactive hst]
    obtain ⟨hstate, -, -, -, -, -, hring, -⟩ := harmed.fields
    rw [hstate, hring, hline, hcadence]
    unfold LineRecord.started
    split
    · exact ⟨rfl, hr⟩
    · exact ⟨hl, hr⟩
  · have hno' : ∀ m, (s.phaseBegun.line m).timing.sense ≠ .mk := fun m => by rw [hline]; exact hno m
    rw [State.recomposeAll_ringUnit, State.recomposeAll_table, hactive hst, afterCounting_no_placement hno' ?_,
      (startRingingAll_ring _).1, (startRingingAll_ring _).2]
    · exact ⟨hunit, htable⟩
    · rw [hunit]
      exact h.imp_right fun h => h.imp_right fun h m hm => hnone m (h m hm)
  · have hno' : ∀ m, (s.phaseBegun.line m).timing.sense ≠ .mk := fun m => by rw [hline]; exact hno m
    have hplaced := afterCounting_placement (s := s.phaseBegun) hno' (r := r) (o := o) (by rw [hbegun]; exact hst)
      (by rw [hunit]; exact hclaim) (by rw [hunit]; exact hreleases) (by rw [hunit]; exact hqueue)
      (fun x hx => hnone x (hfront x hx)) (by rw [hline]; exact hr) (by rw [hplacement m r hr, ho]; rfl)
    obtain ⟨hbooks, hrow⟩ := placed_ring m (startRingingAll s.phaseBegun) r o
    rw [State.line_recomposeAll, State.recomposeAll_ringUnit, State.recomposeAll_table, hactive hst, hplaced, hbooks, hrow,
      placed_line_self, (startRingingAll_ring _).1, (startRingingAll_ring _).2, hunit, htable]
    exact ⟨rfl, rfl, by rw [hreleases], fun p => getElem_addLoad ..⟩

end Sys2Proof.Machine
end

section
/-! PROOFS. The cycle start, the own one and one made on a mark (R72, R73, R75, R77, R96, R97, R168). -/

namespace Sys2Proof.Machine

variable {s t u : State} {l m : Line}

/-! ### The ageing of the peer rows (R96, R97) -/

/-- The PEER LOST entry of a row (R97). -/
def State.peerLostEntry (s : State) (k : Fin 15) : ReportEntry :=
  newReport .peerLost (stationNumber s.own) [octet (k.val + 1)]

theorem peerLostEntries_eq (s : State) :
    s.peerLostEntries = ((List.finRange 15).filter fun k => s.table.peers[k].lostByAgeing).map s.peerLostEntry := by
  unfold State.peerLostEntries
  refine congrArg (List.map s.peerLostEntry) (List.filter_congr fun k _ => ?_)
  unfold PeerRow.lostByAgeing
  congr 1
  exact decide_eq_decide.2 (by omega)

/-- What the ageing of some rows does. -/
structure Aged (ks : List (Fin 15)) (s t : State) : Prop where
  eq : t = { s with lines := t.lines, reports := t.reports, table := { s.table with peers := t.table.peers } }
  lines : ∀ m, SameButResync (s.line m) (t.line m)
  peers : ∀ k : Fin 15, t.table.peers[k] = if k ∈ ks then s.table.peers[k].aged else s.table.peers[k]
  reports : t.reports = s.reportsAfter ((ks.filter fun k => s.table.peers[k].lostByAgeing).map s.peerLostEntry)

theorem Aged.own {ks : List (Fin 15)} (h : Aged ks s t) : t.own = s.own := by
  rw [h.eq]
  rfl

theorem aged_nil (s : State) : Aged [] s s := ⟨rfl, fun _ => .refl _, fun _ => rfl, rfl⟩

theorem aged_ageRow (k : Fin 15) (s : State) : Aged [k] s (ageRow k s) := by
  have hpeers : ∀ i : Fin 15, (s.table.peers.set k s.table.peers[k].aged)[i]
      = if i ∈ [k] then s.table.peers[i].aged else s.table.peers[i] := fun i => by
    by_cases hi : i = k
    · subst hi
      simp
    · have hval : (k : Nat) ≠ i := fun h => hi (Fin.ext h.symm)
      simp [hi, Vector.getElem_set_ne _ _ hval]
  have hage : ageRow k s = if s.table.peers[k].lostByAgeing then queueStationReport .peerLost [octet (rowStation k)]
      { s with table := { s.table with peers := s.table.peers.set k s.table.peers[k].aged } }
      else { s with table := { s.table with peers := s.table.peers.set k s.table.peers[k].aged } } := rfl
  rw [hage]
  cases hlost : s.table.peers[k].lostByAgeing with
  | false =>
    refine ⟨rfl, fun _ => .refl _, hpeers, ?_⟩
    rw [List.filter_cons_of_neg (p := fun i : Fin 15 => s.table.peers[i].lostByAgeing) (by rw [hlost]; exact Bool.false_ne_true)]
    rfl
  | true =>
    have honly := onlyReports_queueStationReport .peerLost [octet (rowStation k)]
      { s with table := { s.table with peers := s.table.peers.set k s.table.peers[k].aged } }
    rw [if_pos rfl]
    refine ⟨by rw [honly.eq], honly.lines, fun i => by rw [honly.eq]; exact hpeers i, ?_⟩
    rw [List.filter_cons_of_pos (p := fun i : Fin 15 => s.table.peers[i].lostByAgeing) hlost]
    exact queueReport_reports_congr (s := s)
      (t := { s with table := { s.table with peers := s.table.peers.set k s.table.peers[k].aged } }) rfl _

theorem Aged.trans {k : Fin 15} {ks : List (Fin 15)} (h : Aged [k] s t) (g : Aged ks t u) (hk : k ∉ ks) :
    Aged (k :: ks) s u := by
  have hrow : ∀ i ∈ ks, t.table.peers[i] = s.table.peers[i] := fun i hi => by
    rw [h.peers, if_neg]
    rw [List.mem_singleton]
    rintro rfl
    exact hk hi
  refine ⟨by rw [g.eq, h.eq], fun m => (h.lines m).trans (g.lines m), fun i => ?_, ?_⟩
  · rw [g.peers]
    by_cases hi : i ∈ ks
    · rw [if_pos hi, if_pos (List.mem_cons_of_mem _ hi), hrow i hi]
    · rw [if_neg hi, h.peers]
      simp [hi]
  · have hfilter : ks.filter (fun i => t.table.peers[i].lostByAgeing) = ks.filter fun i => s.table.peers[i].lostByAgeing :=
      List.filter_congr fun i hi => by rw [hrow i hi]
    have hentry : t.peerLostEntry = s.peerLostEntry := by
      funext i
      rw [State.peerLostEntry, h.own]
      rfl
    rw [g.reports, hfilter, hentry, reportsAfter_then s _ _ h.reports, ← List.map_append, ← List.filter_append]
    rfl

theorem aged_foldl {ks : List (Fin 15)} (hks : ks.Nodup) (s : State) : Aged ks s (ks.foldl (fun s k => ageRow k s) s) := by
  induction ks generalizing s with
  | nil => exact aged_nil s
  | cons k ks ih =>
    obtain ⟨hk, hnodup⟩ := List.nodup_cons.1 hks
    exact (aged_ageRow k s).trans (ih hnodup _) hk

theorem aged_ageRows (s : State) : Aged (List.finRange 15) s (ageRows s) := aged_foldl (List.nodup_finRange 15) s

/-- The row after a cycle start, as the manual gives it (R96). -/
theorem aged_eq (r : PeerRow) : r.aged = if r.present = false then r
    else if r.age < 2 then { r with age := r.age + 1 } else ⟨Vector.replicate 8 0, false, 0⟩ := by
  unfold PeerRow.aged
  cases r.present with
  | false => rfl
  | true =>
    by_cases h : r.age < 2
    · simp [h, show ¬3 ≤ r.age + 1 by omega]
    · simp [h, show 3 ≤ r.age + 1 by omega, PeerRow.absent]

/-! ### The state at the beginning of a cycle -/

/-- The state at the beginning of a cycle, before the work at its boundary (R72, R75, R96, R168). -/
def State.cycleBegun (drive : Bool) (s : State) : State :=
  clearCorrectionMarks (ageRows (endListen { s with cadence := { s.cadence with
    phase := 0, tick := 0, sinceStart := 0, markDrive := drive || s.cadence.markDrive } }))

theorem endListen_eq (s : State) : endListen s = { s with
    cadence := { s.cadence with listen := false }
    station := { s.station with state := if s.cadence.listen then .active else s.station.state } } := by
  unfold endListen
  cases hlisten : s.cadence.listen with
  | true => rfl
  | false =>
    rw [if_neg Bool.false_ne_true, if_neg Bool.false_ne_true, ← hlisten]

theorem clearCorrectionMarks_line (s : State) (l : Line) :
    (clearCorrectionMarks s).line l = { s.line l with correctionMark := false } := by
  simp [State.line, clearCorrectionMarks]

/-- What the beginning of a cycle does. -/
structure CycleBegun (drive : Bool) (s u : State) : Prop where
  eq : u = { s with
    cadence := { s.cadence with
      phase := 0, tick := 0, sinceStart := 0, markDrive := drive || s.cadence.markDrive, listen := false }
    station := { s.station with state := if s.cadence.listen then .active else s.station.state }
    bus := { s.bus with summaryDue := (s.bus.summaryDue
      || decide ((if s.cadence.listen then .active else s.station.state) = .active ∧ s.own.val % 8 = 0)) }
    lines := u.lines
    reports := u.reports
    table := { s.table with peers := u.table.peers } }
  lines : ∀ m, SameButResync { s.line m with correctionMark := false } (u.line m)
  peers : ∀ k : Fin 15, u.table.peers[k] = s.table.peers[k].aged
  reports : u.reports = s.reportsAfter s.peerLostEntries

theorem cycleBegun_spec (drive : Bool) (s : State) : CycleBegun drive s (markSummaryDue (s.cycleBegun drive)) := by
  have hlisten := endListen_eq { s with cadence := { s.cadence with
    phase := 0, tick := 0, sinceStart := 0, markDrive := drive || s.cadence.markDrive } }
  have haged := aged_ageRows (endListen { s with cadence := { s.cadence with
    phase := 0, tick := 0, sinceStart := 0, markDrive := drive || s.cadence.markDrive } })
  rw [markSummaryDue_eq, State.cycleBegun]
  generalize ageRows (endListen { s with cadence := { s.cadence with
    phase := 0, tick := 0, sinceStart := 0, markDrive := drive || s.cadence.markDrive } }) = a at haged
  rw [hlisten] at haged
  have hown : (clearCorrectionMarks a).own = s.own := haged.own
  refine ⟨?_, fun m => ?_, fun k => ?_, ?_⟩
  · rw [hown]
    show State.setBus (clearCorrectionMarks a) _ = _
    unfold clearCorrectionMarks
    rw [haged.eq]
    rfl
  · have hline : ((clearCorrectionMarks a).line m) = { a.line m with correctionMark := false } := clearCorrectionMarks_line a m
    show SameButResync _ ((clearCorrectionMarks a).line m)
    rw [hline, haged.lines m]
    rfl
  · exact (haged.peers k).trans (if_pos (List.mem_finRange k))
  · refine haged.reports.trans (Eq.trans ?_ (congrArg s.reportsAfter (peerLostEntries_eq s).symm))
    exact reportsAfter_congr (s := s) (t := { s with
      cadence := { s.cadence with
        phase := 0, tick := 0, sinceStart := 0, markDrive := drive || s.cadence.markDrive, listen := false }
      station := { s.station with state := if s.cadence.listen then .active else s.station.state } }) rfl _

theorem beginCycle_eq (drive : Bool) (h : s.control.warning.asserted = false) :
    beginCycle drive s = (ringUnitWork true (markSummaryDue (s.cycleBegun drive))).recomposeAll := by
  have hcontrol : (ringUnitWork true (markSummaryDue (s.cycleBegun drive))).recomposeAll.control = s.control := by
    rw [State.recomposeAll_control, lineWork_ringUnitWork true, (cycleBegun_spec drive s).eq]
  have hbegin : beginCycle drive s
      = heedWarning (ringUnitWork true (markSummaryDue (s.cycleBegun drive))).recomposeAll := rfl
  rw [hbegin]
  exact heedWarning_of_normal (by rw [hcontrol, h])

end Sys2Proof.Machine
end

section
/-! PROOFS. CYCLE_START and an accepted MARK (R72, R73, R75, R77, R96, R97, R168). -/

namespace Sys2Proof.Machine

variable {s t u : State} {l m : Line}

/-! ### The correction marks stand in the work at a boundary -/

/-- Every line keeps its correction mark. -/
structure CorrectionsStand (s t : State) : Prop where
  stand : ∀ m, (t.line m).correctionMark = (s.line m).correctionMark

theorem CorrectionsStand.refl (s : State) : CorrectionsStand s s := ⟨fun _ => rfl⟩

theorem CorrectionsStand.trans (h : CorrectionsStand s t) (k : CorrectionsStand t u) : CorrectionsStand s u :=
  ⟨fun m => (k.stand m).trans (h.stand m)⟩

theorem OnlyReports.correctionsStand (h : OnlyReports s t) : CorrectionsStand s t :=
  ⟨fun m => by rw [h.lines m]⟩

theorem correctionsStand_setLine {r : LineRecord} (h : r.correctionMark = (s.line l).correctionMark) :
    CorrectionsStand s (s.setLine l r) := by
  refine ⟨fun m => ?_⟩
  rw [State.line_setLine]
  split
  · rename_i hm
    rw [h, hm]
  · rfl

theorem correctionsStand_setRing (l : Line) (c : RingContext) (s : State) : CorrectionsStand s (s.setRing l c) :=
  correctionsStand_setLine rfl

theorem correctionsStand_setBlockPending (l : Line) (b : Bool) (s : State) : CorrectionsStand s (s.setBlockPending l b) :=
  correctionsStand_setLine rfl

theorem correctionsStand_transition (l : Line) (new : LineState) {report : State → State}
    (hr : ∀ v, OnlyReports v (report v)) (s : State) : CorrectionsStand s (transition l new report s) := by
  have henter : CorrectionsStand s (enterState l new s) := by
    refine ⟨fun m => ?_⟩
    rw [enterState_line]
    split
    · rename_i hm
      rw [hm]
      rfl
    · rfl
  exact (henter.trans (hr _).correctionsStand).trans (onlyReports_traceChange ..).correctionsStand

theorem correctionsStand_handSeizeConfirmed (l : Line) (s : State) : CorrectionsStand s (handSeizeConfirmed l s) := by
  unfold handSeizeConfirmed
  split
  · split
    · exact correctionsStand_transition _ _ (fun _ => onlyReports_queueLine ..) _
    iterate 3 exact correctionsStand_transition _ _ (fun _ => onlyReports_queueLine ..) _
    · exact .refl s
  · exact .refl s

theorem correctionsStand_handTripConfirmed (l : Line) (s : State) : CorrectionsStand s (handTripConfirmed l s) := by
  unfold handTripConfirmed
  split
  · exact correctionsStand_transition _ _ (fun _ => onlyReports_queueLine ..) _
  · exact .refl s

theorem correctionsStand_enterIdle (l : Line) {report : State → State} (hr : ∀ v, OnlyReports v (report v)) (s : State) :
    CorrectionsStand s (enterIdle l report s) := by
  have hidle := correctionsStand_transition l .idle hr s
  unfold enterIdle
  dsimp only
  split
  · exact (hidle.trans (correctionsStand_setBlockPending l _ _)).trans
      (correctionsStand_transition _ _ (fun _ => onlyReports_queueLine ..) _)
  split
  · exact (hidle.trans (correctionsStand_transition _ _ onlyReports_id _)).trans (correctionsStand_handSeizeConfirmed ..)
  · exact hidle

theorem correctionsStand_countRingCycle (l : Line) (s : State) : CorrectionsStand s (countRingCycle l s) := by
  unfold countRingCycle
  split
  · dsimp only
    split
    · exact (correctionsStand_setRing l _ s).trans (correctionsStand_enterIdle l (fun _ => onlyReports_queueLine ..) _)
    · exact correctionsStand_setRing l _ s
  · exact .refl s

theorem correctionsStand_countWait (l : Line) (s : State) : CorrectionsStand s (countWait l s) := by
  unfold countWait
  split
  · split
    · dsimp only
      split
      · exact (correctionsStand_setRing l _ s).trans (onlyReports_queueLine ..).correctionsStand
      · exact correctionsStand_setRing l _ s
    · exact .refl s
  · exact .refl s

theorem correctionsStand_startRinging (l : Line) (s : State) : CorrectionsStand s (startRinging l s) := by
  rcases startRinging_eq_or l s with h | ⟨-, h⟩
  · rw [h]; exact .refl s
  · rw [h]; exact correctionsStand_transition _ _ onlyReports_id _

theorem correctionsStand_attemptPlacement (s : State) : CorrectionsStand s (attemptPlacement s) := by
  unfold attemptPlacement
  split
  · split
    · rename_i m o hfound
      cases hr : (s.line m).ring with
      | none => rw [place_of_no_ring hr]; exact .refl s
      | some c =>
        rw [place_of_ring hr]
        have hplaced : CorrectionsStand s (s.placed m c o) := by
          refine ⟨fun x => ?_⟩
          rw [placed_line]
          split
          · rename_i hx
            rw [hx]
            rfl
          · rfl
        exact hplaced.trans (correctionsStand_handSeizeConfirmed ..)
    · exact .refl s
  · exact .refl s

theorem correctionsStand_foldl {act : Line → State → State} (h : ∀ l v, CorrectionsStand v (act l v)) (s : State) :
    CorrectionsStand s ((List.finRange 16).foldl (fun s l => act l s) s) :=
  foldl_keeps (CorrectionsStand s) _ (fun v l hv => hv.trans (h l v)) _ (.refl s)

theorem correctionsStand_ringUnitWork (cycle : Bool) (s : State) : CorrectionsStand s (ringUnitWork cycle s) := by
  by_cases h : s.station.state = .active
  · rw [ringUnitWork_of_active h]
    have hcount : CorrectionsStand s (if cycle then countCycles s else s) := by
      cases cycle
      · exact .refl s
      · exact correctionsStand_foldl
          (fun l v => (correctionsStand_countRingCycle l v).trans (correctionsStand_countWait l _)) s
    exact ((hcount.trans (correctionsStand_foldl correctionsStand_startRinging _)).trans
      (correctionsStand_attemptPlacement _)).trans (correctionsStand_foldl correctionsStand_handTripConfirmed _)
  · rw [ringUnitWork_of_not_active h]
    exact .refl s

/-! ### The work at a cycle start, from outside the ring path -/

/-- A line of no ring state, and not in the queue, at a boundary (R128). -/
theorem ringUnitWork_outside (cycle : Bool) (hl : (s.line l).state.isRing = false) (hq : l ∉ s.ringUnit.queue) :
    SameButResync (s.line l) ((ringUnitWork cycle s).line l) := by
  by_cases hst : s.station.state = .active
  · rw [ringUnitWork_of_active hst]
    cases cycle with
    | false => exact afterCounting_outside hl hq
    | true =>
      obtain ⟨u, hu, hv⟩ := countCycles_at l s
      have hout : (u.line l).state.isRing = false := by rw [hu.line.fields.1, hl]
      have hcycle : countRingCycle l u = u :=
        countRingCycle_of_not_ringing (.inl fun h => by rw [h] at hout; cases hout)
      have hwait : countWait l u = u := countWait_of_not_queued (by rw [hu.unit.queue]; exact hq)
      rw [hcycle, hwait] at hv
      have hcounted : SameButResync (s.line l) ((countCycles s).line l) := hu.line.trans hv.line
      rw [if_pos rfl]
      exact hcounted.trans (afterCounting_outside (by rw [hcounted.fields.1, hl])
        (by rw [(unitGrows_countCycles s).queue]; exact hq))
  · rw [ringUnitWork_of_not_active hst]
    exact .refl _

/-- With no line in a ring state and none queued there is no work. -/
theorem ringUnitWork_of_no_ring (cycle : Bool) (hl : ∀ l, (s.line l).state.isRing = false) (hq : s.ringUnit.queue = []) :
    ringUnitWork cycle s = s := by
  by_cases hst : s.station.state = .active
  · have hne : ∀ (l : Line) (x : LineState), x.isRing = true → (s.line l).state ≠ x := fun l x hx h => by
      rw [← h, hl] at hx
      cases hx
    have hcycles : countCycles s = s := by
      refine foldl_lines_id (act := fun l v => countWait l (countRingCycle l v)) fun l => ?_
      have hwait : countWait l s = s := countWait_of_not_queued (by rw [hq]; exact List.not_mem_nil)
      have hcycle : countRingCycle l s = s := countRingCycle_of_not_ringing (.inl (hne l .ringing rfl))
      rw [hcycle, hwait]
    have hcount : (if cycle then countCycles s else s) = s := by rw [hcycles, ite_self]
    have hstart : startRingingAll s = s := foldl_lines_id fun l => startRinging_of_not (.inl (hne l .ringArmed rfl))
    have hattempt : attemptPlacement s = s := attemptPlacement_of_none (by rw [findPlacement_eq_findSome?, hq]; rfl)
    have htrips : handTripsAll s = s :=
      foldl_lines_id fun l => handTripConfirmed_of_not_due (tripDue_eq_false fun h => absurd h (hne l .ringing rfl))
    rw [ringUnitWork_of_active hst, hcount, hstart, hattempt, htrips]
  · exact ringUnitWork_of_not_active hst cycle

/-! ### The two rows -/

/-- The two rows that make a cycle start. -/
def State.CycleStarts (s : State) (i : Instr) : Prop :=
  i = .cycleStart ∧ 150 ≤ s.cadence.tick ∧ s.cadence.phase = 7
    ∨ i = .mark ∧ s.cadence.markSeen = true ∧ s.cadence.sinceStart = 100

/-- The station as a cycle start finds it: a mark that is accepted is no longer seen (R73). -/
def State.markTaken (s : State) (i : Instr) : State :=
  { s with cadence := { s.cadence with markSeen := if i = .mark then false else s.cadence.markSeen } }

theorem exec_cycle {i : Instr} (hrun : s.running = true) (hw : s.control.warning.asserted = false) (hi : s.CycleStarts i) :
    exec i s = .next ((ringUnitWork true
      (markSummaryDue ((s.markTaken i).cycleBegun (decide (i = .cycleStart))))).recomposeAll).sendIfIdle := by
  have hbegin := fun drive => beginCycle_eq (s := s.markTaken i) drive hw
  rcases hi with ⟨rfl, htick, hphase⟩ | ⟨rfl, hseen, hsince⟩
  · have htake : takeCycleEnd s = beginCycle true s := by
      refine if_pos ?_
      rw [State.phaseEnded, Bool.and_eq_true, Bool.and_eq_true, decide_eq_true_eq, decide_eq_true_eq]
      exact ⟨⟨hrun, htick⟩, hphase⟩
    exact congrArg (fun u : State => Host.Outcome.next u.sendIfIdle) (htake.trans (hbegin true))
  · have htake : takeMark s = beginCycle false (s.markTaken .mark) := by
      have hdue : (s.running && s.cadence.markSeen) = true := by rw [hrun, hseen]; rfl
      exact (if_pos hdue).trans (if_pos hsince)
    exact congrArg (fun u : State => Host.Outcome.next u.sendIfIdle) (htake.trans (hbegin false))

theorem exec_mark_ignored (hrun : s.running = true) (hseen : s.cadence.markSeen = true) (h : s.cadence.sinceStart ≠ 100) :
    exec .mark s = .next ({ s with cadence := { s.cadence with markSeen := false } } : State).sendIfIdle := by
  have htake : takeMark s = { s with cadence := { s.cadence with markSeen := false } } := by
    have hdue : (s.running && s.cadence.markSeen) = true := by rw [hrun, hseen]; rfl
    exact (if_pos hdue).trans (if_neg h)
  exact congrArg (fun u : State => Host.Outcome.next u.sendIfIdle) htake

/-- Settles O46: the beginning of the cycle, and the work at its boundary. -/
theorem cycleStarts : Obligations.CycleStarts := by
  unfold Obligations.CycleStarts
  refine ⟨fun s i hrun hw hi => ?_, fun s hrun hsince hseen => exec_mark_ignored hrun hseen hsince⟩
  have hexec := exec_cycle hrun hw hi
  have hspec := cycleBegun_spec (decide (i = .cycleStart)) (s.markTaken i)
  generalize markSummaryDue ((s.markTaken i).cycleBegun (decide (i = .cycleStart))) = u at hexec hspec
  have hwork := lineWork_ringUnitWork true u
  have hcadence : ((ringUnitWork true u).recomposeAll).cadence = u.cadence := by rw [State.recomposeAll_cadence, hwork]
  have hstation : ((ringUnitWork true u).recomposeAll).station = u.station := by rw [State.recomposeAll_station, hwork]
  have hlisten : u.cadence = { (s.markTaken i).cadence with
      phase := 0, tick := 0, sinceStart := 0, markDrive := decide (i = .cycleStart) || s.cadence.markDrive
      listen := false } := by rw [hspec.eq]; rfl
  have hbegun : u.station = { s.station with state := if s.cadence.listen then .active else s.station.state } := by
    rw [hspec.eq]; rfl
  have hline : ∀ m, SameButResync { s.line m with correctionMark := false } (u.line m) := hspec.lines
  have hunit : u.ringUnit = s.ringUnit := by rw [hspec.eq]; rfl
  refine ⟨_, hexec, ?_, ?_, ?_, ?_, fun hi => ?_, fun hi => ?_, ?_, ?_, ?_, fun l => ?_, fun l hl hq => ?_, fun hl hq => ?_, ?_,
    fun k => ?_⟩
  · rw [hcadence, hlisten]
  · rw [hcadence, hlisten]
  · rw [hcadence, hlisten]
  · rw [hcadence, hlisten]
  · rw [hcadence, hlisten, hi]; rfl
  · rw [hcadence, hlisten, hi]; rfl
  · rw [hstation, hbegun]
  · rw [State.recomposeAll_control, hwork, hspec.eq]; rfl
  · rw [hstation, hbegun, State.recomposeAll_bus, hwork, hspec.eq]
    rfl
  · rw [State.line_recomposeAll, (correctionsStand_ringUnitWork true u).stand l, (hline l).fields.2.2.2.2.2.2.2]
  · rw [State.line_recomposeAll]
    exact (hline l).trans (ringUnitWork_outside true (by rw [(hline l).fields.1]; exact hl) (by rw [hunit]; exact hq))
  · rw [ringUnitWork_of_no_ring true (fun l => by rw [(hline l).fields.1]; exact hl l) (by rw [hunit]; exact hq)]
    exact hspec.reports.trans (reportsAfter_congr (s := s) (t := s.markTaken i) rfl _)
  · rw [State.recomposeAll_table, hwork, hspec.eq]; rfl
  · rw [State.recomposeAll_table, hwork]
    exact (hspec.peers k).trans (aged_eq _)

end Sys2Proof.Machine
end

section
/-! PROOFS. The counting at a cycle start: ring cycles, waits, and what follows from them (R97, R123, R128, R130, R131). -/

namespace Sys2Proof.Machine

variable {s t u v : State} {l m : Line} {r : RingContext}

/-! ### One line at work -/

/-- The work at a cycle start where one line alone is in a ring state, with no attempt that places it. -/
theorem ringUnitWork_one (hst : s.station.state = .active) (hothers : ∀ m, m ≠ l → (s.line m).state.isRing = false)
    (hqueue : ∀ m ∈ s.ringUnit.queue, m = l) (hv : countWait l (countRingCycle l s) = v)
    (harmed : (v.line l).state ≠ .ringArmed) (htrip : (v.line l).state = .ringing → (v.line l).timing.sense ≠ .mk)
    (hattempt : attemptPlacement v = v) : ringUnitWork true s = v := by
  have hmove : LineMove l s v := hv ▸ (countRingCycle_move l s).1.trans (countWait_move l _).1
  have hunit : UnitGrows s v := hv ▸ (countRingCycle_move l s).2.trans (.of_eq (countWait_move l _).2)
  have houtside : ∀ m, m ≠ l → (v.line m).state.isRing = false := fun m hm => by
    rw [(hmove.lines m hm).fields.1]
    exact hothers m hm
  have hnot : ∀ (w : State) (x : LineState), x.isRing = true → (∀ m, m ≠ l → (w.line m).state.isRing = false) →
      ∀ m, m ≠ l → (w.line m).state ≠ x := fun w x hx hw m hm h => by
    have hm' := hw m hm
    rw [h, hx] at hm'
    cases hm'
  have hidle : ∀ w : State, (∀ m, m ≠ l → (w.line m).state.isRing = false) → (∀ m ∈ w.ringUnit.queue, m = l) →
      ∀ m, m ≠ l → countWait m (countRingCycle m w) = w := fun w hw hq m hm => by
    have hcycle : countRingCycle m w = w := countRingCycle_of_not_ringing (.inl (hnot w .ringing rfl hw m hm))
    have hwait : countWait m w = w := countWait_of_not_queued fun hmem => hm (hq m hmem)
    rw [hcycle, hwait]
  have hcount : countCycles s = v := by
    refine (foldl_lines_one (act := fun l s => countWait l (countRingCycle l s)) (l := l) (hidle s hothers hqueue) ?_).trans hv
    rw [hv]
    exact hidle v houtside (by rw [hunit.queue]; exact hqueue)
  have hstart : startRingingAll v = v := foldl_lines_id fun m => startRinging_of_not (.inl (by
    by_cases hm : m = l
    · rw [hm]; exact harmed
    · exact hnot v .ringArmed rfl houtside m hm))
  have htrips : handTripsAll v = v := foldl_lines_id fun m => handTripConfirmed_of_not_due (tripDue_eq_false fun h hs => by
    by_cases hm : m = l
    · rw [hm] at h hs
      exact absurd hs (htrip h)
    · exact absurd h (hnot v .ringing rfl houtside m hm))
  rw [ringUnitWork_of_active hst, if_pos rfl, hcount, hstart, hattempt, htrips]

theorem attemptPlacement_of_empty (h : s.ringUnit.queue = []) : attemptPlacement s = s :=
  attemptPlacement_of_none (by rw [findPlacement_eq_findSome?, h]; rfl)

/-! ### A queued line in an attempt -/

theorem SameButResync.claiming {a b : LineRecord} (h : SameButResync a b) (c : RingContext) :
    SameButResync (a.claiming c) (b.claiming c) := by
  rw [h]
  rfl

theorem attemptPlacement_queued (hr : (s.line l).ring = some r) (hsense : (s.line l).timing.sense ≠ .mk) :
    SameButResync (s.line l) ((attemptPlacement s).line l)
      ∨ s.ringUnit.claim = none
        ∧ ∃ o, SameButResync ((s.line l).claiming { r with offset := o }) ((attemptPlacement s).line l) := by
  cases hmay : s.mayAttempt with
  | false => rw [attemptPlacement_of_not hmay]; exact .inl (.refl _)
  | true =>
    cases hfind : s.findPlacement with
    | none => rw [attemptPlacement_of_none hfind]; exact .inl (.refl _)
    | some found =>
      obtain ⟨m, o⟩ := found
      rw [attemptPlacement_of_some hmay hfind]
      by_cases hm : m = l
      · subst hm
        refine .inr ⟨(mayAttempt_iff.1 hmay).2.1, o, ?_⟩
        have hself := placed_line_self m s r o
        have hheld : (s.placed m r o).seizeHeld m = false := (placed_seizeHeld m s r o).trans (seizeHeld_of_sense hsense)
        rw [place_of_ring hr, handSeizeConfirmed_of_not_held hheld, hself]
        exact .refl _
      · refine .inl ?_
        cases hc : (s.line m).ring with
        | none => rw [place_of_no_ring hc]; exact .refl _
        | some c =>
          rw [place_of_ring hc]
          have hother := (linePath_handSeizeConfirmed m (s.placed m c o)).lineMove.lines l (Ne.symm hm)
          rwa [placed_line_ne _ _ _ _ (Ne.symm hm)] at hother

/-- A queued line without a make, after the counting (R111, R115). -/
theorem afterCounting_queued (hst : (s.line l).state = .ringQueued) (hr : (s.line l).ring = some r)
    (hsense : (s.line l).timing.sense ≠ .mk) :
    SameButResync (s.line l) ((handTripsAll (attemptPlacement (startRingingAll s))).line l)
      ∨ s.ringUnit.claim = none ∧ ∃ o, SameButResync ((s.line l).claiming { r with offset := o })
          ((handTripsAll (attemptPlacement (startRingingAll s))).line l) := by
  obtain ⟨u, hu, hv⟩ := startRingingAll_at l s
  have hstart : startRinging l u = u := startRinging_of_not (.inl (by rw [hu.line.fields.1, hst]; exact nofun))
  rw [hstart] at hv
  have hstarted : SameButResync (s.line l) ((startRingingAll s).line l) := hu.line.trans hv.line
  obtain ⟨-, -, -, -, -, htiming, hring, -⟩ := hstarted.fields
  have hattempt := attemptPlacement_queued (s := startRingingAll s) (l := l) (r := r) (by rw [hring, hr])
    (by rw [htiming]; exact hsense)
  rw [(startRingingAll_ring s).1] at hattempt
  have htrips : ∀ x : LineRecord, x.state ≠ .ringing → SameButResync x ((attemptPlacement (startRingingAll s)).line l) →
      SameButResync x ((handTripsAll (attemptPlacement (startRingingAll s))).line l) := fun x hx h => by
    obtain ⟨w, hw, ht⟩ := handTripsAll_at l (attemptPlacement (startRingingAll s))
    have hw' := h.trans hw.line
    have hnot : handTripConfirmed l w = w := handTripConfirmed_of_not_due (tripDue_eq_false fun hringing => by
      rw [hw'.fields.1] at hringing
      exact absurd hringing hx)
    rw [hnot] at ht
    exact hw'.trans ht.line
  rcases hattempt with hstill | ⟨hclaim, o, hplaced⟩
  · exact .inl (htrips _ (by rw [hst]; exact nofun) (hstarted.trans hstill))
  · have hclaiming := (hstarted.claiming { r with offset := o }).trans hplaced
    exact .inr ⟨hclaim, o, htrips _ (fun h => nomatch (show LineState.ringClaiming = .ringing from h)) hclaiming⟩

/-! ### What the counting does to a line -/

theorem countRingCycle_ended (hst : (s.line l).state = .ringing) (hr : (s.line l).ring = some r)
    (hsense : (s.line l).timing.sense ≠ .mk) (h0 : r.limit ≠ 0) (hlim : min (r.cycles + 1) 15 = r.limit) :
    Told l (s.setRing l { r with cycles := min (r.cycles + 1) 15 })
      (if (s.line l).blockPending then (s.line l).outOfUse .blocked else (s.line l).inState .idle .none none)
      (s.lineEntry l .noAnswer [] :: s.traceEntries l .ringing .idle
        ++ if (s.line l).blockPending then s.lineEntry l .blocked [] :: s.traceEntries l .idle .blocked else [])
      (countRingCycle l s) := by
  have hself := State.line_setLine_self s l { s.line l with ring := some { r with cycles := min (r.cycles + 1) 15 } }
  have hreporting := Reporting.line (l := l) .noAnswer []
  have htrace : ∀ a b, (s.setRing l { r with cycles := min (r.cycles + 1) 15 }).traceEntries l a b
      = s.traceEntries l a b := fun a b =>
    traceEntries_congr (s := s) (t := s.setRing l { r with cycles := min (r.cycles + 1) 15 }) l a b
      (by rw [State.setRing_eq, hself]) rfl
  have hstate : ((s.setRing l { r with cycles := min (r.cycles + 1) 15 }).line l).state = .ringing :=
    (congrArg LineRecord.state hself).trans hst
  have hblock : ((s.setRing l { r with cycles := min (r.cycles + 1) 15 }).line l).blockPending = (s.line l).blockPending := by
    rw [State.setRing_eq, hself]
  have hmake : ((s.setRing l { r with cycles := min (r.cycles + 1) 15 }).line l).timing.sense ≠ .mk := by
    rw [State.setRing_eq, hself]
    exact hsense
  rw [countRingCycle_of_limit hst hr h0 hlim]
  cases hb : (s.line l).blockPending with
  | true =>
    have htold := told_enterIdle_blockPending hreporting _ (hblock.trans hb)
    rw [hstate, htrace, htrace, State.setRing_eq, hself] at htold
    exact htold
  | false =>
    have htold := told_enterIdle_idle hreporting _ (hblock.trans hb) hmake
    rw [hstate, htrace, State.setRing_eq, hself] at htold
    simp only [Bool.false_eq_true, if_false, List.append_nil]
    exact htold

end Sys2Proof.Machine
end

section
/-! PROOFS. What a cycle start does to a ringing and to a queued line (R97, R123, R128, R130, R131). -/

namespace Sys2Proof.Machine

variable {s t u v : State} {l m : Line} {r : RingContext}

theorem SameButResync.withRing {a b : LineRecord} (h : SameButResync a b) (c : Option RingContext) :
    SameButResync { a with ring := c } { b with ring := c } := by
  rw [h]
  rfl

/-- The context of a ringing line after one cycle more (R130). -/
def RingContext.rungOn (r : RingContext) : RingContext := { r with cycles := min (r.cycles + 1) 15 }

/-- The context of a queued line after one wait more (R131). -/
def RingContext.waitedOn (r : RingContext) : RingContext := { r with waits := min (r.waits + 1) 4 }

theorem line_setRing_self (s : State) (l : Line) (c : RingContext) :
    (s.setRing l c).line l = { s.line l with ring := some c } := State.line_setLine_self ..

/-- The counting of a line that is not queued, from what the lines before it have left. -/
theorem countCycles_ringing (hq : l ∉ s.ringUnit.queue) : ∃ u, OthersPass l s u
    ∧ OthersPass l (countRingCycle l u) (countCycles s) := by
  obtain ⟨u, hu, hv⟩ := countCycles_at l s
  have hwait : countWait l (countRingCycle l u) = countRingCycle l u := by
    refine countWait_of_not_queued ?_
    rw [(countRingCycle_move l u).2.queue, hu.unit.queue]
    exact hq
  rw [hwait] at hv
  exact ⟨u, hu, hv⟩

/-! ### A ringing line below its limit -/

section Ringing
variable (hst : s.station.state = .active) (hl : (s.line l).state = .ringing) (hr : (s.line l).ring = some r)
  (hsense : (s.line l).timing.sense ≠ .mk) (hq : l ∉ s.ringUnit.queue)
include hst hl hr hsense

include hq in
theorem ringUnitWork_ringing (hbelow : r.limit = 0 ∨ min (r.cycles + 1) 15 ≠ r.limit) :
    SameButResync { s.line l with ring := some r.rungOn } ((ringUnitWork true s).line l) := by
  obtain ⟨u, hu, hv⟩ := countCycles_ringing hq
  obtain ⟨hstate, -, -, -, -, -, hring, -⟩ := hu.line.fields
  rw [countRingCycle_of_below (hstate.trans hl) (hring.trans hr) hbelow] at hv
  have hline := hv.line
  rw [line_setRing_self] at hline
  have hcounted := (hu.line.withRing (some r.rungOn)).trans hline
  obtain ⟨hcstate, -, -, -, -, hctiming, -⟩ := hcounted.fields
  rw [ringUnitWork_of_active hst, if_pos rfl]
  refine hcounted.trans (afterCounting_still ?_ (fun _ => ?_) ?_)
  · rw [hcstate, hl]
    exact nofun
  · rw [hctiming]
    exact hsense
  · rw [(unitGrows_countCycles s).queue]
    exact hq

theorem ringUnitWork_ringing_alone (hbelow : r.limit = 0 ∨ min (r.cycles + 1) 15 ≠ r.limit)
    (hothers : ∀ m, m ≠ l → (s.line m).state.isRing = false) (hempty : s.ringUnit.queue = []) :
    ringUnitWork true s = s.setRing l r.rungOn := by
  have hcycle : countRingCycle l s = s.setRing l r.rungOn := countRingCycle_of_below hl hr hbelow
  have hwait : countWait l (s.setRing l r.rungOn) = s.setRing l r.rungOn :=
    countWait_of_not_queued (by show l ∉ s.ringUnit.queue; rw [hempty]; exact List.not_mem_nil)
  have hline := line_setRing_self s l r.rungOn
  refine ringUnitWork_one hst hothers (fun m hm => ?_) (by rw [hcycle, hwait]) ?_ (fun _ => ?_)
    (attemptPlacement_of_empty hempty)
  · rw [hempty] at hm
    cases hm
  · rw [hline]
    exact fun h => nomatch hl.symm.trans h
  · rw [hline]
    exact hsense

/-! ### A ringing line at its limit -/

variable (h0 : r.limit ≠ 0) (hlim : min (r.cycles + 1) 15 = r.limit)
include h0 hlim

/-- The record that a no-answer limit leaves (R46, R130). -/
def LineRecord.unanswered (x : LineRecord) : LineRecord :=
  if x.blockPending then x.outOfUse .blocked else x.inState .idle .none none

omit hst hl hr hsense h0 hlim in
theorem unanswered_state (x : LineRecord) : x.unanswered.state = (if x.blockPending then .blocked else .idle)
    ∧ x.unanswered.ring = none := by
  unfold LineRecord.unanswered
  split <;> exact ⟨rfl, rfl⟩

omit hst in
theorem countRingCycle_unanswered : SameButResync (s.line l).unanswered ((countRingCycle l s).line l)
    ∧ (⟨l, r.weight, rotatedSet r.code r.offset⟩ : Release) ∈ (countRingCycle l s).ringUnit.releases := by
  have htold := countRingCycle_ended hl hr hsense h0 hlim
  have hline := line_setRing_self s l r.rungOn
  have hrecord : SameButResync (s.line l).unanswered ((countRingCycle l s).line l) := htold.record
  have hout : ((countRingCycle l s).line l).state.isRing = false := by
    rw [hrecord.fields.1, (unanswered_state _).1]
    split <;> rfl
  have hstate : ((s.setRing l r.rungOn).line l).state = .ringing := by rw [hline]; exact hl
  have hring : ((s.setRing l r.rungOn).line l).ring = some r.rungOn := by rw [hline]
  have hleft := (LinePath.ringLeft (s := s.setRing l r.rungOn) htold.path (by rw [hstate]; rfl)).leaves hout
  rw [hstate, hring] at hleft
  refine ⟨hrecord, ?_⟩
  rw [hleft.1]
  exact List.mem_append_right _ (List.mem_singleton.2 rfl)

include hq in
theorem ringUnitWork_unanswered : SameButResync (s.line l).unanswered ((ringUnitWork true s).line l)
    ∧ (⟨l, r.weight, rotatedSet r.code r.offset⟩ : Release) ∈ (ringUnitWork true s).ringUnit.releases := by
  obtain ⟨u, hu, hv⟩ := countCycles_ringing hq
  obtain ⟨hstate, -, -, hblock, -, htiming, hring, -⟩ := hu.line.fields
  obtain ⟨hrecord, hrelease⟩ := countRingCycle_unanswered (s := u) (hstate.trans hl) (hring.trans hr)
    (by rw [htiming]; exact hsense) h0 hlim
  have hsame : SameButResync (s.line l).unanswered (u.line l).unanswered := by
    rw [hu.line]
    unfold LineRecord.unanswered
    split <;> rfl
  have hcounted := (hsame.trans hrecord).trans hv.line
  have hstates : ((countCycles s).line l).state.isRing = false := by
    rw [hcounted.fields.1, (unanswered_state _).1]
    split <;> rfl
  rw [ringUnitWork_of_active hst, if_pos rfl]
  refine ⟨hcounted.trans (afterCounting_outside hstates (by rw [(unitGrows_countCycles s).queue]; exact hq)), ?_⟩
  refine (unitGrows_handTripsAll _).releases ?_
  rw [(attempted_attemptPlacement _).releases, (startRingingAll_ring _).1]
  exact hv.unit.releases hrelease

theorem ringUnitWork_unanswered_alone (hothers : ∀ m, m ≠ l → (s.line m).state.isRing = false)
    (hempty : s.ringUnit.queue = []) : (ringUnitWork true s).reports
      = s.reportsAfter (s.lineEntry l .noAnswer [] :: s.traceEntries l .ringing .idle
        ++ if (s.line l).blockPending then s.lineEntry l .blocked [] :: s.traceEntries l .idle .blocked else []) := by
  have htold := countRingCycle_ended hl hr hsense h0 hlim
  have hrecord := (countRingCycle_unanswered hl hr hsense h0 hlim).1
  have hqueue : (countRingCycle l s).ringUnit.queue = [] := (countRingCycle_move l s).2.queue.trans hempty
  have hwait : countWait l (countRingCycle l s) = countRingCycle l s :=
    countWait_of_not_queued (by rw [hqueue]; exact List.not_mem_nil)
  have hout : ∀ x : LineState, x.isRing = true → ((countRingCycle l s).line l).state ≠ x := fun x hx h => by
    rw [hrecord.fields.1, (unanswered_state _).1] at h
    subst h
    split at hx <;> cases hx
  rw [ringUnitWork_one hst hothers (fun m hm => by rw [hempty] at hm; cases hm) hwait (hout .ringArmed rfl)
    (fun h => absurd h (hout .ringing rfl)) (attemptPlacement_of_empty hqueue)]
  exact htold.reports.trans (reportsAfter_congr (s := s) (t := s.setRing l r.rungOn) rfl _)

end Ringing

/-! ### A queued line -/

section Queued
variable (hst : s.station.state = .active) (hl : (s.line l).state = .ringQueued) (hr : (s.line l).ring = some r)
  (hsense : (s.line l).timing.sense ≠ .mk) (hq : l ∈ s.ringUnit.queue)
include hr hq

theorem countWait_told : SameButResync { s.line l with ring := some r.waitedOn } ((countWait l s).line l)
    ∧ (countWait l s).reports = s.reportsAfter (if r.waits = 3 then [s.lineEntry l .ringDelayed []] else []) := by
  have hline := line_setRing_self s l r.waitedOn
  rw [countWait_of_queued hr hq]
  split
  · have htold := told_queueLine l (s.setRing l r.waitedOn) .ringDelayed []
    rw [hline] at htold
    exact ⟨htold.record, htold.reports.trans (reportsAfter_congr (s := s) (t := s.setRing l r.waitedOn) rfl _)⟩
  · have hsame : SameButResync { s.line l with ring := some r.waitedOn } ((s.setRing l r.waitedOn).line l) := by
      rw [hline]
      exact .refl _
    exact ⟨hsame, rfl⟩

include hst hl hsense

theorem ringUnitWork_queued : SameButResync { s.line l with ring := some r.waitedOn } ((ringUnitWork true s).line l)
    ∨ s.ringUnit.claim = none ∧ ∃ o, SameButResync ((s.line l).claiming { r.waitedOn with offset := o })
        ((ringUnitWork true s).line l) := by
  obtain ⟨u, hu, hv⟩ := countCycles_at l s
  obtain ⟨hstate, -, -, -, -, -, hring, -⟩ := hu.line.fields
  have hcycle : countRingCycle l u = u :=
    countRingCycle_of_not_ringing (.inl (by rw [hstate, hl]; exact nofun))
  rw [hcycle] at hv
  have hwaited := (countWait_told (s := u) (hring.trans hr) (by rw [hu.unit.queue]; exact hq)).1
  have hcounted := ((hu.line.withRing (some r.waitedOn)).trans hwaited).trans hv.line
  obtain ⟨hcstate, -, -, -, -, hctiming, hcring, -⟩ := hcounted.fields
  have hafter := afterCounting_queued (s := countCycles s) (l := l) (r := r.waitedOn) (hcstate.trans hl) hcring
    (by rw [hctiming]; exact hsense)
  rw [ringUnitWork_of_active hst, if_pos rfl]
  rcases hafter with hstill | ⟨hclaim, o, hplaced⟩
  · exact .inl (hcounted.trans hstill)
  · refine .inr ⟨by rw [← (unitGrows_countCycles s).claim]; exact hclaim, o, ?_⟩
    have hclaiming : SameButResync ((s.line l).claiming { r.waitedOn with offset := o })
        (((countCycles s).line l).claiming { r.waitedOn with offset := o }) :=
      hcounted.claiming { r.waitedOn with offset := o }
    exact hclaiming.trans hplaced

omit hsense in
theorem ringUnitWork_queued_alone (hothers : ∀ m, m ≠ l → (s.line m).state.isRing = false) (hqueue : s.ringUnit.queue = [l])
    (hbusy : s.ringUnit.claim ≠ none ∨ s.ringUnit.releases ≠ []) : ((ringUnitWork true s).line l).state = .ringQueued
      ∧ (ringUnitWork true s).reports
        = s.reportsAfter (if r.waits = 3 then [s.lineEntry l .ringDelayed []] else []) := by
  obtain ⟨hrecord, hreports⟩ := countWait_told hr hq
  have hstate : ((countWait l s).line l).state = .ringQueued := hrecord.fields.1.trans hl
  have hcycle : countRingCycle l s = s := countRingCycle_of_not_ringing (.inl (by rw [hl]; exact nofun))
  have hattempt : attemptPlacement (countWait l s) = countWait l s := by
    refine attemptPlacement_of_not (Bool.eq_false_iff.2 fun hmay => ?_)
    obtain ⟨-, hclaim, hreleases⟩ := mayAttempt_iff.1 hmay
    rw [(countWait_move l s).2] at hclaim hreleases
    exact hbusy.elim (fun h => h hclaim) (fun h => h hreleases)
  have hwork : ringUnitWork true s = countWait l s := by
    refine ringUnitWork_one hst hothers (fun m hm => ?_) (by rw [hcycle]) (by rw [hstate]; exact nofun) (fun h => ?_) hattempt
    · rw [hqueue] at hm
      exact List.mem_singleton.1 hm
    · rw [hstate] at h
      cases h
  rw [hwork]
  exact ⟨hstate, hreports⟩

end Queued

/-- Settles O47: what the work at the cycle start does to a ringing line, and to a queued one. -/
theorem cycleStartCounts : Obligations.CycleStartCounts := by
  unfold Obligations.CycleStartCounts
  intro s t i hrun hactive hw hi hbus he
  have hexec := exec_cycle hrun hw hi
  have hspec := cycleBegun_spec (decide (i = .cycleStart)) (s.markTaken i)
  generalize markSummaryDue ((s.markTaken i).cycleBegun (decide (i = .cycleStart))) = u at hexec hspec
  have hwork := lineWork_ringUnitWork true u
  have hrx : (ringUnitWork true u).recomposeAll.bus.rx = s.bus.rx := by
    rw [State.recomposeAll_bus, hwork, hspec.eq]
    rfl
  rw [sendIfIdle_of_not_idle (by rw [hrx]; exact hbus), he] at hexec
  obtain rfl := Host.Outcome.next.inj hexec
  have hst : u.station.state = .active := by
    rw [hspec.eq]
    show (if s.cadence.listen then StationState.active else s.station.state) = .active
    rcases hactive with h | h
    · rw [h, ite_self]
    · rw [h, if_pos rfl]
  have hunit : u.ringUnit = s.ringUnit := by rw [hspec.eq]; rfl
  have hfields : ∀ m, (u.line m).state = (s.line m).state ∧ (u.line m).timing = (s.line m).timing
      ∧ (u.line m).ring = (s.line m).ring ∧ (u.line m).blockPending = (s.line m).blockPending
      ∧ (u.line m).watch = (s.line m).watch := fun m => by
    obtain ⟨hstate, -, hwatch, hblock, -, htiming, hring, -⟩ := (hspec.lines m).fields
    exact ⟨hstate, htiming, hring, hblock, hwatch⟩
  have hown : u.own = s.own := by rw [hspec.eq]; rfl
  have hreports : u.reports = s.reportsAfter s.peerLostEntries :=
    hspec.reports.trans (reportsAfter_congr (s := s) (t := s.markTaken i) rfl _)
  have hentry : ∀ l code v, u.lineEntry l code v = s.lineEntry l code v := fun l code v => by
    rw [State.lineEntry, hown]
    rfl
  have htrace : ∀ l a b, u.traceEntries l a b = s.traceEntries l a b := fun l a b =>
    traceEntries_congr l a b (hfields l).2.2.2.2 hown
  have hothers : ∀ l, (∀ m, m ≠ l → (s.line m).state.isRing = false) → ∀ m, m ≠ l → (u.line m).state.isRing = false :=
    fun l h m hm => by rw [(hfields m).1]; exact h m hm
  refine ⟨fun l r hl hr hsense hq => ?_, fun l r hl hr hsense hq => ?_⟩
  · obtain ⟨hstate, htiming, hring, hblock, -⟩ := hfields l
    have hl' := hstate.trans hl
    have hr' := hring.trans hr
    have hsense' : (u.line l).timing.sense ≠ .mk := by rw [htiming]; exact hsense
    have hq' : l ∉ u.ringUnit.queue := by rw [hunit]; exact hq
    rw [State.line_recomposeAll]
    refine ⟨fun hbelow => ?_, fun h0 hlim => ?_⟩
    · have hrung := ringUnitWork_ringing hst hl' hr' hsense' hq' hbelow
      obtain ⟨hrstate, -, -, -, -, -, hrring, -⟩ := hrung.fields
      refine ⟨hrstate.trans hl', hrring, fun halone hempty => ?_⟩
      rw [ringUnitWork_ringing_alone hst hl' hr' hsense' hbelow (hothers l halone) (by rw [hunit]; exact hempty)]
      exact hreports
    · obtain ⟨hrecord, hrelease⟩ := ringUnitWork_unanswered hst hl' hr' hsense' hq' h0 hlim
      obtain ⟨hustate, huring⟩ := unanswered_state (u.line l)
      obtain ⟨hrstate, -, -, -, -, -, hrring, -⟩ := hrecord.fields
      rw [hblock] at hustate
      refine ⟨hrstate.trans hustate, hrring.trans huring, hrelease, fun halone hempty => ?_⟩
      have hended := ringUnitWork_unanswered_alone hst hl' hr' hsense' h0 hlim (hothers l halone) (by rw [hunit]; exact hempty)
      rw [hentry, hentry, htrace, htrace, hblock] at hended
      refine hended.trans ((reportsAfter_then s _ _ hreports).trans ?_)
      rw [List.append_assoc]
  · obtain ⟨hstate, htiming, hring, -, -⟩ := hfields l
    have hl' := hstate.trans hl
    have hr' := hring.trans hr
    have hsense' : (u.line l).timing.sense ≠ .mk := by rw [htiming]; exact hsense
    have hq' : l ∈ u.ringUnit.queue := by rw [hunit]; exact hq
    rw [State.line_recomposeAll]
    refine ⟨?_, fun halone hqueue hbusy => ?_⟩
    · rcases ringUnitWork_queued hst hl' hr' hsense' hq' with hstill | ⟨hclaim, o, hplaced⟩
      · obtain ⟨hrstate, -, -, -, -, -, hrring, -⟩ := hstill.fields
        exact .inl ⟨hrstate.trans hl', hrring⟩
      · obtain ⟨hrstate, -, -, -, -, -, hrring, -⟩ := hplaced.fields
        exact .inr ⟨hrstate, by rw [← hunit]; exact hclaim, o, hrring⟩
    · obtain ⟨hqstate, hqreports⟩ := ringUnitWork_queued_alone hst hl' hr' hq' (hothers l halone)
        (by rw [hunit]; exact hqueue) (by rw [hunit]; exact hbusy)
      rw [hentry] at hqreports
      exact ⟨hqstate, hqreports.trans (reportsAfter_then s _ _ hreports)⟩

end Sys2Proof.Machine
end

section
/-! PROOFS. The events still due when a tick comes: each stage of the work where nothing is due for it, and the whole work
where one event alone is (R21; log 2, log 16). -/

namespace Sys2Proof.Machine

variable {l : Line} {c : CircuitNo} {s t : State}

/-! ### Work in stages -/

/-- Stages that each leave a state leave it one after another. -/
theorem foldl_stages_fixed {α : Type} {fs : List (α → α)} {a : α} (h : ∀ g ∈ fs, g a = a) :
    fs.foldl (fun x g => g x) a = a :=
  List.foldlRecOn (motive := fun x => x = a) fs _ rfl fun _ hx g hg => (congrArg g hx).trans (h g hg)

/-- The one stage that acts, among stages that leave what it finds or what it makes. -/
theorem foldl_stages_at {α : Type} {fs : List (α → α)} {a b : α} (k : Fin fs.length)
    (hpre : (fs.take k).Forall fun g => g a = a) (hact : fs[k] a = b) (hkeep : fs.Forall fun g => g b = b) :
    fs.foldl (fun x g => g x) a = b := by
  rw [List.forall_iff_forall_mem] at hpre hkeep
  calc fs.foldl (fun x g => g x) a
    _ = (fs.take k ++ fs[k] :: fs.drop (k + 1)).foldl (fun x g => g x) a := by
      rw [Fin.getElem_fin, List.cons_getElem_drop_succ, List.take_append_drop]
    _ = (fs.drop (k + 1)).foldl (fun x g => g x) b := by
      rw [List.foldl_append, foldl_stages_fixed hpre, List.foldl_cons, hact]
    _ = b := foldl_stages_fixed fun g hg => hkeep g (List.mem_of_mem_drop hg)

/-- A pass over some indices of which one acts. -/
theorem foldl_one {ι α : Type} {act : ι → α → α} {i : ι} {a b : α} (hother : ∀ j, j ≠ i → act j a = a) (hact : act i a = b)
    (hkeep : ∀ j, act j b = b) {js : List ι} (hi : i ∈ js) : js.foldl (fun x j => act j x) a = b := by
  induction js with
  | nil => cases hi
  | cons j js ih =>
    rw [List.foldl_cons]
    by_cases hj : j = i
    · rw [hj, hact]
      exact List.foldl_fixed' hkeep js
    · rw [hother j hj]
      exact ih (List.mem_of_ne_of_mem (Ne.symm hj) hi)

/-! ### The stages -/

/-- The thresholds still due of every line. -/
@[irreducible] def settleLines (s : State) : State := (List.finRange 16).foldl (fun s l => whenRunning (handDue l) s) s

/-- The events still due of every circuit. -/
@[irreducible] def settleCircuits (s : State) : State := (List.finRange 18).foldl (fun s c => settleCircuit c s) s

/-- The stages of a circuit, in their order. -/
def circuitStages (c : CircuitNo) : List (State → State) :=
  [takeOnHookEdge c, takeOffHookEdge c, takeSettleNotice c, takeFaultAsserted c, takeFaultNormal c]

/-- The stages of all that is still due when a tick comes, in their order (log 16). -/
def dueStages : List (State → State) :=
  [settleLines, settleCircuits, takeReducedChange, takeOnPortion, takePhaseBoundary, takeCycleEnd, takeMark,
    takeWarningNegated, takeWarning, takeRestart CircuitWordErrors.none]

theorem settleCircuit_eq (c : CircuitNo) (s : State) :
    settleCircuit c s = (circuitStages c).foldl (fun u g => g u) s := rfl

theorem settleDue_eq (s : State) : settleDue s = dueStages.foldl (fun u g => g u) s := by
  unfold settleDue dueStages
  simp only [List.foldl_cons, List.foldl_nil]
  unfold settleLines settleCircuits
  rfl

/-! ### A stage with nothing due -/

theorem settleLines_of_quiet (h : ∀ l, s.QuietLine l) : settleLines s = s := by
  unfold settleLines
  exact foldl_lines_id fun l => by rw [whenRunning, handDue_of_quiet (h l), ite_self]

theorem takeOnHookEdge_of_not_due (h : (s.circuit c).hook ≠ ⟨.settled .offHook, 3⟩) : takeOnHookEdge c s = s := by
  refine if_neg fun hdue => h ?_
  rw [Circuit.edgeDue, Bool.and_eq_true, decide_eq_true_eq, decide_eq_true_eq] at hdue
  exact congrArg₂ HookFilter.mk hdue.1 hdue.2

theorem takeOffHookEdge_of_not_due (h : (s.circuit c).hook ≠ ⟨.settled .onHook, 3⟩) : takeOffHookEdge c s = s := by
  refine if_neg fun hdue => h ?_
  rw [Circuit.edgeDue, Bool.and_eq_true, decide_eq_true_eq, decide_eq_true_eq] at hdue
  exact congrArg₂ HookFilter.mk hdue.1 hdue.2

theorem takeSettleNotice_of_not_due (h : ∀ k, (s.circuit c).hook ≠ ⟨.unsettled k, 3⟩) : takeSettleNotice c s = s := by
  unfold takeSettleNotice
  split
  · rename_i k hk
    exact if_neg fun hrun => h k (congrArg₂ HookFilter.mk hk hrun)
  · rfl

theorem changeDue_of_ne {f : InputFilter} {b : Bool} (h : f ≠ ⟨b, 3⟩) : f.changeDue b = false := by
  refine Bool.eq_false_iff.2 fun hdue => h ?_
  rw [InputFilter.changeDue, Bool.and_eq_true, decide_eq_true_eq, decide_eq_true_eq] at hdue
  exact congrArg₂ InputFilter.mk hdue.1 hdue.2

theorem takeFaultAsserted_of_not_due (h : (s.circuit c).fault ≠ ⟨false, 3⟩) : takeFaultAsserted c s = s :=
  if_neg (by rw [changeDue_of_ne h]; exact Bool.false_ne_true)

theorem takeFaultNormal_of_not_due (h : (s.circuit c).fault ≠ ⟨true, 3⟩) : takeFaultNormal c s = s :=
  if_neg (by rw [changeDue_of_ne h]; exact Bool.false_ne_true)

/-- A filter whose run is short of 3 has no change due. -/
theorem InputFilter.ne_of_run {f : InputFilter} (h : f.run < 3) (b : Bool) : f ≠ ⟨b, 3⟩ := by
  rintro rfl
  exact absurd h (lt_irrefl 3)

theorem HookFilter.ne_of_run {f : HookFilter} (h : f.run < 3) (k : HookState) : f ≠ ⟨k, 3⟩ := by
  rintro rfl
  exact absurd h (lt_irrefl 3)

/-- No stage of a circuit acts while both its filters are short of 3. -/
theorem circuitStages_of_quiet (h : (s.circuit c).hook.run < 3 ∧ (s.circuit c).fault.run < 3) :
    (circuitStages c).Forall fun g => g s = s := by
  obtain ⟨hhook, hfault⟩ := h
  exact ⟨takeOnHookEdge_of_not_due (HookFilter.ne_of_run hhook _), takeOffHookEdge_of_not_due (HookFilter.ne_of_run hhook _),
    takeSettleNotice_of_not_due fun _ => HookFilter.ne_of_run hhook _,
    takeFaultAsserted_of_not_due (InputFilter.ne_of_run hfault _), takeFaultNormal_of_not_due (InputFilter.ne_of_run hfault _)⟩

theorem settleCircuit_of_quiet (h : (s.circuit c).hook.run < 3 ∧ (s.circuit c).fault.run < 3) : settleCircuit c s = s :=
  foldl_stages_fixed (List.forall_iff_forall_mem.1 (circuitStages_of_quiet h))

theorem settleCircuits_of_quiet (h : ∀ c, (s.circuit c).hook.run < 3 ∧ (s.circuit c).fault.run < 3) : settleCircuits s = s := by
  unfold settleCircuits
  exact List.foldl_fixed' (fun c => settleCircuit_of_quiet (h c)) _

theorem takeReducedChange_of_not_due (h : s.table.reduced.run < 3) : takeReducedChange s = s := if_neg (Nat.ne_of_lt h)

/-- The outputs of R2 are determined. -/
theorem outputsOf_unique {a b d e a' b' d' e' : Bool} (h : s.OutputsOf c a b d e) (h' : s.OutputsOf c a' b' d' e') :
    a = a' ∧ b = b' ∧ d = d' ∧ e = e' := by
  unfold State.OutputsOf at h h'
  split at h
  · simp_all
  · cases ho : s.owner c with
    | none => simp_all
    | some l => by_cases hl : (s.line l).state = .blocked ∨ (s.line l).state = .fault <;> simp_all

/-- A circuit composed already composes to itself. -/
theorem composed_of_outputsAt (h : s.OutputsAt c) : s.composed c = s.circuit c := by
  obtain ⟨r, a, b, k, hcomposed, -⟩ := composed_setHook s c (s.circuit c).hook c
  have hout := outputsOf_composed s c
  rw [hcomposed] at hout ⊢
  obtain ⟨rfl, rfl, rfl, rfl⟩ := outputsOf_unique hout h
  simp [Circuit.withOutputs]

theorem recomposeAll_of_outputsOk (h : s.OutputsOk) : s.recomposeAll = s := by
  have hcircuits : s.recomposeAll.circuits = s.circuits :=
    State.circuits_ext fun c => (State.circuit_recomposeAll s c).trans (composed_of_outputsAt (h c))
  exact congrArg (fun x => { s with circuits := x }) hcircuits

theorem takeOnPortion_of_composed (h : onPortionTick s.cadence.tick = true → s.station.state = .active → s.OutputsOk) :
    takeOnPortion s = s := by
  unfold takeOnPortion
  split
  · rename_i hdue
    rw [Bool.and_eq_true, decide_eq_true_eq] at hdue
    exact recomposeAll_of_outputsOk (h hdue.2 hdue.1)
  · rfl

theorem phaseEnded_of_early (h : s.cadence.tick < 150) : s.phaseEnded = false := by
  rw [State.phaseEnded, decide_eq_false (Nat.not_le.2 h), Bool.and_false]

theorem takePhaseBoundary_of_early (h : s.cadence.tick < 150) : takePhaseBoundary s = s :=
  if_neg (by rw [phaseEnded_of_early h, Bool.false_and]; exact Bool.false_ne_true)

theorem takePhaseBoundary_of_last (h : s.cadence.phase = 7) : takePhaseBoundary s = s :=
  if_neg (by simp [h])

theorem takeCycleEnd_of_early (h : s.cadence.tick < 150) : takeCycleEnd s = s :=
  if_neg (by rw [phaseEnded_of_early h, Bool.false_and]; exact Bool.false_ne_true)

theorem takeMark_of_none (h : s.cadence.markSeen = false) : takeMark s = s :=
  if_neg (by rw [h, Bool.and_false]; exact Bool.false_ne_true)

theorem takeWarningNegated_of_not_due (h : s.control.warning ≠ ⟨true, 3⟩) : takeWarningNegated s = s :=
  if_neg (by rw [changeDue_of_ne h]; exact Bool.false_ne_true)

theorem takeWarning_of_not_due (h : s.control.warning ≠ ⟨false, 3⟩)
    (hheeded : s.control.warning.asserted = true → s.station.state.heedsWarning = false) : takeWarning s = s := by
  rw [takeWarning, if_neg (by rw [changeDue_of_ne h]; exact Bool.false_ne_true)]
  refine if_neg fun hheeds => ?_
  rw [Bool.and_eq_true] at hheeds
  rw [hheeded hheeds.1] at hheeds
  exact Bool.false_ne_true hheeds.2

theorem takeRestart_of_not_due (h : s.restartDue = false) (e : CircuitWordErrors) : takeRestart e s = s :=
  if_neg (by rw [h]; exact Bool.false_ne_true)

/-- No stage acts where nothing is due. -/
theorem State.Quiet.stages (h : s.Quiet) : dueStages.Forall fun g => g s = s :=
  ⟨settleLines_of_quiet h.lines, settleCircuits_of_quiet h.filters, takeReducedChange_of_not_due h.reduced,
    takeOnPortion_of_composed h.onPortion, takePhaseBoundary_of_early h.phase, takeCycleEnd_of_early h.phase,
    takeMark_of_none h.mark, takeWarningNegated_of_not_due (InputFilter.ne_of_run h.warning _),
    takeWarning_of_not_due (InputFilter.ne_of_run h.warning _) h.heeded, takeRestart_of_not_due h.restart _⟩

theorem settleDue_of_quiet (h : s.Quiet) : settleDue s = s :=
  (settleDue_eq s).trans (foldl_stages_fixed (List.forall_iff_forall_mem.1 h.stages))

/-- The stages where one of them is due, the stages before it idle, and nothing due behind it. -/
theorem settleDue_of_stage (k : Fin 10) (hpre : (dueStages.take k).Forall fun g => g s = s) (hact : dueStages[k] s = t)
    (ht : t.Quiet) : settleDue s = t :=
  (settleDue_eq s).trans (foldl_stages_at (fs := dueStages) k hpre hact ht.stages)

/-! ### What a row answers where the bus is not idle -/

theorem taken_of_exec {u : State} (hbus : s.bus.rx.state ≠ .idle) (hrx : u.bus.rx = s.bus.rx)
    (he : (.next u.sendIfIdle : Host.Outcome State Fault Refusal) = .next t) : u = t := by
  rw [sendIfIdle_of_not_idle (by rw [hrx]; exact hbus)] at he
  exact Host.Outcome.next.inj he

theorem forOwner_bus {act : Line → State → State} (ha : ∀ l u, LinePath l u (act l u)) : (forOwner c act s).bus = s.bus := by
  cases ho : s.owner c with
  | none => rw [forOwner_of_none (.inl ho)]
  | some l => exact (kept_forOwner ho ha).bus

theorem heedWarning_rx (s : State) : (heedWarning s).bus.rx = s.bus.rx := by
  unfold heedWarning
  split
  · rw [goDown_bus]
  · rfl

theorem takeWarning_rx (s : State) : (takeWarning s).bus.rx = s.bus.rx := by
  rw [takeWarning, heedWarning_rx]
  split <;> rfl

theorem takePhaseBoundary_rx (s : State) : (takePhaseBoundary s).bus.rx = s.bus.rx := by
  unfold takePhaseBoundary
  split
  · show ((ringUnitWork false s.phaseBegun).recomposeAll).bus.rx = _
    rw [State.recomposeAll_bus, lineWork_ringUnitWork false s.phaseBegun, phaseBegun_eq]
  · rfl

theorem beginCycle_rx (drive : Bool) (s : State) : (beginCycle drive s).bus.rx = s.bus.rx := by
  have hbegin : beginCycle drive s
      = heedWarning (ringUnitWork true (markSummaryDue (s.cycleBegun drive))).recomposeAll := rfl
  rw [hbegin, heedWarning_rx, State.recomposeAll_bus, lineWork_ringUnitWork true, (cycleBegun_spec drive s).eq]

theorem takeCycleEnd_rx (s : State) : (takeCycleEnd s).bus.rx = s.bus.rx := by
  unfold takeCycleEnd
  split
  · exact beginCycle_rx true s
  · rfl

theorem takeMark_rx (s : State) : (takeMark s).bus.rx = s.bus.rx := by
  unfold takeMark
  split
  · dsimp only
    split
    · exact beginCycle_rx false _
    · rfl
  · rfl

end Sys2Proof.Machine
end

section
/-! PROOFS. A tick takes the one event still due as its row does (R21; log 2, log 16). -/

namespace Sys2Proof.Machine

variable {l : Line} {c : CircuitNo} {s t : State}

/-! ### The thresholds -/

/-- What is due of a line depends on its record and the profile. -/
theorem quietLine_congr (hl : t.line l = s.line l) (hp : t.profile = s.profile) : t.QuietLine l ↔ s.QuietLine l := by
  simp only [State.QuietLine, State.clearDue, State.tripDue, State.digitEndDue, State.digitTimed, State.interdigitDue,
    State.dialToneDue, State.recallDue, State.timerReached, State.seizeHeld, hl, hp]

theorem settleLines_of_one (hother : ∀ m, m ≠ l → s.QuietLine m) (hact : whenRunning (handDue l) s = t)
    (ht : ∀ m, t.QuietLine m) : settleLines s = t := by
  unfold settleLines
  refine foldl_one (act := fun l u => whenRunning (handDue l) u) (i := l) (fun m hm => ?_) hact (fun m => ?_) (List.mem_finRange l)
  · show whenRunning (handDue m) s = s
    rw [whenRunning, handDue_of_quiet (hother m hm), ite_self]
  · show whenRunning (handDue m) t = t
    rw [whenRunning, handDue_of_quiet (ht m), ite_self]

theorem settleDue_of_threshold {r : Instr} (hbus : s.bus.rx.state ≠ .idle) (h : s.ThresholdDue l r)
    (he : exec r s = .next t) (ht : t.Quiet) : settleDue s = t := by
  obtain ⟨hrun, hlone, hq⟩ := h
  have hother : ∀ m, m ≠ l → s.QuietLine m := fun m hm =>
    (quietLine_congr (t := s.setLine l (LineRecord.fresh (s.line l).circuit)) (State.line_setLine_ne s hm _) rfl).1 (hq.lines m)
  have hact : whenRunning (handDue l) s = t :=
    (whenRunning_of_running hrun _).trans (handDue_of_lone hrun hbus hlone he (ht.lines l))
  exact settleDue_of_stage 0 trivial (settleLines_of_one hother hact ht.lines) ht

/-! ### The filters of a circuit -/

theorem settleCircuits_of_one (hother : ∀ d, d ≠ c → (s.circuit d).hook.run < 3 ∧ (s.circuit d).fault.run < 3)
    (hact : settleCircuit c s = t) (ht : ∀ d, (t.circuit d).hook.run < 3 ∧ (t.circuit d).fault.run < 3) :
    settleCircuits s = t := by
  unfold settleCircuits
  exact foldl_one (act := fun d u => settleCircuit d u) (i := c) (fun d hd => settleCircuit_of_quiet (hother d hd)) hact (fun d => settleCircuit_of_quiet (ht d))
    (List.mem_finRange c)

/-- The one circuit with an event due, and its one stage. -/
theorem settleDue_of_circuit (k : Fin 5) (hlines : ∀ l, s.QuietLine l)
    (hothers : ∀ d, d ≠ c → (s.circuit d).hook.run < 3 ∧ (s.circuit d).fault.run < 3)
    (hpre : ((circuitStages c).take k).Forall fun g => g s = s) (hact : (circuitStages c)[k] s = t) (ht : t.Quiet) :
    settleDue s = t := by
  have hcircuit : settleCircuit c s = t :=
    (settleCircuit_eq c s).trans (foldl_stages_at (fs := circuitStages c) k hpre hact (circuitStages_of_quiet (ht.filters c)))
  exact settleDue_of_stage 1 (settleLines_of_quiet hlines) (settleCircuits_of_one hothers hcircuit ht.filters) ht

/-- What a circuit's hook event leaves quiet in the other circuits and in its own fault filter. -/
theorem filters_of_setHook {f : HookFilter} (h : (s.setHook c f).Quiet) :
    (∀ d, d ≠ c → (s.circuit d).hook.run < 3 ∧ (s.circuit d).fault.run < 3) ∧ (s.circuit c).fault.run < 3 := by
  refine ⟨fun d hd => ?_, ?_⟩
  · have hfilters := h.filters d
    rwa [circuit_setHook, if_neg hd] at hfilters
  · have hfilters := (h.filters c).2
    rwa [circuit_setHook] at hfilters

theorem filters_of_setFault {f : InputFilter} {b : Bool} (h : (s.setFault c f b).Quiet) :
    (∀ d, d ≠ c → (s.circuit d).hook.run < 3 ∧ (s.circuit d).fault.run < 3) ∧ (s.circuit c).hook.run < 3 := by
  refine ⟨fun d hd => ?_, ?_⟩
  · have hfilters := h.filters d
    rwa [State.setFault, State.circuit_setCircuit_ne s hd] at hfilters
  · have hfilters := (h.filters c).1
    rwa [State.setFault, State.circuit_setCircuit_self] at hfilters

theorem settleDue_of_onHookEdge (hbus : s.bus.rx.state ≠ .idle) (h : s.OnlyDue (.onHookEdge c))
    (he : exec (.onHookEdge c) s = .next t) (ht : t.Quiet) : settleDue s = t := by
  obtain ⟨hhook, hq⟩ := h
  obtain ⟨hothers, -⟩ := filters_of_setHook hq
  have hkept : (takeOnHookEdge c s).bus = s.bus := by
    rw [takeOnHookEdge_eq hhook]
    exact forOwner_bus fun m u => (linePath_handDue m u).trans (linePath_takeOnHook ..)
  exact settleDue_of_circuit 0 hq.lines hothers trivial (taken_of_exec hbus (congrArg BusInterface.rx hkept) he) ht

theorem settleDue_of_offHookEdge (hbus : s.bus.rx.state ≠ .idle) (h : s.OnlyDue (.offHookEdge c))
    (he : exec (.offHookEdge c) s = .next t) (ht : t.Quiet) : settleDue s = t := by
  obtain ⟨hhook, hq⟩ := h
  obtain ⟨hothers, -⟩ := filters_of_setHook hq
  have hon : takeOnHookEdge c s = s := takeOnHookEdge_of_not_due (by rw [hhook]; decide)
  have hkept : (takeOffHookEdge c s).bus = s.bus := by
    rw [takeOffHookEdge_eq hhook]
    exact forOwner_bus fun m u => (linePath_handDue m u).trans (linePath_takeOffHook ..)
  exact settleDue_of_circuit 1 hq.lines hothers hon (taken_of_exec hbus (congrArg BusInterface.rx hkept) he) ht

/-- An UNSETTLED filter with a run of 3, which presents nothing (R7, R8). -/
theorem hook_of_unsettled {x : Circuit} (hrun : x.hook.run = 3) (hnone : x.presented = none) :
    ∃ k, x.hook = ⟨.unsettled k, 3⟩ := by
  unfold Circuit.presented at hnone
  split at hnone
  · cases hnone
  · rename_i k hk
    exact ⟨k, congrArg₂ HookFilter.mk hk hrun⟩

theorem settleDue_of_settle (hbus : s.bus.rx.state ≠ .idle) (h : s.OnlyDue (.settle c))
    (he : exec (.settle c) s = .next t) (ht : t.Quiet) : settleDue s = t := by
  obtain ⟨hrun, hnone, hq⟩ := h
  obtain ⟨hothers, -⟩ := filters_of_setHook hq
  obtain ⟨k, hhook⟩ := hook_of_unsettled hrun hnone
  have hon : takeOnHookEdge c s = s := takeOnHookEdge_of_not_due (by rw [hhook]; exact nofun)
  have hoff : takeOffHookEdge c s = s := takeOffHookEdge_of_not_due (by rw [hhook]; exact nofun)
  have hkept : (takeSettleNotice c s).bus = s.bus := by
    rw [takeSettleNotice_eq hhook]
    exact forOwner_bus fun m u => (linePath_handDue m u).trans (linePath_takeSettle ..)
  exact settleDue_of_circuit 2 hq.lines hothers ⟨hon, hoff⟩ (taken_of_exec hbus (congrArg BusInterface.rx hkept) he) ht

/-- No hook stage of a circuit acts while its hook filter is short of 3. -/
theorem hookStages_of_quiet (h : (s.circuit c).hook.run < 3) :
    takeOnHookEdge c s = s ∧ takeOffHookEdge c s = s ∧ takeSettleNotice c s = s :=
  ⟨takeOnHookEdge_of_not_due (HookFilter.ne_of_run h _), takeOffHookEdge_of_not_due (HookFilter.ne_of_run h _),
    takeSettleNotice_of_not_due fun _ => HookFilter.ne_of_run h _⟩

theorem settleDue_of_faultAssertedEdge (hbus : s.bus.rx.state ≠ .idle) (h : s.OnlyDue (.faultAssertedEdge c))
    (he : exec (.faultAssertedEdge c) s = .next t) (ht : t.Quiet) : settleDue s = t := by
  obtain ⟨hfault, hq⟩ := h
  obtain ⟨hothers, hhook⟩ := filters_of_setFault hq
  have hkept : (takeFaultAsserted c s).bus = s.bus := by
    rw [takeFaultAsserted_eq hfault]
    exact forOwner_bus fun m u => linePath_enterFault m u 0
  exact settleDue_of_circuit 3 hq.lines hothers (hookStages_of_quiet hhook) (taken_of_exec hbus (congrArg BusInterface.rx hkept) he) ht

theorem settleDue_of_faultNormalEdge (h : s.OnlyDue (.faultNormalEdge c))
    (he : exec (.faultNormalEdge c) s = .next t) (ht : t.Quiet) : settleDue s = t := by
  obtain ⟨hfault, hq⟩ := h
  obtain ⟨hothers, hhook⟩ := filters_of_setFault hq
  obtain ⟨hon, hoff, hsettle⟩ := hookStages_of_quiet hhook
  have hasserted : takeFaultAsserted c s = s := takeFaultAsserted_of_not_due (by rw [hfault]; decide)
  exact settleDue_of_circuit 4 hq.lines hothers ⟨hon, hoff, hsettle, hasserted⟩ (Host.Outcome.next.inj he) ht

/-! ### The cadence and the supply -/

theorem settleDue_of_reducedRingPowerChange (h : s.OnlyDue .reducedRingPowerChange)
    (he : exec .reducedRingPowerChange s = .next t) (ht : t.Quiet) : settleDue s = t := by
  obtain ⟨-, hq⟩ := h
  exact settleDue_of_stage 2 ⟨settleLines_of_quiet (s := s) hq.lines, settleCircuits_of_quiet (s := s) hq.filters⟩
    (Host.Outcome.next.inj he) ht

theorem settleDue_of_onPortionBoundary (h : s.OnlyDue .onPortionBoundary)
    (he : exec .onPortionBoundary s = .next t) (ht : t.Quiet) : settleDue s = t := by
  obtain ⟨-, -, hq⟩ := h
  exact settleDue_of_stage 3 ⟨settleLines_of_quiet (s := s) hq.lines, settleCircuits_of_quiet (s := s) hq.filters,
    takeReducedChange_of_not_due hq.reduced⟩ (Host.Outcome.next.inj he) ht

/-- A phase that has ended stands at no on-portion boundary (R70, R80). -/
theorem onPortionTick_of_ended {n : Nat} (h : 150 ≤ n) : onPortionTick n = false := by
  rw [onPortionTick, decide_eq_false (by omega), decide_eq_false (by omega), decide_eq_false (by omega)]
  rfl

theorem takeOnPortion_of_ended (h : 150 ≤ s.cadence.tick) : takeOnPortion s = s :=
  takeOnPortion_of_composed fun hdue => by
    rw [onPortionTick_of_ended h] at hdue
    exact absurd hdue Bool.false_ne_true

theorem settleDue_of_phaseBoundary (hbus : s.bus.rx.state ≠ .idle) (h : s.OnlyDue .phaseBoundary)
    (he : exec .phaseBoundary s = .next t) (ht : t.Quiet) : settleDue s = t := by
  obtain ⟨-, htick, -, hq⟩ := h
  exact settleDue_of_stage 4 ⟨settleLines_of_quiet (s := s) hq.lines, settleCircuits_of_quiet (s := s) hq.filters,
    takeReducedChange_of_not_due (s := s) hq.reduced, takeOnPortion_of_ended htick⟩
    (taken_of_exec hbus (takePhaseBoundary_rx s) he) ht

theorem settleDue_of_cycleStart (hbus : s.bus.rx.state ≠ .idle) (h : s.OnlyDue .cycleStart)
    (he : exec .cycleStart s = .next t) (ht : t.Quiet) : settleDue s = t := by
  obtain ⟨-, htick, hphase, hq⟩ := h
  exact settleDue_of_stage 5 ⟨settleLines_of_quiet (s := s) hq.lines, settleCircuits_of_quiet (s := s) hq.filters,
    takeReducedChange_of_not_due (s := s) hq.reduced, takeOnPortion_of_ended htick, takePhaseBoundary_of_last hphase⟩
    (taken_of_exec hbus (takeCycleEnd_rx s) he) ht

theorem settleDue_of_mark (hbus : s.bus.rx.state ≠ .idle) (h : s.OnlyDue .mark)
    (he : exec .mark s = .next t) (ht : t.Quiet) : settleDue s = t := by
  obtain ⟨-, -, hq⟩ := h
  exact settleDue_of_stage 6 ⟨settleLines_of_quiet (s := s) hq.lines, settleCircuits_of_quiet (s := s) hq.filters,
    takeReducedChange_of_not_due (s := s) hq.reduced, takeOnPortion_of_composed (s := s) hq.onPortion,
    takePhaseBoundary_of_early (s := s) hq.phase, takeCycleEnd_of_early (s := s) hq.phase⟩
    (taken_of_exec hbus (takeMark_rx s) he) ht

/-- The stages before the supply's, where nothing but a supply event is due: `u` is the state with that event taken off. -/
theorem stages_before_supply {u : State} (hu : u = { s with control := u.control }) (hq : u.Quiet) :
    (dueStages.take 7).Forall fun g => g s = s := by
  rw [hu] at hq
  exact ⟨settleLines_of_quiet (s := s) hq.lines, settleCircuits_of_quiet (s := s) hq.filters,
    takeReducedChange_of_not_due (s := s) hq.reduced, takeOnPortion_of_composed (s := s) hq.onPortion,
    takePhaseBoundary_of_early (s := s) hq.phase, takeCycleEnd_of_early (s := s) hq.phase, takeMark_of_none (s := s) hq.mark⟩

theorem settleDue_of_warningNegated (h : s.OnlyDue .warningNegated) (he : exec .warningNegated s = .next t)
    (ht : t.Quiet) : settleDue s = t := by
  obtain ⟨-, hq⟩ := h
  exact settleDue_of_stage 7 (stages_before_supply rfl hq) (Host.Outcome.next.inj he) ht

theorem settleDue_of_supplyWarning (hbus : s.bus.rx.state ≠ .idle) (h : s.OnlyDue .supplyWarning)
    (he : exec .supplyWarning s = .next t) (ht : t.Quiet) : settleDue s = t := by
  obtain ⟨hwarning, hq⟩ := h
  obtain ⟨hlines, hcircuits, hreduced, honPortion, hphase, hcycle, hmark⟩ := stages_before_supply (s := s) rfl hq
  have hnegated : takeWarningNegated s = s := takeWarningNegated_of_not_due (by rw [hwarning]; decide)
  exact settleDue_of_stage 8 ⟨hlines, hcircuits, hreduced, honPortion, hphase, hcycle, hmark, hnegated⟩
    (taken_of_exec hbus (takeWarning_rx s) he) ht

theorem settleDue_of_supplyRestart {e : CircuitWordErrors} (h : s.OnlyDue (.supplyRestart e))
    (he : exec (.supplyRestart e) s = .next t) (ht : t.Quiet) : settleDue s = t := by
  obtain ⟨rfl, -, hq⟩ := h
  obtain ⟨hlines, hcircuits, hreduced, honPortion, hphase, hcycle, hmark⟩ := stages_before_supply (s := s) rfl hq
  exact settleDue_of_stage 9 ⟨hlines, hcircuits, hreduced, honPortion, hphase, hcycle, hmark,
    takeWarningNegated_of_not_due (s := s) (InputFilter.ne_of_run hq.warning _),
    takeWarning_of_not_due (s := s) (InputFilter.ne_of_run hq.warning _) hq.heeded⟩ (Host.Outcome.next.inj he) ht

/-! ### The one event due -/

/-- All that is due is then taken as the one row takes it (log 2). -/
theorem settleDue_of_onlyDue {r : Instr} (hbus : s.bus.rx.state ≠ .idle) (h : s.OnlyDue r) (he : exec r s = .next t)
    (ht : t.Quiet) : settleDue s = t := by
  cases r with
  | onPortionBoundary => exact settleDue_of_onPortionBoundary h he ht
  | phaseBoundary => exact settleDue_of_phaseBoundary hbus h he ht
  | cycleStart => exact settleDue_of_cycleStart hbus h he ht
  | mark => exact settleDue_of_mark hbus h he ht
  | onHookEdge c => exact settleDue_of_onHookEdge hbus h he ht
  | offHookEdge c => exact settleDue_of_offHookEdge hbus h he ht
  | settle c => exact settleDue_of_settle hbus h he ht
  | faultAssertedEdge c => exact settleDue_of_faultAssertedEdge hbus h he ht
  | faultNormalEdge c => exact settleDue_of_faultNormalEdge h he ht
  | digitEnd l => exact settleDue_of_threshold hbus h he ht
  | interdigitTimeout l => exact settleDue_of_threshold hbus h he ht
  | clearReached l => exact settleDue_of_threshold hbus h he ht
  | seizeConfirmed l => exact settleDue_of_threshold hbus h he ht
  | tripConfirmed l => exact settleDue_of_threshold hbus h he ht
  | dialToneTimeout l => exact settleDue_of_threshold hbus h he ht
  | recallTimeout l => exact settleDue_of_threshold hbus h he ht
  | reducedRingPowerChange => exact settleDue_of_reducedRingPowerChange h he ht
  | supplyWarning => exact settleDue_of_supplyWarning hbus h he ht
  | warningNegated => exact settleDue_of_warningNegated h he ht
  | supplyRestart e => exact settleDue_of_supplyRestart h he ht
  | _ => exact h.elim

end Sys2Proof.Machine
end

section
/-! PROOFS. The tick: what one tick does to every filter, count and timer, and that a tick takes an event still due first (R3 to
R7, R20, R21, R34, R70, R72, R73, R76, R100, R106, R175, R176; log 2, log 10). -/

namespace Sys2Proof.Machine

variable {s : State}

/-! ### Samples and counts -/

theorem InputFilter.sample_eq (f : InputFilter) (v : Bool) :
    f.sample v = ⟨f.asserted, if v = f.asserted then 0 else f.run + 1⟩ := rfl

theorem sampledHook_eq (s : State) (c : CircuitNo) (closed : Bool) :
    s.sampledHook c closed = (s.circuit c).hook.sample (if closed then .offHook else .onHook) := by
  unfold State.sampledHook HookFilter.sample
  cases (s.circuit c).hook.state with
  | settled old => rfl
  | unsettled k => rfl

/-- A count that has not passed its cap rises and stops there (R21, R34). -/
theorem advanceTo_eq_min {cap n : Nat} (h : n ≤ cap) : advanceTo cap n = min (n + 1) cap := by
  unfold advanceTo
  split <;> omega

theorem Timing.advanced_edgeCount_none {t : Timing} (h : t.sense = .none) (p : Profile) (st : LineState) :
    (t.advanced p st).edgeCount = t.edgeCount := if_pos h

theorem Timing.advanced_edgeCount {t : Timing} {p : Profile} {k : Sense} (hsense : t.sense = k) (hk : k ≠ .none)
    (hcap : t.edgeCount ≤ edgeCap p k) (st : LineState) :
    (t.advanced p st).edgeCount = min (t.edgeCount + 1) (edgeCap p k) := by
  subst k
  exact (if_neg hk).trans (advanceTo_eq_min hcap)

/-! ### The blocks after a tick -/

theorem advanceTick_of_running (hrun : s.running = true) (i : Samples) :
    advanceTick i s = { advanceBlocks i s with control := { s.control with warning := s.control.warning.sample i.warning } } := by
  have hdown : decide (s.station.state = .down) = false := by
    refine decide_eq_false fun h => ?_
    rw [State.running, h] at hrun
    exact Bool.false_ne_true hrun
  rw [advanceTick, hdown, if_pos hrun]
  rfl

theorem advanceTick_of_stopped (hrun : s.running = false) (i : Samples) :
    advanceTick i s = { s with control := s.control.advanced i.warning (s.station.state = .down) } := by
  rw [advanceTick, if_neg (by rw [hrun]; exact Bool.false_ne_true)]

theorem advanceTick_circuit (hrun : s.running = true) (i : Samples) (c : CircuitNo) :
    (advanceTick i s).circuit c = (s.circuit c).scanned i c := by
  rw [advanceTick_of_running hrun]
  simp [State.circuit, advanceBlocks]

/-- The line records of a running station after a tick (R21, R34). -/
theorem advanceTick_timing (hrun : s.running = true) (i : Samples) (l : Line) : (advanceTick i s).line l
    = { s.line l with timing := (s.line l).timing.advanced s.profile (s.line l).state } := by
  rw [advanceTick_line, if_pos hrun]

/-- A restart count short of 20 in DOWN rises (R176). -/
theorem advanced_of_short {k : StationControl} {down : Bool} (h : down = true → k.restartCount < 20) (warning : Bool) :
    k.advanced warning down = { k with
      warning := ⟨k.warning.asserted, if warning = k.warning.asserted then 0 else k.warning.run + 1⟩
      restartCount := if down then (if warning then 0 else k.restartCount + 1) else k.restartCount } := by
  cases down with
  | false => rfl
  | true => rw [StationControl.advanced, advanceTo, if_pos (h rfl)]; rfl

/-! ### The obligation -/

/-- Settles O53: a tick with nothing due moves every block by one sample, and one with an event due takes it first. -/
theorem tickAdvancesTheCounts : Obligations.TickAdvancesTheCounts := by
  unfold Obligations.TickAdvancesTheCounts
  refine ⟨fun i s hrun hq => ?_, fun i s hrun hq => ?_, fun i r s t hbus hdue he hq => ?_⟩
  · have hexec : exec (.tick i) s = .next (advanceTick i s).sendIfIdle :=
      congrArg (fun u : State => Host.Outcome.next (advanceTick i u).sendIfIdle) (settleDue_of_quiet hq)
    have hline := advanceTick_timing hrun i
    have htick := advanceTick_of_running hrun i
    refine ⟨advanceTick i s, hexec, ?_, fun c => ?_, fun l => ?_, fun l hsense => ?_, fun l hsense hcap => ?_,
      fun l hsense hcap => ?_, fun l htimer => ?_, fun l n htimer hcap => ?_, ?_, ?_, ?_⟩
    · rw [htick]
      rfl
    · rw [advanceTick_circuit hrun, sampledHook_eq]
      rfl
    · rw [hline]
      rfl
    · rw [hline]
      exact Timing.advanced_edgeCount_none hsense ..
    · rw [hline]
      exact Timing.advanced_edgeCount hsense nofun hcap _
    · rw [hline]
      exact Timing.advanced_edgeCount hsense nofun hcap _
    · rw [hline]
      exact congrArg (Option.map _) htimer
    · rw [hline]
      exact (congrArg (Option.map _) htimer).trans (congrArg some (if_pos hcap))
    · rw [htick]
      rfl
    · rw [htick]
      rfl
    · rw [htick]
      rfl
  · have hshort : decide (s.station.state = .down) = true → s.control.restartCount < 20 := fun hdown => by
      have hrestart := hq.restart
      rw [State.restartDue, hdown, Bool.true_and, decide_eq_false_iff_not] at hrestart
      exact Nat.not_le.1 hrestart
    have htick : advanceTick i s = { s with control := { s.control with
        warning := ⟨s.control.warning.asserted,
          if i.warning = s.control.warning.asserted then 0 else s.control.warning.run + 1⟩
        restartCount := if s.station.state = .down then (if i.warning then 0 else s.control.restartCount + 1)
          else s.control.restartCount } } := by
      rw [advanceTick_of_stopped hrun, advanced_of_short hshort]
      simp only [decide_eq_true_eq]
    calc exec (.tick i) s
      _ = .next (advanceTick i s).sendIfIdle :=
        congrArg (fun u : State => Host.Outcome.next (advanceTick i u).sendIfIdle) (settleDue_of_quiet hq)
      _ = _ := by rw [htick]
  · have hsame : settleDue s = settleDue t := (settleDue_of_onlyDue hbus hdue he hq).trans (settleDue_of_quiet hq).symm
    exact congrArg (fun u : State => Host.Outcome.next (advanceTick i u).sendIfIdle) hsame

end Sys2Proof.Machine
end
